-- ==== Sys2Proof/Word.lean ====
section
/-!
DEFINITION. The words of the Skoluyx and the small types that the operands of its instructions are made of: register
numbers, type and mode modifiers, ordering and scope annotations, format kinds, and the control fields that every L-op
carries (spec/03_registers_and_operands.md R57 to R60, R72, R76; spec/06_encoding_and_assembly.md R132 to R144).
-/

namespace Sys2Proof

/-- A byte of memory. -/
abbrev Byte := BitVec 8
/-- A 32-bit word: one lane's v register, or one word of an instruction. -/
abbrev Word := BitVec 32
/-- A 64-bit word: a scalar register, a lane's d register. -/
abbrev DWord := BitVec 64

/-- A scalar register number, s0 to s63 (R57). -/
abbrev SReg := Fin 64
/-- A lane register number, v0 to v255 (R57). -/
abbrev VReg := Fin 256
/-- A predicate number, p0 to p7 (R57). -/
abbrev PReg := Fin 8
/-- A reservoir number, z0 to z7 (R57). -/
abbrev ZReg := Fin 8
/-- A wait counter number, w0 to w3 (R57). -/
abbrev CtrReg := Fin 4
/-- A lane number, 0 to 31 (R14). -/
abbrev Lane := Fin 32

/-- The b operand of format SR: a register, or the 10-bit field rb:lo (R133). -/
inductive SrcB where
  | reg (r : SReg)
  | imm (v : BitVec 10)
  deriving DecidableEq, Repr

/-- The conditions of SBR and SCMP (R134). -/
inductive Cond where
  | eq | ne | lt | ge | ltu | geu
  deriving DecidableEq, Repr

/-- Ordering annotations (R117). -/
inductive MemOrd where
  | rlx | acq | rel | ar
  deriving DecidableEq, Repr

/-- Scope annotations (R117, R118). -/
inductive Scope where
  | w | t | b | d | p
  deriving DecidableEq, Repr

/-- The ordering and scope of one access (R117). -/
structure Ann where
  ord : MemOrd
  scope : Scope
  deriving DecidableEq, Repr

/-- Access widths of scalar accesses: 1, 2, 4 or 8 bytes (R136). -/
inductive SSize where
  | b1 | b2 | b4 | b8
  deriving DecidableEq, Repr

/-- The operations of SATOM (R165). -/
inductive SAtomOp where
  | add | and | or | xor | min | max | minu | maxu | swap | cas | fadd
  deriving DecidableEq, Repr

/-- The hint kinds of XHNT (R139). -/
inductive HintKind where
  | nt | keep | nol1 | rc
  deriving DecidableEq, Repr

/-- Integer types of the integer range (R143). -/
inductive IntTy where
  | n32 | i32 | n64 | i64 | n16 | i16
  deriving DecidableEq, Repr

/-- Float types of the floating-point range (R143). -/
inductive FTy where
  | f64 | f32 | f16
  deriving DecidableEq, Repr

/-- Rounding modes (R88). -/
inductive Rnd where
  | rne | rtz | rup | rdn | sr
  deriving DecidableEq, Repr

/-- The sixteen formats of R79, by their format code. -/
inductive Fmt where
  | fp64 | fp32 | fr19 | bf16 | fp16 | e5m2 | e4m3 | e3m2 | e2m3 | i8 | n8 | i16 | q4i | q4f | q4p | q4h
  deriving DecidableEq, Repr

/-- The element kinds of conversions, tiles and tensors (R197): the sixteen formats and four wide integers. -/
inductive Kind where
  | fmt (f : Fmt)
  | i32 | n32 | i64 | n64
  deriving DecidableEq, Repr

/-- Operations of ILOP (R188). -/
inductive LogicOp where
  | and | or | xor | andn | orn | xnor | nor
  deriving DecidableEq, Repr

/-- Operations of ISHF (R188). -/
inductive ShiftOp where
  | shl | shr | sar | rol
  deriving DecidableEq, Repr

/-- Conditions of ICMP (R189). -/
inductive ICond where
  | eq | ne | lt | le | gt | ge | tst | ntst
  deriving DecidableEq, Repr

/-- Conditions of FCMP (R194). -/
inductive FCond where
  | eq | ne | lt | le | gt | ge | uo | or
  deriving DecidableEq, Repr

/-- Modes of SHFL (R210). -/
inductive ShflMode where
  | idx | up | down | xor
  deriving DecidableEq, Repr

/-- Modes of VOTE (R212). -/
inductive VoteMode where
  | any | all | ballot | uni
  deriving DecidableEq, Repr

/-- Types of LRED (R213). -/
inductive RedTy where
  | n32 | i32 | n64 | i64 | f32 | f64
  deriving DecidableEq, Repr

/-- Operations of LRED (R213). -/
inductive RedOp where
  | add | min | max | and | or | xor
  deriving DecidableEq, Repr

/-- Sizes of lane loads and stores (R144). -/
inductive MSize where
  | n8 | i8 | n16 | i16 | b32 | b64 | b128
  deriving DecidableEq, Repr

/-- Retention hints of lane loads and stores (R218). -/
inductive LHint where
  | none | nt | keep | nol1
  deriving DecidableEq, Repr

/-- Operations and sizes of ATOM and RED (R224): `wide` selects the 8-byte form. -/
inductive AtomOp where
  | add (wide : Bool) | and (wide : Bool) | or (wide : Bool) | xor (wide : Bool)
  | min (wide : Bool) | max (wide : Bool) | minu (wide : Bool) | maxu (wide : Bool)
  | swap (wide : Bool) | cas (wide : Bool)
  | fadd (wide : Bool) | fmin (wide : Bool) | fmax (wide : Bool)
  | faddBf16 | faddF16
  deriving DecidableEq, Repr

/-- The neighbour ports, numbered as R230 numbers them. -/
inductive Port where
  | xe | xw | xn | xs | xf
  deriving DecidableEq, Repr

/-- Fields of a reservoir that RSV.set and RSV.get reach (R277). -/
inductive ZField where
  | y | wsum | phat | m | ctr
  deriving DecidableEq, Repr

/-- A source operand of an L-op (R59). -/
inductive Opnd where
  | v (n : VReg)
  | t (n : Fin 4)
  | lane
  | wave
  | zero
  deriving DecidableEq, Repr

/-- A destination operand of an L-op (R59): a v register, or 0x112 that discards the result. -/
inductive Dst where
  | v (n : VReg)
  | zero
  deriving DecidableEq, Repr

/-- The selector of SHFL: a register, or the five bits of the immediate form (R210). -/
inductive ShflSel where
  | reg (b : Opnd)
  | imm (k : BitVec 5)
  deriving DecidableEq, Repr

/-- The four modes of MOV with a register source (R209). -/
inductive MovOp where
  | b32 (d : Dst) (a : Opnd)
  | b64 (d : Dst) (a : Opnd)
  | toP (p : PReg) (a : Opnd)
  | fromP (d : Dst) (p : PReg)
  deriving DecidableEq, Repr

/-- A range descriptor of LHDR (R65): the range starts at v(2 base) and holds 2 (code + 1) registers. -/
structure RangeDesc where
  base : BitVec 7
  code : BitVec 3
  deriving DecidableEq, Repr

/-- The control fields that an L-op's w0 carries beside its opcode and modifiers (R140): guard and sense (R141), the
stall count (R74), the last-use bits lua, lub, luc, lud (R72) and the wait field (R76). -/
structure LCtl where
  guard : PReg
  sense : Bool
  stall : BitVec 4
  lua : Bool
  lub : Bool
  luc : Bool
  lud : Bool
  cnt : CtrReg
  inc : Bool
  wt : Bool
  deriving DecidableEq, Repr

/-- The conversion fields that imm23 of FCVT and FPACK carries (R198). -/
structure Cvt where
  src : Kind
  dst : Kind
  rnd : Rnd
  sat : Bool
  blk : Bool
  deriving DecidableEq, Repr

/-- Which of the two streams, and which PC side of the L-stream, an event concerns. -/
inductive Side where
  | a | b
  deriving DecidableEq, Repr

/-- The stream that waits at an instruction: the S-stream, or one PC side of the L-stream. -/
inductive Strm where
  | s
  | l (side : Side)
  deriving DecidableEq, Repr

/-- The class of a read of one HBM sector, decided by its check symbols (R411). -/
inductive EccClass where
  | good | corrected | poisoned | uncorrectable
  deriving DecidableEq, Repr

/-- What one fabric request asks of its home device (R450): the bytes of a write carry byte enables, and a byte that is not
enabled is `none`; `ret` says that the old value of an atomic is returned to a register. -/
inductive FabOp where
  | read (width : Nat)
  | write (bytes : List (Option Byte))
  | atomic (op : AtomOp) (x : DWord) (c : DWord) (ret : Bool)
  /-- an adding drain: a value of an accumulator's kind added to an element of a kind, rounded once (R265) -/
  | addTo (kind acc : Kind) (x : DWord)
  deriving DecidableEq, Repr

/-- A request that arrives over the fabric (R450 to R454). -/
structure FabReq where
  srcDev : Nat
  srcPart : Nat
  tag : Nat
  part : Nat
  asid : Nat
  addr : Nat
  op : FabOp
  poison : Bool
  deriving DecidableEq, Repr

/-- The reply that the source of a fabric request, or of a host-window read, receives (R449, R454). -/
inductive Reply where
  | done
  | data (bytes : List Byte) (poison : Bool)
  | refused
  deriving DecidableEq, Repr

/-- The triggers of a warm reset that come over the host link (R460). -/
inductive LinkReset where
  | hot | secondaryBus | functionLevel | d3hotToD0
  deriving DecidableEq, Repr

/-- Where one team, or one copy of it, is put: the team index in its grid, the copy (false: primary), the core (the even core
of the pair for a paired team) and the save slot (R369, R376). -/
structure Placement where
  team : Nat
  twin : Bool
  core : Nat
  slot : Nat
  deriving DecidableEq, Repr

/-- The control masters, with the identifiers of R437. -/
abbrev Master := Fin 4

end Sys2Proof
end

