-- ==== Sys2Proof/Config.lean ====
section
/-!
DEFINITION. What the spec leaves open, as constants WITHOUT A BODY: nothing in Lean can evaluate one or prove a value of
it. Each is applied to a plain counter of State (or to the data it depends on), so that every use may differ
(notes/assumptions/6.md). Nothing else of the machine is a constant here: what a part carries in fuses is a field of State.
-/

namespace Sys2Proof.Config

/-- A choice between two outcomes that the spec allows. -/
opaque freeBit : Nat → Bool

/-- A byte whose value the spec does not define (for example the data of a poisoned sector, R411). -/
opaque freeByte : Nat → Byte

/-- A 64-bit value that the spec does not define (for example a job reference in a saved tag word, R361). -/
opaque freeWord : Nat → DWord

/-- Cycles that pass on a core beside the one of an issue: the spec fixes no total (R23, R389). -/
opaque extraCycles : Nat → Nat

/-- The row and bank of an HBM sector, which the spec does not lay out (R404, R428). -/
opaque rowOf : Nat → Nat

/-- Where system software has put the table of launch queues, set through Dorzin after each reset (R370). -/
opaque qtab : Nat → Nat

/-- The address space in which the collective engine reads a partition's ring and records, which the spec does not name
(R456). -/
opaque collAsid : Nat → Nat

/-- A signature or a message code over a report, which the spec names and does not compute (R442). -/
opaque signatureByte : Nat → Nat → Byte

end Sys2Proof.Config
end

