-- ==== Sys2Proof/Syntax.lean ====
section
/-!
DEFINITION. The steps of the part, one constructor for each row of spec/opcode_table.json: the S-ops and their two
prefixes (spec/06 R138), the handler actions (spec/16 R354), the L-ops with their immediate forms (spec/06 R146), and the
steps of the device itself, which take the data that their agent brings with them as arguments (spec/95).

Lane operands stand in the order destination, a, b, c. A wave, a job, a ray, a grid, a channel or a port is named by its number.
-/

namespace Sys2Proof

inductive Instr where
  -- S-ops: integer arithmetic (R157)
  | sadd (d a : SReg) (b : SrcB)
  | ssub (d a : SReg) (b : SrcB)
  | sand (d a : SReg) (b : SrcB)
  | sor (d a : SReg) (b : SrcB)
  | sxor (d a : SReg) (b : SrcB)
  | sshl (d a : SReg) (b : SrcB)
  | sshr (d a : SReg) (b : SrcB)
  | ssar (d a : SReg) (b : SrcB)
  | smul (d a : SReg) (b : SrcB)
  | smulh (d a : SReg) (b : SrcB)
  | smulhU (d a : SReg) (b : SrcB)
  | sdiv (d a : SReg) (b : SrcB)
  | sdivU (d a : SReg) (b : SrcB)
  | srem (d a : SReg) (b : SrcB)
  | sremU (d a : SReg) (b : SrcB)
  | smin (d a : SReg) (b : SrcB)
  | smax (d a : SReg) (b : SrcB)
  | sminU (d a : SReg) (b : SrcB)
  | smaxU (d a : SReg) (b : SrcB)
  | scmp (c : Cond) (d a : SReg) (b : SrcB)
  | sselNz (d a : SReg) (b : SrcB)
  | sselZ (d a : SReg) (b : SrcB)
  | sli (d : SReg) (imm : BitVec 20)
  | slui (d : SReg) (imm : BitVec 20)
  -- S-ops: control flow (R161)
  | sbr (c : Cond) (a b : SReg) (off : BitVec 11)
  | sjmp (off : BitVec 20)
  | scall (d : SReg) (off : BitVec 20)
  | sret (a : SReg)
  | sloop (d : SReg) (off : BitVec 20)
  -- S-ops: memory (R163, R165)
  | sld (d a : SReg) (ann : Ann) (sz : SSize) (sx : Bool) (off : BitVec 6)
  | sst (d a : SReg) (ann : Ann) (sz : SSize) (off : BitVec 6)
  | satom (d a : SReg) (op : SAtomOp) (wide nr ordm : Bool) (ann : Ann)
  | sldk (d a : SReg) (sz : SSize) (sx : Bool) (off : BitVec 6)
  -- S-ops: lane dispatch, register blocks (R166 to R169)
  | lrun (a : SReg) (cnt : BitVec 3) (off : BitVec 17)
  | spop (d : SReg)
  | ldrain
  | regxAcq (k : BitVec 10)
  | regxRel (k : BitVec 10)
  -- S-ops: copy jobs and completion maps (R308 to R317)
  | jcopyLoad (a b : SReg) (rel : Bool)
  | jcopyStore (a b : SReg) (rel : Bool)
  | jcopyAdd (a b : SReg) (rel : Bool)
  | jstat (d : SReg) (tag : BitVec 10)
  | cwait (a b : SReg) (tags y any : Bool) (off : BitVec 11)
  | ctest (d a b : SReg) (tags : Bool)
  | wcnt (d : SReg)
  -- S-ops: regions, bonds, barriers (R170 to R174)
  | rgnBeg (id : BitVec 10)
  | rgnEnd (d : SReg)
  | rgnIn (a b : SReg)
  | rgnOut (a b : SReg)
  | bond (a : SReg)
  | barArr (id : BitVec 10)
  | barWait (d : SReg) (id : BitVec 10)
  | cbarArr (id : BitVec 10)
  | cbarWait (d : SReg) (id : BitVec 10)
  -- S-ops: system (R175 to R180), prefixes (R139)
  | trap (n : BitVec 10)
  | sysc (d a : SReg) (n : BitVec 10)
  | srdx (d : SReg) (n : BitVec 10)
  | swrx (a : SReg) (n : BitVec 10)
  | nop
  | yield (n : BitVec 10)
  | exit
  | rseed (a : SReg)
  | xim (payload : BitVec 26)
  | xhnt (kind : HintKind) (n : BitVec 8)
  -- L-ops: integer (R185 to R190)
  | iadd (c : LCtl) (ty : IntTy) (sat : Bool) (d : Dst) (a b : Opnd)
  | iaddImm (c : LCtl) (ty : IntTy) (sat : Bool) (d : Dst) (a : Opnd) (imm : Word)
  | isub (c : LCtl) (ty : IntTy) (sat : Bool) (d : Dst) (a b : Opnd)
  | isubImm (c : LCtl) (ty : IntTy) (sat : Bool) (d : Dst) (a : Opnd) (imm : Word)
  | imul (c : LCtl) (ty : IntTy) (sat : Bool) (d : Dst) (a b : Opnd)
  | imulImm (c : LCtl) (ty : IntTy) (sat : Bool) (d : Dst) (a : Opnd) (imm : Word)
  | imulh (c : LCtl) (ty : IntTy) (d : Dst) (a b : Opnd)
  | imulhImm (c : LCtl) (ty : IntTy) (d : Dst) (a : Opnd) (imm : Word)
  | imad (c : LCtl) (ty : IntTy) (sat : Bool) (d : Dst) (a b x : Opnd)
  | idiv (c : LCtl) (ty : IntTy) (rem : Bool) (d : Dst) (a b : Opnd)
  | idivImm (c : LCtl) (ty : IntTy) (rem : Bool) (d : Dst) (a : Opnd) (imm : Word)
  | ilop (c : LCtl) (ty : IntTy) (op : LogicOp) (d : Dst) (a b : Opnd)
  | ilopImm (c : LCtl) (ty : IntTy) (op : LogicOp) (d : Dst) (a : Opnd) (imm : Word)
  | ishf (c : LCtl) (ty : IntTy) (op : ShiftOp) (clamp : Bool) (d : Dst) (a b : Opnd)
  | ishfImm (c : LCtl) (ty : IntTy) (op : ShiftOp) (clamp : Bool) (d : Dst) (a : Opnd) (imm : Word)
  | imin (c : LCtl) (ty : IntTy) (d : Dst) (a b : Opnd)
  | iminImm (c : LCtl) (ty : IntTy) (d : Dst) (a : Opnd) (imm : Word)
  | imax (c : LCtl) (ty : IntTy) (d : Dst) (a b : Opnd)
  | imaxImm (c : LCtl) (ty : IntTy) (d : Dst) (a : Opnd) (imm : Word)
  | iabs (c : LCtl) (ty : IntTy) (sat : Bool) (d : Dst) (a : Opnd)
  | icmp (c : LCtl) (ty : IntTy) (cond : ICond) (d : Dst) (a b : Opnd)
  | icmpImm (c : LCtl) (ty : IntTy) (cond : ICond) (d : Dst) (a : Opnd) (imm : Word)
  | isel (c : LCtl) (ty : IntTy) (z : Bool) (d : Dst) (a b : Opnd)
  | iselImm (c : LCtl) (ty : IntTy) (z : Bool) (d : Dst) (a : Opnd) (imm : Word)
  | ipopc (c : LCtl) (ty : IntTy) (d : Dst) (a : Opnd)
  | iclz (c : LCtl) (ty : IntTy) (d : Dst) (a : Opnd)
  | ibrev (c : LCtl) (ty : IntTy) (d : Dst) (a : Opnd)
  | iprmt (c : LCtl) (ty : IntTy) (d : Dst) (a b : Opnd)
  | iprmtImm (c : LCtl) (ty : IntTy) (d : Dst) (a : Opnd) (imm : Word)
  | iext (c : LCtl) (ty : IntTy) (d : Dst) (a b : Opnd)
  | iextImm (c : LCtl) (ty : IntTy) (d : Dst) (a : Opnd) (imm : Word)
  | iins (c : LCtl) (ty : IntTy) (d : Dst) (a b x : Opnd)
  -- L-ops: floating point (R191 to R196)
  | fadd (c : LCtl) (ty : FTy) (rnd : Rnd) (d : Dst) (a b : Opnd)
  | faddImm (c : LCtl) (ty : FTy) (rnd : Rnd) (d : Dst) (a : Opnd) (imm : Word)
  | fsub (c : LCtl) (ty : FTy) (rnd : Rnd) (d : Dst) (a b : Opnd)
  | fsubImm (c : LCtl) (ty : FTy) (rnd : Rnd) (d : Dst) (a : Opnd) (imm : Word)
  | fmul (c : LCtl) (ty : FTy) (rnd : Rnd) (d : Dst) (a b : Opnd)
  | fmulImm (c : LCtl) (ty : FTy) (rnd : Rnd) (d : Dst) (a : Opnd) (imm : Word)
  | ffma (c : LCtl) (ty : FTy) (rnd : Rnd) (d : Dst) (a b x : Opnd)
  | fmin (c : LCtl) (ty : FTy) (nan : Bool) (d : Dst) (a b : Opnd)
  | fminImm (c : LCtl) (ty : FTy) (nan : Bool) (d : Dst) (a : Opnd) (imm : Word)
  | fmax (c : LCtl) (ty : FTy) (nan : Bool) (d : Dst) (a b : Opnd)
  | fmaxImm (c : LCtl) (ty : FTy) (nan : Bool) (d : Dst) (a : Opnd) (imm : Word)
  | fcmp (c : LCtl) (ty : FTy) (cond : FCond) (d : Dst) (a b : Opnd)
  | fcmpImm (c : LCtl) (ty : FTy) (cond : FCond) (d : Dst) (a : Opnd) (imm : Word)
  | fclass (c : LCtl) (ty : FTy) (d : Dst) (a : Opnd)
  | fdiv (c : LCtl) (ty : FTy) (rnd : Rnd) (d : Dst) (a b : Opnd)
  | fdivImm (c : LCtl) (ty : FTy) (rnd : Rnd) (d : Dst) (a : Opnd) (imm : Word)
  | fsqrt (c : LCtl) (ty : FTy) (rnd : Rnd) (d : Dst) (a : Opnd)
  | frcp (c : LCtl) (ty : FTy) (d : Dst) (a : Opnd)
  | frsq (c : LCtl) (ty : FTy) (d : Dst) (a : Opnd)
  | fscale (c : LCtl) (ty : FTy) (rnd : Rnd) (d : Dst) (a b : Opnd)
  | fscaleImm (c : LCtl) (ty : FTy) (rnd : Rnd) (d : Dst) (a : Opnd) (imm : Word)
  | frnd (c : LCtl) (ty : FTy) (rnd : Rnd) (d : Dst) (a : Opnd)
  -- L-ops: conversions and elementary functions (R197 to R204)
  | fcvt (c : LCtl) (k : Cvt) (d : Dst) (a : Opnd)
  | fpack (c : LCtl) (k : Cvt) (d : Dst) (a b : Opnd)
  | funpk (c : LCtl) (k : Cvt) (elem : BitVec 3) (d : Dst) (a b : Opnd)
  | fexp2 (c : LCtl) (ty : FTy) (d : Dst) (a : Opnd)
  | flog2 (c : LCtl) (ty : FTy) (d : Dst) (a : Opnd)
  | fsin (c : LCtl) (ty : FTy) (d : Dst) (a : Opnd)
  | fcos (c : LCtl) (ty : FTy) (d : Dst) (a : Opnd)
  -- L-ops: movement and steering (R209 to R217)
  | lhdr (z : Bool) (ranges : List RangeDesc)
  | mov (c : LCtl) (op : MovOp)
  | movImm (c : LCtl) (w64 : Bool) (d : Dst) (imm : Word)
  | shfl (c : LCtl) (mode : ShflMode) (w64 : Bool) (d : Dst) (a : Opnd) (sel : ShflSel)
  | vote (c : LCtl) (mode : VoteMode) (a : Opnd)
  | lred (c : LCtl) (ty : RedTy) (op : RedOp) (l : Bool) (d : Dst) (a : Opnd)
  | lbr (c : LCtl) (taken join : BitVec 16)
  | ljoin (c : LCtl)
  | lend (c : LCtl)
  | lkill (c : LCtl)
  -- L-ops: memory and atomics (R218 to R228)
  | ld (c : LCtl) (sz : MSize) (hint : LHint) (ann : Ann) (d : Dst) (a : Opnd) (off : BitVec 23)
  | st (c : LCtl) (sz : MSize) (hint : LHint) (ann : Ann) (a b : Opnd) (rc : BitVec 8) (off : BitVec 23)
  | lds (c : LCtl) (sz : MSize) (ann : Ann) (d : Dst) (a : Opnd) (off : BitVec 23)
  | sts (c : LCtl) (sz : MSize) (ann : Ann) (a b : Opnd) (off : BitVec 23)
  | ldr (c : LCtl) (sz : MSize) (ann : Ann) (d : Dst) (a : Opnd) (off : BitVec 23)
  | str (c : LCtl) (sz : MSize) (ann : Ann) (a b : Opnd) (off : BitVec 23)
  | atom (c : LCtl) (op : AtomOp) (ordm : Bool) (ann : Ann) (d : Dst) (a b x : Opnd) (off : BitVec 23)
  | red (c : LCtl) (op : AtomOp) (ordm : Bool) (ann : Ann) (a b : Opnd) (off : BitVec 23)
  -- L-ops: neighbour ports (R232)
  | push (c : LCtl) (w64 rel : Bool) (port : Port) (b : Opnd) (st : Option PReg)
  | pop (c : LCtl) (w64 acq : Bool) (d : Dst) (port : Port) (st : Option PReg)
  | peek (c : LCtl) (w64 acq : Bool) (d : Dst) (port : Port) (st : Option PReg)
  | pstat (c : LCtl) (d : Dst) (port : Port)
  -- L-ops: reservoirs (R273)
  | rsvUpd (c : LCtl) (n : ZReg) (a b x : Opnd)
  | rsvMrg (c : LCtl) (n s : ZReg) (b : Opnd) (cap : BitVec 23)
  | rsvFin (c : LCtl) (n : ZReg) (d : Dst)
  | rsvSet (c : LCtl) (n : ZReg) (f : ZField) (a : Opnd)
  | rsvGet (c : LCtl) (n : ZReg) (f : ZField) (d : Dst)
  | rsvClr (c : LCtl) (mask : BitVec 8)
  -- L-ops: matrix engine (R259 to R265)
  | mldw (c : LCtl) (a b x : Opnd) (tag : BitVec 6)
  | mma (c : LCtl) (ovw rowp acca : Bool) (a b x : Opnd)
  | mzero (c : LCtl) (a : Opnd)
  | mdrain (c : LCtl) (add : Bool) (a b x : Opnd) (tag : BitVec 6)
  | mdrainFence (c : LCtl) (tag : BitVec 6)
  -- L-ops: traversal unit (R298)
  | trav (c : LCtl) (log q : Bool) (d : Dst) (a b x : Opnd) (hod : BitVec 6)
  | tres (c : LCtl) (q : Bool) (d : Dst) (a : Opnd) (hod : BitVec 6)
  | tresume (c : LCtl) (a b x : Opnd) (st : Option PReg)
  | tlog (c : LCtl) (d : Dst) (a b : Opnd)
  -- steps of the lane stream, the waves and the engines
  | ticketTakeUp (w : Nat)
  | stagingComplete (w : Nat)
  | ticketComplete (w : Nat)
  | fastFileEviction (w : Nat)
  | reservoirSlotEviction (w : Nat)
  | regxGrant (core : Nat)
  | loadDataReturn (w n : Nat)
  | storePerformed (w n : Nat)
  | streamDeadlock (w : Nat)
  | yieldExpiry (w : Nat)
  | gridCompletion (g : Nat)
  | portStall (w : Nat) (side : Side)
  | bondStall (w : Nat) (side : Side)
  | travStall (w : Nat) (side : Side)
  | jobStall (w : Nat) (strm : Strm)
  | cwaitStall (w : Nat)
  | yieldedWaveReactivate (w : Nat)
  | impreciseTrapDelivery (w : Nat)
  | nongreenWritebackTimeout (core line : Nat)
  | gatherLineTimeout (core line : Nat)
  | jobAccept (w : Nat) (strm : Strm)
  | copyChunkLanded (j k : Nat)
  | copyJobComplete (j : Nat)
  | matrixJobComplete (j : Nat)
  | regionCure (w : Nat)
  | regionReplayDispatch (w : Nat) (places : List Placement)
  | rayNodeFetch (r : Nat)
  | rayHodTake (core g : Nat)
  | translationWalk (part asid va : Nat) (write fetch : Bool)
  | faultAnswerResolve (id : Word)
  | faultAnswerFatal (id : Word)
  | parkedLaneReplay (w : Nat) (strm : Strm)
  | controllerBatchOpen (ch : Nat)
  -- steps of Dorzin and the distributor
  | launchKick (v : Word)
  | teamPlacement (g : Nat) (places : List Placement)
  | preemptionRequest (g t : Nat) (deadline : Nat)
  | drainDeadlineExpiry (g t : Nat)
  | contextSave (g t : Nat)
  | contextRestore (g t : Nat) (places : List Placement)
  | contextCreate (id : BitVec 16) (record : List Byte)
  | invalidationRequest (part asid lo hi : Nat)
  | invalidationEnd (n : Nat)
  | watchpointLoad (ctx : BitVec 16) (n : Fin 4) (waddr wctl : DWord)
  | watchEngineReport (n : Nat)
  -- steps of the management core and the memory system
  | hbmScrub (sector : Nat) (lo hi : EccClass)
  | laneRepointApply (n : Nat)
  | rowCopyComplete (n : Nat)
  | llcCarveWrite (m : Master) (v : DWord)
  | partCfgEnable (m : Master) (p : Fin 8) (v : DWord)
  | partCfgDisable (m : Master) (p : Fin 8)
  | ctrlClaimClaim (m : Master) (prio : BitVec 4) (nonce : BitVec 16)
  | ctrlClaimRelease (m : Master)
  | ctrlClaimHandover (m target : Master)
  | ctrlAttestGo (m : Master)
  | firmwareImageLoad (m : Master) (version : Nat) (ecdsa lms : Bool) (digest : BitVec 384)
  | fusedCounterAdvance (m : Master)
  -- steps of the host link and the fabric
  | fabricWindowCommit (m : Master) (p : Fin 8) (w : BitVec 8) (hi : Word)
  | fabRouteWrite (m : Master) (d : BitVec 10) (v : DWord)
  | controlRegisterWrite (m : Master) (off : Nat) (v : DWord)
  | hostApertureRead (off width : Nat)
  | hostApertureWrite (off : Nat) (bytes : List Byte) (poison : Bool)
  | hostWindowCompletion (tag : Nat) (reply : Reply)
  | msixUnmask (v : BitVec 11)
  | fabricRequestArrival (req : FabReq)
  | fabricAcknowledgement (tag : Nat) (reply : Reply)
  | ualinkPortDown (p : Fin 24)
  | ualinkPortRetrain (p : Fin 24) (ok : Bool)
  | deviceLost (d : BitVec 10)
  | collRecordTake (p : Fin 8)
  | collSealTimeout (n : Nat)
  | collComplete (n : Nat) (parts : List (Nat × List Byte))
  -- resets, bring-up and power
  | rstStatusWarm (m : Master)
  | hostLinkReset (k : LinkReset)
  | firmwareVerify (version : Nat) (ecdsa lms : Bool) (dorzin health : BitVec 384)
  | channelTraining (failed : List Nat)
  | governorTick (pwr temp : BitVec 16)
  | railVoltageStep (rail : Fin 8) (lower : Bool)
  | systemKill (g : Nat) (team : Option Nat)
  | contextDestroy (id : BitVec 16)
  | podDeviceNumberSet (n : BitVec 10)
  | dataLinkRetry (p : Fin 24) (ok : Bool)
  -- handler actions (R354), and steps without operands
  | hactRetry
  | hactNext
  | hactKill
  | hactKilllanes
  | launchAccept
  | schedulerTakeover
  | electionWindowClose
  | ownerLapse
  | attestFinish
  | carveConversionEnd
  | powerOn
  | perstAssert
  | i3cResetCommand
  | watchdogExpiry
  | schedulerStart
  | configurationRequest
  deriving DecidableEq, Repr

end Sys2Proof
end

