-- ==== Sys2Proof/WellFormed.lean ====
section
/-!
DEFINITION. Which instructions the encodings allow: the limits on fields and operand codes whose breach raises
ILLEGAL_OPERAND at decode (spec/03 R59, R60, R65, R66, R72, R76; spec/06 R117 as cited there, R139 step 4, R140 to R144;
and the Operands headings of the entries). A limit on an operand's VALUE is no matter of form and stands in the meanings.
-/

namespace Sys2Proof

/-- A source named in a 64-bit position: an odd v code is illegal (R60). -/
def Opnd.even : Opnd → Bool
  | .v n => n.val % 2 == 0
  | _ => true

/-- A destination named in a 64-bit position (R60). -/
def Dst.even : Dst → Bool
  | .v n => n.val % 2 == 0
  | .zero => true

def Opnd.isV : Opnd → Bool
  | .v _ => true
  | _ => false

def Dst.isV : Dst → Bool
  | .v _ => true
  | .zero => false

/-- Widths in bits of the integer types (R143). -/
def IntTy.bits : IntTy → Nat
  | .n32 | .i32 => 32
  | .n64 | .i64 => 64
  | .n16 | .i16 => 16

/-- The .i types read and write signed values (R186). -/
def IntTy.signed : IntTy → Bool
  | .i32 | .i64 | .i16 => true
  | .n32 | .n64 | .n16 => false

/-- Widths in bits of the float types (R143). -/
def FTy.bits : FTy → Nat
  | .f64 => 64
  | .f32 => 32
  | .f16 => 16

/-- A source in a position of the given width in bits. -/
def Opnd.fits (o : Opnd) (bits : Nat) : Bool := bits != 64 || o.even

/-- A destination in a position of the given width in bits. -/
def Dst.fits (d : Dst) (bits : Nat) : Bool := bits != 64 || d.even

/-- The data operand of a .b128 access: a multiple of 4, or 0x112 (R219). -/
def Opnd.quad : Opnd → Bool
  | .v n => n.val % 4 == 0
  | .zero => true
  | _ => false

/-- The destination of a .b128 load (R219). -/
def Dst.quad : Dst → Bool
  | .v n => n.val % 4 == 0
  | .zero => true

/-- A last-use bit stands only for a v register (R72). -/
def LCtl.luOk (c : LCtl) (d a b x : Bool) : Bool :=
  (!c.lua || a) && (!c.lub || b) && (!c.luc || x) && (!c.lud || d)

/-- The control fields of an L-op on which inc is illegal (R76). -/
def LCtl.plain (c : LCtl) (d a b x : Bool) : Bool := !c.inc && c.luOk d a b x

/-- LBR, LJOIN, LEND and LKILL: no last-use bit and no inc (R215 to R217). -/
def LCtl.bare (c : LCtl) : Bool := c.plain false false false false

/-- A 16-bit type's immediate has bits [31:16] zero (R143). -/
def immFits (bits : Nat) (imm : Word) : Bool := bits != 16 || imm.toNat < 65536

/-- Bytes of a lane access (R144). -/
def MSize.bytes : MSize → Nat
  | .n8 | .i8 => 1
  | .n16 | .i16 => 2
  | .b32 => 4
  | .b64 => 8
  | .b128 => 16

def Opnd.fitsSize (o : Opnd) : MSize → Bool
  | .b64 => o.even
  | .b128 => o.quad
  | _ => true

def Dst.fitsSize (d : Dst) : MSize → Bool
  | .b64 => d.even
  | .b128 => d.quad
  | _ => true

/-- .i8 and .i16 are no sizes of a store (R144). -/
def MSize.store : MSize → Bool
  | .i8 | .i16 => false
  | _ => true

/-- Orderings of loads and of stores (R117). -/
def MemOrd.load : MemOrd → Bool
  | .rlx | .acq => true
  | _ => false

def MemOrd.store : MemOrd → Bool
  | .rlx | .rel => true
  | _ => false

/-- Scopes at most .t, and at most .b (R117). -/
def Scope.atMostT : Scope → Bool
  | .w | .t => true
  | _ => false

def Scope.atMostB : Scope → Bool
  | .w | .t | .b => true
  | _ => false

/-- Width in bytes of an ATOM or RED operation (R225). -/
def AtomOp.bytes : AtomOp → Nat
  | .add w | .and w | .or w | .xor w | .min w | .max w | .minu w | .maxu w | .swap w | .cas w
  | .fadd w | .fmin w | .fmax w => if w then 8 else 4
  | .faddBf16 | .faddF16 => 2

def AtomOp.isCas : AtomOp → Bool
  | .cas _ => true
  | _ => false

def AtomOp.isSwap : AtomOp → Bool
  | .swap _ => true
  | _ => false

/-- Width in bits of a kind's register position (R197). -/
def Kind.bits : Kind → Nat
  | .fmt .fp64 | .i64 | .n64 => 64
  | _ => 32

/-- Four-bit kinds, always scaled (R197). -/
def Kind.four : Kind → Bool
  | .fmt .q4i | .fmt .q4f | .fmt .q4p | .fmt .q4h => true
  | _ => false

/-- Scalable kinds 0x05 to 0x0A (R197). -/
def Kind.scalable : Kind → Bool
  | .fmt .e5m2 | .fmt .e4m3 | .fmt .e3m2 | .fmt .e2m3 | .fmt .i8 | .fmt .n8 => true
  | _ => false

/-- 16-bit kinds of FPACK and FUNPK (R201). -/
def Kind.half : Kind → Bool
  | .fmt .bf16 | .fmt .fp16 | .fmt .i16 => true
  | _ => false

/-- The blk rules of FCVT (R199). -/
def Cvt.fcvtOk (k : Cvt) : Bool :=
  if k.blk then k.src.four || k.dst.four || k.src.scalable || k.dst.scalable else !k.src.four && !k.dst.four

/-- FPACK: a 16-bit or byte target, an unscaled source, blk 0 (R201). -/
def Cvt.fpackOk (k : Cvt) : Bool := (k.dst.half || k.dst.scalable) && !k.src.four && !k.blk

/-- FUNPK: the source's packing bounds the element, blk goes with a four-bit source or a byte kind, the target is no
four-bit kind (R202). -/
def Cvt.funpkOk (k : Cvt) (e : Nat) : Bool :=
  !k.dst.four &&
  ((k.src.half && e < 2 && !k.blk) || (k.src.scalable && e < 4) || (k.src.four && k.blk))

/-- Number of registers of a range descriptor, and its first register (R65). -/
def RangeDesc.count (r : RangeDesc) : Nat := 2 * (r.code.toNat + 1)
def RangeDesc.first (r : RangeDesc) : Nat := 2 * r.base.toNat

/-- The range ends at or before v255 (R66). -/
def RangeDesc.inFile (r : RangeDesc) : Bool := r.first + r.count ≤ 256

/-- Two ranges share no register (R66). -/
def RangeDesc.apart (r q : RangeDesc) : Bool := r.first + r.count ≤ q.first || q.first + q.count ≤ r.first

/-- No two ranges of a list share a register (R66). -/
def rangesApart : List RangeDesc → Bool
  | [] => true
  | r :: rs => rs.all r.apart && rangesApart rs

/-- A register range of n registers starting at a d register (R298). -/
def Opnd.range (o : Opnd) (n : Nat) : Bool :=
  match o with
  | .v r => r.val % 2 == 0 && r.val + n ≤ 256
  | _ => false

/-- The same as a destination; 0x112 discards the record, as R59 lets every destination do (notes/assumptions/17.md). -/
def Dst.range (d : Dst) (n : Nat) : Bool :=
  match d with
  | .v r => r.val % 2 == 0 && r.val + n ≤ 256
  | .zero => true

/-- The lane integer shapes: two sources, or one and an immediate. -/
def wfInt2 (c : LCtl) (ty : IntTy) (d : Dst) (a b : Opnd) : Bool :=
  c.plain d.isV a.isV b.isV false && d.fits ty.bits && a.fits ty.bits && b.fits ty.bits

def wfIntImm (c : LCtl) (ty : IntTy) (d : Dst) (a : Opnd) (imm : Word) : Bool :=
  c.plain d.isV a.isV false false && d.fits ty.bits && a.fits ty.bits && immFits ty.bits imm

def wfInt1 (c : LCtl) (ty : IntTy) (d : Dst) (a : Opnd) : Bool :=
  c.plain d.isV a.isV false false && d.fits ty.bits && a.fits ty.bits

def wfInt3 (c : LCtl) (ty : IntTy) (d : Dst) (a b x : Opnd) : Bool :=
  c.plain d.isV a.isV b.isV x.isV && d.fits ty.bits && a.fits ty.bits && b.fits ty.bits && x.fits ty.bits

/-- The lane float shapes. -/
def wfFlt2 (c : LCtl) (ty : FTy) (d : Dst) (a b : Opnd) : Bool :=
  c.plain d.isV a.isV b.isV false && d.fits ty.bits && a.fits ty.bits && b.fits ty.bits

def wfFltImm (c : LCtl) (ty : FTy) (d : Dst) (a : Opnd) (imm : Word) : Bool :=
  c.plain d.isV a.isV false false && d.fits ty.bits && a.fits ty.bits && immFits ty.bits imm

def wfFlt1 (c : LCtl) (ty : FTy) (d : Dst) (a : Opnd) : Bool :=
  c.plain d.isV a.isV false false && d.fits ty.bits && a.fits ty.bits

/-- Guard p7 with sense 1 is illegal on an L-op that appends a result entry (R211). -/
def LCtl.neverActive (c : LCtl) : Bool := c.guard.val == 7 && c.sense

/-- Types of LRED: width in bits and whether it is a float type (R213). -/
def RedTy.bits : RedTy → Nat
  | .n64 | .i64 | .f64 => 64
  | _ => 32

def RedTy.float : RedTy → Bool
  | .f32 | .f64 => true
  | _ => false

def RedOp.bitwise : RedOp → Bool
  | .and | .or | .xor => true
  | _ => false

/-- Every field of the instruction is one that its encoding admits. Steps of the device carry data of their agent, which no
encoding limits. -/
def Instr.wf : Instr → Bool
  | .sloop d _ => d.val != 0
  | .sld _ _ ann sz sx _ => ann.ord.load && !(sz == .b8 && sx)
  | .sst _ _ ann _ _ => ann.ord.store
  | .satom d _ op _ nr ordm ann =>
      (!(op == .cas) || d.val % 2 == 0) && (!nr || ann.ord.store) && (!ordm || ann.ord.store)
  | .sldk _ _ sz sx _ => !(sz == .b8 && sx)
  | .lrun a cnt _ => cnt.toNat ≤ 4 && a.val + cnt.toNat ≤ 64 && (cnt.toNat != 0 || a.val == 0)
  | .jcopyLoad _ b _ | .jcopyStore _ b _ | .jcopyAdd _ b _ => b.val % 2 == 0
  | .cwait a _ tags y _ off => (y || off == 0) && (!tags || a.val == 0)
  | .ctest _ a _ tags => !tags || a.val == 0
  | .xhnt k n => if k == .rc then n != 0 else n == 0
  | .iadd c ty _ d a b | .isub c ty _ d a b | .imul c ty _ d a b => wfInt2 c ty d a b
  | .iaddImm c ty _ d a i | .isubImm c ty _ d a i | .imulImm c ty _ d a i => wfIntImm c ty d a i
  | .imulh c ty d a b | .imin c ty d a b | .imax c ty d a b | .iext c ty d a b => wfInt2 c ty d a b
  | .imulhImm c ty d a i | .iminImm c ty d a i | .imaxImm c ty d a i | .iextImm c ty d a i => wfIntImm c ty d a i
  | .imad c ty _ d a b x | .iins c ty d a b x => wfInt3 c ty d a b x
  | .idiv c ty _ d a b | .ilop c ty _ d a b | .icmp c ty _ d a b | .isel c ty _ d a b => wfInt2 c ty d a b
  | .idivImm c ty _ d a i | .ilopImm c ty _ d a i | .icmpImm c ty _ d a i | .iselImm c ty _ d a i => wfIntImm c ty d a i
  | .ishf c ty op clamp d a b => wfInt2 c ty d a b && !(op == .rol && clamp)
  | .ishfImm c ty op clamp d a i => wfIntImm c ty d a i && !(op == .rol && clamp)
  | .iabs c ty _ d a => wfInt1 c ty d a && ty.signed
  | .ipopc c ty d a | .iclz c ty d a | .ibrev c ty d a => wfInt1 c ty d a
  | .iprmt c ty d a b => wfInt2 c ty d a b && !ty.signed
  | .iprmtImm c ty d a i => wfIntImm c ty d a i && !ty.signed
  | .fadd c ty _ d a b | .fsub c ty _ d a b | .fmul c ty _ d a b | .fdiv c ty _ d a b => wfFlt2 c ty d a b
  | .faddImm c ty _ d a i | .fsubImm c ty _ d a i | .fmulImm c ty _ d a i | .fdivImm c ty _ d a i => wfFltImm c ty d a i
  | .ffma c ty _ d a b x =>
      c.plain d.isV a.isV b.isV x.isV && d.fits ty.bits && a.fits ty.bits && b.fits ty.bits && x.fits ty.bits
  | .fmin c ty _ d a b | .fmax c ty _ d a b | .fcmp c ty _ d a b => wfFlt2 c ty d a b
  | .fminImm c ty _ d a i | .fmaxImm c ty _ d a i | .fcmpImm c ty _ d a i => wfFltImm c ty d a i
  | .fclass c ty d a => c.plain d.isV a.isV false false && a.fits ty.bits
  | .fsqrt c ty _ d a | .frnd c ty _ d a => wfFlt1 c ty d a
  | .frcp c ty d a | .frsq c ty d a | .fexp2 c ty d a | .flog2 c ty d a | .fsin c ty d a | .fcos c ty d a => wfFlt1 c ty d a
  | .fscale c ty _ d a b => c.plain d.isV a.isV b.isV false && d.fits ty.bits && a.fits ty.bits
  | .fscaleImm c ty _ d a _ => c.plain d.isV a.isV false false && d.fits ty.bits && a.fits ty.bits
  | .fcvt c k d a =>
      c.plain d.isV a.isV false false && d.fits k.dst.bits && a.fits k.src.bits && k.fcvtOk
  | .fpack c k d a b =>
      c.plain d.isV a.isV b.isV false && a.fits k.src.bits && b.fits k.src.bits && k.fpackOk
  | .funpk c k e d a b =>
      c.plain d.isV a.isV b.isV false && d.fits k.dst.bits && k.funpkOk e.toNat && (k.blk || b == .zero)
  | .lhdr _ rs => rs.length ≤ 6 && rs.all RangeDesc.inFile && rangesApart rs
  | .mov c op =>
      match op with
      | .b32 d a => c.plain d.isV a.isV false false
      | .b64 d a => c.plain d.isV a.isV false false && d.even && a.even
      | .toP _ a => c.plain false a.isV false false
      | .fromP d _ => c.plain d.isV false false false
  | .movImm c w64 d _ => c.plain d.isV false false false && (!w64 || d.even)
  | .shfl c _ w64 d a sel =>
      (match sel with
       | .reg b => c.plain d.isV a.isV b.isV false
       | .imm _ => c.plain d.isV a.isV false false) && (!w64 || (d.even && a.even))
  | .vote c _ a => c.plain false a.isV false false && !c.neverActive
  | .lred c ty op l d a =>
      c.plain d.isV a.isV false false && a.fits ty.bits && d.fits ty.bits && !(ty.float && op.bitwise) &&
      (l == d.isV) && (l || !c.neverActive)
  | .lbr c _ _ => c.bare
  | .ljoin c | .lend c => c.bare && c.guard.val == 7 && !c.sense
  | .lkill c => c.bare
  | .ld c sz _ ann d a _ => c.luOk d.isV a.isV false false && ann.ord.load && a.even && d.fitsSize sz
  | .st c sz _ ann a b _ _ => c.luOk false a.isV b.isV false && ann.ord.store && a.even && b.fitsSize sz && sz.store
  | .lds c sz ann d a _ =>
      c.luOk d.isV a.isV false false && ann.ord.load && ann.scope.atMostT && d.fitsSize sz
  | .sts c sz ann a b _ =>
      c.luOk false a.isV b.isV false && ann.ord.store && ann.scope.atMostT && b.fitsSize sz && sz.store
  | .ldr c sz ann d a _ =>
      c.luOk d.isV a.isV false false && ann.ord.load && ann.scope.atMostB && d.fitsSize sz
  | .str c sz ann a b _ =>
      c.luOk false a.isV b.isV false && ann.ord.store && ann.scope.atMostB && b.fitsSize sz && sz.store
  | .atom c op ordm ann d a b x _ =>
      c.luOk d.isV a.isV b.isV x.isV && a.even && d.fits (8 * op.bytes) && b.fits (8 * op.bytes) && x.fits (8 * op.bytes) &&
      (op.isCas || x == .zero) && (!ordm || ann.ord.store) && (ann.ord.store || d.isV)
  | .red c op _ ann a b _ =>
      c.luOk false a.isV b.isV false && a.even && b.fits (8 * op.bytes) && !op.isCas && !op.isSwap && ann.ord.store
  | .push c w64 _ _ b _ => c.plain false false b.isV false && (!w64 || b.even)
  | .pop c w64 _ d _ _ | .peek c w64 _ d _ _ => c.plain d.isV false false false && (!w64 || d.even)
  | .pstat c d _ => c.plain d.isV false false false
  | .rsvUpd c _ a b x => c.plain false a.isV b.isV x.isV && a.even
  | .rsvMrg c _ _ b _ => c.plain false false b.isV false
  | .rsvFin c _ d => c.plain d.isV false false false
  | .rsvSet c _ f a => c.plain false a.isV false false && (f != .y || a.even)
  | .rsvGet c _ f d => c.plain d.isV false false false && (f != .y || d.even)
  | .rsvClr c mask => c.bare && mask != 0
  | .mldw c a b x _ => c.luOk false a.isV b.isV x.isV && a.even && b.even && x.even
  | .mma c _ rowp acca a b x => c.plain false a.isV b.isV x.isV && b.even && x.even && !(rowp && acca)
  | .mzero c a => c.plain false a.isV false false && a.even
  | .mdrain c _ a b x _ => c.luOk false a.isV b.isV x.isV && a.even && x.even
  | .mdrainFence c _ => c.luOk false false false false
  | .trav c _ q d a b x hod =>
      c.luOk d.isV a.isV b.isV x.isV && b.even &&
      (if q then d == .zero && a.range 18 else d.range 10 && a.range 16 && hod == 0)
  | .tres c q d a hod =>
      c.luOk d.isV a.isV false false && (if q then d.range 12 && a == .zero else d.range 10 && hod == 0)
  | .tresume c a b x _ => c.plain false a.isV b.isV x.isV && x.even
  | .tlog c d a b => c.plain d.isV a.isV b.isV false && a.even
  | _ => true

end Sys2Proof
end

