-- ==== Sys2Proof/Decode.lean ====
section
/-!
DEFINITION. The decoder of S-op words and of L-op words, total on any bits and rejecting by name, and after it the encoder,
both written from the formats and the opcode maps of spec/06_encoding_and_assembly.md R132 to R146 and from the Encoding
paragraphs of the entries. Steps of the device and handler actions have no encoding.
-/

namespace Sys2Proof

/-- Why a word is no instruction: the two traps of decode (R139 steps 2 and 4, R145 steps 1 and 2). -/
inductive DecodeErr where
  | illegalOpcode
  | illegalOperand
  deriving DecidableEq, Repr

/-- Bits [lo+n-1:lo] of a number. -/
def bits (w lo n : Nat) : Nat := w / 2 ^ lo % 2 ^ n

/-- One bit of a number. -/
def bit1 (w lo : Nat) : Bool := w / 2 ^ lo % 2 == 1

/-! Codes of the small types. -/

def sregAt (w lo : Nat) : SReg := Fin.ofNat 64 (w / 2 ^ lo)

def Cond.ofCode : Nat → Option Cond
  | 0 => some .eq | 1 => some .ne | 2 => some .lt | 3 => some .ge | 4 => some .ltu | 5 => some .geu | _ => none

def Cond.code : Cond → Nat
  | .eq => 0 | .ne => 1 | .lt => 2 | .ge => 3 | .ltu => 4 | .geu => 5

def MemOrd.ofCode : Nat → MemOrd
  | 0 => .rlx | 1 => .acq | 2 => .rel | _ => .ar

def MemOrd.code : MemOrd → Nat
  | .rlx => 0 | .acq => 1 | .rel => 2 | .ar => 3

def Scope.ofCode : Nat → Option Scope
  | 0 => some .w | 1 => some .t | 2 => some .b | 3 => some .d | 4 => some .p | _ => none

def Scope.code : Scope → Nat
  | .w => 0 | .t => 1 | .b => 2 | .d => 3 | .p => 4

def SSize.ofCode : Nat → SSize
  | 0 => .b1 | 1 => .b2 | 2 => .b4 | _ => .b8

def SSize.code : SSize → Nat
  | .b1 => 0 | .b2 => 1 | .b4 => 2 | .b8 => 3

def SAtomOp.ofCode : Nat → Option SAtomOp
  | 0 => some .add | 1 => some .and | 2 => some .or | 3 => some .xor | 4 => some .min | 5 => some .max | 6 => some .minu
  | 7 => some .maxu | 8 => some .swap | 9 => some .cas | 10 => some .fadd | _ => none

def SAtomOp.code : SAtomOp → Nat
  | .add => 0 | .and => 1 | .or => 2 | .xor => 3 | .min => 4 | .max => 5 | .minu => 6 | .maxu => 7 | .swap => 8
  | .cas => 9 | .fadd => 10

def HintKind.ofCode : Nat → Option HintKind
  | 1 => some .nt | 2 => some .keep | 3 => some .nol1 | 4 => some .rc | _ => none

def HintKind.code : HintKind → Nat
  | .nt => 1 | .keep => 2 | .nol1 => 3 | .rc => 4

def IntTy.ofCode : Nat → Option IntTy
  | 0 => some .n32 | 1 => some .i32 | 2 => some .n64 | 3 => some .i64 | 4 => some .n16 | 5 => some .i16 | _ => none

def IntTy.code : IntTy → Nat
  | .n32 => 0 | .i32 => 1 | .n64 => 2 | .i64 => 3 | .n16 => 4 | .i16 => 5

def FTy.ofCode : Nat → Option FTy
  | 0 => some .f64 | 1 => some .f32 | 2 => some .f16 | _ => none

def FTy.code : FTy → Nat
  | .f64 => 0 | .f32 => 1 | .f16 => 2

def Rnd.ofCode : Nat → Option Rnd
  | 0 => some .rne | 1 => some .rtz | 2 => some .rup | 3 => some .rdn | 4 => some .sr | _ => none

def Rnd.code : Rnd → Nat
  | .rne => 0 | .rtz => 1 | .rup => 2 | .rdn => 3 | .sr => 4

def Fmt.ofCode : Nat → Option Fmt
  | 0 => some .fp64 | 1 => some .fp32 | 2 => some .fr19 | 3 => some .bf16 | 4 => some .fp16 | 5 => some .e5m2
  | 6 => some .e4m3 | 7 => some .e3m2 | 8 => some .e2m3 | 9 => some .i8 | 10 => some .n8 | 11 => some .i16
  | 12 => some .q4i | 13 => some .q4f | 14 => some .q4p | 15 => some .q4h | _ => none

def Fmt.code : Fmt → Nat
  | .fp64 => 0 | .fp32 => 1 | .fr19 => 2 | .bf16 => 3 | .fp16 => 4 | .e5m2 => 5 | .e4m3 => 6 | .e3m2 => 7 | .e2m3 => 8
  | .i8 => 9 | .n8 => 10 | .i16 => 11 | .q4i => 12 | .q4f => 13 | .q4p => 14 | .q4h => 15

def Kind.ofCode : Nat → Option Kind
  | 16 => some .i32 | 17 => some .n32 | 18 => some .i64 | 19 => some .n64
  | n => (Fmt.ofCode n).map Kind.fmt

def Kind.code : Kind → Nat
  | .fmt f => f.code | .i32 => 16 | .n32 => 17 | .i64 => 18 | .n64 => 19

def LogicOp.ofCode : Nat → Option LogicOp
  | 0 => some .and | 1 => some .or | 2 => some .xor | 3 => some .andn | 4 => some .orn | 5 => some .xnor
  | 6 => some .nor | _ => none

def LogicOp.code : LogicOp → Nat
  | .and => 0 | .or => 1 | .xor => 2 | .andn => 3 | .orn => 4 | .xnor => 5 | .nor => 6

def ShiftOp.ofCode : Nat → ShiftOp
  | 0 => .shl | 1 => .shr | 2 => .sar | _ => .rol

def ShiftOp.code : ShiftOp → Nat
  | .shl => 0 | .shr => 1 | .sar => 2 | .rol => 3

def ICond.ofCode : Nat → ICond
  | 0 => .eq | 1 => .ne | 2 => .lt | 3 => .le | 4 => .gt | 5 => .ge | 6 => .tst | _ => .ntst

def ICond.code : ICond → Nat
  | .eq => 0 | .ne => 1 | .lt => 2 | .le => 3 | .gt => 4 | .ge => 5 | .tst => 6 | .ntst => 7

def FCond.ofCode : Nat → FCond
  | 0 => .eq | 1 => .ne | 2 => .lt | 3 => .le | 4 => .gt | 5 => .ge | 6 => .uo | _ => .or

def FCond.code : FCond → Nat
  | .eq => 0 | .ne => 1 | .lt => 2 | .le => 3 | .gt => 4 | .ge => 5 | .uo => 6 | .or => 7

def ShflMode.ofCode : Nat → ShflMode
  | 0 => .idx | 1 => .up | 2 => .down | _ => .xor

def ShflMode.code : ShflMode → Nat
  | .idx => 0 | .up => 1 | .down => 2 | .xor => 3

def VoteMode.ofCode : Nat → Option VoteMode
  | 0 => some .any | 1 => some .all | 2 => some .ballot | 3 => some .uni | _ => none

def VoteMode.code : VoteMode → Nat
  | .any => 0 | .all => 1 | .ballot => 2 | .uni => 3

def RedTy.ofCode : Nat → Option RedTy
  | 0 => some .n32 | 1 => some .i32 | 2 => some .n64 | 3 => some .i64 | 4 => some .f32 | 5 => some .f64 | _ => none

def RedTy.code : RedTy → Nat
  | .n32 => 0 | .i32 => 1 | .n64 => 2 | .i64 => 3 | .f32 => 4 | .f64 => 5

def RedOp.ofCode : Nat → Option RedOp
  | 0 => some .add | 1 => some .min | 2 => some .max | 3 => some .and | 4 => some .or | 5 => some .xor | _ => none

def RedOp.code : RedOp → Nat
  | .add => 0 | .min => 1 | .max => 2 | .and => 3 | .or => 4 | .xor => 5

def MSize.ofCode : Nat → Option MSize
  | 0 => some .n8 | 1 => some .i8 | 2 => some .n16 | 3 => some .i16 | 4 => some .b32 | 5 => some .b64 | 6 => some .b128
  | _ => none

def MSize.code : MSize → Nat
  | .n8 => 0 | .i8 => 1 | .n16 => 2 | .i16 => 3 | .b32 => 4 | .b64 => 5 | .b128 => 6

def LHint.ofCode : Nat → LHint
  | 0 => .none | 1 => .nt | 2 => .keep | _ => .nol1

def LHint.code : LHint → Nat
  | .none => 0 | .nt => 1 | .keep => 2 | .nol1 => 3

/-- Bits [4:0] of ATOM's w0: the operation and the wide bit (R224). -/
def AtomOp.ofCode (n : Nat) : Option AtomOp :=
  let w := bit1 n 4
  match n % 16 with
  | 0 => some (.add w) | 1 => some (.and w) | 2 => some (.or w) | 3 => some (.xor w) | 4 => some (.min w)
  | 5 => some (.max w) | 6 => some (.minu w) | 7 => some (.maxu w) | 8 => some (.swap w) | 9 => some (.cas w)
  | 10 => some (.fadd w) | 11 => some (.fmin w) | 12 => some (.fmax w)
  | 13 => if w then none else some .faddBf16
  | 14 => if w then none else some .faddF16
  | _ => none

def AtomOp.code : AtomOp → Nat
  | .add w => 0 + 16 * w.toNat | .and w => 1 + 16 * w.toNat | .or w => 2 + 16 * w.toNat | .xor w => 3 + 16 * w.toNat
  | .min w => 4 + 16 * w.toNat | .max w => 5 + 16 * w.toNat | .minu w => 6 + 16 * w.toNat | .maxu w => 7 + 16 * w.toNat
  | .swap w => 8 + 16 * w.toNat | .cas w => 9 + 16 * w.toNat | .fadd w => 10 + 16 * w.toNat
  | .fmin w => 11 + 16 * w.toNat | .fmax w => 12 + 16 * w.toNat | .faddBf16 => 13 | .faddF16 => 14

/-- Port codes 0x108 to 0x10C (R59). -/
def Port.ofCode : Nat → Option Port
  | 0x108 => some .xe | 0x109 => some .xw | 0x10A => some .xn | 0x10B => some .xs | 0x10C => some .xf | _ => none

def Port.code : Port → Nat
  | .xe => 0x108 | .xw => 0x109 | .xn => 0x10A | .xs => 0x10B | .xf => 0x10C

def ZField.ofCode : Nat → Option ZField
  | 0 => some .y | 1 => some .wsum | 2 => some .phat | 3 => some .m | 4 => some .ctr | _ => none

def ZField.code : ZField → Nat
  | .y => 0 | .wsum => 1 | .phat => 2 | .m => 3 | .ctr => 4

/-- Operand codes (R59). -/
def Opnd.ofCode (n : Nat) : Option Opnd :=
  if n < 256 then some (.v (Fin.ofNat 256 n))
  else if n < 0x104 then some (.t (Fin.ofNat 4 n))
  else if n = 0x110 then some .lane
  else if n = 0x111 then some .wave
  else if n = 0x112 then some .zero
  else none

def Opnd.code : Opnd → Nat
  | .v n => n.val | .t n => 0x100 + n.val | .lane => 0x110 | .wave => 0x111 | .zero => 0x112

def Dst.ofCode (n : Nat) : Option Dst :=
  if n < 256 then some (.v (Fin.ofNat 256 n)) else if n = 0x112 then some .zero else none

def Dst.code : Dst → Nat
  | .v n => n.val | .zero => 0x112

/-- The operand code of an unused field (R60). -/
def unused : Nat := 0x112

/-! ## S-op words -/

/-- The fields of format SR (R132). -/
structure SRf where
  op : Nat
  rd : Nat
  ra : Nat
  rb : Nat
  i : Nat
  sub : Nat
  lo : Nat
  deriving DecidableEq, Repr

def SRf.ofWord (w : Nat) : SRf :=
  ⟨bits w 26 6, bits w 20 6, bits w 14 6, bits w 8 6, bits w 7 1, bits w 4 3, bits w 0 4⟩

def SRf.word (f : SRf) : Nat :=
  f.op * 2 ^ 26 + f.rd * 2 ^ 20 + f.ra * 2 ^ 14 + f.rb * 2 ^ 8 + f.i * 2 ^ 7 + f.sub * 2 ^ 4 + f.lo

/-- The b operand of format SR (R133). -/
def SRf.srcB (f : SRf) : Option SrcB :=
  if f.i = 0 then (if f.lo = 0 then some (.reg (Fin.ofNat 64 f.rb)) else none)
  else some (.imm (BitVec.ofNat 10 (f.rb * 16 + f.lo)))

/-- An SR instruction with rd, ra and b. -/
def SRf.rab (f : SRf) (k : SReg → SReg → SrcB → Instr) : Option Instr :=
  f.srcB.map (k (Fin.ofNat 64 f.rd) (Fin.ofNat 64 f.ra))

/-- An SR instruction with an immediate b and no register source (I must be 1). -/
def SRf.immK (f : SRf) (k : BitVec 10 → Instr) : Option Instr :=
  if f.rd = 0 ∧ f.ra = 0 ∧ f.i = 1 then some (k (BitVec.ofNat 10 (f.rb * 16 + f.lo))) else none

def SRf.immD (f : SRf) (k : SReg → BitVec 10 → Instr) : Option Instr :=
  if f.ra = 0 ∧ f.i = 1 then some (k (Fin.ofNat 64 f.rd) (BitVec.ofNat 10 (f.rb * 16 + f.lo))) else none

/-- rb, I and lo are zero (R133). -/
def SRf.noB (f : SRf) : Bool := f.rb == 0 && f.i == 0 && f.lo == 0

def SRf.onlyD (f : SRf) (k : SReg → Instr) : Option Instr :=
  if f.ra = 0 ∧ f.noB then some (k (Fin.ofNat 64 f.rd)) else none

def SRf.onlyA (f : SRf) (k : SReg → Instr) : Option Instr :=
  if f.rd = 0 ∧ f.noB then some (k (Fin.ofNat 64 f.ra)) else none

def SRf.bare (f : SRf) (k : Instr) : Option Instr :=
  if f.rd = 0 ∧ f.ra = 0 ∧ f.noB then some k else none

/-- ra and rb name registers, I and lo are zero. -/
def SRf.regAB (f : SRf) (k : SReg → SReg → Instr) : Option Instr :=
  if f.rd = 0 ∧ f.i = 0 ∧ f.lo = 0 then some (k (Fin.ofNat 64 f.ra) (Fin.ofNat 64 f.rb)) else none

/-- The instructions of format SR, by major opcode and sub (R138). -/
def decodeSR (f : SRf) : Option Instr :=
  match f.op, f.sub with
  | 0x00, 0 => f.rab .sadd
  | 0x01, 0 => f.rab .ssub
  | 0x02, 0 => f.rab .sand
  | 0x03, 0 => f.rab .sor
  | 0x04, 0 => f.rab .sxor
  | 0x05, 0 => f.rab .sshl
  | 0x06, 0 => f.rab .sshr
  | 0x06, 1 => f.rab .ssar
  | 0x07, 0 => f.rab .smul
  | 0x07, 1 => f.rab .smulh
  | 0x07, 2 => f.rab .smulhU
  | 0x08, 0 => f.rab .sdiv
  | 0x08, 1 => f.rab .sdivU
  | 0x09, 0 => f.rab .srem
  | 0x09, 1 => f.rab .sremU
  | 0x0A, 0 => f.rab .smin
  | 0x0A, 1 => f.rab .smax
  | 0x0A, 2 => f.rab .sminU
  | 0x0A, 3 => f.rab .smaxU
  | 0x0B, c => (Cond.ofCode c).bind fun c => f.rab (.scmp c)
  | 0x0C, 0 => f.rab .sselNz
  | 0x0C, 1 => f.rab .sselZ
  | 0x13, 0 => f.onlyA .sret
  | 0x21, 0 => f.onlyD .spop
  | 0x22, 0 => f.bare .ldrain
  | 0x23, 0 => f.immK .regxAcq
  | 0x24, 0 => f.immK .regxRel
  | 0x28, 0 => f.regAB fun a b => .jcopyLoad a b false
  | 0x28, 1 => f.regAB fun a b => .jcopyStore a b false
  | 0x28, 2 => f.regAB fun a b => .jcopyAdd a b false
  | 0x28, 4 => f.regAB fun a b => .jcopyLoad a b true
  | 0x28, 5 => f.regAB fun a b => .jcopyStore a b true
  | 0x28, 6 => f.regAB fun a b => .jcopyAdd a b true
  | 0x29, 0 => f.immD .jstat
  | 0x2B, 0 => if f.i = 0 ∧ f.lo = 0 then
      some (.ctest (Fin.ofNat 64 f.rd) (Fin.ofNat 64 f.ra) (Fin.ofNat 64 f.rb) false) else none
  | 0x2B, 1 => if f.i = 0 ∧ f.lo = 0 then
      some (.ctest (Fin.ofNat 64 f.rd) (Fin.ofNat 64 f.ra) (Fin.ofNat 64 f.rb) true) else none
  | 0x2C, 0 => f.onlyD .wcnt
  | 0x30, 0 => f.immK .rgnBeg
  | 0x30, 1 => f.onlyD .rgnEnd
  | 0x31, 0 => f.regAB .rgnIn
  | 0x31, 1 => f.regAB .rgnOut
  | 0x32, 0 => f.onlyA .bond
  | 0x33, 0 => f.immK .barArr
  | 0x33, 1 => f.immD .barWait
  | 0x34, 0 => f.immK .cbarArr
  | 0x34, 1 => f.immD .cbarWait
  | 0x36, 0 => f.immK .trap
  | 0x36, 1 => if f.i = 1 then
      some (.sysc (Fin.ofNat 64 f.rd) (Fin.ofNat 64 f.ra) (BitVec.ofNat 10 (f.rb * 16 + f.lo))) else none
  | 0x37, 0 => f.immD .srdx
  | 0x38, 0 => if f.rd = 0 ∧ f.i = 1 then
      some (.swrx (Fin.ofNat 64 f.ra) (BitVec.ofNat 10 (f.rb * 16 + f.lo))) else none
  | 0x39, 0 => f.bare .nop
  | 0x39, 1 => f.immK .yield
  | 0x3A, 0 => f.bare .exit
  | 0x3B, 0 => f.onlyA .rseed
  | _, _ => none

/-- Formats SU and SJ: rd and 20 bits. -/
def wordU (op rd imm : Nat) : Nat := op * 2 ^ 26 + rd * 2 ^ 20 + imm

/-- Format SB. -/
def wordB (ra rb cond off : Nat) (op : Nat) : Nat := op * 2 ^ 26 + ra * 2 ^ 20 + rb * 2 ^ 14 + cond * 2 ^ 11 + off

/-- Format SM. -/
def wordM (op rd ra ord scope sz sx off : Nat) : Nat :=
  op * 2 ^ 26 + rd * 2 ^ 20 + ra * 2 ^ 14 + ord * 2 ^ 12 + scope * 2 ^ 9 + sz * 2 ^ 7 + sx * 2 ^ 6 + off

/-- Format SA. -/
def wordA (rd ra aop wide nr ordm ord scope : Nat) : Nat :=
  0x1A * 2 ^ 26 + rd * 2 ^ 20 + ra * 2 ^ 14 + aop * 2 ^ 10 + wide * 2 ^ 9 + nr * 2 ^ 8 + ordm * 2 ^ 7 + ord * 2 ^ 5 +
    scope * 2 ^ 2

/-- Format SL. -/
def wordL (ra cnt off : Nat) : Nat := 0x20 * 2 ^ 26 + ra * 2 ^ 20 + cnt * 2 ^ 17 + off

/-- The instructions of the other formats of R132. -/
def decodeSOther (w : Nat) : Option Instr :=
  let rd := sregAt w 20
  let ra := sregAt w 14
  match bits w 26 6 with
  | 0x0D => some (.sli rd (BitVec.ofNat 20 w))
  | 0x0E => some (.slui rd (BitVec.ofNat 20 w))
  | 0x10 => (Cond.ofCode (bits w 11 3)).map fun c => .sbr c rd ra (BitVec.ofNat 11 w)
  | 0x11 => if bits w 20 6 = 0 then some (.sjmp (BitVec.ofNat 20 w)) else none
  | 0x12 => some (.scall rd (BitVec.ofNat 20 w))
  | 0x14 => some (.sloop rd (BitVec.ofNat 20 w))
  | 0x18 => (Scope.ofCode (bits w 9 3)).map fun sc =>
      .sld rd ra ⟨MemOrd.ofCode (bits w 12 2), sc⟩ (SSize.ofCode (bits w 7 2)) (bit1 w 6) (BitVec.ofNat 6 w)
  | 0x19 => if bit1 w 6 then none else (Scope.ofCode (bits w 9 3)).map fun sc =>
      .sst rd ra ⟨MemOrd.ofCode (bits w 12 2), sc⟩ (SSize.ofCode (bits w 7 2)) (BitVec.ofNat 6 w)
  | 0x1A => if bits w 0 2 = 0 then
      (SAtomOp.ofCode (bits w 10 4)).bind fun op => (Scope.ofCode (bits w 2 3)).map fun sc =>
        .satom rd ra op (bit1 w 9) (bit1 w 8) (bit1 w 7) ⟨MemOrd.ofCode (bits w 5 2), sc⟩
      else none
  | 0x1B => if bits w 9 5 = 0 then
      some (.sldk rd ra (SSize.ofCode (bits w 7 2)) (bit1 w 6) (BitVec.ofNat 6 w)) else none
  | 0x20 => some (.lrun rd (BitVec.ofNat 3 (bits w 17 3)) (BitVec.ofNat 17 w))
  | 0x2A => some (.cwait rd ra (bit1 w 13) (bit1 w 12) (bit1 w 11) (BitVec.ofNat 11 w))
  | 0x3C => some (.xim (BitVec.ofNat 26 w))
  | 0x3D => if bits w 12 14 = 0 then
      (HintKind.ofCode (bits w 0 4)).map fun k => .xhnt k (BitVec.ofNat 8 (bits w 4 8)) else none
  | _ => none

/-- The major opcodes of format SR (R138). -/
def srOpcode (op : Nat) : Bool :=
  op ≤ 0x0C || op == 0x13 || op == 0x21 || op == 0x22 || op == 0x23 || op == 0x24 || op == 0x28 || op == 0x29 ||
    op == 0x2B || op == 0x2C || (0x30 ≤ op && op ≤ 0x34) || (0x36 ≤ op && op ≤ 0x3B)

/-- The other allocated major opcodes (R138). -/
def otherOpcode (op : Nat) : Bool :=
  op == 0x0D || op == 0x0E || op == 0x10 || op == 0x11 || op == 0x12 || op == 0x14 || op == 0x18 || op == 0x19 ||
    op == 0x1A || op == 0x1B || op == 0x20 || op == 0x2A || op == 0x3C || op == 0x3D

/-- The last step of every decode: what the fields allow. -/
def vouched : Option Instr → Except DecodeErr Instr
  | some i => if i.wf then .ok i else .error .illegalOperand
  | none => .error .illegalOperand

/-- Decode one S-op word (R139 steps 2 and 4 for that word). -/
def decodeS (w : Nat) : Except DecodeErr Instr :=
  if srOpcode (bits w 26 6) then vouched (decodeSR (SRf.ofWord w))
  else if otherOpcode (bits w 26 6) then vouched (decodeSOther w)
  else .error .illegalOpcode

/-- The selecting value of an S-op word is allocated to no entry of its opcode: the fit of a prefix is not judged (R139 step 3). -/
def unallocated (w : Nat) : Bool :=
  let op := bits w 26 6
  let sub := bits w 4 3
  if op ≤ 0x05 then sub != 0
  else if op == 0x06 || op == 0x08 || op == 0x09 || op == 0x0C then 2 ≤ sub
  else if op == 0x07 then 3 ≤ sub
  else if op == 0x0A then 4 ≤ sub
  else if op == 0x0B then 6 ≤ sub
  else if op == 0x28 then sub % 4 == 3
  else if op == 0x2B || op == 0x30 || op == 0x31 || op == 0x33 || op == 0x34 || op == 0x36 || op == 0x39 then 2 ≤ sub
  else srOpcode op && sub != 0

/-- An S-op word has an immediate field in use, by its major opcode, I field and selecting field alone (R139). -/
def usesImm (w : Nat) : Bool :=
  let op := bits w 26 6
  let sub := bits w 4 3
  let i := bit1 w 7
  if op ≤ 0x0C || op == 0x23 || op == 0x24 || op == 0x29 || op == 0x33 || op == 0x34 || op == 0x36 || op == 0x37 || op == 0x38 then i
  else if op == 0x30 then sub == 0 && i
  else if op == 0x39 then sub == 1 && i
  else if op == 0x2A then bit1 w 12
  else op == 0x0D || op == 0x0E || op == 0x10 || op == 0x11 || op == 0x12 || op == 0x14 || op == 0x18 || op == 0x19 ||
    op == 0x1B || op == 0x20

/-- The fit of an XIM to the final S-op of its group (R139 step 3 and the entry of XIM). -/
def ximFits (w : Nat) : Bool := unallocated w || usesImm w

/-- The fit of an XHNT of kind code `k` to the final S-op (R139 step 3 and the entry of XHNT): a kind outside the table is not
judged here. -/
def xhntFits (k w : Nat) : Bool :=
  let op := bits w 26 6
  unallocated w ||
  if op == 0x18 then k != 4
  else if op == 0x19 then true
  else if op == 0x1A then k != 3 && k != 4
  else false

/-! ## L-op words -/

/-- The fields of an L-op's three words (R140, R142); the three forms of w2 are three views of one word. -/
structure LF where
  opc : Nat
  ctl : LCtl
  mod : Nat
  dest : Nat
  a : Nat
  b : Nat
  ann : Nat
  w2 : Nat
  deriving DecidableEq, Repr

def LCtl.ofWord (w0 : Nat) : LCtl :=
  ⟨Fin.ofNat 8 (w0 / 2 ^ 19), bit1 w0 18, BitVec.ofNat 4 (w0 / 2 ^ 14), bit1 w0 13, bit1 w0 12, bit1 w0 11, bit1 w0 10,
   Fin.ofNat 4 (w0 / 2 ^ 8), bit1 w0 7, bit1 w0 6⟩

/-- Bits [21:6] of w0. -/
def LCtl.word (c : LCtl) : Nat :=
  c.guard.val * 2 ^ 19 + c.sense.toNat * 2 ^ 18 + c.stall.toNat * 2 ^ 14 + c.lua.toNat * 2 ^ 13 + c.lub.toNat * 2 ^ 12 +
    c.luc.toNat * 2 ^ 11 + c.lud.toNat * 2 ^ 10 + c.cnt.val * 2 ^ 8 + c.inc.toNat * 2 ^ 7 + c.wt.toNat * 2 ^ 6

def LF.ofWords (w0 w1 w2 : Nat) : LF :=
  ⟨bits w0 22 10, LCtl.ofWord w0, bits w0 0 6, bits w1 23 9, bits w1 14 9, bits w1 5 9, bits w1 0 5, w2 % 2 ^ 32⟩

def LF.w0 (f : LF) : Nat := f.opc * 2 ^ 22 + f.ctl.word + f.mod
def LF.w1 (f : LF) : Nat := f.dest * 2 ^ 23 + f.a * 2 ^ 14 + f.b * 2 ^ 5 + f.ann

/-- Form C: the c operand code and imm23. -/
def LF.c (f : LF) : Nat := bits f.w2 23 9
def LF.imm23 (f : LF) : Nat := bits f.w2 0 23
def formC (c imm : Nat) : Nat := c * 2 ^ 23 + imm

/-- w0[5:3] and w0[2:0]. -/
def LF.sub (f : LF) : Nat := f.mod / 8
def LF.low (f : LF) : Nat := f.mod % 8

/-- ann is zero, c holds 0x112 and imm23 is zero. -/
def LF.noC (f : LF) : Bool := f.ann == 0 && f.w2 == formC unused 0

/-- Shapes of the integer range. -/
def LF.int2 (f : LF) (k : LCtl → IntTy → Dst → Opnd → Opnd → Instr) : Option Instr :=
  if f.noC then
    (IntTy.ofCode f.low).bind fun ty => (Dst.ofCode f.dest).bind fun d => (Opnd.ofCode f.a).bind fun a =>
      (Opnd.ofCode f.b).map fun b => k f.ctl ty d a b
  else none

def LF.intImm (f : LF) (k : LCtl → IntTy → Dst → Opnd → Word → Instr) : Option Instr :=
  if f.ann = 0 ∧ f.b = unused then
    (IntTy.ofCode f.low).bind fun ty => (Dst.ofCode f.dest).bind fun d => (Opnd.ofCode f.a).map fun a =>
      k f.ctl ty d a (BitVec.ofNat 32 f.w2)
  else none

def LF.int1 (f : LF) (k : LCtl → IntTy → Dst → Opnd → Instr) : Option Instr :=
  if f.noC && f.b == unused then
    (IntTy.ofCode f.low).bind fun ty => (Dst.ofCode f.dest).bind fun d => (Opnd.ofCode f.a).map fun a => k f.ctl ty d a
  else none

def LF.int3 (f : LF) (k : LCtl → IntTy → Dst → Opnd → Opnd → Opnd → Instr) : Option Instr :=
  if f.ann = 0 ∧ f.imm23 = 0 then
    (IntTy.ofCode f.low).bind fun ty => (Dst.ofCode f.dest).bind fun d => (Opnd.ofCode f.a).bind fun a =>
      (Opnd.ofCode f.b).bind fun b => (Opnd.ofCode f.c).map fun c => k f.ctl ty d a b c
  else none

/-- Shapes of the floating-point range. -/
def LF.flt2 (f : LF) (k : LCtl → FTy → Dst → Opnd → Opnd → Instr) : Option Instr :=
  if f.noC then
    (FTy.ofCode f.low).bind fun ty => (Dst.ofCode f.dest).bind fun d => (Opnd.ofCode f.a).bind fun a =>
      (Opnd.ofCode f.b).map fun b => k f.ctl ty d a b
  else none

def LF.fltImm (f : LF) (k : LCtl → FTy → Dst → Opnd → Word → Instr) : Option Instr :=
  if f.ann = 0 ∧ f.b = unused then
    (FTy.ofCode f.low).bind fun ty => (Dst.ofCode f.dest).bind fun d => (Opnd.ofCode f.a).map fun a =>
      k f.ctl ty d a (BitVec.ofNat 32 f.w2)
  else none

def LF.flt1 (f : LF) (k : LCtl → FTy → Dst → Opnd → Instr) : Option Instr :=
  if f.noC && f.b == unused then
    (FTy.ofCode f.low).bind fun ty => (Dst.ofCode f.dest).bind fun d => (Opnd.ofCode f.a).map fun a => k f.ctl ty d a
  else none

def LF.flt3 (f : LF) (k : LCtl → FTy → Dst → Opnd → Opnd → Opnd → Instr) : Option Instr :=
  if f.ann = 0 ∧ f.imm23 = 0 then
    (FTy.ofCode f.low).bind fun ty => (Dst.ofCode f.dest).bind fun d => (Opnd.ofCode f.a).bind fun a =>
      (Opnd.ofCode f.b).bind fun b => (Opnd.ofCode f.c).map fun c => k f.ctl ty d a b c
  else none

/-- Shapes with a modifier bit in w0[3] and zeros above, for sub fields of 0 or 1. -/
def LF.flag (f : LF) (k : Bool → Option Instr) : Option Instr :=
  if f.sub = 0 then k false else if f.sub = 1 then k true else none

/-- Shapes whose sub field is zero. -/
def LF.sub0 (f : LF) (k : Option Instr) : Option Instr := if f.sub = 0 then k else none

/-- Shapes whose sub field is a rounding mode. -/
def LF.rnd (f : LF) (k : Rnd → Option Instr) : Option Instr := (Rnd.ofCode f.sub).bind k

/-- ISHF: the operation in w0[5:4] and .clamp in w0[3] (R188). -/
def LF.shift (f : LF) (k : ShiftOp → Bool → Option Instr) : Option Instr :=
  k (ShiftOp.ofCode (f.sub / 2)) (f.sub % 2 == 1)

/-- The conversion fields of imm23 (R198). -/
def LF.cvt (f : LF) (k : Cvt → Nat → Option Instr) : Option Instr :=
  if f.ann = 0 ∧ f.mod = 0 ∧ f.c = unused ∧ bits f.w2 18 5 = 0 then
    (Kind.ofCode (bits f.w2 0 5)).bind fun s => (Kind.ofCode (bits f.w2 5 5)).bind fun d =>
      (Rnd.ofCode (bits f.w2 10 3)).bind fun r => k ⟨s, d, r, bit1 f.w2 13, bit1 f.w2 14⟩ (bits f.w2 15 3)
  else none

/-- Ordering and scope in ann (R144, R117). -/
def LF.memAnn (f : LF) : Option Ann := (Scope.ofCode (f.ann % 8)).map fun s => ⟨MemOrd.ofCode (f.ann / 8), s⟩

def Ann.code (a : Ann) : Nat := a.ord.code * 8 + a.scope.code

/-- A range descriptor of ten bits (R65). -/
def RangeDesc.ofCode (n : Nat) : RangeDesc := ⟨BitVec.ofNat 7 (n / 8), BitVec.ofNat 3 n⟩
def RangeDesc.word (r : RangeDesc) : Nat := r.base.toNat * 8 + r.code.toNat

/-- The six descriptor fields of w1 and w2 (R65). -/
def rangeFields (w1 w2 : Nat) : List Nat :=
  [bits w1 22 10, bits w1 12 10, bits w1 2 10, bits w2 22 10, bits w2 12 10, bits w2 2 10]

/-- LHDR (R65, R66). -/
def decodeLhdr (w0 w1 w2 : Nat) : Option Instr :=
  let n := bits w0 0 3
  let fs := rangeFields w1 w2
  if bits w0 4 18 = 7 * 2 ^ 15 ∧ n ≤ 6 ∧ bits w1 0 2 = 0 ∧ bits w2 0 2 = 0 ∧ (fs.drop n).all (· == 0) then
    some (.lhdr (bit1 w0 3) ((fs.take n).map RangeDesc.ofCode))
  else none

/-- A load shape of the memory range (R218). -/
def LF.load (f : LF) (k : MSize → Ann → Dst → Opnd → BitVec 23 → Instr) : Option Instr :=
  if f.b = unused ∧ bits f.w2 23 9 = 0 ∧ bit1 f.mod 5 = false then
    (MSize.ofCode f.low).bind fun sz => f.memAnn.bind fun an => (Dst.ofCode f.dest).bind fun d =>
      (Opnd.ofCode f.a).map fun a => k sz an d a (BitVec.ofNat 23 f.w2)
  else none

/-- A store shape; `rc` is n of form M, or 0 (R142). -/
def LF.store (f : LF) (k : MSize → Ann → Opnd → Opnd → BitVec 23 → Instr) : Option Instr :=
  if f.dest = unused ∧ bit1 f.mod 5 = false then
    (MSize.ofCode f.low).bind fun sz => f.memAnn.bind fun an => (Opnd.ofCode f.a).bind fun a =>
      (Opnd.ofCode f.b).map fun b => k sz an a b (BitVec.ofNat 23 f.w2)
  else none

/-- rc and n of form M agree (R142). -/
def LF.rcOk (f : LF) : Bool := bit1 f.w2 31 == (bits f.w2 23 8 != 0)

/-- No hint (R218: LDS, STS, LDR and STR). -/
def LF.noHint (f : LF) (k : Option Instr) : Option Instr := if bits f.mod 3 2 = 0 then k else none

/-- The status predicate of imm23[3:0] (R232, R298); the bits above are zero, and so is the number while it is off. -/
def LF.status (f : LF) (k : Option PReg → Option Instr) : Option Instr :=
  if f.imm23 = 0 then k none
  else if 8 ≤ f.imm23 ∧ f.imm23 < 16 then k (some (Fin.ofNat 8 f.imm23)) else none

def statusCode : Option PReg → Nat
  | none => 0
  | some p => 8 + p.val

/-- PUSH, POP, PEEK: w0[0], and ann[4:3] as one of two orderings (R232). -/
def LF.port (f : LF) (strong : Nat) (k : Bool → Bool → Port → Option PReg → Option Instr) : Option Instr :=
  if f.mod < 2 ∧ f.c = unused ∧ (f.ann = 0 ∨ f.ann = 8 * strong) then
    (Port.ofCode f.a).bind fun p => f.status fun st => k (f.mod == 1) (f.ann != 0) p st
  else none

/-- The L-ops by opcode (R146). -/
def decodeLF (f : LF) : Option Instr :=
  match f.opc with
  | 0x000 => f.flag fun s => f.int2 fun c ty => .iadd c ty s
  | 0x040 => f.flag fun s => f.intImm fun c ty => .iaddImm c ty s
  | 0x001 => f.flag fun s => f.int2 fun c ty => .isub c ty s
  | 0x041 => f.flag fun s => f.intImm fun c ty => .isubImm c ty s
  | 0x002 => f.flag fun s => f.int2 fun c ty => .imul c ty s
  | 0x042 => f.flag fun s => f.intImm fun c ty => .imulImm c ty s
  | 0x003 => f.sub0 (f.int2 .imulh)
  | 0x043 => f.sub0 (f.intImm .imulhImm)
  | 0x004 => f.flag fun s => f.int3 fun c ty => .imad c ty s
  | 0x005 => f.flag fun s => f.int2 fun c ty => .idiv c ty s
  | 0x045 => f.flag fun s => f.intImm fun c ty => .idivImm c ty s
  | 0x006 => (LogicOp.ofCode f.sub).bind fun o => f.int2 fun c ty => .ilop c ty o
  | 0x046 => (LogicOp.ofCode f.sub).bind fun o => f.intImm fun c ty => .ilopImm c ty o
  | 0x007 => f.shift fun o s => f.int2 fun c ty => .ishf c ty o s
  | 0x047 => f.shift fun o s => f.intImm fun c ty => .ishfImm c ty o s
  | 0x008 => f.sub0 (f.int2 .imin)
  | 0x048 => f.sub0 (f.intImm .iminImm)
  | 0x009 => f.sub0 (f.int2 .imax)
  | 0x049 => f.sub0 (f.intImm .imaxImm)
  | 0x00A => f.flag fun s => f.int1 fun c ty => .iabs c ty s
  | 0x00B => f.int2 fun c ty => .icmp c ty (ICond.ofCode f.sub)
  | 0x04B => f.intImm fun c ty => .icmpImm c ty (ICond.ofCode f.sub)
  | 0x00C => f.flag fun s => f.int2 fun c ty => .isel c ty s
  | 0x04C => f.flag fun s => f.intImm fun c ty => .iselImm c ty s
  | 0x00D => f.sub0 (f.int1 .ipopc)
  | 0x00E => f.sub0 (f.int1 .iclz)
  | 0x00F => f.sub0 (f.int1 .ibrev)
  | 0x010 => f.sub0 (f.int2 .iprmt)
  | 0x050 => f.sub0 (f.intImm .iprmtImm)
  | 0x011 => f.sub0 (f.int2 .iext)
  | 0x051 => f.sub0 (f.intImm .iextImm)
  | 0x012 => f.sub0 (f.int3 .iins)
  | 0x080 => f.rnd fun r => f.flt2 fun c ty => .fadd c ty r
  | 0x0C0 => f.rnd fun r => f.fltImm fun c ty => .faddImm c ty r
  | 0x081 => f.rnd fun r => f.flt2 fun c ty => .fsub c ty r
  | 0x0C1 => f.rnd fun r => f.fltImm fun c ty => .fsubImm c ty r
  | 0x082 => f.rnd fun r => f.flt2 fun c ty => .fmul c ty r
  | 0x0C2 => f.rnd fun r => f.fltImm fun c ty => .fmulImm c ty r
  | 0x083 => f.rnd fun r => f.flt3 fun c ty => .ffma c ty r
  | 0x084 => f.flag fun s => f.flt2 fun c ty => .fmin c ty s
  | 0x0C4 => f.flag fun s => f.fltImm fun c ty => .fminImm c ty s
  | 0x085 => f.flag fun s => f.flt2 fun c ty => .fmax c ty s
  | 0x0C5 => f.flag fun s => f.fltImm fun c ty => .fmaxImm c ty s
  | 0x086 => f.flt2 fun c ty => .fcmp c ty (FCond.ofCode f.sub)
  | 0x0C6 => f.fltImm fun c ty => .fcmpImm c ty (FCond.ofCode f.sub)
  | 0x087 => f.sub0 (f.flt1 .fclass)
  | 0x088 => f.rnd fun r => f.flt2 fun c ty => .fdiv c ty r
  | 0x0C8 => f.rnd fun r => f.fltImm fun c ty => .fdivImm c ty r
  | 0x089 => f.rnd fun r => f.flt1 fun c ty => .fsqrt c ty r
  | 0x08A => f.sub0 (f.flt1 .frcp)
  | 0x08B => f.sub0 (f.flt1 .frsq)
  | 0x08C => f.rnd fun r => f.flt2 fun c ty => .fscale c ty r
  | 0x0CC => f.rnd fun r => f.fltImm fun c ty => .fscaleImm c ty r
  | 0x08D => f.rnd fun r => f.flt1 fun c ty => .frnd c ty r
  | 0x100 => f.cvt fun k e => if e = 0 ∧ f.b = unused then
      (Dst.ofCode f.dest).bind fun d => (Opnd.ofCode f.a).map fun a => .fcvt f.ctl k d a else none
  | 0x101 => f.cvt fun k e => if e = 0 then
      (Dst.ofCode f.dest).bind fun d => (Opnd.ofCode f.a).bind fun a => (Opnd.ofCode f.b).map fun b =>
        .fpack f.ctl k d a b else none
  | 0x102 => f.cvt fun k e =>
      (Dst.ofCode f.dest).bind fun d => (Opnd.ofCode f.a).bind fun a => (Opnd.ofCode f.b).map fun b =>
        .funpk f.ctl k (BitVec.ofNat 3 e) d a b
  | 0x103 => f.sub0 (f.flt1 .fexp2)
  | 0x104 => f.sub0 (f.flt1 .flog2)
  | 0x105 => f.sub0 (f.flt1 .fsin)
  | 0x106 => f.sub0 (f.flt1 .fcos)
  | 0x141 =>
      if f.ann = 0 ∧ f.b = unused ∧ f.c = unused ∧ f.sub = 0 then
        match f.low with
        | 0 => if f.imm23 = 0 then
            (Dst.ofCode f.dest).bind fun d => (Opnd.ofCode f.a).map fun a => .mov f.ctl (.b32 d a) else none
        | 1 => if f.imm23 = 0 then
            (Dst.ofCode f.dest).bind fun d => (Opnd.ofCode f.a).map fun a => .mov f.ctl (.b64 d a) else none
        | 2 => if f.imm23 < 8 ∧ f.dest = unused then
            (Opnd.ofCode f.a).map fun a => .mov f.ctl (.toP (Fin.ofNat 8 f.imm23) a) else none
        | 3 => if f.imm23 < 8 ∧ f.a = unused then
            (Dst.ofCode f.dest).map fun d => .mov f.ctl (.fromP d (Fin.ofNat 8 f.imm23)) else none
        | _ => none
      else none
  | 0x142 =>
      if f.ann = 0 ∧ f.a = unused ∧ f.b = unused ∧ f.mod < 2 then
        (Dst.ofCode f.dest).map fun d => .movImm f.ctl (f.mod == 1) d (BitVec.ofNat 32 f.w2)
      else none
  | 0x143 =>
      if f.ann = 0 ∧ f.c = unused ∧ f.mod < 16 then
        (Dst.ofCode f.dest).bind fun d => (Opnd.ofCode f.a).bind fun a =>
          if bit1 f.mod 3 then
            (if f.b = unused ∧ f.imm23 < 32 then
              some (.shfl f.ctl (ShflMode.ofCode (f.mod % 4)) (bit1 f.mod 2) d a (.imm (BitVec.ofNat 5 f.imm23)))
             else none)
          else if f.imm23 = 0 then
            (Opnd.ofCode f.b).map fun b => .shfl f.ctl (ShflMode.ofCode (f.mod % 4)) (bit1 f.mod 2) d a (.reg b)
          else none
      else none
  | 0x144 =>
      if f.noC && f.dest == unused && f.b == unused && f.low == 0 then
        (VoteMode.ofCode f.sub).bind fun m => (Opnd.ofCode f.a).map fun a => .vote f.ctl m a
      else none
  | 0x145 =>
      if f.ann = 0 ∧ f.b = unused ∧ f.c = unused ∧ f.imm23 < 2 then
        (RedTy.ofCode f.low).bind fun ty => (RedOp.ofCode f.sub).bind fun op => (Dst.ofCode f.dest).bind fun d =>
          (Opnd.ofCode f.a).map fun a => .lred f.ctl ty op (f.imm23 == 1) d a
      else none
  | 0x146 =>
      if f.ann = 0 ∧ f.dest = unused ∧ f.a = unused ∧ f.b = unused ∧ f.mod = 0 then
        some (.lbr f.ctl (BitVec.ofNat 16 (f.w2 / 2 ^ 16)) (BitVec.ofNat 16 f.w2))
      else none
  | 0x147 => if f.noC && f.dest == unused && f.a == unused && f.b == unused && f.mod == 0 then some (.ljoin f.ctl) else none
  | 0x148 => if f.noC && f.dest == unused && f.a == unused && f.b == unused && f.mod == 0 then some (.lend f.ctl) else none
  | 0x149 => if f.noC && f.dest == unused && f.a == unused && f.b == unused && f.mod == 0 then some (.lkill f.ctl) else none
  | 0x180 => f.load fun sz => .ld f.ctl sz (LHint.ofCode (bits f.mod 3 2))
  | 0x181 => if f.rcOk then
      f.store fun sz an a b => .st f.ctl sz (LHint.ofCode (bits f.mod 3 2)) an a b (BitVec.ofNat 8 (bits f.w2 23 8))
      else none
  | 0x182 => f.noHint (f.load fun sz => .lds f.ctl sz)
  | 0x183 => if bits f.w2 23 9 = 0 then f.noHint (f.store fun sz => .sts f.ctl sz) else none
  | 0x184 => f.noHint (f.load fun sz => .ldr f.ctl sz)
  | 0x185 => if bits f.w2 23 9 = 0 then f.noHint (f.store fun sz => .str f.ctl sz) else none
  | 0x186 =>
      (AtomOp.ofCode (f.mod % 32)).bind fun op => f.memAnn.bind fun an => (Dst.ofCode f.dest).bind fun d =>
        (Opnd.ofCode f.a).bind fun a => (Opnd.ofCode f.b).bind fun b => (Opnd.ofCode f.c).map fun x =>
          .atom f.ctl op (bit1 f.mod 5) an d a b x (BitVec.ofNat 23 f.w2)
  | 0x187 =>
      if f.dest = unused ∧ f.c = unused then
        (AtomOp.ofCode (f.mod % 32)).bind fun op => f.memAnn.bind fun an =>
          (Opnd.ofCode f.a).bind fun a => (Opnd.ofCode f.b).map fun b =>
            .red f.ctl op (bit1 f.mod 5) an a b (BitVec.ofNat 23 f.w2)
      else none
  | 0x200 => f.port 2 fun w r p st => if f.dest = unused then
      (Opnd.ofCode f.b).map fun b => .push f.ctl w r p b st else none
  | 0x201 => f.port 1 fun w r p st => if f.b = unused then
      (Dst.ofCode f.dest).map fun d => .pop f.ctl w r d p st else none
  | 0x202 => f.port 1 fun w r p st => if f.b = unused then
      (Dst.ofCode f.dest).map fun d => .peek f.ctl w r d p st else none
  | 0x203 =>
      if f.noC && f.b == unused && f.mod == 0 then
        (Port.ofCode f.a).bind fun p => (Dst.ofCode f.dest).map fun d => .pstat f.ctl d p
      else none
  | 0x240 =>
      if f.ann = 0 ∧ f.imm23 = 0 ∧ f.dest = unused ∧ f.sub = 0 then
        (Opnd.ofCode f.a).bind fun a => (Opnd.ofCode f.b).bind fun b => (Opnd.ofCode f.c).map fun x =>
          .rsvUpd f.ctl (Fin.ofNat 8 f.low) a b x
      else none
  | 0x241 =>
      if f.ann = 0 ∧ f.dest = unused ∧ f.a = unused ∧ f.c = unused then
        (Opnd.ofCode f.b).map fun b =>
          .rsvMrg f.ctl (Fin.ofNat 8 f.low) (Fin.ofNat 8 f.sub) b (BitVec.ofNat 23 f.imm23)
      else none
  | 0x242 =>
      if f.noC && f.a == unused && f.b == unused && f.sub == 0 then
        (Dst.ofCode f.dest).map fun d => .rsvFin f.ctl (Fin.ofNat 8 f.low) d
      else none
  | 0x243 =>
      if f.noC && f.dest == unused && f.b == unused then
        (ZField.ofCode f.sub).bind fun z => (Opnd.ofCode f.a).map fun a => .rsvSet f.ctl (Fin.ofNat 8 f.low) z a
      else none
  | 0x244 =>
      if f.noC && f.a == unused && f.b == unused then
        (ZField.ofCode f.sub).bind fun z => (Dst.ofCode f.dest).map fun d => .rsvGet f.ctl (Fin.ofNat 8 f.low) z d
      else none
  | 0x245 =>
      if f.ann = 0 ∧ f.dest = unused ∧ f.a = unused ∧ f.b = unused ∧ f.c = unused ∧ f.mod = 0 ∧ f.imm23 < 256 then
        some (.rsvClr f.ctl (BitVec.ofNat 8 f.imm23))
      else none
  | 0x280 =>
      if f.ann = 0 ∧ f.dest = unused ∧ f.mod = 0 ∧ f.imm23 < 64 then
        (Opnd.ofCode f.a).bind fun a => (Opnd.ofCode f.b).bind fun b => (Opnd.ofCode f.c).map fun x =>
          .mldw f.ctl a b x (BitVec.ofNat 6 f.imm23)
      else none
  | 0x281 =>
      if f.ann = 0 ∧ f.dest = unused ∧ f.imm23 = 0 ∧ f.sub = 0 then
        (Opnd.ofCode f.a).bind fun a => (Opnd.ofCode f.b).bind fun b => (Opnd.ofCode f.c).map fun x =>
          .mma f.ctl (bit1 f.mod 0) (bit1 f.mod 1) (bit1 f.mod 2) a b x
      else none
  | 0x282 =>
      if f.noC && f.dest == unused && f.b == unused && f.mod == 0 then
        (Opnd.ofCode f.a).map fun a => .mzero f.ctl a
      else none
  | 0x283 =>
      if f.ann = 0 ∧ f.dest = unused ∧ f.imm23 < 64 then
        (if f.mod = 2 then
          (if f.a = unused ∧ f.b = unused ∧ f.c = unused then some (.mdrainFence f.ctl (BitVec.ofNat 6 f.imm23)) else none)
         else if f.mod < 2 then
          (Opnd.ofCode f.a).bind fun a => (Opnd.ofCode f.b).bind fun b => (Opnd.ofCode f.c).map fun x =>
            .mdrain f.ctl (f.mod == 1) a b x (BitVec.ofNat 6 f.imm23)
         else none)
      else none
  | 0x300 =>
      if f.ann = 0 ∧ f.mod < 4 ∧ f.imm23 < 64 then
        (Dst.ofCode f.dest).bind fun d => (Opnd.ofCode f.a).bind fun a => (Opnd.ofCode f.b).bind fun b =>
          (Opnd.ofCode f.c).map fun x => .trav f.ctl (bit1 f.mod 0) (bit1 f.mod 1) d a b x (BitVec.ofNat 6 f.imm23)
      else none
  | 0x301 =>
      if f.ann = 0 ∧ (f.mod = 0 ∨ f.mod = 2) ∧ f.b = unused ∧ f.c = unused ∧ f.imm23 < 64 then
        (Dst.ofCode f.dest).bind fun d => (Opnd.ofCode f.a).map fun a =>
          .tres f.ctl (bit1 f.mod 1) d a (BitVec.ofNat 6 f.imm23)
      else none
  | 0x302 =>
      if f.ann = 0 ∧ f.mod = 0 ∧ f.dest = unused then
        (Opnd.ofCode f.a).bind fun a => (Opnd.ofCode f.b).bind fun b => (Opnd.ofCode f.c).bind fun x =>
          f.status fun st => some (.tresume f.ctl a b x st)
      else none
  | 0x303 =>
      if f.noC && f.mod == 0 then
        (Dst.ofCode f.dest).bind fun d => (Opnd.ofCode f.a).bind fun a => (Opnd.ofCode f.b).map fun b =>
          .tlog f.ctl d a b
      else none
  | _ => none

/-- The allocated L-op opcodes (R146). -/
def lopcode (n : Nat) : Bool :=
  n ≤ 0x012 || (0x040 ≤ n && n ≤ 0x043) || (0x045 ≤ n && n ≤ 0x049) || n == 0x04B || n == 0x04C || n == 0x050 ||
  n == 0x051 || (0x080 ≤ n && n ≤ 0x08D) || (0x0C0 ≤ n && n ≤ 0x0C2) || (0x0C4 ≤ n && n ≤ 0x0C6) || n == 0x0C8 ||
  n == 0x0CC || (0x100 ≤ n && n ≤ 0x106) || (0x140 ≤ n && n ≤ 0x149) || (0x180 ≤ n && n ≤ 0x187) ||
  (0x200 ≤ n && n ≤ 0x203) || (0x240 ≤ n && n ≤ 0x245) || (0x280 ≤ n && n ≤ 0x283) || (0x300 ≤ n && n ≤ 0x303)

/-- Decode the three words of one L-op (R145 steps 1 and 2). -/
def decodeL (w0 w1 w2 : Nat) : Except DecodeErr Instr :=
  if lopcode (bits w0 22 10) then
    if bits w0 22 10 = 0x140 then vouched (decodeLhdr w0 w1 w2) else vouched (decodeLF (LF.ofWords w0 w1 w2))
  else .error .illegalOpcode

/-- Decode an instruction from its words: one of the S-stream or three of the L-stream. -/
def decode : List Nat → Except DecodeErr Instr
  | [w] => decodeS w
  | [w0, w1, w2] => decodeL w0 w1 w2
  | _ => .error .illegalOpcode

/-- The value of bytes in memory order, least significant first (R3). -/
def leNat : List Byte → Nat
  | [] => 0
  | b :: bs => b.toNat + 256 * leNat bs

/-- Decode an instruction from its bytes: 4 of an S-op or 12 of an L-op. -/
def decodeBytes (bs : List Byte) : Except DecodeErr Instr :=
  if bs.length = 4 then decodeS (leNat bs)
  else if bs.length = 12 then decodeL (leNat (bs.take 4)) (leNat ((bs.drop 4).take 4)) (leNat (bs.drop 8))
  else .error .illegalOpcode

/-- The instruction read from a table word: 32 bits of the S-stream, or up to 96 bits of the L-stream. -/
def decodeTableWord (nbits w : Nat) : Option Instr :=
  if nbits ≤ 32 then (decodeS (w % 2 ^ 32)).toOption
  else (decodeL (bits w 0 32) (bits w 32 32) (bits w 64 32)).toOption

/-! ## The encoder -/

def SrcB.i : SrcB → Nat
  | .reg _ => 0
  | .imm _ => 1

def SrcB.rb : SrcB → Nat
  | .reg r => r.val
  | .imm v => v.toNat / 16

def SrcB.lo : SrcB → Nat
  | .reg _ => 0
  | .imm v => v.toNat % 16

def encRab (op sub : Nat) (d a : SReg) (b : SrcB) : List Nat := [SRf.word ⟨op, d.val, a.val, b.rb, b.i, sub, b.lo⟩]

def encImm (op sub : Nat) (d a : Nat) (k : BitVec 10) : List Nat :=
  [SRf.word ⟨op, d, a, k.toNat / 16, 1, sub, k.toNat % 16⟩]

def encReg (op sub : Nat) (d a b : Nat) : List Nat := [SRf.word ⟨op, d, a, b, 0, sub, 0⟩]

/-- The three words of an L-op. -/
def LF.words (f : LF) : List Nat := [f.w0, f.w1, f.w2]

def encInt2 (opc : Nat) (c : LCtl) (ty : IntTy) (sub : Nat) (d : Dst) (a b : Opnd) : List Nat :=
  LF.words ⟨opc, c, sub * 8 + ty.code, d.code, a.code, b.code, 0, formC unused 0⟩

def encIntImm (opc : Nat) (c : LCtl) (ty : IntTy) (sub : Nat) (d : Dst) (a : Opnd) (imm : Word) : List Nat :=
  LF.words ⟨opc, c, sub * 8 + ty.code, d.code, a.code, unused, 0, imm.toNat⟩

def encInt1 (opc : Nat) (c : LCtl) (ty : IntTy) (sub : Nat) (d : Dst) (a : Opnd) : List Nat :=
  LF.words ⟨opc, c, sub * 8 + ty.code, d.code, a.code, unused, 0, formC unused 0⟩

def encInt3 (opc : Nat) (c : LCtl) (ty : IntTy) (sub : Nat) (d : Dst) (a b x : Opnd) : List Nat :=
  LF.words ⟨opc, c, sub * 8 + ty.code, d.code, a.code, b.code, 0, formC x.code 0⟩

def encFlt2 (opc : Nat) (c : LCtl) (ty : FTy) (sub : Nat) (d : Dst) (a b : Opnd) : List Nat :=
  LF.words ⟨opc, c, sub * 8 + ty.code, d.code, a.code, b.code, 0, formC unused 0⟩

def encFltImm (opc : Nat) (c : LCtl) (ty : FTy) (sub : Nat) (d : Dst) (a : Opnd) (imm : Word) : List Nat :=
  LF.words ⟨opc, c, sub * 8 + ty.code, d.code, a.code, unused, 0, imm.toNat⟩

def encFlt1 (opc : Nat) (c : LCtl) (ty : FTy) (sub : Nat) (d : Dst) (a : Opnd) : List Nat :=
  LF.words ⟨opc, c, sub * 8 + ty.code, d.code, a.code, unused, 0, formC unused 0⟩

def encFlt3 (opc : Nat) (c : LCtl) (ty : FTy) (sub : Nat) (d : Dst) (a b x : Opnd) : List Nat :=
  LF.words ⟨opc, c, sub * 8 + ty.code, d.code, a.code, b.code, 0, formC x.code 0⟩

def Cvt.code (k : Cvt) (e : Nat) : Nat :=
  e * 2 ^ 15 + k.blk.toNat * 2 ^ 14 + k.sat.toNat * 2 ^ 13 + k.rnd.code * 2 ^ 10 + k.dst.code * 2 ^ 5 + k.src.code

def encBare (opc : Nat) (c : LCtl) : List Nat :=
  LF.words ⟨opc, c, 0, unused, unused, unused, 0, formC unused 0⟩

def encLoad (opc : Nat) (c : LCtl) (sz : MSize) (hint : Nat) (an : Ann) (d : Dst) (a : Opnd) (off : BitVec 23) : List Nat :=
  LF.words ⟨opc, c, hint * 8 + sz.code, d.code, a.code, unused, an.code, off.toNat⟩

def encStore (opc : Nat) (c : LCtl) (sz : MSize) (hint : Nat) (an : Ann) (a b : Opnd) (rc : Nat) (off : BitVec 23) :
    List Nat :=
  LF.words ⟨opc, c, hint * 8 + sz.code, unused, a.code, b.code, an.code,
    (if rc = 0 then 0 else 2 ^ 31) + rc * 2 ^ 23 + off.toNat⟩

/-- The descriptor fields of LHDR. -/
def rangeWord (rs : List RangeDesc) (i : Nat) : Nat :=
  match rs[i]? with
  | some r => r.word
  | none => 0

def encLhdr (z : Bool) (rs : List RangeDesc) : List Nat :=
  [0x140 * 2 ^ 22 + 7 * 2 ^ 19 + z.toNat * 8 + rs.length,
   rangeWord rs 0 * 2 ^ 22 + rangeWord rs 1 * 2 ^ 12 + rangeWord rs 2 * 2 ^ 2,
   rangeWord rs 3 * 2 ^ 22 + rangeWord rs 4 * 2 ^ 12 + rangeWord rs 5 * 2 ^ 2]

/-- The words of an instruction; none for a step of the device and for a handler action. -/
def encode : Instr → List Nat
  | .sadd d a b => encRab 0x00 0 d a b
  | .ssub d a b => encRab 0x01 0 d a b
  | .sand d a b => encRab 0x02 0 d a b
  | .sor d a b => encRab 0x03 0 d a b
  | .sxor d a b => encRab 0x04 0 d a b
  | .sshl d a b => encRab 0x05 0 d a b
  | .sshr d a b => encRab 0x06 0 d a b
  | .ssar d a b => encRab 0x06 1 d a b
  | .smul d a b => encRab 0x07 0 d a b
  | .smulh d a b => encRab 0x07 1 d a b
  | .smulhU d a b => encRab 0x07 2 d a b
  | .sdiv d a b => encRab 0x08 0 d a b
  | .sdivU d a b => encRab 0x08 1 d a b
  | .srem d a b => encRab 0x09 0 d a b
  | .sremU d a b => encRab 0x09 1 d a b
  | .smin d a b => encRab 0x0A 0 d a b
  | .smax d a b => encRab 0x0A 1 d a b
  | .sminU d a b => encRab 0x0A 2 d a b
  | .smaxU d a b => encRab 0x0A 3 d a b
  | .scmp c d a b => encRab 0x0B c.code d a b
  | .sselNz d a b => encRab 0x0C 0 d a b
  | .sselZ d a b => encRab 0x0C 1 d a b
  | .sli d imm => [wordU 0x0D d.val imm.toNat]
  | .slui d imm => [wordU 0x0E d.val imm.toNat]
  | .sbr c a b off => [wordB a.val b.val c.code off.toNat 0x10]
  | .sjmp off => [wordU 0x11 0 off.toNat]
  | .scall d off => [wordU 0x12 d.val off.toNat]
  | .sret a => encReg 0x13 0 0 a.val 0
  | .sloop d off => [wordU 0x14 d.val off.toNat]
  | .sld d a an sz sx off => [wordM 0x18 d.val a.val an.ord.code an.scope.code sz.code sx.toNat off.toNat]
  | .sst d a an sz off => [wordM 0x19 d.val a.val an.ord.code an.scope.code sz.code 0 off.toNat]
  | .satom d a op wide nr ordm an =>
      [wordA d.val a.val op.code wide.toNat nr.toNat ordm.toNat an.ord.code an.scope.code]
  | .sldk d a sz sx off => [wordM 0x1B d.val a.val 0 0 sz.code sx.toNat off.toNat]
  | .lrun a cnt off => [wordL a.val cnt.toNat off.toNat]
  | .spop d => encReg 0x21 0 d.val 0 0
  | .ldrain => encReg 0x22 0 0 0 0
  | .regxAcq k => encImm 0x23 0 0 0 k
  | .regxRel k => encImm 0x24 0 0 0 k
  | .jcopyLoad a b rel => encReg 0x28 (0 + 4 * rel.toNat) 0 a.val b.val
  | .jcopyStore a b rel => encReg 0x28 (1 + 4 * rel.toNat) 0 a.val b.val
  | .jcopyAdd a b rel => encReg 0x28 (2 + 4 * rel.toNat) 0 a.val b.val
  | .jstat d tag => encImm 0x29 0 d.val 0 tag
  | .cwait a b tags y any off =>
      [wordB a.val b.val (4 * tags.toNat + 2 * y.toNat + any.toNat) off.toNat 0x2A]
  | .ctest d a b tags => encReg 0x2B tags.toNat d.val a.val b.val
  | .wcnt d => encReg 0x2C 0 d.val 0 0
  | .rgnBeg k => encImm 0x30 0 0 0 k
  | .rgnEnd d => encReg 0x30 1 d.val 0 0
  | .rgnIn a b => encReg 0x31 0 0 a.val b.val
  | .rgnOut a b => encReg 0x31 1 0 a.val b.val
  | .bond a => encReg 0x32 0 0 a.val 0
  | .barArr k => encImm 0x33 0 0 0 k
  | .barWait d k => encImm 0x33 1 d.val 0 k
  | .cbarArr k => encImm 0x34 0 0 0 k
  | .cbarWait d k => encImm 0x34 1 d.val 0 k
  | .trap k => encImm 0x36 0 0 0 k
  | .sysc d a k => encImm 0x36 1 d.val a.val k
  | .srdx d k => encImm 0x37 0 d.val 0 k
  | .swrx a k => encImm 0x38 0 0 a.val k
  | .nop => encReg 0x39 0 0 0 0
  | .yield k => encImm 0x39 1 0 0 k
  | .exit => encReg 0x3A 0 0 0 0
  | .rseed a => encReg 0x3B 0 0 a.val 0
  | .xim p => [0x3C * 2 ^ 26 + p.toNat]
  | .xhnt k n => [0x3D * 2 ^ 26 + n.toNat * 2 ^ 4 + k.code]
  | .iadd c ty s d a b => encInt2 0x000 c ty s.toNat d a b
  | .iaddImm c ty s d a i => encIntImm 0x040 c ty s.toNat d a i
  | .isub c ty s d a b => encInt2 0x001 c ty s.toNat d a b
  | .isubImm c ty s d a i => encIntImm 0x041 c ty s.toNat d a i
  | .imul c ty s d a b => encInt2 0x002 c ty s.toNat d a b
  | .imulImm c ty s d a i => encIntImm 0x042 c ty s.toNat d a i
  | .imulh c ty d a b => encInt2 0x003 c ty 0 d a b
  | .imulhImm c ty d a i => encIntImm 0x043 c ty 0 d a i
  | .imad c ty s d a b x => encInt3 0x004 c ty s.toNat d a b x
  | .idiv c ty s d a b => encInt2 0x005 c ty s.toNat d a b
  | .idivImm c ty s d a i => encIntImm 0x045 c ty s.toNat d a i
  | .ilop c ty o d a b => encInt2 0x006 c ty o.code d a b
  | .ilopImm c ty o d a i => encIntImm 0x046 c ty o.code d a i
  | .ishf c ty o s d a b => encInt2 0x007 c ty (o.code * 2 + s.toNat) d a b
  | .ishfImm c ty o s d a i => encIntImm 0x047 c ty (o.code * 2 + s.toNat) d a i
  | .imin c ty d a b => encInt2 0x008 c ty 0 d a b
  | .iminImm c ty d a i => encIntImm 0x048 c ty 0 d a i
  | .imax c ty d a b => encInt2 0x009 c ty 0 d a b
  | .imaxImm c ty d a i => encIntImm 0x049 c ty 0 d a i
  | .iabs c ty s d a => encInt1 0x00A c ty s.toNat d a
  | .icmp c ty o d a b => encInt2 0x00B c ty o.code d a b
  | .icmpImm c ty o d a i => encIntImm 0x04B c ty o.code d a i
  | .isel c ty s d a b => encInt2 0x00C c ty s.toNat d a b
  | .iselImm c ty s d a i => encIntImm 0x04C c ty s.toNat d a i
  | .ipopc c ty d a => encInt1 0x00D c ty 0 d a
  | .iclz c ty d a => encInt1 0x00E c ty 0 d a
  | .ibrev c ty d a => encInt1 0x00F c ty 0 d a
  | .iprmt c ty d a b => encInt2 0x010 c ty 0 d a b
  | .iprmtImm c ty d a i => encIntImm 0x050 c ty 0 d a i
  | .iext c ty d a b => encInt2 0x011 c ty 0 d a b
  | .iextImm c ty d a i => encIntImm 0x051 c ty 0 d a i
  | .iins c ty d a b x => encInt3 0x012 c ty 0 d a b x
  | .fadd c ty r d a b => encFlt2 0x080 c ty r.code d a b
  | .faddImm c ty r d a i => encFltImm 0x0C0 c ty r.code d a i
  | .fsub c ty r d a b => encFlt2 0x081 c ty r.code d a b
  | .fsubImm c ty r d a i => encFltImm 0x0C1 c ty r.code d a i
  | .fmul c ty r d a b => encFlt2 0x082 c ty r.code d a b
  | .fmulImm c ty r d a i => encFltImm 0x0C2 c ty r.code d a i
  | .ffma c ty r d a b x => encFlt3 0x083 c ty r.code d a b x
  | .fmin c ty s d a b => encFlt2 0x084 c ty s.toNat d a b
  | .fminImm c ty s d a i => encFltImm 0x0C4 c ty s.toNat d a i
  | .fmax c ty s d a b => encFlt2 0x085 c ty s.toNat d a b
  | .fmaxImm c ty s d a i => encFltImm 0x0C5 c ty s.toNat d a i
  | .fcmp c ty o d a b => encFlt2 0x086 c ty o.code d a b
  | .fcmpImm c ty o d a i => encFltImm 0x0C6 c ty o.code d a i
  | .fclass c ty d a => encFlt1 0x087 c ty 0 d a
  | .fdiv c ty r d a b => encFlt2 0x088 c ty r.code d a b
  | .fdivImm c ty r d a i => encFltImm 0x0C8 c ty r.code d a i
  | .fsqrt c ty r d a => encFlt1 0x089 c ty r.code d a
  | .frcp c ty d a => encFlt1 0x08A c ty 0 d a
  | .frsq c ty d a => encFlt1 0x08B c ty 0 d a
  | .fscale c ty r d a b => encFlt2 0x08C c ty r.code d a b
  | .fscaleImm c ty r d a i => encFltImm 0x0CC c ty r.code d a i
  | .frnd c ty r d a => encFlt1 0x08D c ty r.code d a
  | .fcvt c k d a => LF.words ⟨0x100, c, 0, d.code, a.code, unused, 0, formC unused (k.code 0)⟩
  | .fpack c k d a b => LF.words ⟨0x101, c, 0, d.code, a.code, b.code, 0, formC unused (k.code 0)⟩
  | .funpk c k e d a b => LF.words ⟨0x102, c, 0, d.code, a.code, b.code, 0, formC unused (k.code e.toNat)⟩
  | .fexp2 c ty d a => encFlt1 0x103 c ty 0 d a
  | .flog2 c ty d a => encFlt1 0x104 c ty 0 d a
  | .fsin c ty d a => encFlt1 0x105 c ty 0 d a
  | .fcos c ty d a => encFlt1 0x106 c ty 0 d a
  | .lhdr z rs => encLhdr z rs
  | .mov c op =>
      match op with
      | .b32 d a => LF.words ⟨0x141, c, 0, d.code, a.code, unused, 0, formC unused 0⟩
      | .b64 d a => LF.words ⟨0x141, c, 1, d.code, a.code, unused, 0, formC unused 0⟩
      | .toP p a => LF.words ⟨0x141, c, 2, unused, a.code, unused, 0, formC unused p.val⟩
      | .fromP d p => LF.words ⟨0x141, c, 3, d.code, unused, unused, 0, formC unused p.val⟩
  | .movImm c w64 d i => LF.words ⟨0x142, c, w64.toNat, d.code, unused, unused, 0, i.toNat⟩
  | .shfl c m w64 d a sel =>
      match sel with
      | .reg b => LF.words ⟨0x143, c, w64.toNat * 4 + m.code, d.code, a.code, b.code, 0, formC unused 0⟩
      | .imm k => LF.words ⟨0x143, c, 8 + w64.toNat * 4 + m.code, d.code, a.code, unused, 0, formC unused k.toNat⟩
  | .vote c m a => LF.words ⟨0x144, c, m.code * 8, unused, a.code, unused, 0, formC unused 0⟩
  | .lred c ty op l d a =>
      LF.words ⟨0x145, c, op.code * 8 + ty.code, d.code, a.code, unused, 0, formC unused l.toNat⟩
  | .lbr c t j => LF.words ⟨0x146, c, 0, unused, unused, unused, 0, t.toNat * 2 ^ 16 + j.toNat⟩
  | .ljoin c => encBare 0x147 c
  | .lend c => encBare 0x148 c
  | .lkill c => encBare 0x149 c
  | .ld c sz h an d a off => encLoad 0x180 c sz h.code an d a off
  | .st c sz h an a b rc off => encStore 0x181 c sz h.code an a b rc.toNat off
  | .lds c sz an d a off => encLoad 0x182 c sz 0 an d a off
  | .sts c sz an a b off => encStore 0x183 c sz 0 an a b 0 off
  | .ldr c sz an d a off => encLoad 0x184 c sz 0 an d a off
  | .str c sz an a b off => encStore 0x185 c sz 0 an a b 0 off
  | .atom c op ordm an d a b x off =>
      LF.words ⟨0x186, c, ordm.toNat * 32 + op.code, d.code, a.code, b.code, an.code, formC x.code off.toNat⟩
  | .red c op ordm an a b off =>
      LF.words ⟨0x187, c, ordm.toNat * 32 + op.code, unused, a.code, b.code, an.code, formC unused off.toNat⟩
  | .push c w64 rel p b st =>
      LF.words ⟨0x200, c, w64.toNat, unused, p.code, b.code, rel.toNat * 16, formC unused (statusCode st)⟩
  | .pop c w64 acq d p st =>
      LF.words ⟨0x201, c, w64.toNat, d.code, p.code, unused, acq.toNat * 8, formC unused (statusCode st)⟩
  | .peek c w64 acq d p st =>
      LF.words ⟨0x202, c, w64.toNat, d.code, p.code, unused, acq.toNat * 8, formC unused (statusCode st)⟩
  | .pstat c d p => LF.words ⟨0x203, c, 0, d.code, p.code, unused, 0, formC unused 0⟩
  | .rsvUpd c n a b x => LF.words ⟨0x240, c, n.val, unused, a.code, b.code, 0, formC x.code 0⟩
  | .rsvMrg c n s b cap => LF.words ⟨0x241, c, s.val * 8 + n.val, unused, unused, b.code, 0, formC unused cap.toNat⟩
  | .rsvFin c n d => LF.words ⟨0x242, c, n.val, d.code, unused, unused, 0, formC unused 0⟩
  | .rsvSet c n f a => LF.words ⟨0x243, c, f.code * 8 + n.val, unused, a.code, unused, 0, formC unused 0⟩
  | .rsvGet c n f d => LF.words ⟨0x244, c, f.code * 8 + n.val, d.code, unused, unused, 0, formC unused 0⟩
  | .rsvClr c m => LF.words ⟨0x245, c, 0, unused, unused, unused, 0, formC unused m.toNat⟩
  | .mldw c a b x tag => LF.words ⟨0x280, c, 0, unused, a.code, b.code, 0, formC x.code tag.toNat⟩
  | .mma c o r k a b x =>
      LF.words ⟨0x281, c, k.toNat * 4 + r.toNat * 2 + o.toNat, unused, a.code, b.code, 0, formC x.code 0⟩
  | .mzero c a => LF.words ⟨0x282, c, 0, unused, a.code, unused, 0, formC unused 0⟩
  | .mdrain c add a b x tag => LF.words ⟨0x283, c, add.toNat, unused, a.code, b.code, 0, formC x.code tag.toNat⟩
  | .mdrainFence c tag => LF.words ⟨0x283, c, 2, unused, unused, unused, 0, formC unused tag.toNat⟩
  | .trav c l q d a b x hod =>
      LF.words ⟨0x300, c, q.toNat * 2 + l.toNat, d.code, a.code, b.code, 0, formC x.code hod.toNat⟩
  | .tres c q d a hod => LF.words ⟨0x301, c, q.toNat * 2, d.code, a.code, unused, 0, formC unused hod.toNat⟩
  | .tresume c a b x st => LF.words ⟨0x302, c, 0, unused, a.code, b.code, 0, formC x.code (statusCode st)⟩
  | .tlog c d a b => LF.words ⟨0x303, c, 0, d.code, a.code, b.code, 0, formC unused 0⟩
  | _ => []

end Sys2Proof
end

