-- ==== Sys2Proof/Machine/Flags.lean ====
section
/-!
DEFINITION. The five floating-point flags (spec/04 R97) and how an instruction gathers them (R98).
-/

namespace Sys2Proof.Machine

/-- A set of floating-point flags, laid out as fflags (R97). -/
abbrev Flags := BitVec 5

/-- Invalid operation, signalling NaN input, or out-of-range conversion. -/
def fNV : Flags := 0b10000
/-- Division of a finite non-zero value by zero. -/
def fDZ : Flags := 0b01000
/-- Overflow (R90). -/
def fOF : Flags := 0b00100
/-- Underflow (R95). -/
def fUF : Flags := 0b00010
/-- Inexact result. -/
def fNX : Flags := 0b00001

/-- A flag raised when a condition holds. -/
def flagIf (c : Bool) (f : Flags) : Flags := if c then f else 0

/-- The OR over the elements of an instruction (R98). -/
def flagsOr (fs : List Flags) : Flags := fs.foldl (· ||| ·) 0

/-- Raising flags: bits are set and none is cleared (R97, R98). -/
def raiseFlags (old new : Flags) : Flags := old ||| new

end Sys2Proof.Machine
end

