-- ==== Sys2Proof/Machine/Float.lean ====
section
/-!
DEFINITION. Number formats and arithmetic (spec/04): decoding of every format, the one rounding that every unit shares
(R88 to R96), and exact arithmetic on the values that enter it. A value is computed exactly, as an integer times a power of
two with a mark for a remainder below its last place, and narrowed once.
-/

namespace Sys2Proof.Machine

/-- An exact real, or one known to lie strictly between two neighbouring multiples of 2^e: magnitude m 2^e when `more` is
false, and strictly between m 2^e and (m + 1) 2^e when it is true. -/
structure Ex where
  neg : Bool
  m : Nat
  e : Int
  more : Bool
  deriving DecidableEq, Repr

/-- The value of an encoding. -/
inductive Val where
  | nan (signalling : Bool)
  | inf (neg : Bool)
  | fin (x : Ex)
  deriving DecidableEq, Repr

/-- What the all-ones exponent means (R81). -/
inductive Top where
  | ieee | e4m3 | plain
  deriving DecidableEq, Repr

/-- A binary float format (R80). -/
structure Flt where
  e : Nat
  f : Nat
  bias : Nat
  top : Top
  deriving DecidableEq, Repr

def fp64 : Flt := ⟨11, 52, 1023, .ieee⟩
def fp32 : Flt := ⟨8, 23, 127, .ieee⟩
def fr19 : Flt := ⟨8, 10, 127, .ieee⟩
def bf16 : Flt := ⟨8, 7, 127, .ieee⟩
def fp16 : Flt := ⟨5, 10, 15, .ieee⟩
def e5m2 : Flt := ⟨5, 2, 15, .ieee⟩
def e4m3 : Flt := ⟨4, 3, 7, .e4m3⟩
def e3m2 : Flt := ⟨3, 2, 3, .plain⟩
def e2m3 : Flt := ⟨2, 3, 1, .plain⟩
def q4f : Flt := ⟨2, 1, 1, .plain⟩

/-- The exponent of the smallest subnormal. -/
def Flt.qmin (F : Flt) : Int := 1 - (F.bias : Int) - (F.f : Int)

/-- The exponent of the smallest normal value. -/
def Flt.emin (F : Flt) : Int := 1 - (F.bias : Int)

/-- The encoding of the largest finite magnitude (R82). -/
def Flt.maxMag (F : Flt) : Nat :=
  match F.top with
  | .ieee => (2 ^ F.e - 1) * 2 ^ F.f - 1
  | .e4m3 => 2 ^ (F.e + F.f) - 2
  | .plain => 2 ^ (F.e + F.f) - 1

/-- The encoding of +infinity of a format that has one. -/
def Flt.infMag (F : Flt) : Nat := (2 ^ F.e - 1) * 2 ^ F.f

/-- The canonical NaN (R81). -/
def Flt.nan (F : Flt) : Nat :=
  match F.top with
  | .ieee => F.infMag + 2 ^ (F.f - 1)
  | .e4m3 => 2 ^ (F.e + F.f) - 1
  | .plain => 0

/-- The sign bit's weight. -/
def Flt.signBit (F : Flt) : Nat := 2 ^ (F.e + F.f)

def Flt.signed (F : Flt) (neg : Bool) (mag : Nat) : Nat := if neg then F.signBit + mag else mag

/-- The value of an encoding (R80, R81). The NaN of E4M3 has no quiet bit and is taken as quiet (notes/assumptions/12.md). -/
def Flt.decode (F : Flt) (w : Nat) : Val :=
  let neg := w / F.signBit % 2 == 1
  let mag := w % F.signBit
  let ex := mag / 2 ^ F.f
  let fr := mag % 2 ^ F.f
  if F.top == .ieee && ex == 2 ^ F.e - 1 then
    if fr == 0 then .inf neg else .nan (fr / 2 ^ (F.f - 1) == 0)
  else if F.top == .e4m3 && mag == 2 ^ (F.e + F.f) - 1 then .nan false
  else if ex == 0 then .fin ⟨neg, fr, F.qmin, false⟩
  else .fin ⟨neg, 2 ^ F.f + fr, F.qmin + (ex : Int) - 1, false⟩

/-- 2^k for an integer k that is not negative, and 1 otherwise. -/
def pow2 (k : Int) : Nat := 2 ^ k.toNat

/-- Whether the value is zero. -/
def Ex.isZero (x : Ex) : Bool := x.m == 0 && !x.more

/-- floor(log2 |x|) of a value whose m is not zero. -/
def Ex.log (x : Ex) : Int := x.e + (Nat.log2 x.m : Int)

/-- The choice between the neighbours a and b of R88: `lo` is a's index, `num / den` (with `more` a remainder) how far the
value lies from a to b, `v` the draw of R89. Answers whether b is taken. -/
def takesB (mode : Rnd) (neg : Bool) (lo num den : Nat) (more : Bool) (v : Nat) : Bool :=
  let inexact := num != 0 || more
  match mode with
  | .rne => decide (den < 2 * num) || (2 * num == den && (more || lo % 2 == 1))
  | .rtz => false
  | .rup => !neg && inexact
  | .rdn => neg && inexact
  | .sr => decide (v < num * 2 ^ 32 / den)

/-- The magnitude as a multiple of 2^q, rounded by the mode, and whether it was inexact. A value far below 2^q is cut to its
leading places, which changes no choice. -/
def roundAt (mode : Rnd) (v : Nat) (x : Ex) (q : Int) : Nat × Bool :=
  if q ≤ x.e then (x.m * pow2 (x.e - q), x.more)
  else
    let d := (q - x.e).toNat
    let far := Nat.log2 x.m + 80 < d
    let den := if far then 2 ^ 80 else 2 ^ d
    let m := if far then (if x.m = 0 then 0 else 1) else x.m
    let lo := m / den
    let num := m % den
    let inexact := num != 0 || x.more
    (if takesB mode x.neg lo num den x.more v then lo + 1 else lo, inexact)

/-- The spacing of the format's values at x. -/
def Flt.quantum (F : Flt) (x : Ex) : Int := max (x.log - (F.f : Int)) F.qmin

/-- Tiny after rounding with unbounded exponent (R95). -/
def Flt.tiny (F : Flt) (mode : Rnd) (v : Nat) (x : Ex) : Bool :=
  if F.emin ≤ x.log then false
  else
    let q := x.log - (F.f : Int)
    let n := (roundAt mode v x q).1
    !(x.log + 1 == F.emin && n == 2 ^ (F.f + 1))

/-- round(x, F, mode) with the flags of R90 and R95; `sat` requests saturation. A zero keeps its sign. -/
def Flt.round (F : Flt) (mode : Rnd) (sat : Bool) (v : Nat) (x : Ex) : Nat × Flags :=
  if x.m == 0 then (F.signed x.neg 0, flagIf x.more (fUF ||| fNX))
  else
    let q := F.quantum x
    let (n, inexact) := roundAt mode v x q
    let mag := (q - F.qmin).toNat * 2 ^ F.f + n
    if F.maxMag < mag then
      let away := match mode with
        | .rne => true
        | .rtz => false
        | .rup => !x.neg
        | .rdn => x.neg
        | .sr => true
      let out :=
        if sat || F.top == .plain then F.signed x.neg F.maxMag
        else if F.top == .e4m3 then F.nan
        else if away then F.signed x.neg F.infMag
        else F.signed x.neg F.maxMag
      (out, fOF ||| fNX)
    else (F.signed x.neg mag, flagIf inexact fNX ||| flagIf (inexact && F.tiny mode v x) fUF)

/-- A NaN result (R94): the canonical NaN, or +0 with NV in a format that has none. -/
def Flt.nanResult (F : Flt) (signalling : Bool) : Nat × Flags :=
  if F.top == .plain then (0, fNV) else (F.nan, flagIf signalling fNV)

/-- An infinity as a result of a conversion (R94). -/
def Flt.infResult (F : Flt) (sat : Bool) (neg : Bool) : Nat × Flags :=
  if F.top == .ieee && !sat then (F.signed neg F.infMag, 0) else (F.signed neg F.maxMag, fNV)

/-- round of any value: R94 for NaN and infinity. -/
def Flt.convert (F : Flt) (mode : Rnd) (sat : Bool) (v : Nat) : Val → Nat × Flags
  | .nan s => F.nanResult s
  | .inf neg => F.infResult sat neg
  | .fin x => F.round mode sat v x

/-! ## Integer targets (R96) -/

/-- A two's complement or unsigned range. -/
def intLo (signed : Bool) (bits : Nat) : Int := if signed then -((2 ^ (bits - 1) : Nat) : Int) else 0
def intHi (signed : Bool) (bits : Nat) : Int :=
  if signed then ((2 ^ (bits - 1) : Nat) : Int) - 1 else ((2 ^ bits : Nat) : Int) - 1

/-- The low bits of an integer. -/
def intBits (bits : Nat) (x : Int) : Nat := (x % ((2 ^ bits : Nat) : Int)).toNat

/-- A conversion into an integer format: rounding, then saturation with NV (R96). -/
def toInt (signed : Bool) (bits : Nat) (mode : Rnd) (v : Nat) : Val → Int × Flags
  | .nan _ => (0, fNV)
  | .inf neg => (if neg then intLo signed bits else intHi signed bits, fNV)
  | .fin x =>
    let huge := decide (2 * bits + 64 < x.log) && x.m != 0
    let (n, inexact) := if huge then (2 ^ (bits + 1), false) else roundAt mode v x 0
    let r : Int := if x.neg then -(n : Int) else (n : Int)
    if r < intLo signed bits then (intLo signed bits, fNV)
    else if intHi signed bits < r then (intHi signed bits, fNV)
    else (r, flagIf inexact fNX)

/-- The value of an integer. -/
def ofInt (x : Int) : Val := .fin ⟨decide (x < 0), x.natAbs, 0, false⟩

/-! ## Four-bit codes (R85 to R87) -/

/-- The magnitudes of Q4P in eighths, and of Q4H in eighths, by code index (R85); the last entry is the further step 16 (R88). -/
def q4pMags : List Nat := [0, 1, 2, 4, 8, 16, 32, 64, 128]
def q4hMags : List Nat := [0, 8, 16, 24, 32, 48, 64, 96, 128]

/-- The value of a four-bit code under a scale type (R85). -/
def decodeFour (ty c : Nat) : Val :=
  match ty with
  | 0 => ofInt (if 8 ≤ c then (c : Int) - 16 else (c : Int))
  | 1 => q4f.decode c
  | 2 => .fin ⟨8 ≤ c, (q4pMags[c % 8]?).getD 0, -3, false⟩
  | _ => .fin ⟨8 ≤ c, (q4hMags[c % 8]?).getD 0, -3, false⟩

/-- Multiply by a power of two. -/
def Val.scale (k : Int) : Val → Val
  | .fin x => .fin { x with e := x.e + k }
  | y => y

/-- The signed exponent offset of a scale byte (R85). -/
def scaleOff (b : Nat) : Int := if b % 64 < 32 then ((b % 64 : Nat) : Int) else ((b % 64 : Nat) : Int) - 64

/-- The largest index i with the i-th magnitude (in eighths) at most num / den eighths. -/
def tableIdx (mags : List Nat) (num den : Nat) : Nat :=
  (mags.filter fun a => decide (a * den ≤ num)).length - 1

/-- Rounding into Q4P or Q4H (R88, R90, R95), always saturating. -/
def roundTable (mags : List Nat) (mode : Rnd) (v : Nat) (x : Ex) : Nat × Flags :=
  let sh := max (-(x.e + 3)) 0
  let big := decide (8 < x.log) && x.m != 0
  let far := decide (x.log < -80)
  let den := if far then 2 ^ 80 else pow2 sh
  let num := if big then 129 * den else if far then (if x.m = 0 then 0 else 1) else x.m * pow2 (x.e + 3)
  let more := x.more
  let sign := if x.neg then 8 else 0
  let i := tableIdx mags num den
  if 8 ≤ i then (sign + 7, fOF ||| fNX)
  else
    let a := (mags[i]?).getD 0
    let b := (mags[i + 1]?).getD 0
    let r := num - a * den
    let inexact := r != 0 || more
    let j := if takesB mode x.neg i r ((b - a) * den) more v then i + 1 else i
    let least := (mags[1]?).getD 1
    let tiny := !x.isZero && decide (num < least * den)
    if 8 ≤ j then (sign + 7, fOF ||| fNX)
    else (sign + j, flagIf inexact fNX ||| flagIf (inexact && tiny) fUF)

/-! ## Kinds (R79, R197) -/

/-- The float format of a format code. -/
def fmtFlt : Fmt → Option Flt
  | .fp64 => some fp64 | .fp32 => some fp32 | .fr19 => some fr19 | .bf16 => some bf16 | .fp16 => some fp16
  | .e5m2 => some e5m2 | .e4m3 => some e4m3 | .e3m2 => some e3m2 | .e2m3 => some e2m3
  | _ => none

/-- Signedness and width of the integer kinds (R84, R197). -/
def kindInt : Kind → Option (Bool × Nat)
  | .fmt .i8 => some (true, 8) | .fmt .n8 => some (false, 8) | .fmt .i16 => some (true, 16)
  | .i32 => some (true, 32) | .n32 => some (false, 32) | .i64 => some (true, 64) | .n64 => some (false, 64)
  | _ => none

/-- Width in bits of an element in memory or scratchpad (R248, R310). -/
def kindElem : Kind → Nat
  | .fmt .fp64 | .i64 | .n64 => 64
  | .fmt .fp32 | .fmt .fr19 | .i32 | .n32 => 32
  | .fmt .bf16 | .fmt .fp16 | .fmt .i16 => 16
  | .fmt .q4i | .fmt .q4f | .fmt .q4p | .fmt .q4h => 4
  | _ => 8

/-- The scale type of a four-bit target (R86), and 0 for the others. -/
def kindScaleType : Kind → Nat
  | .fmt .q4f => 1 | .fmt .q4p => 2 | .fmt .q4h => 3 | _ => 0

/-- The value of an unscaled element (R80 to R84, R197): only the bits that hold the value are read. -/
def kindDecode (k : Kind) (w : Nat) : Val :=
  match k with
  | .fmt .fr19 => fr19.decode (w / 2 ^ 13 % 2 ^ 19)
  | .fmt .e3m2 => e3m2.decode (w % 64)
  | .fmt .e2m3 => e2m3.decode (w % 64)
  | .fmt f =>
    match fmtFlt f, kindInt (.fmt f) with
    | some F, _ => F.decode (w % (2 * F.signBit))
    | none, some (s, n) => ofInt (if s && 2 ^ (n - 1) ≤ w % 2 ^ n then ((w % 2 ^ n : Nat) : Int) - ((2 ^ n : Nat) : Int)
        else ((w % 2 ^ n : Nat) : Int))
    | none, none => decodeFour f.code w
  | k =>
    match kindInt k with
    | some (s, n) => ofInt (if s && 2 ^ (n - 1) ≤ w % 2 ^ n then ((w % 2 ^ n : Nat) : Int) - ((2 ^ n : Nat) : Int)
        else ((w % 2 ^ n : Nat) : Int))
    | none => .nan false

/-- The value of a scaled element: decode(code) 2^k, a four-bit code by the type of its own scale byte (R85, R86). -/
def kindDecodeScaled (k : Kind) (code scale : Nat) : Val :=
  let base := if k.four then decodeFour (scale / 64 % 4) (code % 16) else kindDecode k code
  base.scale (scaleOff scale)

/-- Convert a value to an unscaled kind (R91, R94, R96): the encoding as its element bits, and the flags. -/
def kindConvert (k : Kind) (mode : Rnd) (sat : Bool) (v : Nat) (x : Val) : Nat × Flags :=
  match kindInt k with
  | some (s, n) => let (r, f) := toInt s n mode v x; (intBits n r, f)
  | none =>
    match k with
    | .fmt f =>
      match fmtFlt f with
      | some F =>
        let (r, fl) := F.convert mode sat v x
        (if f == .fr19 then r * 2 ^ 13 else r, fl)
      | none => (0, 0)
    | _ => (0, 0)

/-- emax of a scaled target (R87). -/
def kindEmax : Kind → Int
  | .fmt .e5m2 => 15 | .fmt .e4m3 => 8 | .fmt .e3m2 => 4 | .fmt .e2m3 => 2 | .fmt .i8 => 6 | .fmt .n8 => 7
  | .fmt .q4i => 2 | .fmt .q4f => 2 | _ => 3

/-- floor(log2 A) for the largest magnitude of finite values; none when it is zero or there is none (R87). -/
def maxLog (xs : List Val) : Option Int :=
  xs.foldl (fun acc x =>
    match x with
    | .fin y => if y.m = 0 then acc else
        match acc with
        | none => some y.log
        | some l => some (max l y.log)
    | _ => acc) none

/-- The exponent offset of a scaled block (R87). -/
def blockOff (k : Kind) (xs : List Val) : Int :=
  match maxLog xs with
  | none => 0
  | some l => max (-32) (min 31 (l - kindEmax k))

/-- The scale byte of a block written with type and offset (R85, R86). -/
def scaleByte (k : Kind) (off : Int) : Nat := kindScaleType k * 64 + intBits 6 off

/-- One element of a scaled block: code and flags (R87, R94). -/
def kindConvertScaled (k : Kind) (mode : Rnd) (v : Nat) (off : Int) (x : Val) : Nat × Flags :=
  let y := x.scale (-off)
  match k, y with
  | _, .nan _ => (0, fNV)
  | .fmt .q4i, y => let (r, f) := toInt true 4 mode v y; (intBits 4 r, f)
  | .fmt .q4f, .fin z => q4f.round mode true v z
  | .fmt .q4p, .fin z => roundTable q4pMags mode v z
  | .fmt .q4h, .fin z => roundTable q4hMags mode v z
  | .fmt .q4f, .inf n | .fmt .q4p, .inf n | .fmt .q4h, .inf n => (if n then 15 else 7, fNV)
  | k, y => kindConvert k mode true v y

/-! ## Exact arithmetic -/

/-- The signed integer numerator of a value over 2^c. -/
def Ex.num (x : Ex) (c : Int) : Int :=
  let n := x.m * pow2 (x.e - c)
  if x.neg then -(n : Int) else (n : Int)

/-- The exact sum, with the zero's sign of R93: -0 for a zero sum of opposite signs under RDN only. -/
def Ex.add (mode : Rnd) (x y : Ex) : Ex :=
  let c := min x.e y.e
  let s := x.num c + y.num c
  if s == 0 then
    ⟨if x.neg == y.neg then x.neg else mode == .rdn, 0, c, false⟩
  else ⟨decide (s < 0), s.natAbs, c, false⟩

def Ex.mul (x y : Ex) : Ex := ⟨x.neg != y.neg, x.m * y.m, x.e + y.e, false⟩

/-- The quotient to 192 places and more, with a mark for its remainder. -/
def Ex.div (x y : Ex) : Ex :=
  let k := 192 + Nat.log2 y.m
  let n := x.m * 2 ^ k
  ⟨x.neg != y.neg, n / y.m, x.e - y.e - (k : Int), n % y.m != 0⟩

/-- floor of the square root, by `fuel` binary places. -/
def isqrt : Nat → Nat → Nat → Nat
  | 0, _, r => r
  | k + 1, n, r => if (r + 2 ^ k) * (r + 2 ^ k) ≤ n then isqrt k n (r + 2 ^ k) else isqrt k n r

/-- The square root of a value that is not negative, to 100 places and more. -/
def Ex.sqrt (x : Ex) : Ex :=
  let odd := x.e % 2 == 1
  let m := (if odd then 2 * x.m else x.m) * 2 ^ 256
  let e := (if odd then x.e - 1 else x.e) - 256
  let r := isqrt 192 m 0
  ⟨x.neg, r, e / 2, r * r != m⟩

/-- 1 / sqrt of a positive value, to 100 places and more. -/
def Ex.rsqrt (x : Ex) : Ex :=
  let odd := x.e % 2 == 1
  let m := if odd then 2 * x.m else x.m
  let e := if odd then x.e - 1 else x.e
  let n := 2 ^ 384 / m
  let r := isqrt 193 n 0
  ⟨false, r, -(e / 2) - 192, r * r * m != 2 ^ 384⟩

def Ex.scale (k : Int) (x : Ex) : Ex := { x with e := x.e + k }

def Ex.negate (x : Ex) : Ex := { x with neg := !x.neg }

def Val.isNan : Val → Bool
  | .nan _ => true
  | _ => false

def Val.isSignalling : Val → Bool
  | .nan s => s
  | _ => false

def Val.negate : Val → Val
  | .nan s => .nan s
  | .inf n => .inf !n
  | .fin x => .fin x.negate

/-- Some operand is a NaN, and then whether one signals. -/
def anyNan (xs : List Val) : Option Bool :=
  if xs.any Val.isNan then some (xs.any Val.isSignalling) else none

/-- The canonical NaN with NV: an invalid operation (R94). -/
def Flt.invalid (F : Flt) : Nat × Flags := (F.nan, fNV)

/-- a + b (R191, R192). -/
def Flt.add (F : Flt) (mode : Rnd) (v : Nat) (a b : Val) : Nat × Flags :=
  match anyNan [a, b] with
  | some s => (F.nan, flagIf s fNV)
  | none =>
    match a, b with
    | .inf x, .inf y => if x == y then (F.signed x F.infMag, 0) else F.invalid
    | .inf x, _ => (F.signed x F.infMag, 0)
    | _, .inf y => (F.signed y F.infMag, 0)
    | .fin x, .fin y => F.round mode false v (Ex.add mode x y)
    | _, _ => F.invalid

/-- a - b. -/
def Flt.sub (F : Flt) (mode : Rnd) (v : Nat) (a b : Val) : Nat × Flags := F.add mode v a b.negate

/-- a b. -/
def Flt.mul (F : Flt) (mode : Rnd) (v : Nat) (a b : Val) : Nat × Flags :=
  match anyNan [a, b] with
  | some s => (F.nan, flagIf s fNV)
  | none =>
    match a, b with
    | .inf x, .inf y => (F.signed (x != y) F.infMag, 0)
    | .inf x, .fin y => if y.m == 0 then F.invalid else (F.signed (x != y.neg) F.infMag, 0)
    | .fin x, .inf y => if x.m == 0 then F.invalid else (F.signed (x.neg != y) F.infMag, 0)
    | .fin x, .fin y => F.round mode false v (x.mul y)
    | _, _ => F.invalid

/-- a b + c, rounded once; 0 x infinity is invalid even when c is a quiet NaN (R192). -/
def Flt.fma (F : Flt) (mode : Rnd) (v : Nat) (a b c : Val) : Nat × Flags :=
  let zeroInf := match a, b with
    | .inf _, .fin y => y.m == 0
    | .fin x, .inf _ => x.m == 0
    | _, _ => false
  if zeroInf then F.invalid
  else
    match anyNan [a, b, c] with
    | some s => (F.nan, flagIf s fNV)
    | none =>
      let sign (p : Val) : Bool := match p with
        | .inf x => x
        | .fin x => x.neg
        | .nan _ => false
      let prodInf := match a, b with
        | .inf _, _ => true
        | _, .inf _ => true
        | _, _ => false
      let ps := sign a != sign b
      match prodInf, c with
      | true, .inf z => if ps == z then (F.signed z F.infMag, 0) else F.invalid
      | true, _ => (F.signed ps F.infMag, 0)
      | false, .inf z => (F.signed z F.infMag, 0)
      | false, .fin z =>
        match a, b with
        | .fin x, .fin y => F.round mode false v (Ex.add mode (x.mul y) z)
        | _, _ => F.invalid
      | false, .nan _ => F.invalid

/-- a / b. -/
def Flt.div (F : Flt) (mode : Rnd) (v : Nat) (a b : Val) : Nat × Flags :=
  match anyNan [a, b] with
  | some s => (F.nan, flagIf s fNV)
  | none =>
    match a, b with
    | .inf _, .inf _ => F.invalid
    | .inf x, .fin y => (F.signed (x != y.neg) F.infMag, 0)
    | .fin x, .inf y => (F.signed (x.neg != y) 0, 0)
    | .fin x, .fin y =>
      if y.m == 0 then
        (if x.m == 0 then F.invalid else (F.signed (x.neg != y.neg) F.infMag, fDZ))
      else F.round mode false v (x.div y)
    | _, _ => F.invalid

/-- The square root of a. -/
def Flt.sqrt (F : Flt) (mode : Rnd) (v : Nat) : Val → Nat × Flags
  | .nan s => (F.nan, flagIf s fNV)
  | .inf neg => if neg then F.invalid else (F.infMag, 0)
  | .fin x => if x.m == 0 then (F.signed x.neg 0, 0) else if x.neg then F.invalid else F.round mode false v x.sqrt

/-- a 2^k. -/
def Flt.scale (F : Flt) (mode : Rnd) (v : Nat) (k : Int) : Val → Nat × Flags
  | .nan s => (F.nan, flagIf s fNV)
  | .inf neg => (F.signed neg F.infMag, 0)
  | .fin x => if x.m == 0 then (F.signed x.neg 0, 0) else F.round mode false v (x.scale k)

/-- a rounded to an integer: NX when the result differs from a, and neither OF nor UF (R192). -/
def Flt.rint (F : Flt) (mode : Rnd) (v : Nat) : Val → Nat × Flags
  | .nan s => (F.nan, flagIf s fNV)
  | .inf neg => (F.signed neg F.infMag, 0)
  | .fin x =>
    if 0 ≤ x.e then ((F.round .rne false 0 x).1, 0)
    else
      let (n, inexact) := roundAt mode v x 0
      ((F.round .rne false 0 ⟨x.neg, n, 0, false⟩).1, flagIf inexact fNX)

/-- The format of R196: the type's exponent field with at most 23 bits of fraction. -/
def Flt.short (F : Flt) : Flt := { F with f := min F.f 23 }

/-- A result of the short format in the type's encoding. -/
def Flt.widen (F : Flt) (w : Nat) : Nat := w * 2 ^ (F.f - min F.f 23)

/-- 1 / a in the short format (R196). -/
def Flt.rcp (F : Flt) : Val → Nat × Flags
  | .nan s => (F.nan, flagIf s fNV)
  | .inf neg => (F.signed neg 0, 0)
  | .fin x =>
    if x.m == 0 then (F.signed x.neg F.infMag, fDZ)
    else
      let (w, f) := F.short.round .rne false 0 (Ex.div ⟨false, 1, 0, false⟩ x)
      (F.widen w, f)

/-- 1 / sqrt a in the short format (R196). -/
def Flt.rsq (F : Flt) : Val → Nat × Flags
  | .nan s => (F.nan, flagIf s fNV)
  | .inf neg => if neg then F.invalid else (0, 0)
  | .fin x =>
    if x.m == 0 then (F.signed x.neg F.infMag, fDZ)
    else if x.neg then F.invalid
    else
      let (w, f) := F.short.round .rne false 0 x.rsqrt
      (F.widen w, f)

/-! ## Comparison (R193, R194) -/

/-- Exact comparison of finite values. -/
def Ex.cmp (x y : Ex) : Ordering :=
  let c := min x.e y.e
  compare (x.num c) (y.num c)

/-- Exact comparison of values that are no NaN. -/
def Val.cmp : Val → Val → Ordering
  | .inf x, .inf y => if x == y then .eq else if x then .lt else .gt
  | .inf x, _ => if x then .lt else .gt
  | _, .inf y => if y then .gt else .lt
  | .fin x, .fin y => x.cmp y
  | _, _ => .eq

def Val.sign : Val → Bool
  | .nan _ => false
  | .inf n => n
  | .fin x => x.neg

/-- a is below b, with -0 below +0 (R193). -/
def Val.below (a b : Val) : Bool :=
  match a.cmp b with
  | .lt => true
  | .gt => false
  | .eq => a.sign && !b.sign

/-- FMIN (`isMax` false) and FMAX; `nanMode` is .nan (R193). -/
def Flt.minMax (F : Flt) (isMax nanMode : Bool) (wa wb : Nat) : Nat × Flags :=
  let a := F.decode wa
  let b := F.decode wb
  let nv := flagIf (a.isSignalling || b.isSignalling) fNV
  if a.isNan && b.isNan then (F.nan, nv)
  else if a.isNan then (if nanMode then F.nan else wb, nv)
  else if b.isNan then (if nanMode then F.nan else wa, nv)
  else if isMax then (if b.below a then wa else if a.below b then wb else wa, 0)
  else (if a.below b then wa else if b.below a then wb else wa, 0)

/-- FCMP: the condition and its flag (R194). -/
def fcmpOf (c : FCond) (a b : Val) : Bool × Flags :=
  let unordered := a.isNan || b.isNan
  let sig := a.isSignalling || b.isSignalling
  let quietNV := match c with
    | .lt | .le | .gt | .ge => true
    | _ => false
  let o := a.cmp b
  let r := match c with
    | .eq => !unordered && o == .eq
    | .ne => unordered || o != .eq
    | .lt => !unordered && o == .lt
    | .le => !unordered && o != .gt
    | .gt => !unordered && o == .gt
    | .ge => !unordered && o != .lt
    | .uo => unordered
    | .or => !unordered
  (r, flagIf (sig || (unordered && quietNV)) fNV)

/-- FCLASS (R195). -/
def Flt.classify (F : Flt) (w : Nat) : Nat :=
  match F.decode w with
  | .nan s => if s then 2 ^ 8 else 2 ^ 9
  | .inf n => if n then 2 ^ 0 else 2 ^ 7
  | .fin x =>
    if x.m == 0 then (if x.neg then 2 ^ 3 else 2 ^ 4)
    else if x.log < F.emin then (if x.neg then 2 ^ 2 else 2 ^ 5)
    else (if x.neg then 2 ^ 1 else 2 ^ 6)

/-! ## Elementary functions (R203, R204)

Each is enclosed between two rationals. Where they do not round to one encoding, the exact value, which is irrational, is compared
with the one rounding boundary that lies between them, in integers (notes/assumptions/12.md). -/

/-- Working places of the enclosures. -/
def wp : Nat := 512

/-- floor(ln 2 x 2^512), from the series of 2 atanh(1/3). -/
def ln2Fix : Nat :=
  (List.range 170).foldl (fun acc k => acc + 2 * 2 ^ (wp + 20) / (3 * 9 ^ k * (2 * k + 1))) 0 / 2 ^ 20

/-- atan(1/n) x 2^532, from its series. -/
def atanInv (n : Nat) : Int :=
  (List.range 240).foldl (fun acc k =>
    let t : Int := ((2 ^ (wp + 20) / (n ^ (2 * k + 1) * (2 * k + 1)) : Nat) : Int)
    if k % 2 == 0 then acc + t else acc - t) 0

/-- pi x 2^512 by Machin's formula. -/
def piFix : Nat := (16 * atanInv 5 - 4 * atanInv 239).toNat / 2 ^ 20

/-- exp(y 2^-512) x 2^512 for y below 2^512, from its series. -/
def expFix (y : Nat) : Nat :=
  ((List.range 160).foldl (fun (acc : Nat × Nat) k => (acc.1 + acc.2, acc.2 * y / 2 ^ wp / (k + 1))) (0, 2 ^ wp)).1

/-- ln(z) x 2^512 for z = n / d from 1 to 2, by 2 atanh((z - 1)/(z + 1)). -/
def lnFix (n d : Nat) : Nat :=
  let t := (n - d) * 2 ^ wp / (n + d)
  let t2 := t * t / 2 ^ wp
  2 * ((List.range 200).foldl (fun (acc : Nat × Nat) k => (acc.1 + acc.2 / (2 * k + 1), acc.2 * t2 / 2 ^ wp)) (0, t)).1

/-- sin(y 2^-512) x 2^512 for y up to pi/2, from its series. -/
def sinFix (y : Nat) : Nat :=
  let y2 := y * y / 2 ^ wp
  ((List.range 100).foldl (fun (acc : Int × Nat) k =>
    (if k % 2 == 0 then acc.1 + (acc.2 : Int) else acc.1 - (acc.2 : Int),
     acc.2 * y2 / 2 ^ wp / ((2 * k + 2) * (2 * k + 3)))) ((0 : Int), y)).1.toNat

/-- Of the numbers above l and up to h, the one with the most binary zeros at its end. -/
def roundest (l h : Nat) : Nat :=
  let p := Nat.log2 (l ^^^ h)
  h / 2 ^ p * 2 ^ p

/-- Round an irrational value of magnitude strictly between (m - w) 2^e and (m + w) 2^e, by RNE; `below n c` says whether the
magnitude lies below n 2^c. -/
def Flt.enclosed (F : Flt) (below : Nat → Int → Bool) (neg : Bool) (m w : Nat) (e : Int) : Nat × Flags :=
  let lo := F.round .rne false 0 ⟨neg, m - w, e, true⟩
  let hi := F.round .rne false 0 ⟨neg, m + w - 1, e, true⟩
  let r := if lo == hi || below (roundest (m - w) (m + w - 1)) e then lo else hi
  (r.1, r.2 ||| fNX)

/-- 2^p lies below n^(2^k), for an n that is not 0. -/
def twoPowBelow (p : Int) (n k : Nat) : Bool := decide (p < 0) || decide (2 ^ p.toNat < n ^ 2 ^ k)

/-- 2^(p 2^-k) lies below n 2^c. -/
def exp2Below (p : Int) (k n : Nat) (c : Int) : Bool := n != 0 && twoPowBelow (p - c * ((2 ^ k : Nat) : Int)) n k

/-- |log2 (m 2^e)| lies below n 2^c; the logarithm is not zero, and negative where `neg` says. -/
def log2Below (neg : Bool) (m : Nat) (e : Int) (n : Nat) (c : Int) : Bool :=
  let k := (-c).toNat
  let y : Int := (n * pow2 c : Nat)
  let sh := e * ((2 ^ k : Nat) : Int)
  -- the 2^k-th power of m 2^e against 2^y, or 2^-y
  if neg then twoPowBelow (-y - sh) m k else !twoPowBelow (y - sh) m k

/-- cos(pi d 2^-k) lies below a 2^-b, or at it where `strict` is false: the square of a value that is not negative is compared, by
cos 2t = 2 cos^2 t - 1. -/
def cosBelow (strict : Bool) : Nat → Nat → Int → Nat → Bool
  | 0, d, a, b =>
    let one : Int := if d % 2 == 0 then ((2 ^ b : Nat) : Int) else -((2 ^ b : Nat) : Int)
    if strict then decide (one < a) else decide (one ≤ a)
  | k + 1, d, a, b =>
    let t := d % 2 ^ (k + 2)
    let r := min t (2 ^ (k + 2) - t)
    let a2 : Int := 2 * a * a - ((4 ^ b : Nat) : Int)
    if r ≤ 2 ^ k then (if strict then decide (0 < a) else decide (0 ≤ a)) && cosBelow strict k r a2 (2 * b)
    else !((if strict then decide (a ≤ 0) else decide (a < 0)) && cosBelow (!strict) k r a2 (2 * b))

/-- sin(pi d 2^-k) lies below n 2^c, for d from 0 to 2^(k-1). -/
def sinBelow (d k n : Nat) (c : Int) : Bool := cosBelow true k (2 ^ (k - 1) - d) ((n * pow2 c : Nat) : Int) (-c).toNat

/-- An exact value of a special case. -/
def Flt.exact (F : Flt) (neg : Bool) (m : Nat) (e : Int) : Nat × Flags := F.round .rne false 0 ⟨neg, m, e, false⟩

/-- The integer part and the fraction over 2^512 of a finite value, towards minus infinity; `frac` has a mark when it is not
exact. Values below 2^-512 in magnitude keep a fraction of zero with the mark. -/
def splitFloor (x : Ex) : Int × Nat × Bool :=
  let sh := x.e + (wp : Int)
  let (n, cut) := if 0 ≤ sh then (x.m * pow2 sh, false) else (x.m / pow2 (-sh), x.m % pow2 (-sh) != 0)
  let z : Int := if x.neg then -(n : Int) - (if cut then 1 else 0) else (n : Int)
  (z / ((2 ^ wp : Nat) : Int), (z % ((2 ^ wp : Nat) : Int)).toNat, cut)

/-- 2^a (R203, R204). -/
def Flt.exp2 (F : Flt) (w : Nat) : Nat × Flags :=
  match F.decode w with
  | .nan s => (F.nan, flagIf s fNV)
  | .inf neg => if neg then (0, 0) else (F.infMag, 0)
  | .fin x =>
    if x.m == 0 then F.exact false 1 0
    else if 20 ≤ x.log then
      (if x.neg then F.round .rne false 0 ⟨false, 1, -100000, false⟩ else F.round .rne false 0 ⟨false, 1, 100000, false⟩)
    else
      let below := exp2Below (x.num (min x.e 0)) (-x.e).toNat
      if x.log < -1100 then F.enclosed below false (2 ^ wp) 4 (-(wp : Int))
      else
        let (i, fr, cut) := splitFloor x
        if fr == 0 && !cut then F.exact false 1 i
        else F.enclosed below false (expFix (fr * ln2Fix / 2 ^ wp)) 1024 (i - (wp : Int))

/-- log2 a (R203, R204). -/
def Flt.log2 (F : Flt) (w : Nat) : Nat × Flags :=
  match F.decode w with
  | .nan s => (F.nan, flagIf s fNV)
  | .inf neg => if neg then F.invalid else (F.infMag, 0)
  | .fin x =>
    if x.m == 0 then (F.signed true F.infMag, fDZ)
    else if x.neg then F.invalid
    else
      let n := Nat.log2 x.m
      let i := x.e + (n : Int)
      if x.m == 2 ^ n then F.exact (decide (i < 0)) i.natAbs 0
      else
        let l := lnFix x.m (2 ^ n) * 2 ^ wp / ln2Fix
        let z : Int := i * ((2 ^ wp : Nat) : Int) + (l : Int)
        let neg := decide (z < 0)
        F.enclosed (log2Below neg x.m x.e) neg z.natAbs 4096 (-(wp : Int))

/-- sin(pi t / 2^k) for the exact fraction t / 2^k with t not a multiple of 2^(k-1): the quarter is found exactly, and the
series is entered with the distance to the nearest multiple of a half-turn. `neg` is the sign the result takes beside it. -/
def Flt.sinAt (F : Flt) (neg : Bool) (t k : Nat) : Nat × Flags :=
  let turn := t % 2 ^ (k + 1)
  let flip := decide (2 ^ k ≤ turn)
  let u := turn % 2 ^ k
  let d := if 2 * u ≤ 2 ^ k then u else 2 ^ k - u
  let s := neg != flip
  if Nat.log2 d + 100 < k then
    -- pi d / 2^k, less at most its cube over six
    let m := piFix * d
    F.enclosed (sinBelow d k) s m (m / 2 ^ 190 + 8 * d + 1) (-(wp : Int) - (k : Int))
  else
    let y := piFix * d / 2 ^ k
    F.enclosed (sinBelow d k) s (min (sinFix y) (2 ^ wp - 1024)) 1024 (-(wp : Int))

/-- sin(pi a) and cos(pi a) of finite a that is no multiple of a half are reached through `sinAt`; the multiples are exact. -/
def Flt.sinPi (F : Flt) (w : Nat) : Nat × Flags :=
  match F.decode w with
  | .nan s => (F.nan, flagIf s fNV)
  | .inf _ => F.invalid
  | .fin x =>
    if x.m == 0 then (F.signed x.neg 0, 0)
    else if 0 ≤ x.e then (F.signed x.neg 0, 0)
    else
      let k := (-x.e).toNat
      let t := x.m
      if t % 2 ^ k == 0 then (F.signed x.neg 0, 0)
      else if t % 2 ^ (k - 1) == 0 then F.exact (x.neg != (t / 2 ^ (k - 1) % 4 == 3)) 1 0
      else F.sinAt x.neg t k

def Flt.cosPi (F : Flt) (w : Nat) : Nat × Flags :=
  match F.decode w with
  | .nan s => (F.nan, flagIf s fNV)
  | .inf _ => F.invalid
  | .fin x =>
    if x.m == 0 then F.exact false 1 0
    else if 0 ≤ x.e then F.exact (x.m * pow2 x.e % 2 == 1) 1 0
    else
      let k := (-x.e).toNat
      let t := x.m
      if t % 2 ^ k == 0 then F.exact (t / 2 ^ k % 2 == 1) 1 0
      else if t % 2 ^ (k - 1) == 0 then F.exact false 0 0
      else F.sinAt false (t + 2 ^ (k - 1)) k

/-! ## The draw function (R269, R270) -/

/-- draw(key, ctr) (R269). -/
def draw (key : DWord) (ctr : Word) : DWord :=
  let z0 := key + ctr.zeroExtend 64 * 0x9E3779B97F4A7C15#64
  let z1 := (z0 ^^^ (z0 >>> 30)) * 0xBF58476D1CE4E5B9#64
  let z2 := (z1 ^^^ (z1 >>> 27)) * 0x94D049BB133111EB#64
  z2 ^^^ (z2 >>> 31)

/-- The key of a lane's rounding draws (R270). -/
def laneKey (seed : DWord) (l : Nat) : DWord := seed ^^^ BitVec.ofNat 64 (l % 32 * 2 ^ 32)

/-- The key of a reservoir's draws (R270). -/
def rsvKey (seed : DWord) (l n : Nat) : DWord := seed ^^^ BitVec.ofNat 64 ((2 ^ 8 + n % 8 * 2 ^ 5 + l % 32) * 2 ^ 32)

/-- The key of matrix draws (R250). -/
def matrixKey (seed : DWord) (t i j : Nat) : DWord :=
  seed ^^^ BitVec.ofNat 64 ((2 ^ 20 + t % 4 * 2 ^ 18 + i % 512 * 2 ^ 9 + j % 512) * 2 ^ 32)

/-- The key of a copy job's draws (R313). -/
def copyKey (seed : DWord) (n : Nat) : DWord := seed ^^^ BitVec.ofNat 64 ((7 * 2 ^ 18 + n % 2 ^ 18) * 2 ^ 32)

/-- The 32 bits of a draw that a stochastic rounding compares (R89). -/
def drawV (key : DWord) (ctr : Word) : Nat := (draw key ctr).toNat / 2 ^ 32

/-! ## Types of lane arithmetic -/

/-- The format of a float type (R143). -/
def ftyFlt : FTy → Flt
  | .f64 => fp64
  | .f32 => fp32
  | .f16 => fp16

end Sys2Proof.Machine
end

