-- ==== Sys2Proof/Machine/State.lean ====
section
/-!
DEFINITION. The state of the Skoluyx as plain data: everything that spec/ gives the machine (INVENTORY.md, State), and
State.reset, the machine right after a cold reset (spec/22 R461). Addresses, section offsets and counts are natural numbers;
register contents, masks and encoded words are bit vectors. Waves, teams, grids, jobs and rays are held in lists and named
by their position in them; a finished one stays in its place, marked so, and no name is used twice.
-/

namespace Sys2Proof.Machine

/-- Reasons why the machine stops. -/
inductive Fault where
  /-- Raised by LAUNCH_ACCEPT when the base QTAB that system software set (R370) puts the queue's descriptor outside the
  768 GiB of HBM: no such address exists (R19). Safe: the machine stops where the part's behaviour is not given. -/
  | outsideHbm (pa : Nat)
  deriving DecidableEq, Repr

/-- Reasons why the model gives no meaning. -/
inductive Refusal where
  /-- An instruction whose meaning is not written: raised by Dispatch alone. Safe. -/
  | notModelled (mnemonic : String)
  deriving DecidableEq, Repr

/-- Bytes by address: addresses strictly rising, no entry equal to the byte that an unlisted address reads as, which is 0
(notes/assumptions/3.md). -/
abbrev Cells := List Host.Cell

/-- Bytes held over memory, by address: addresses strictly rising; an unlisted address is not held. -/
abbrev Overlay := List Host.Cell

/-- One value for each of the 32 lanes of a wave (R14). -/
abbrev Lanes (α : Type) := Vector α 32

/-- A set of lanes: bit l stands for lane l. -/
abbrev Mask := BitVec 32

/-! ## Waves -/

/-- The causes of R351. -/
inductive Cause where
  | illegalOpcode | illegalOperand | prefixMisuse | codeRange | addrRange | misaligned | scratchRange | remoteRange
  | privilege | regionNest | regionIllegal | regionOverflow | twinIllegal | footprintFull | regAbsent | regLimit | unstaged
  | stallUndersized | streamDeadlock | joinMismatch | divstackFull | barSequence | bondInvalid | bondBroken | bondStall
  | formatDiverge | operandDiverge | formatInvalid | descInvalid | portStall | travStall | jobStall | cwaitStall | userTrap
  | syscall | pageFault | alias_ | watch | watchEngine | poisonConsumed | residueFail | waveLost | handlerFault | rfParity
  | systemKill
  deriving DecidableEq, Repr

/-- A reservoir register of one lane (R271). -/
structure Rsv where
  y : DWord
  wsum : Word
  phat : Word
  m : Word
  ctr : Word
  deriving DecidableEq, Repr

/-- A ticket of the ticket queue (R35, R63, R167, R361). -/
structure Ticket where
  addr : Nat
  extent : Nat
  snaps : Vector DWord 4
  bond : DWord
  seed : DWord
  epoch : Word
  deriving DecidableEq, Repr

/-- The state of a PC side (R364): running, arrived at its join target, or at LEND. -/
inductive SideSt where
  | running | arrived | atLend
  deriving DecidableEq, Repr

/-- A PC side (R43). -/
structure PcSide where
  pc : Nat
  mask : Mask
  join : Option Nat
  st : SideSt
  deriving DecidableEq, Repr

/-- An entry of the divergence stack (R44, R364): the side, the slot it came from, and whether the slot's parking record is
this side's (R357). -/
structure Spilled where
  side : PcSide
  slot : Side
  parked : Bool
  deriving DecidableEq, Repr

/-- Where the block of the oldest ticket stands (R36, R66, R67): not taken up, taken up and waiting for its staging, able to
issue, or ended at LEND with its ticket still to complete. -/
inductive BlkPhase where
  | none | staging | ready | ended
  deriving DecidableEq, Repr

/-- The block of the oldest ticket: its header's Z and ranges, and its entry mask once it can issue (R36). -/
structure Blk where
  phase : BlkPhase
  z : Bool
  ranges : List RangeDesc
  entry : Mask
  deriving DecidableEq, Repr

/-- A staged register: its copy in the fast file and whether the block wrote it (R67). -/
structure Staged where
  reg : Nat
  val : Lanes Word
  written : Bool
  deriving DecidableEq, Repr

/-- A result in the forwarding window (R72): `mask` are the lanes that it was produced in, `dead` those whose value is
marked dead, `age` the later L-ops of its side. -/
structure WinEnt where
  reg : Nat
  side : Side
  val : Lanes Word
  mask : Mask
  dead : Mask
  age : Nat
  /-- cycles until it is produced, as stall counts cover them (R184) -/
  due : Nat
  deriving DecidableEq, Repr

/-- A fixed-latency result not yet covered by stall counts (R74), with the values its destinations held before (R75). -/
structure Prod where
  side : Side
  lat : Nat
  acc : Nat
  regs : List (Nat × Lanes Word)
  zs : List (Nat × Lanes Rsv)
  /-- no drain has waited for its production since (R184): the values before it may still be read (R75) -/
  inFlight : Bool
  deriving DecidableEq, Repr

/-- One lane's request of a memory L-op, as read at first issue (R357): address, bytes to store or operand of an atomic,
swap value. -/
structure LaneReq where
  lane : Lane
  addr : Nat
  data : List Byte
  swap : DWord
  deriving DecidableEq, Repr

/-- A variable-latency L-op that has issued and not completed (R37, R76, R78). -/
structure Outst where
  /-- a load: its destination is still to be written; otherwise a store or reduction still to be performed -/
  load : Bool
  /-- its side, the later L-ops of that side (R184), and whether its result is dead on production (R72) -/
  side : Side
  age : Nat
  lud : Bool
  /-- result records of rays, written lane by lane as rays suspend or end (R299, R300) -/
  rays : Bool
  /-- destination registers with the values that will be written -/
  regs : List (Nat × Lanes Word)
  /-- lanes whose destination is still to be written -/
  mask : Mask
  /-- lanes parked on a page fault (R221) -/
  parked : Mask
  /-- requests to the host or to another device that are not answered -/
  remote : Nat
  /-- of an access to global memory: the address of the L-op, the L-op, and its requests, lane by lane -/
  src : Option (Nat × Instr × List LaneReq)
  /-- the counter of its inc bit (R76) -/
  cnt : Option CtrReg
  /-- part of the ticket that runs now (R37) -/
  inTicket : Bool
  /-- finished: kept in place so that names stay -/
  done : Bool
  deriving DecidableEq, Repr

/-- A parking record (R357): the parked instruction, its lanes with their operands, the translation report of the first
fault (R401), the fault ring identifier, and whether Dorzin has resolved the fault. `out` is the outstanding L-op that the
lanes belong to; in a record of the S-stream, the address after the parked group. -/
structure Park where
  pc : Nat
  instr : Option Instr
  reqs : List LaneReq
  out : Nat
  first : Nat
  report : DWord
  id : Word
  resolved : Bool
  /-- answered FATAL while the wave could take no trap: it is taken when the wave next may (R348, R357) -/
  fatal : Bool
  /-- the side that it belongs to stands on the divergence stack (R44) -/
  stacked : Bool
  /-- the address at which the side goes on when its lanes are done: after the L-op, or where later .ord atomics have brought it
  (R120) -/
  resume : Nat
  deriving DecidableEq, Repr

/-- Why a stream waits at its instruction; the limits of R236, R245, R299, R305 and R317 count such waits, and R40 looks at
two of them. -/
inductive Wait where
  | port | bond | trav | job | cwait | ticket | result | join | entry | other
  deriving DecidableEq, Repr

/-- State of one barrier in one wave (R173): idle, arrived, or arrived in a phase that has ended, abandoned or not. -/
inductive BarSt where
  | idle
  | arrived
  | ended (abandoned : Bool)
  deriving DecidableEq, Repr

/-- A tag of the tag map (R305, R316). -/
structure Tag where
  valid : Bool
  complete : Bool
  status : BitVec 4
  job : Option Nat
  deriving DecidableEq, Repr

/-- A range of bytes of a footprint. -/
structure Range where
  lo : Nat
  len : Nat
  deriving DecidableEq, Repr

/-- The lane log state (R294). -/
structure LogSt where
  base : DWord
  slice : Word
  cur : Word
  deriving DecidableEq, Repr

/-- Registers that a rollback restores beside the scalar registers (R319). -/
structure Soft where
  fflags : BitVec 5
  bond : DWord
  ext : Nat
  seed : DWord
  epoch : Word
  lastEpoch : Word
  rndctr : Lanes Word
  mctr : Word
  z : Vector (Lanes Rsv) 8
  log : Lanes LogSt
  tags : Vector Tag 64
  /-- receive queue of port P of lane l (R229) -/
  rx : Lanes (Vector (List DWord) 5)
  deriving DecidableEq, Repr

/-- What RGN.beg records (R319). -/
structure Ckpt where
  pc : Nat
  s : Vector DWord 64
  soft : Soft
  deriving DecidableEq, Repr

/-- An open region (R170, R319 to R326, R422). -/
structure Region where
  id : Nat
  endPc : Nat
  ins : List Range
  outs : List Range
  /-- rollbacks of this instance (RGN.end reports them, saturating at 255) -/
  rollbacks : Nat
  /-- rollbacks for detected errors (R422) -/
  errors : Nat
  /-- twin mismatches (R424) -/
  mismatches : Nat
  unchecked : Bool
  /-- the wave has issued RGN.end and waits for the cure: its destination, and the address after it -/
  ended : Option (SReg × Nat)
  ck : Ckpt
  sig : DWord
  /-- the team's cycles of residency (C of R385) at RGN.beg: what the lost work of R385 counts from -/
  since : Nat
  /-- bays that have held the set during this instance (R424) -/
  bays : List Nat
  deriving DecidableEq, Repr

/-- A write of an engine or of a fabric atomic to a watched byte, still to be reported (R472): the issuing wave of an engine's
job, the context and number of the watchpoint, the byte, the origin, the engine, and the cycle of the write. -/
structure WatchHit where
  wave : Option Nat
  ctx : BitVec 16
  wp : Nat
  va : Nat
  origin : Nat
  engine : Nat
  since : Nat
  deriving DecidableEq, Repr

/-- Writes of a region that has not cured (R111, R322). -/
structure Green where
  /-- global bytes, by virtual address -/
  glob : Overlay
  /-- global sectors whose green data is poisoned (R323) -/
  poison : List Nat
  /-- scratchpad bytes: the key is (2 team + half) 2^21 + offset -/
  scr : Overlay
  /-- scratchpad units whose green data is poisoned, by the same key -/
  scrPoison : List Nat
  /-- reader-count stores: line number and count (R116) -/
  rc : List (Nat × Nat)
  /-- decrements of reader counts: line numbers (R116) -/
  dec : List Nat
  /-- watched bytes that jobs of the region write: reported at the cure, when the writes are performed (R472) -/
  hits : List WatchHit
  deriving DecidableEq, Repr

/-- An imprecise trap that is held (R348). -/
structure Imp where
  cause : Cause
  va : DWord
  aux : DWord
  /-- the core's cycle count at the event, from which the skid counts (R472) -/
  since : Nat
  deriving DecidableEq, Repr

/-- What the end of a handler needs of the trap that started it (R354). -/
structure TrapCtx where
  /-- the stream that trapped -/
  strm : Strm
  imprecise : Bool
  /-- the address after the trapping group or L-op -/
  nextPc : Nat
  /-- SYSC's destination -/
  sysc : Option SReg
  /-- the trapping L-op is the block's LHDR -/
  lhdr : Bool
  /-- the user's scalar PC -/
  pc : Nat
  deriving DecidableEq, Repr

/-- Handler level and the registers that a trap writes (R344, R345, R348, R353). -/
structure Priv where
  handler : Bool
  bank : Vector DWord 16
  cause : DWord
  trappc : DWord
  trapva : DWord
  trapaux : DWord
  lanemask : Word
  hret : DWord
  ctx : Option TrapCtx
  held : List Imp
  discarded : Nat
  deriving DecidableEq, Repr

/-- The lane stream of a wave. -/
structure LStream where
  tickets : List Ticket
  results : List DWord
  blk : Blk
  sideA : Option PcSide
  sideB : Option PcSide
  stack : List Spilled
  live : Mask
  v : Vector (Lanes Word) 256
  staged : List Staged
  p : Vector Mask 8
  w : Vector (BitVec 6) 4
  win : List WinEnt
  prods : List Prod
  outs : List Outst
  parkA : Option Park
  parkB : Option Park
  waitA : Option Wait
  waitB : Option Wait
  /-- cycle count of the core at which the wait of each side began (R236) -/
  sinceA : Nat
  sinceB : Nat
  /-- the wave holds a slot of its quarter's reservoir file (R70) -/
  slot : Bool
  /-- the side that had the last issue opportunity (R55) -/
  last : Side
  /-- cycle counts of the core when the wave last issued an L-op, or became resident (R69, R71, R379), and when it last used its
  reservoir slot (R71) -/
  issuedL : Nat
  usedZ : Nat
  deriving DecidableEq, Repr

/-- A CWAIT .y at which the wave has yielded (R318). -/
structure Yielded where
  tags : Bool
  any : Bool
  first : DWord
  mask : DWord
  target : Nat
  /-- the address after the CWAIT's group -/
  next : Nat
  deriving DecidableEq, Repr

/-- The scalar stream of a wave. -/
structure SStream where
  pc : Nat
  s : Vector DWord 64
  parkS : Option Park
  waitS : Option Wait
  /-- cycle count of the core at which the wait began (R236), and the prefixes of the group that waits (R139) -/
  sinceS : Nat
  waitLen : Nat
  /-- cycles of a YIELD that still lasts, and cycle count of the core when it issued (R178) -/
  yieldN : Nat
  yieldAt : Nat
  /-- cycle count of the core when the wave last issued an S-op, or became resident (R379) -/
  issuedS : Nat
  yielded : Option Yielded
  /-- blocks held, at least the extent while a release waits for tickets (R62) -/
  blocks : Nat
  /-- releases not yet returned: tickets still to complete, and the extent then held -/
  release : List (Nat × Nat)
  /-- an acquire that waits for its grant (R62) -/
  acquire : Option Nat
  ins : List Range
  outs : List Range
  /-- RGN.beg has issued and waits for its set (R53) -/
  begun : Option Region
  bars : Vector BarSt 16
  cbars : Vector BarSt 4
  /-- issue the next store of the S-stream, or of a side, without watchpoint checks (R471) -/
  unwatched : List Strm
  deriving DecidableEq, Repr

/-- How a wave has left (R33, R355). -/
inductive WaveSt where
  | resident | saved | retired | killed
  deriving DecidableEq, Repr

/-- An MMA that has arrived at the rendezvous (R244): the side, the bond value of its ticket, the format words of its active
lanes and the operands of the lowest of them, the seed of its ticket, and the L-op itself. -/
structure Arrival where
  side : Side
  bond : DWord
  fmts : List Word
  bc : Option (DWord × DWord)
  seed : DWord
  ovw : Bool
  rowp : Bool
  acca : Bool
  ctl : LCtl
  a : Opnd
  b : Opnd
  c : Opnd
  deriving DecidableEq, Repr

/-- A wave. -/
structure Wave where
  grid : Nat
  team : Nat
  num : Nat
  core : Nat
  quarter : Nat
  /-- place in the wave table of its quarter (R379) -/
  pos : Nat
  st : WaveSt
  killCause : Nat
  /-- the saved image is poisoned (R362, R368) -/
  imagePoisoned : Bool
  ss : SStream
  ls : LStream
  soft : Soft
  priv : Priv
  region : Option Region
  green : Green
  arrival : Option Arrival
  deriving DecidableEq, Repr

/-! ## Teams and grids -/

/-- A barrier (R173, R363): its phase and its mark. Who has arrived stands in the waves. -/
structure Bar where
  phase : Nat
  abandoned : Bool
  deriving DecidableEq, Repr

/-- Where a team stands. -/
inductive TeamSt where
  | resident | saved | waitingReplay | retired | stopped
  deriving DecidableEq, Repr

/-- One half of a team's on-core memory: the even core's or the odd core's (R27, R105, R239). -/
structure Half where
  scratch : Cells
  acc : Cells
  wbuf : Cells
  /-- poisoned 64-byte units of each (R412) -/
  scratchPoison : List Nat
  accPoison : List Nat
  wbufPoison : List Nat
  /-- completion bits that are clear: chunk and the job that owns it (R314) -/
  pending : List (Nat × Nat)
  deriving DecidableEq, Repr

/-- A team, or one copy of it. -/
structure Team where
  grid : Nat
  idx : Nat
  twin : Bool
  rank : Nat
  slot : Nat
  core : Nat
  st : TeamSt
  lo : Half
  hi : Half
  bars : Vector Bar 16
  /-- cluster barriers, used in the team of rank 0 (R363) -/
  cbars : Vector Bar 4
  flags : BitVec 5
  killed : BitVec 64
  firstKill : Nat
  /-- the model's step of the first kill: the earlier of two copies' counts (R387) -/
  killedAt : Nat
  /-- progress counters (R385) -/
  issued : Nat
  cycles : Nat
  /-- a pre-emption request: its deadline (R384) -/
  request : Option Nat
  draining : Bool
  lost : Bool
  /-- after a region that its copy alone ran, its group's image is to replace the twin copy's (R475) -/
  mirror : Bool
  deriving DecidableEq, Repr

/-- A region table entry (R374). -/
structure RegEnt where
  beg : Nat
  end_ : Nat
  /-- argument offset, OUT, bytes -/
  ranges : List (Nat × Bool × Nat)
  deriving DecidableEq, Repr

/-- A hod table entry (R380). -/
structure Hod where
  base : Nat
  log2cap : Nat
  output : Bool
  deriving DecidableEq, Repr

/-- An edge of the port map (R230). -/
structure Edge where
  wa : Nat
  port : Port
  wb : Nat
  dt : Int
  deriving DecidableEq, Repr

/-- The fields of a launch record (R373), with the tables it names as Dorzin read them at acceptance. -/
structure Launch where
  cls : Nat
  twin : Bool
  pair : Bool
  cluster : Nat
  resext : Bool
  waves : Nat
  regs : Nat
  scratch : Nat
  acc : Nat
  wbuf : Nat
  argbase : Nat
  sbase : Nat
  ssize : Nat
  lbase : Nat
  lsize : Nat
  regions : List RegEnt
  edges : List Edge
  hods : List Hod
  inhod : Nat
  outhod : Nat
  bind : Bool
  comprec : Nat
  sigaddr : Nat
  expect : Nat
  s0 : Nat
  bucket : Nat
  entry : Nat
  size : Nat
  deriving DecidableEq, Repr

/-- A launch: its grid (R374, R387, R388). -/
structure Grid where
  ctx : BitVec 16
  queue : Nat
  seq : Nat
  launch : Launch
  status : Nat
  poisoned : Bool
  /-- the launch ends early: nothing more is placed -/
  ending : Bool
  complete : Bool
  deriving DecidableEq, Repr

/-- A context record (R369). -/
structure Context where
  id : BitVec 16
  asid : Nat
  part : Nat
  hentry : Nat
  hbase : Nat
  hsize : Nat
  ctxctl : DWord
  subst : DWord
  tring : DWord
  savebase : Nat
  nslot : Nat
  slotsize : Nat
  priv : Nat
  /-- entries appended to the telemetry ring, and joint operations counted on each core (R267, R345) -/
  tidx : Nat
  shadow : List (Nat × Nat)
  watch : Vector (DWord × DWord) 4
  lost : Bool
  deriving DecidableEq, Repr

/-! ## Engines -/

inductive JobKind where
  | load | store | add | mldw | mma | mzero | mdrain (add : Bool) | fence
  deriving DecidableEq, Repr

/-- Spaces that a job reads and writes: global memory, and scratchpad, accumulator and weight buffer of a half of a team. -/
inductive Space where
  | glob
  | scr (team : Nat) (odd : Bool)
  | acc (team : Nat) (odd : Bool)
  | wbuf (team : Nat) (odd : Bool)
  deriving DecidableEq, Repr

/-- A range that a job reads or writes (R307). -/
structure Foot where
  space : Space
  lo : Nat
  len : Nat
  deriving DecidableEq, Repr

/-- A job card (R305, R473). -/
structure Job where
  kind : JobKind
  wave : Nat
  team : Nat
  /-- waves that a joint MMA credits (R249) -/
  members : List Nat
  bay : Nat
  core : Nat
  tag : Option (BitVec 6)
  record : List Byte
  recPoisoned : Bool
  reads : List Foot
  writes : List Foot
  /-- bytes of the engine's own memories that it has written (R242) -/
  wrote : List Foot
  /-- operands: descriptors and words, as read at issue -/
  a : DWord
  b : DWord
  c : DWord
  fmt : Word
  ovw : Bool
  rowp : Bool
  acca : Bool
  /-- the job uses both cores of a pair (R256, R259, R263) -/
  pair : Bool
  seed : DWord
  /-- the value of mctr that its stochastic rounding uses (R250, R313) -/
  ctr : Word
  region : Bool
  unchecked : Bool
  /-- chunks of its half landed (R314): until it completes, its status and flags are those of what has landed -/
  landed : List Nat
  /-- the identifier of a fault that holds it (R266, R402); a fault declared fatal -/
  held : Option Word
  fatal : Bool
  complete : Bool
  status : BitVec 4
  flags : BitVec 5
  cancelled : Bool
  /-- every write is made, and the job waits for acknowledgements of other devices: its status and flags then -/
  ending : Option (BitVec 4 × BitVec 5)
  deriving DecidableEq, Repr

/-- A job card that its instruction offers to the tracker (R307, R473): where its record lies, a fault of the record's read,
and whether the job is accepted and its instruction has still to complete. -/
structure Offer where
  strm : Strm
  job : Job
  recAddr : Nat
  held : Option Word
  fatal : Bool
  accepted : Bool
  deriving DecidableEq, Repr

/-- Ray states (R292). -/
inductive RaySt where
  | running | suspended | ended | dropped
  deriving DecidableEq, Repr

/-- A stack entry of the walk (R290): a node, or a leaf child with its records. -/
structure RayEnt where
  addr : Nat
  leaf : Bool
  count : Nat
  entry : DWord
  root : Bool
  /-- for a leaf, its exact box (R279): origin, exponent and the two bytes of each axis -/
  box : List (DWord × Int × Nat × Nat)
  deriving DecidableEq, Repr

/-- The best hit (R284, R293). -/
structure Hit where
  t : DWord
  u : DWord
  v : DWord
  addr : Nat
  primid : Word
  deriving DecidableEq, Repr

/-- A ray of a traversal unit. -/
structure Ray where
  core : Nat
  ctx : BitVec 16
  /-- the wave that started it; none for a ray of an input hod -/
  wave : Option Nat
  lane : Lane
  team : Nat
  /-- slot handle, 1 to 2,047 (R293) -/
  handle : Nat
  o : Vector DWord 3
  d : Vector DWord 3
  tmin : DWord
  tmax : DWord
  mask : BitVec 8
  anyhit : Bool
  /-- the control word's reserved bits -/
  reserved : Bool
  tag : DWord
  root : Nat
  g0 : Option (BitVec 16)
  stack : List RayEnt
  best : Option Hit
  tb : DWord
  remain : Nat
  /-- the node of a visit that has begun and waits for its read -/
  node : Option RayEnt
  /-- records of the current leaf still to be tested, with its box -/
  leaf : List Nat
  box : List (DWord × Int × Nat × Nat)
  /-- the record at which the ray stands suspended: address, PRIMID, Newton steps -/
  at_ : Option (Nat × Word × Nat)
  st : RaySt
  status : BitVec 4
  addr : Nat
  primid : Word
  /-- with .q, and for rays of an input hod: the output hod (R299), and the slot of it that the unit has reserved for the record,
  with whether the record is written there (R380) -/
  hod : Option Nat
  hodSlot : Option (Nat × Bool)
  /-- outstanding L-ops that take its next record: wave, place among the wave's outstanding L-ops, lane -/
  owes : List (Nat × Nat × Lane)
  logging : Bool
  slice : Nat
  sliceLen : Nat
  logCount : Nat
  logFull : Bool
  /-- logging has ended for a fault (R295) -/
  logDead : Bool
  /-- log entries that the unit has still to write -/
  logBuf : List DWord
  /-- the ray has come to a suspension or its end, and its entries, header and record are still to be written; whether the header
  is -/
  due : Option (RaySt × Bool)
  /-- the fault that holds the ray -/
  held : Option Word
  inRegion : Bool
  freed : Bool
  deriving DecidableEq, Repr

/-! ## Cores and memory -/

/-- Where a virtual address leads (R395, R398, R452). -/
inductive Loc where
  | hbm (pa : Nat)
  | carved (off : Nat)
  | host (bus : Nat)
  | fabric (dev rasid raddr : Nat)
  deriving DecidableEq, Repr

/-- A line of an L1: dirty bytes (R109), or partial results of one reduction (R227). -/
structure L1Line where
  part : Nat
  asid : Nat
  line : Nat
  home : Loc
  bytes : Overlay
  /-- poisoned dirty sectors -/
  poison : List Nat
  gather : Option AtomOp
  partials : List (Nat × DWord)
  deriving DecidableEq, Repr

/-- A compute core. -/
structure Core where
  cycles : Nat
  l1 : List L1Line
  /-- waves whose REGX.acq waits, in the order of issue (R62) -/
  grants : List Nat
  /-- watchpoints: DBG_WADDRn and DBG_WCTLn, and the context they belong to (R469, R470) -/
  watch : Vector (DWord × DWord) 4
  watchCtx : Option (BitVec 16)
  /-- quarters retired (R14) -/
  retired : List (Fin 4)
  deriving DecidableEq, Repr

/-- A line of the LLC (R393): what a reader-count line holds over memory, and for other lines their residence. A sector that is
valid and not dirty is the same in HBM. -/
structure LlcLine where
  slice : Nat
  set : Nat
  way : Nat
  part : Nat
  asid : Nat
  line : Nat
  home : Loc
  valid : BitVec 4
  dirty : BitVec 4
  retention : Nat
  order : Nat
  /-- reader count, and the bytes and poison of the line while it has one (R114, R115) -/
  rc : Option Nat
  bytes : List Byte
  poison : List Nat
  deriving DecidableEq, Repr

/-- A cached leaf of the translation unit of a channel (R397): 2 MiB, or 1 GiB when `big`. -/
structure Leaf where
  chan : Nat
  part : Nat
  asid : Nat
  page : Nat
  big : Bool
  pte : DWord
  deriving DecidableEq, Repr

/-- A cached upper-level entry of the translation unit of a channel (R397): the entry that a walk read at a level for the
addresses with these bits above the level's index. -/
structure Upper where
  chan : Nat
  part : Nat
  asid : Nat
  level : Nat
  page : Nat
  pte : DWord
  deriving DecidableEq, Repr

/-- An invalidation in progress (R399). -/
structure Inval where
  part : Nat
  asid : Nat
  lo : Nat
  hi : Nat
  deriving DecidableEq, Repr

/-- Who waits on a fault record (R402). -/
inductive Holder where
  | wave (w : Nat) (strm : Strm)
  | job (j : Nat)
  | offer (w : Nat)
  | ray (r : Nat)
  | coll (c : Nat)
  /-- a write of the device itself, or of a region at its cure, that waits for the answer -/
  | device (asid va : Nat) (bytes : List Byte) (poison : Bool)
  /-- a refused write that nothing waits for, which stays open until the answer (R453) -/
  | remote (tag : Nat)
  /-- a ring whose next entry cannot be read or written: of a grid's hod, or of a partition's collectives -/
  | ring (base : Nat)
  deriving DecidableEq, Repr

/-- A fault record (R402). -/
structure FaultRec where
  part : Nat
  id : Word
  report : DWord
  va : Nat
  ctx : BitVec 16
  holder : Holder
  answered : Bool
  deriving DecidableEq, Repr

/-- Memory and translation. -/
structure Mem where
  hbm : Cells
  carved : Cells
  /-- poisoned 64-byte sectors of HBM and of carved storage (R410, R411) -/
  hbmPoison : List Nat
  carvedPoison : List Nat
  llc : List LlcLine
  fills : Nat
  leaves : List Leaf
  uppers : List Upper
  invals : List Inval
  faults : List FaultRec
  nextId : Word
  /-- LLC_CARVE: BUSY, CUR and K (R407), and the conversion's target -/
  carveBusy : Bool
  carveCur : Nat
  carveK : Nat
  deriving DecidableEq, Repr

/-! ## The device -/

/-- RST_STATUS (R463) and where bring-up stands (R465). -/
structure Rst where
  wcount : BitVec 16
  linkup : BitVec 24
  recovery : Bool
  schedReady : Bool
  memReady : Bool
  fwOk : Bool
  warmLast : Bool
  romDone : Bool
  deriving DecidableEq, Repr

/-- A pending claim (R439). -/
structure Claim where
  prio : BitVec 4
  nonce : BitVec 16
  deriving DecidableEq, Repr

/-- CTRL_OWNER and the pending claims (R438, R439). -/
structure Owner where
  valid : Bool
  elect : Bool
  epoch : BitVec 16
  owner : Master
  prio : BitVec 4
  nonce : BitVec 16
  claims : Vector (Option Claim) 4
  deriving DecidableEq, Repr

/-- CTRL_ATTEST (R443). -/
structure Attest where
  /-- words 0 to 5 of each master -/
  words : Vector (Vector DWord 6) 4
  status : BitVec 4
  master : Master
  seq : Word
  /-- words 0 to 5 of the request in progress -/
  taken : Vector DWord 6
  buffer : List Byte
  deriving DecidableEq, Repr

/-- What fuses, the board controller's store and reserved HBM hold of firmware and identity (R440, R441). -/
structure Fuses where
  version : Nat
  serial : DWord
  lmsMark : Nat
  lmsLeaf : Nat
  resets : Nat
  dorzin : Option (BitVec 384 × Nat)
  health : Option (BitVec 384 × Nat)
  /-- repoint entries (R425) -/
  repoint : List DWord
  deriving DecidableEq, Repr

/-- One partition (R433 to R436), its ASID table (R394), windows (R452), import table (R453) and collective ring (R456). -/
structure Partition where
  enabled : Bool
  disabling : Bool
  ways : BitVec 24
  bays : BitVec 8
  rsv : DWord
  mem : Vector DWord 4
  asidTable : Nat
  /-- committed and staged words of the windows written: window, three words (R447) -/
  windows : List (Nat × DWord × DWord × DWord)
  staged : List (Nat × Word × DWord × DWord)
  imports : List (Nat × DWord)
  collRing : DWord
  deriving DecidableEq, Repr

/-- A request to the host or to another device that is not finished (R16, R449, R451, R454), of an instruction of a wave, of a
job or of a ray. `lanes` are the lanes of a lane access that it serves, and `poison` the poison attribute of what it writes
(R414). -/
structure Remote where
  job : Option Nat
  ray : Option Nat
  tag : Nat
  dev : Option Nat
  addr : Nat
  asid : Nat
  op : FabOp
  wave : Nat
  strm : Strm
  out : Nat
  lanes : List Lane
  va : Nat
  poison : Bool
  reply : Option Reply
  /-- of a write that no instruction, job or ray waits for: its partition and address space -/
  via : Option (Nat × Nat)
  deriving DecidableEq, Repr

/-- A collective that a device has taken from its ring (R456 to R459). -/
structure Coll where
  part : Nat
  /-- the 128 bytes of the record -/
  record : List Byte
  /-- the leader on this device has sealed the mask at its limit of time -/
  sealed : Bool
  /-- the fault that holds it, and whether it was declared fatal -/
  held : Option Word
  fatal : Bool
  done : Bool
  /-- the management core's count when the device took the record (R458) -/
  since : Nat
  deriving DecidableEq, Repr

/-- What the device has sent: posted writes to the host, MSI-X messages, fabric replies (R446, R449, R453). -/
inductive Sent where
  | host (bus : Nat) (bytes : List Byte) (poison : Bool)
  | msix (vector : Nat)
  | reply (srcDev tag : Nat) (r : Reply)
  /-- answers to reads of the aperture: data and the poisoned-TLP bit, Unsupported Request, Completer Abort -/
  | aperture (bytes : List Byte) (poison : Bool)
  | unsupported
  | aborted
  /-- answers to configuration requests (R464) -/
  | configRetry
  | configDone
  deriving DecidableEq, Repr

/-- Host link and fabric. -/
structure Links where
  aperCfg : DWord
  aperBase : DWord
  /-- MSI-X vectors that are not masked, and those whose pending bit is set (R446) -/
  unmasked : List Nat
  pending : List Nat
  sent : List Sent
  number : Nat
  routes : List (Nat × DWord)
  lost : List Nat
  retries : Vector Nat 24
  remotes : List Remote
  nextTag : Nat
  kept : List (Nat × Nat × Reply)
  colls : List Coll
  deriving DecidableEq, Repr

/-- One entry of the journal (R390), as its four words at 0x00, 0x08, 0x10 and 0x18. -/
structure JEnt where
  words : Vector DWord 4
  deriving DecidableEq, Repr

/-- One entry of the error log (R432), as its eight words, and the management core's count when it was written (R431). -/
structure ErrEnt where
  words : Vector DWord 8
  since : Nat
  deriving DecidableEq, Repr

/-- One entry of the event log (R466), as its four words. -/
structure EvEnt where
  words : Vector DWord 4
  deriving DecidableEq, Repr

/-- Dorzin and its logs (R370 to R372, R389 to R391, R431, R466). -/
structure Dorzin where
  kicks : List Nat
  lastServed : Nat
  qtab : Nat
  launchSeq : Nat
  journal : List JEnt
  /-- rings of the journal from before warm resets (R461) -/
  kept : List JEnt
  count : Nat
  failed : Bool
  takenOver : Bool
  errors : List ErrEnt
  errorSeq : Nat
  events : List EvEnt
  eventSeq : Nat
  /-- a slice has stopped: no launch is accepted until a reset (R410) -/
  sliceStopped : Bool
  deriving DecidableEq, Repr

/-- PWR_LIMIT, PWR_STATUS and the rails (R467, R468, R430). -/
structure Power where
  tlimit : Nat
  plimit : Nat
  clk : Nat
  pwr : Nat
  temp : Nat
  trip : Bool
  /-- steps of 5 mV below nominal of each rail, and whether it may be lowered -/
  rails : Vector Nat 8
  locked : Vector Bool 8
  held : Vector Bool 8
  /-- nominal voltage and fused minimum of each rail, in mV -/
  nominal : Vector Nat 8
  minimum : Vector Nat 8
  deriving DecidableEq, Repr

/-- What a report of R432 says of its event: kind, action, site, address, address of the instruction (0: none), and how many
waves roll back. -/
structure Report where
  kind : Nat
  action : Nat
  site : Nat
  addr : Nat
  instr : Nat
  set : Nat
  deriving DecidableEq, Repr

/-- The health manager: the management core's cycle count (R431); events counted by array (R429); row entries whose copy runs
(R428); lane entries that wait (R426); reports of rolled-back sets, by wave, that the sequencer writes once it has moved the
group (R420). -/
structure Health where
  clock : Nat
  counts : List (Nat × Nat)
  rowCopies : List DWord
  laneWaits : List DWord
  replays : List (Nat × Report)
  deriving DecidableEq, Repr

/-- Errors of the physical world that strike the next unit they concern: residue differences (core, quarter, physical lane,
executions that differ), parity of a v register, or of reservoir n as register 512 + n (wave, register, lane), and of the head
of a receive queue (wave, port, lane); a half of an HBM sector of a class other than good (sector, upper half), met by the next
read of it from HBM; a sector of an address space whose copy in a cache has an error that can be corrected or not (partition,
ASID, sector), met by the next read of it; a scratchpad, accumulator or weight-buffer unit with an error that cannot (memory,
unit), met by the next read of it; a word of an instruction cache (core, lane code, address); slices of which both copies of a
tag or directory entry have failed (R410). -/
structure Phys where
  residue : List (Nat × Nat × Nat × Nat)
  parity : List (Nat × Nat × Lane)
  queues : List (Nat × Nat × Lane)
  ecc : List (Nat × Bool × EccClass)
  sram : List (Nat × Nat × Nat × Bool)
  units : List (Space × Nat)
  icache : List (Nat × Bool × Nat)
  slices : List Nat
  deriving DecidableEq, Repr

/-- Everything of the device beside cores, memory and work. -/
structure Sys where
  rst : Rst
  owner : Owner
  attest : Attest
  fuses : Fuses
  parts : Vector Partition 8
  links : Links
  dorzin : Dorzin
  power : Power
  health : Health
  phys : Phys
  contexts : List Context
  watchHits : List WatchHit
  deriving DecidableEq, Repr

/-! ## The machine -/

/-- Who acts in one step. -/
inductive Agent where
  | sStream (w : Nat)
  | lStream (w : Nat) (side : Side)
  | event (i : Instr)
  deriving DecidableEq, Repr

/-- The prefixes of the group that issues (R139): the payload of its XIM, the hint of its XHNT, and how many words they are. -/
structure Pfx where
  xim : Option (BitVec 26)
  hint : Option (HintKind × BitVec 8)
  words : Nat
  deriving DecidableEq, Repr

/-- The machine. The last five fields are the model's own (notes/assumptions/1.md): who acts next, the wave and side that
issue now, the steps taken, the free values drawn, and the prefixes of the group that issues. -/
structure State where
  sys : Sys
  mem : Mem
  cores : List Core
  grids : List Grid
  teams : List Team
  waves : List Wave
  jobs : List Job
  offers : List Offer
  rays : List Ray
  agenda : List Agent
  cur : Nat × Side
  tick : Nat
  free : Nat
  pfx : Pfx
  deriving DecidableEq, Repr

/-! ## Reset -/

/-- Nothing is green. -/
def Green.empty : Green := ⟨[], [], [], [], [], [], []⟩

def Pfx.none : Pfx := ⟨Option.none, Option.none, 0⟩

def Partition.reset : Partition :=
  { enabled := false, disabling := false, ways := 0, bays := 0, rsv := 0, mem := Vector.replicate 4 0, asidTable := 0,
    windows := [], staged := [], imports := [], collRing := 0 }

def Core.reset : Core :=
  { cycles := 0, l1 := [], grants := [], watch := Vector.replicate 4 (0, 0), watchCtx := none, retired := [] }

def Rst.reset : Rst := ⟨0, 0, false, false, false, false, false, false⟩

def Owner.reset : Owner := ⟨false, false, 0, 0, 0, 0, Vector.replicate 4 none⟩

def Attest.reset : Attest :=
  ⟨Vector.replicate 4 (Vector.replicate 6 0), 0, 0, 0, Vector.replicate 6 0, []⟩

def Fuses.reset : Fuses := ⟨0, 0, 0, 0, 0, none, none, []⟩

def Links.reset : Links :=
  { aperCfg := 0, aperBase := 0, unmasked := [], pending := [], sent := [], number := 0, routes := [], lost := [],
    retries := Vector.replicate 24 0, remotes := [], nextTag := 0, kept := [], colls := [] }

def Dorzin.reset : Dorzin :=
  { kicks := [], lastServed := 4095, qtab := 0, launchSeq := 0, journal := [], kept := [], count := 0, failed := false, takenOver := false,
    errors := [], errorSeq := 0, events := [], eventSeq := 0, sliceStopped := false }

def Power.reset : Power :=
  { tlimit := 105, plimit := 3000, clk := 3600, pwr := 0, temp := 0, trip := false, rails := Vector.replicate 8 0,
    locked := Vector.replicate 8 false, held := Vector.replicate 8 false, nominal := Vector.replicate 8 0,
    minimum := Vector.replicate 8 0 }

def Mem.reset : Mem :=
  { hbm := [], carved := [], hbmPoison := [], carvedPoison := [], llc := [], fills := 0, leaves := [], uppers := [], invals := [],
    faults := [], nextId := 1, carveBusy := false, carveCur := 0, carveK := 0 }

def Sys.reset : Sys :=
  { rst := Rst.reset, owner := Owner.reset, attest := Attest.reset, fuses := Fuses.reset,
    parts := Vector.replicate 8 Partition.reset, links := Links.reset, dorzin := Dorzin.reset, power := Power.reset,
    health := ⟨0, [], [], [], []⟩, phys := ⟨[], [], [], [], [], [], [], []⟩, contexts := [], watchHits := [] }

/-- The machine right after a cold reset (R461, R463): nothing is loaded, no wave exists, bring-up has not begun. -/
def State.reset : State :=
  { sys := Sys.reset, mem := Mem.reset, cores := List.replicate 64 Core.reset, grids := [], teams := [], waves := [],
    jobs := [], offers := [], rays := [], agenda := [], cur := (0, .a), tick := 0, free := 0, pfx := Pfx.none }

end Sys2Proof.Machine
end

