-- ==== Sys2Proof/Machine/Ops.lean ====
section
/-!
DEFINITION. The named operations over waves, registers, teams and the device that the meanings share: bytes and lanes,
the scalar registers, the logs of the device, barriers, retirement and kill (spec/16 R355), rollback of a region
(spec/12 R319), taking a trap and the end of a handler (spec/16 R344 to R354).
-/

namespace Sys2Proof.Machine

/-! ## Lists, lanes and masks -/

/-- Change the element at a position, if there is one. -/
def modAt {α : Type} (l : List α) (i : Nat) (f : α → α) : List α :=
  match l[i]? with
  | none => l
  | some x => l.set i (f x)

/-- Change every element, given its position. -/
def mapIx {α β : Type} (f : Nat → α → β) : Nat → List α → List β
  | _, [] => []
  | i, x :: xs => f i x :: mapIx f (i + 1) xs

/-- The positions of the elements that a test accepts. -/
def positions {α : Type} (p : α → Bool) : Nat → List α → List Nat
  | _, [] => []
  | i, x :: xs => if p x then i :: positions p (i + 1) xs else positions p (i + 1) xs

/-- A value for every lane. -/
def lanes {α : Type} (f : Lane → α) : Lanes α := ⟨(List.ofFn f).toArray, by rw [List.size_toArray, List.length_ofFn]⟩

/-- The set of lanes that a test accepts. -/
def maskOf (f : Lane → Bool) : Mask := (BitVec.ofBoolListLE (List.ofFn f)).setWidth 32

/-- Membership of a lane in a set. -/
def inMask (m : Mask) (l : Lane) : Bool := m.getLsbD l.val

/-- All lanes, in ascending order. -/
def allLanes : List Lane := List.finRange 32

/-- The lanes of a set, in ascending order. -/
def lanesIn (m : Mask) : List Lane := allLanes.filter (inMask m)

/-- The lowest lane of a set. -/
def lowest (m : Mask) : Option Lane := allLanes.find? (inMask m)

/-- Take the new value in the lanes of a set, and keep the old one elsewhere. -/
def blend {α : Type} (m : Mask) (new old : Lanes α) : Lanes α := lanes fun l => if inMask m l then new[l] else old[l]

/-- The bit field [lo + n - 1 : lo] of a number. -/
def field (x lo n : Nat) : Nat := x / 2 ^ lo % 2 ^ n

/-- A bit of a number. -/
def bitOf (x i : Nat) : Bool := x / 2 ^ i % 2 == 1

/-- A bit field sign-extended to an integer. -/
def sfield (x lo n : Nat) : Int :=
  let v := field x lo n
  if v < 2 ^ (n - 1) then (v : Int) else (v : Int) - ((2 ^ n : Nat) : Int)

/-- The first value of each run of equal ones is kept; later repeats go. -/
def dedup : List Nat → List Nat
  | [] => []
  | x :: xs => x :: (dedup xs).filter (· != x)

/-! ## Bytes -/

/-- The byte at an address: an unlisted one reads as 0 (notes/assumptions/3.md). -/
def cellGet : Cells → Nat → Byte
  | [], _ => 0
  | (k, b) :: t, a => if a = k then b else if a < k then 0 else cellGet t a

/-- Store one byte and keep the canonical form: rising addresses, no entry of 0. -/
def cellPut : Cells → Nat → Byte → Cells
  | [], a, b => if b = 0 then [] else [(a, b)]
  | (k, c) :: t, a, b =>
    if a < k then (if b = 0 then (k, c) :: t else (a, b) :: (k, c) :: t)
    else if a = k then (if b = 0 then t else (a, b) :: t)
    else (k, c) :: cellPut t a b

/-- Every entry lies above `lo` and at or above no later one, and none is 0. -/
def cellsAbove : Nat → Cells → Bool
  | _, [] => true
  | lo, (k, b) :: t => decide (lo ≤ k) && b != 0 && cellsAbove (k + 1) t

/-- The canonical form of memory: addresses strictly rising, and no entry equal to what an unlisted address reads as. -/
def Cells.wf (c : Cells) : Bool := cellsAbove 0 c

def cellRead (c : Cells) (a n : Nat) : List Byte := (List.range n).map fun i => cellGet c (a + i)

def cellWrite : Cells → Nat → List Byte → Cells
  | c, _, [] => c
  | c, a, b :: bs => cellWrite (cellPut c a b) (a + 1) bs

/-- The byte that an overlay holds. -/
def ovGet : Overlay → Nat → Option Byte
  | [], _ => none
  | (k, b) :: t, a => if a = k then some b else if a < k then none else ovGet t a

def ovPut : Overlay → Nat → Byte → Overlay
  | [], a, b => [(a, b)]
  | (k, c) :: t, a, b => if a < k then (a, b) :: (k, c) :: t else if a = k then (a, b) :: t else (k, c) :: ovPut t a b

def ovWrite : Overlay → Nat → List Byte → Overlay
  | c, _, [] => c
  | c, a, b :: bs => ovWrite (ovPut c a b) (a + 1) bs

/-- Drop the bytes from lo to hi - 1. -/
def ovDrop (c : Overlay) (lo hi : Nat) : Overlay := c.filter fun e => decide (e.1 < lo) || decide (hi ≤ e.1)

/-- The n low bytes of a number, lowest first (little-endian, R11). -/
def bytesLE : Nat → Nat → List Byte
  | 0, _ => []
  | n + 1, v => BitVec.ofNat 8 v :: bytesLE n (v / 256)

/-- A list of bytes as a number, lowest first. -/
def numLE : List Byte → Nat
  | [] => 0
  | b :: bs => b.toNat + 256 * numLE bs

/-- The 64-byte sectors that n bytes at an address touch. -/
def sectors (a n : Nat) : List Nat := if n = 0 then [] else (List.range ((a + n - 1) / 64 - a / 64 + 1)).map (a / 64 + ·)

/-! ## Traps by name -/

/-- The codes of R351. -/
def Cause.code : Cause → Nat
  | .illegalOpcode => 0x01 | .illegalOperand => 0x02 | .prefixMisuse => 0x03 | .codeRange => 0x04 | .addrRange => 0x05
  | .misaligned => 0x06 | .scratchRange => 0x07 | .remoteRange => 0x08 | .privilege => 0x09 | .regionNest => 0x0A
  | .regionIllegal => 0x0B | .regionOverflow => 0x0C | .twinIllegal => 0x0D | .footprintFull => 0x0E | .regAbsent => 0x0F
  | .regLimit => 0x10 | .unstaged => 0x11 | .stallUndersized => 0x12 | .streamDeadlock => 0x13 | .joinMismatch => 0x14
  | .divstackFull => 0x15 | .barSequence => 0x16 | .bondInvalid => 0x17 | .bondBroken => 0x18 | .bondStall => 0x19
  | .formatDiverge => 0x1A | .operandDiverge => 0x1B | .formatInvalid => 0x1C | .descInvalid => 0x1D | .portStall => 0x1E
  | .travStall => 0x1F | .jobStall => 0x20 | .cwaitStall => 0x21 | .userTrap => 0x22 | .syscall => 0x23 | .pageFault => 0x24
  | .alias_ => 0x25 | .watch => 0x26 | .watchEngine => 0x27 | .poisonConsumed => 0x30 | .residueFail => 0x31
  | .waveLost => 0x32 | .handlerFault => 0x33 | .rfParity => 0x34 | .systemKill => 0x35

/-- The cause that a code of sys.cause names (R351). -/
def Cause.ofCode (n : Nat) : Cause :=
  ([.illegalOpcode, .illegalOperand, .prefixMisuse, .codeRange, .addrRange, .misaligned, .scratchRange, .remoteRange, .privilege,
    .regionNest, .regionIllegal, .regionOverflow, .twinIllegal, .footprintFull, .regAbsent, .regLimit, .unstaged,
    .stallUndersized, .streamDeadlock, .joinMismatch, .divstackFull, .barSequence, .bondInvalid, .bondBroken, .bondStall,
    .formatDiverge, .operandDiverge, .formatInvalid, .descInvalid, .portStall, .travStall, .jobStall, .cwaitStall, .userTrap,
    .syscall, .pageFault, .alias_, .watch, .watchEngine, .poisonConsumed, .residueFail, .waveLost, .handlerFault,
    .rfParity].find? fun c : Cause => c.code == n).getD .systemKill

/-- A trap with its report (R351, R352). -/
structure Trap where
  cause : Cause
  va : Nat
  aux : Nat
  mask : Mask
  deriving DecidableEq, Repr

def Trap.of (c : Cause) : Trap := ⟨c, 0, 0, 0⟩
def Trap.at (c : Cause) (va : Nat) : Trap := ⟨c, va, 0, 0⟩
def Trap.aux_ (c : Cause) (aux : Nat) : Trap := ⟨c, 0, aux, 0⟩

/-! ## Finding things -/

/-- The launch of a grid that no record describes. -/
def Launch.empty : Launch :=
  { cls := 0, twin := false, pair := false, cluster := 0, resext := false, waves := 1, regs := 1, scratch := 0, acc := 0,
    wbuf := 0, argbase := 0, sbase := 0, ssize := 0, lbase := 0, lsize := 0, regions := [], edges := [], hods := [],
    inhod := 0, outhod := 0, bind := false, comprec := 0, sigaddr := 0, expect := 0, s0 := 0, bucket := 0, entry := 0,
    size := 0 }

/-- A context with every field of its record 0: no handler, scoreboard off. -/
def Context.empty : Context :=
  { id := 0, asid := 0, part := 0, hentry := 0, hbase := 0, hsize := 0, ctxctl := 0, subst := 0, tring := 0, savebase := 0,
    nslot := 0, slotsize := 0, priv := 0, tidx := 0, shadow := [], watch := Vector.replicate 4 (0, 0), lost := false }

def State.wave? (s : State) : Option Wave := s.waves[s.cur.1]?

def State.putWave (s : State) (i : Nat) (w : Wave) : State := { s with waves := s.waves.set i w }

/-- Replace the wave that issues. -/
def State.setWave (s : State) (w : Wave) : State := s.putWave s.cur.1 w

def State.modWave (s : State) (i : Nat) (f : Wave → Wave) : State := { s with waves := modAt s.waves i f }

def State.modTeam (s : State) (t : Nat) (f : Team → Team) : State := { s with teams := modAt s.teams t f }

def State.modGrid (s : State) (g : Nat) (f : Grid → Grid) : State := { s with grids := modAt s.grids g f }

def State.modCore (s : State) (c : Nat) (f : Core → Core) : State := { s with cores := modAt s.cores c f }

def State.modJob (s : State) (j : Nat) (f : Job → Job) : State := { s with jobs := modAt s.jobs j f }

def State.modRay (s : State) (r : Nat) (f : Ray → Ray) : State := { s with rays := modAt s.rays r f }

def State.launchOf (s : State) (w : Wave) : Launch := ((s.grids[w.grid]?).map Grid.launch).getD Launch.empty

def State.ctxIdOf (s : State) (w : Wave) : BitVec 16 := ((s.grids[w.grid]?).map Grid.ctx).getD 0

def State.context (s : State) (id : BitVec 16) : Context := (s.sys.contexts.find? fun c => c.id == id).getD Context.empty

def State.ctxOf (s : State) (w : Wave) : Context := s.context (s.ctxIdOf w)

def State.modContext (s : State) (id : BitVec 16) (f : Context → Context) : State :=
  { s with sys := { s.sys with contexts := s.sys.contexts.map fun c => if c.id == id then f c else c } }

def State.teamOf (s : State) (w : Wave) : Option Team := s.teams[w.team]?

/-- The waves of a team, as positions. -/
def State.members (s : State) (t : Nat) : List Nat := positions (fun w => w.team == t) 0 s.waves

/-- Fields of sys.ctxctl (R346). -/
def Context.hen (c : Context) : Bool := c.ctxctl.getLsbD 0
def Context.scb (c : Context) : Bool := c.ctxctl.getLsbD 1
def Context.pacc (c : Context) : Bool := c.ctxctl.getLsbD 2
def Context.pstall (c : Context) : Nat := field c.ctxctl.toNat 24 6
def Context.shlog (c : Context) : Nat := field c.ctxctl.toNat 32 5

/-- A wave that has left (R33, R355). -/
def Wave.gone (w : Wave) : Bool := w.st == .retired || w.st == .killed

/-! ## Poison of storage, and lines of the LLC that are written back (R115, R411) -/

/-- Set or clear membership of a list without repeats. -/
def putIn (l : List Nat) (x : Nat) (b : Bool) : List Nat := if b then (if l.contains x then l else x :: l) else l.filter (· != x)

/-- Mark or clear the poison of a sector of storage. -/
def Mem.setPoison (m : Mem) (p : Loc) (b : Bool) : Mem :=
  match p with
  | .hbm a => { m with hbmPoison := putIn m.hbmPoison (a / 64) b }
  | .carved a => { m with carvedPoison := putIn m.carvedPoison (a / 64) b }
  | _ => m

/-- Write a line of the LLC back to memory: its bytes, and its poison. -/
def Mem.writeLine (m : Mem) (x : LlcLine) : Mem :=
  match x.home, x.rc with
  | .hbm a, some _ =>
    let m1 := { m with hbm := cellWrite m.hbm a x.bytes }
    (List.range 4).foldl (fun y k => y.setPoison (.hbm (a + 64 * k)) (x.poison.contains k)) m1
  | _, _ => m

/-- Take a line out of the LLC, written back. -/
def Mem.evict (m : Mem) (x : LlcLine) : Mem :=
  let m1 := m.writeLine x
  { m1 with llc := m1.llc.filter fun y => !(y.slice == x.slice && y.set == x.set && y.way == x.way) }

/-! ## The logs of the device -/

/-- An MSI-X vector is raised: a message, or the pending bit of a masked vector (R446). -/
def State.msix (s : State) (v : Nat) : State :=
  let k := s.sys.links
  let k' := if k.unmasked.contains v then { k with sent := k.sent ++ [.msix v] }
    else { k with pending := if k.pending.contains v then k.pending else k.pending ++ [v] }
  { s with sys := { s.sys with links := k' } }

/-- The last n elements of a list: what a ring of n entries holds. -/
def ring {α : Type} (n : Nat) (l : List α) : List α := l.drop (l.length - n)

/-- An entry records an event of the same kind at the same site as these words, less than 4,096 management-core cycles ago. -/
def ErrEnt.merges (e : ErrEnt) (ws : Vector DWord 8) (now : Nat) : Bool :=
  e.words[1].setWidth 8 == ws[1].setWidth 8 && e.words[3] == ws[3] && decide (now - e.since < 4096)

/-- Write an entry of the error log (R431, R432) with the words from 0x08 on, and raise vector 0; or, where an entry takes the
event in, raise its COUNT (R431, R446). -/
def State.logError (s : State) (ws : Vector DWord 8) : State :=
  let d := s.sys.dorzin
  let now := s.sys.health.clock
  match d.errors.findIdx? fun e => e.merges ws now with
  | some k =>
    let more (e : ErrEnt) : ErrEnt := { e with words := e.words.set 2 (e.words[2] + 2 ^ 32) }
    { s with sys := { s.sys with dorzin := { d with errors := modAt d.errors k more } } }
  | none =>
    let e : ErrEnt := ⟨ws.set 0 (BitVec.ofNat 64 d.errorSeq), now⟩
    let d' := { d with errors := ring 65536 (d.errors ++ [e]), errorSeq := d.errorSeq + 1 }
    { s with sys := { s.sys with dorzin := d' } }.msix 0

/-- Write an entry of the event log (R466), SEQ, KIND and DETAIL in its four words, and raise vector 1. -/
def State.logEvent (s : State) (kind detail : Nat) (d1 d2 : DWord) : State :=
  let d := s.sys.dorzin
  let e : EvEnt := ⟨#v[BitVec.ofNat 64 d.eventSeq, BitVec.ofNat 64 (kind + detail * 2 ^ 8), d1, d2]⟩
  let d' := { d with events := ring 16384 (d.events ++ [e]), eventSeq := d.eventSeq + 1 }
  { s with sys := { s.sys with dorzin := d' } }.msix 1

/-- The field of an error-log entry that names the trapping instruction: its offset in the code section that holds it, and
whether that is lane code (R432). -/
def State.instrWord (s : State) (w : Wave) (a : Nat) : Nat :=
  let g := s.launchOf w
  if a = 0 then 0
  else if g.lbase ≤ a && a < g.lbase + g.lsize then (a - g.lbase) % 2 ^ 56 + 2 ^ 56
  else
    let base := if g.sbase ≤ a && a < g.sbase + g.ssize then g.sbase else (s.ctxOf w).hbase
    (a - base) % 2 ^ 56

/-- The site of a way of an LLC slice (R432). Bit 52, which an entry shows as zero, tells it from the site of a core. -/
def llcSite (slice way : Nat) : Nat := slice * 2 ^ 14 + way * 2 ^ 23 + 2 ^ 52

/-- A site in the LLC. -/
def siteInLlc (site : Nat) : Bool := bitOf site 52

/-- The rail of an event's array (R12, R392, R467, R468): the compute die of its core, or the SRAM die of its slice; HBM is on
none. -/
def railOf (kind site : Nat) : Option Nat :=
  if kind = 1 || kind = 5 then none
  else if siteInLlc site then some (4 + field site 14 9 % 12 / 3)
  else some (site % 64 / 16)

/-- A rail is below nominal: events of its arrays are charged to margin (R430). -/
def State.margin (s : State) (kind site : Nat) : Bool :=
  ((railOf kind site).bind fun rail => s.sys.power.rails.toList[rail]?).getD 0 != 0

/-- The words of an error-log entry (R432) for a wave, or for no wave. The replay bay is given as 8 + bay, or 0. -/
def State.errWords (s : State) (i : Option Nat) (r : Report) (bay : Nat) : Vector DWord 8 :=
  let w? := i.bind fun k => s.waves[k]?
  let ctx := (w?.map fun w => (s.ctxIdOf w).toNat).getD 0
  let t? := w?.bind fun w => s.teamOf w
  let margin := s.margin r.kind r.site
  let n (x : Nat) : DWord := BitVec.ofNat 64 x
  let w2 := match w? with
    | none => 2 ^ 32
    | some w => w.num + (if (t?.map Team.twin).getD false then 2 ^ 6 else 0) +
        ((w.region.map fun g => g.id % 2 ^ 8 * 2 ^ 8 + (min g.rollbacks 255) * 2 ^ 16).getD 0) + bay % 16 * 2 ^ 24 + 2 ^ 32
  let instr := (w?.map fun w => s.instrWord w r.instr).getD 0
  #v[0, n (r.kind + r.action * 2 ^ 8 + (if margin then 2 ^ 12 else 0) + ctx * 2 ^ 16 + ((t?.map Team.idx).getD 0) * 2 ^ 32),
     n w2, n (r.site % 2 ^ 52), n r.addr, n instr, n r.set, 0]

/-- Change the device beside cores, memory and work. -/
def State.modSys (s : State) (f : Sys → Sys) : State := { s with sys := f s.sys }

def State.modPhys (s : State) (f : Phys → Phys) : State := { s with sys := { s.sys with phys := f s.sys.phys } }

/-- The site of a wave: core and quarter (R432). -/
def Wave.site (w : Wave) : Nat := w.core + w.quarter * 2 ^ 6

/-! ## The health manager (R425 to R430) -/

/-- The spare lanes that the entries of a quarter use (R425). -/
def State.sparesUsed (s : State) (site : Nat) : List Nat :=
  (s.sys.fuses.repoint ++ s.sys.health.laneWaits).filterMap fun e =>
    let v := e.toNat
    if field v 62 2 == 1 && field v 43 9 == site then some (field v 13 6) else none

/-- The array of an event and its threshold (R429): lanes by core, quarter and physical lane, ways by slice and way, rows by
channel, bank and row. -/
def healthArray (kind site : Nat) : Option (Nat × Nat) :=
  if kind = 3 || kind = 7 then some (2 ^ 52 + site % 2 ^ 14, 8)
  else if kind = 4 then some (2 * 2 ^ 52 + site % 2 ^ 14, 1)
  else if kind = 2 then (if siteInLlc site then some (3 * 2 ^ 52 + field site 14 14 * 2 ^ 14, 16) else none)
  else if kind = 1 then some (4 * 2 ^ 52 + site / 2 ^ 14 * 2 ^ 14, 4)
  else if kind = 5 then some (5 * 2 ^ 52 + site / 2 ^ 14 * 2 ^ 14, 1)
  else none

/-- Retired ways of a slice, of the repoint entries of kind way (R425, R427). -/
def State.retiredWays (s : State) (slice : Nat) : List Nat :=
  s.sys.fuses.repoint.filterMap fun e =>
    let v := e.toNat
    if field v 62 2 == 2 && field v 43 9 == slice then some (field v 37 6) else none

/-- The ways of a slice that hold a carve of k ways: a retired way's lines lie in the next way below 12 that is not retired
(R408, R427). -/
def State.carvedWays (s : State) (slice k : Nat) : List Nat :=
  ((List.range 12).filter fun w => !(s.retiredWays slice).contains w).take k

/-- Ways that are carved, or under conversion (R408). -/
def Mem.carveTo (m : Mem) : Nat := if m.carveBusy then max m.carveCur m.carveK else m.carveCur

/-- The lines that stand in ways that a slice has given to a carve are written back. -/
def State.clearCarved (s : State) (k : Nat) : State :=
  let gone (x : LlcLine) : Bool := decide (x.way < k) || (s.carvedWays x.slice k).contains x.way
  { s with mem := (s.mem.llc.filter gone).foldl Mem.evict s.mem }

/-- An array reaches its threshold: the health manager writes its repoint entry. Where no spare is left, a quarter is retired
(R14), or the exhausted bank is logged with the 2 MiB frame of the event (R428). -/
def State.retireArray (s : State) (r : Report) : State :=
  let kind := r.kind
  let site := r.site
  let h := s.sys.health
  let put (h : Health) : State := { s with sys := { s.sys with health := h } }
  let plain (k : Nat) : Report := ⟨k, 7, site, 0, 0, 0⟩
  if kind = 3 || kind = 7 || kind = 4 then
    let core := field site 0 6
    let q := field site 6 2
    let from_ := field site 8 6
    let lane := 4 * core + q
    match [32, 33].find? fun t => !(s.sparesUsed lane).contains t with
    | some t => put { h with laneWaits := h.laneWaits ++ [BitVec.ofNat 64 (2 ^ 62 + lane * 2 ^ 43 + from_ * 2 ^ 37 + t * 2 ^ 13)] }
    | none =>
      ({ s with cores := modAt s.cores core fun c =>
          let x : Fin 4 := ⟨q % 4, Nat.mod_lt _ (by decide)⟩
          { c with retired := if c.retired.contains x then c.retired else c.retired ++ [x] } }).logError
        (s.errWords none (plain 0x0F) 0)
  else if kind = 2 then
    let e := BitVec.ofNat 64 (2 * 2 ^ 62 + field site 14 9 * 2 ^ 43 + field site 23 5 * 2 ^ 37)
    -- the lines of the way are written back, and nothing is allocated there any more (R427)
    let m := (s.mem.llc.filter fun x => x.slice == field site 14 9 && x.way == field site 23 5).foldl Mem.evict s.mem
    let s1 : State := { s with mem := m, sys := { s.sys with fuses := { s.sys.fuses with repoint := s.sys.fuses.repoint ++ [e] } } }
    (s1.clearCarved s.mem.carveCur).logError (s.errWords none (plain 0x0E) 0)
  else
    let ch := field site 14 9
    let bank := field site 28 6
    let row := field site 34 18
    let used := (s.sys.fuses.repoint ++ h.rowCopies).filterMap fun e =>
      let v := e.toNat
      if field v 62 2 == 3 && field v 43 9 == ch && field v 37 6 == bank then some (field v 13 6) else none
    match (List.range 16).find? fun t => !used.contains t with
    | some t =>
      put { h with rowCopies := h.rowCopies ++ [BitVec.ofNat 64 (3 * 2 ^ 62 + ch * 2 ^ 43 + bank * 2 ^ 37 + row * 2 ^ 19 + t * 2 ^ 13)] }
    | none => s.logError (s.errWords none { plain 0x0F with addr := r.addr / 2 ^ 21 * 2 ^ 21 } 0)

/-- Bring a rail back to nominal, and keep it there: for good until a reset, or while a count stands above half (R430). -/
def State.restoreRail (s : State) (rail : Nat) (forGood : Bool) : State :=
  let p := s.sys.power
  if h : rail < 8 then
    let p1 := { p with rails := p.rails.set rail 0, held := p.held.set rail true,
                       locked := if forGood then p.locked.set rail true else p.locked }
    let s1 := { s with sys := { s.sys with power := p1 } }
    if p.rails[rail] = 0 then s1 else s1.logError (s.errWords none ⟨0x10, 0, 16 * rail, 0, 0, 0⟩ 0)
  else s

/-- Count an event (R429), unless its rail stands below nominal (R430). -/
def State.countEvent (s : State) (r : Report) : State :=
  let kind := r.kind
  let site := r.site
  let restore (z : State) (good : Bool) : State := ((railOf kind site).map fun rail => z.restoreRail rail good).getD z
  if s.margin kind site then (if kind = 4 || kind = 5 || kind = 6 then restore s true else s)
  else
    match healthArray kind site with
    | none => s
    | some (key, limit) =>
      let h := s.sys.health
      let n := ((h.counts.find? fun e => e.1 == key).map fun e => e.2).getD 0 + 1
      let s1 := { s with sys := { s.sys with health := { h with counts := (key, n) :: h.counts.filter fun e => e.1 != key } } }
      let s2 := if limit < 2 * n then restore s1 false else s1
      if n = limit then s2.retireArray r else s2

/-- Report an event: a log entry, and its count. -/
def State.report (s : State) (i : Option Nat) (r : Report) : State := (s.logError (s.errWords i r 0)).countEvent r

/-- Report an event whose set rolls back: the entry is written when the sequencer has moved the group (R420). -/
def State.reportReplay (s : State) (i : Nat) (r : Report) : State :=
  let h := s.sys.health
  ({ s with sys := { s.sys with health := { h with replays := h.replays ++ [(i, r)] } } }).countEvent r

/-! ## Scalar registers -/

/-- A scalar register as the S-op sees it: s0 reads zero (R58), and at handler level fields 48 to 63 name the handler bank
(R344). -/
def Wave.readS (w : Wave) (r : SReg) : DWord :=
  if r.val = 0 then 0
  else if w.priv.handler && decide (48 ≤ r.val) then (w.priv.bank.toList[r.val - 48]?).getD 0
  else w.ss.s[r]

/-- Write a scalar register: a write to s0 is discarded (R58). -/
def Wave.writeS (w : Wave) (r : SReg) (x : DWord) : Wave :=
  if r.val = 0 then w
  else if h : w.priv.handler = true ∧ 48 ≤ r.val then
    { w with priv := { w.priv with bank := w.priv.bank.set (r.val - 48) x (by have := r.isLt; omega) } }
  else { w with ss := { w.ss with s := w.ss.s.set r.val x r.isLt } }

/-- Address of the final S-op of the group that issues: the wave's PC stands at the group's first word (R139). -/
def State.opAddr (s : State) (w : Wave) : Nat := w.ss.pc + 4 * s.pfx.words

/-- The S-op has issued and its wave goes on at an address. -/
def Wave.goTo (w : Wave) (pc : Nat) : Wave := { w with ss := { w.ss with pc := pc, waitS := none } }

/-- One more S-op or L-op of the team has issued (R385). -/
def State.countIssue (s : State) (t : Nat) : State := s.modTeam t fun x => { x with issued := x.issued + 1 }

/-- The S-op is done: its wave goes on at `pc`. -/
def State.doneAt (s : State) (w : Wave) (pc : Nat) : State := (s.setWave (w.goTo pc)).countIssue w.team

/-- The S-op is done: its wave goes on after it. -/
def State.done (s : State) (w : Wave) : State := s.doneAt w (s.opAddr w + 4)

/-- Cycles of a core (R176). -/
def State.cyclesOf (s : State) (core : Nat) : Nat := ((s.cores[core]?).map Core.cycles).getD 0

/-- The S-op waits: its wave stands at it and it issues again. A wait for another reason counts from now on. -/
def State.waitS (s : State) (w : Wave) (why : Wait) : State :=
  let since := if w.ss.waitS == some why then w.ss.sinceS else s.cyclesOf w.core
  s.setWave { w with ss := { w.ss with waitS := some why, sinceS := since, waitLen := s.pfx.words } }

/-- Every ticket enqueued before has completed: what a join point waits for (R39). -/
def Wave.joined (w : Wave) : Bool := w.ls.tickets.isEmpty

/-! ## The lane stream's registers -/

/-- The committed value of a v register (R72): the staged copy, or the main file. -/
def LStream.committed (x : LStream) (r : VReg) : Lanes Word :=
  match x.staged.find? fun g => g.reg == r.val with
  | some g => g.val
  | none => x.v[r]

/-- Commit a value in the lanes of a set (R72). -/
def LStream.commit (x : LStream) (r : Nat) (m : Mask) (val : Lanes Word) : LStream :=
  if x.staged.any fun g => g.reg == r then
    { x with staged := x.staged.map fun g => if g.reg == r then { g with val := blend m val g.val, written := true } else g }
  else if h : r < 256 then { x with v := x.v.set r (blend m val x.v[r]) h }
  else x

/-- Let a result leave the window (R72, R73): lanes marked dead are committed only when `all`. -/
def LStream.leave (x : LStream) (all : Bool) (e : WinEnt) : LStream :=
  x.commit e.reg (if all then e.mask else e.mask &&& ~~~e.dead) e.val

/-- A stall count whose old value is no longer in the window. -/
def Prod.stale (p : Prod) : Prod := { p with inFlight := false }

/-- An L-op that has left the window: what it still owes is written to the registers at once. -/
def Outst.late (o : Outst) : Outst := { o with age := max o.age 8 }

/-- Drain the window, oldest result first (R73): every result in flight has been produced (R184). What a load of before the drain
brings later has left the window too: it is committed when it comes (R78). -/
def LStream.drain (x : LStream) (all : Bool) : LStream :=
  let y := x.win.foldr (fun e z => z.leave all e) x
  { y with win := [], prods := y.prods.map Prod.stale, outs := y.outs.map Outst.late }

/-- Write every staged register back to the main file (R67, R69). -/
def LStream.unstage (x : LStream) : LStream :=
  x.staged.foldl (fun y g =>
    if h : g.reg < 256 then { y with v := y.v.set g.reg g.val h } else y) { x with staged := [] }

def LStream.side? (x : LStream) : Side → Option PcSide
  | .a => x.sideA
  | .b => x.sideB

def LStream.setSide (x : LStream) (d : Side) (p : Option PcSide) : LStream :=
  match d with
  | .a => { x with sideA := p }
  | .b => { x with sideB := p }

def LStream.setWait (x : LStream) (d : Side) (y : Option Wait) : LStream :=
  match d with
  | .a => { x with waitA := y }
  | .b => { x with waitB := y }

def LStream.wait? (x : LStream) : Side → Option Wait
  | .a => x.waitA
  | .b => x.waitB

def LStream.since (x : LStream) : Side → Nat
  | .a => x.sinceA
  | .b => x.sinceB

def LStream.setSince (x : LStream) (d : Side) (n : Nat) : LStream :=
  match d with
  | .a => { x with sinceA := n }
  | .b => { x with sinceB := n }

def LStream.park? (x : LStream) : Side → Option Park
  | .a => x.parkA
  | .b => x.parkB

def LStream.setPark (x : LStream) (d : Side) (y : Option Park) : LStream :=
  match d with
  | .a => { x with parkA := y }
  | .b => { x with parkB := y }

/-- The side whose parking record a slot's record is, where it was spilled with its L-op still parked (R44, R357): its place on
the stack. -/
def LStream.spilledAt (x : LStream) (d : Side) : Option Nat := x.stack.findIdx? fun e => e.parked && e.slot == d

/-- Nothing is spilled with its L-op parked from a slot. -/
def LStream.unspill (x : LStream) (d : Side) (pc : Nat) : LStream :=
  { x with stack := x.stack.map fun e =>
      if e.parked && e.slot == d then { e with parked := false, side := { e.side with pc := pc } } else e }

/-- The record of a slot belongs to a side that stands in the slot. -/
def LStream.parkHolds (x : LStream) (d : Side) : Bool := ((x.park? d).map fun k => !k.stacked).getD false

def Side.other : Side → Side
  | .a => .b
  | .b => .a

def Blk.none : Blk := ⟨.none, false, [], 0⟩

/-- Every block, result, side and record of the lane stream is given up; registers keep their values. -/
def LStream.empty (x : LStream) : LStream :=
  { x with tickets := [], results := [], blk := Blk.none, sideA := none, sideB := none, stack := [], win := [], prods := [],
           outs := x.outs.map fun o => { o with done := true }, parkA := none, parkB := none, waitA := none, waitB := none }

/-! ## Barriers (R173) -/

/-- The teams that share a team's cluster barriers: the teams of its cluster, or itself (R29). -/
def State.clusterOf (s : State) (t : Nat) : List Nat :=
  match s.teams[t]? with
  | none => []
  | some x =>
    let size := ((s.grids[x.grid]?).map fun g => g.launch.cluster).getD 0
    if size = 0 then [t]
    else positions (fun y => y.grid == x.grid && y.twin == x.twin && y.idx / size == x.idx / size) 0 s.teams

/-- The team that holds the cluster's barriers: rank 0 (R363). -/
def State.clusterHead (s : State) (t : Nat) : Nat :=
  ((s.clusterOf t).find? fun k => ((s.teams[k]?).map fun x => x.rank == 0).getD false).getD t

/-- End the phase of a team barrier when every member has arrived or has left. -/
def State.settleBar (s : State) (t : Nat) (b : Fin 16) : State :=
  match s.teams[t]? with
  | none => s
  | some x =>
    let ms := s.members t
    let ready (k : Nat) : Bool := ((s.waves[k]?).map fun w => w.gone || w.ss.bars[b] == .arrived).getD true
    let some_ (k : Nat) : Bool := ((s.waves[k]?).map fun w => w.ss.bars[b] == .arrived).getD false
    if ms.all ready && ms.any some_ then
      let ab := x.bars[b].abandoned
      let s1 := s.modTeam t fun y => { y with bars := y.bars.set b ⟨y.bars[b].phase + 1, false⟩ }
      ms.foldl (fun z k => z.modWave k fun w =>
        if w.ss.bars[b] == .arrived then { w with ss := { w.ss with bars := w.ss.bars.set b (.ended ab) } } else w) s1
    else if ms.all ready && x.bars[b].abandoned then
      s.modTeam t fun y => { y with bars := y.bars.set b ⟨y.bars[b].phase + 1, false⟩ }
    else s

/-- The same for a cluster barrier. -/
def State.settleCbar (s : State) (t : Nat) (b : Fin 4) : State :=
  let h := s.clusterHead t
  match s.teams[h]? with
  | none => s
  | some x =>
    let ms := (s.clusterOf t).flatMap s.members
    let ready (k : Nat) : Bool := ((s.waves[k]?).map fun w => w.gone || w.ss.cbars[b] == .arrived).getD true
    let some_ (k : Nat) : Bool := ((s.waves[k]?).map fun w => w.ss.cbars[b] == .arrived).getD false
    if ms.all ready && ms.any some_ then
      let ab := x.cbars[b].abandoned
      let s1 := s.modTeam h fun y => { y with cbars := y.cbars.set b ⟨y.cbars[b].phase + 1, false⟩ }
      ms.foldl (fun z k => z.modWave k fun w =>
        if w.ss.cbars[b] == .arrived then { w with ss := { w.ss with cbars := w.ss.cbars.set b (.ended ab) } } else w) s1
    else if ms.all ready && x.cbars[b].abandoned then
      s.modTeam h fun y => { y with cbars := y.cbars.set b ⟨y.cbars[b].phase + 1, false⟩ }
    else s

/-- Settle every barrier that a team's waves belong to. -/
def State.settleBars (s : State) (t : Nat) : State :=
  let s1 := (List.finRange 16).foldl (fun z b => z.settleBar t b) s
  (List.finRange 4).foldl (fun z b => z.settleCbar t b) s1

/-- A function of each element of a vector, through its list, which evaluates in the kernel. -/
def mapVec {α β : Type} {n : Nat} (f : α → β) (v : Vector α n) : Vector β n :=
  ⟨(v.toArray.toList.map f).toArray, by rw [List.size_toArray, List.length_map, Array.length_toList, v.size_toArray]⟩

/-- Mark the current phase of every barrier of a team and of its cluster (R173, R355). -/
def State.abandonBars (s : State) (t : Nat) : State :=
  let mark (b : Bar) : Bar := { b with abandoned := true }
  let s1 := s.modTeam t fun x => { x with bars := mapVec mark x.bars }
  s1.modTeam (s1.clusterHead t) fun x => { x with cbars := mapVec mark x.cbars }

/-! ## Retirement and kill -/

/-- A ray started with .q, or taken from an input hod, that runs on after its wave has left (R33, R304). -/
def Ray.runsOn (r : Ray) : Bool := r.hod.isSome && (r.st == .running || r.st == .suspended)

/-- An engine job of a wave of the team that has not completed: a copy or matrix job, or a ray that a wave started with .q (R33,
R34). -/
def State.jobsOpen (s : State) (t : Nat) : Bool :=
  (s.jobs.any fun j => j.team == t && !j.complete) || s.rays.any fun r => r.team == t && r.wave.isSome && r.runsOn

/-- A team retires when its waves have retired and their jobs have completed (R34). -/
def State.retireTeam (s : State) (t : Nat) : State :=
  match s.teams[t]? with
  | none => s
  | some x =>
    if x.st != .retired && x.st != .stopped && !(s.members t).isEmpty &&
        (s.members t).all (fun k => ((s.waves[k]?).map Wave.gone).getD true) && !s.jobsOpen t then
      s.modTeam t fun y => { y with st := .retired, request := none }
    else s

/-- What every wave gives up when it leaves (R33). -/
def Wave.leaveWith (w : Wave) (st : WaveSt) : Wave :=
  { w with st := st, ls := { w.ls with slot := false }.empty,
           ss := { w.ss with blocks := 0, release := [], acquire := none, ins := [], outs := [], begun := none, parkS := none,
                             waitS := none, yielded := none, yieldN := 0 },
           soft := { w.soft with ext := 0 }, arrival := none }

/-- Withdraw a wave's request for blocks (R62, R355). -/
def State.withdraw (s : State) (i : Nat) (core : Nat) : State :=
  s.modCore core fun c => { c with grants := c.grants.filter (· != i) }

/-- Give a record to a lane of an outstanding L-op: its words fill the registers that the L-op will write (R293, R300). -/
def State.deliver (s : State) (words : List DWord) (o : Nat × Nat × Lane) : State :=
  s.modWave o.1 fun w =>
    { w with ls := { w.ls with outs := modAt w.ls.outs o.2.1 fun q =>
      let bit : Mask := 1#32 <<< o.2.2.val
      { q with regs := mapIx (fun k (e : Nat × Lanes Word) =>
                 (e.1, e.2.set o.2.2 ((((words[k / 2]?).getD 0) >>> (32 * (k % 2))).setWidth 32))) 0 q.regs,
               mask := q.mask ||| bit, parked := q.parked &&& ~~~bit } } }

/-- +infinity in FP64: T of a record without a hit (R293). -/
def noHitT : DWord := 0x7FF0000000000000#64

/-- The record with a status and nothing else: EMPTY or BADHANDLE. -/
def bareRecord (status : BitVec 4) : List DWord := [noHitT, 0, 0, 0, status.setWidth 64, 0]

/-- Drop the rays of a wave that a test selects: a dropped ray writes nothing more and its slot frees (R304); a TRES that waits
on it receives BADHANDLE (R300). -/
def State.dropRays (s : State) (i : Nat) (p : Ray → Bool) : State :=
  let hit (r : Ray) : Bool := r.wave == some i && p r && !r.freed
  let s1 := { s with rays := s.rays.map fun r => if hit r then { r with st := .dropped, freed := true, owes := [] } else r }
  ((s.rays.filter hit).flatMap Ray.owes).foldl (fun z o => z.deliver (bareRecord 0xB) o) s1

/-- The wave retires (R33, R179, R304): its rays started without .q are dropped, its barriers settle. -/
def State.retireWave (s : State) (i : Nat) : State :=
  match s.waves[i]? with
  | none => s
  | some w =>
    let s1 := ((s.putWave i (w.leaveWith .retired)).withdraw i w.core).dropRays i fun r => r.hod.isNone
    (s1.settleBars w.team).retireTeam w.team

/-- The value of sys.cause (R349). -/
def causeWord (c : Cause) (imp lstr sideB inreg : Bool) : DWord :=
  BitVec.ofNat 64 (c.code + (if imp then 2 ^ 16 else 0) + (if lstr then 2 ^ 17 else 0) + (if sideB then 2 ^ 18 else 0) +
    (if inreg then 2 ^ 19 else 0))

/-- Replies to what a wave has read, and to the accesses of its open instructions, find nobody. -/
def State.forget (s : State) (i : Nat) : State :=
  let waits (r : Remote) : Bool := r.wave == i && r.job.isNone && r.ray.isNone && (!r.lanes.isEmpty ||
    match r.op with
    | .read _ => true
    | _ => false)
  { s with sys := { s.sys with links := { s.sys.links with remotes := s.sys.links.remotes.filter fun r => !waits r } } }

/-- Kill a wave (R355). A kill of a wave that has left has no effect. -/
def State.kill (s : State) (i : Nat) (c : Cause) (va aux : Nat) : State :=
  match s.waves[i]? with
  | none => s
  | some w =>
    if w.gone then s
    else
      let priv := { w.priv with cause := causeWord c false false false w.region.isSome, trapva := BitVec.ofNat 64 va,
                                trapaux := BitVec.ofNat 64 aux, held := [], ctx := none }
      let w1 := { w.leaveWith .killed with killCause := c.code, priv := priv, region := none, green := Green.empty }
      let s1 := (((s.putWave i w1).withdraw i w.core).dropRays i fun _ => true).forget i
      let s2 := { s1 with offers := s1.offers.filter fun o => o.job.wave != i }
      let s3 := s2.modTeam w.team fun t =>
        { t with killed := t.killed ||| (1#64 <<< w.num), firstKill := if t.firstKill = 0 then c.code else t.firstKill,
                 killedAt := if t.firstKill = 0 then s.tick else t.killedAt }
      ((s3.abandonBars w.team).settleBars w.team).retireTeam w.team

/-! ## Port-connected sets and groups (R50, R365) -/

/-- The wave of a team index and copy with a number. -/
def State.waveAt (s : State) (g idx : Nat) (twin : Bool) (num : Nat) : Option Nat :=
  s.waves.findIdx? fun w =>
    w.grid == g && w.num == num && ((s.teams[w.team]?).map fun t => t.idx == idx && t.twin == twin).getD false

/-- The port at the other end of a push (R229). -/
def Port.opp : Port → Port
  | .xe => .xw | .xw => .xe | .xn => .xs | .xs => .xn | .xf => .xf

/-- The far end of each mapped port of a wave: the port, and the team index (an integer) and number of the partner (R230). -/
def edgeEnds (es : List Edge) (num : Nat) (idx : Nat) : List (Port × Int × Nat) :=
  es.flatMap fun e =>
    (if e.wa == num then [(e.port, (idx : Int) + e.dt, e.wb)] else []) ++
    (if e.wb == num then [(Port.opp e.port, (idx : Int) - e.dt, e.wa)] else [])

/-- Waves joined to a wave by one edge. -/
def State.neighbours (s : State) (i : Nat) : List Nat :=
  match s.waves[i]? with
  | none => []
  | some w =>
    match s.teams[w.team]? with
    | none => []
    | some t =>
      (edgeEnds (s.launchOf w).edges w.num t.idx).filterMap fun e =>
        if e.2.1 < 0 then none else s.waveAt w.grid e.2.1.toNat t.twin e.2.2

/-- Close a set under a step, with fuel. -/
def close (next : Nat → List Nat) : Nat → List Nat → List Nat
  | 0, l => l
  | n + 1, l =>
    let l' := dedup (l ++ l.flatMap next)
    if l'.length == l.length then l else close next n l'

/-- The port-connected set of a wave (R50). -/
def State.portSet (s : State) (i : Nat) : List Nat := close s.neighbours s.waves.length [i]

/-- The teams that are saved and moved together with a team (R365): its port-connected sets and its cluster. -/
def State.groupOf (s : State) (t : Nat) : List Nat :=
  close (fun k => s.clusterOf k ++ (s.members k).flatMap fun i => (s.neighbours i).filterMap fun j => (s.waves[j]?).map Wave.team)
    s.teams.length [t]

/-! ## Register blocks (R62, R376) -/

/-- The wave's grid reserves extension blocks at placement (R376). -/
def State.reserves (s : State) (w : Wave) : Bool := (s.launchOf w).resext

/-- Every register of the blocks above h up to k reads zero (R62). -/
def LStream.zeroBlocks (x : LStream) (h k : Nat) : LStream :=
  { x with v := (List.range (32 * (k - h))).foldl (fun v i =>
      if hr : 32 * (h + 1) + i < 256 then v.set (32 * (h + 1) + i) (Vector.replicate 32 0) hr else v) x.v }

/-- The wave holds blocks 1 to k: those that it does not hold yet read zero (R62, R474). Blocks that an outstanding release still
keeps for earlier tickets are among them only under RESEXT, and read zero when it returns (R63, R376). -/
def Wave.grant (w : Wave) (k : Nat) : Wave :=
  { w with ls := w.ls.zeroBlocks w.ss.blocks k, soft := { w.soft with ext := k },
           ss := { w.ss with blocks := max w.ss.blocks k, acquire := none } }

/-! ## Rollback (R319, R474) -/

/-- What a handler that runs at a rollback comes back to: the group after RGN.beg. Its trapping instruction is undone, so its end
resumes there whatever its action (R319, R343). -/
def TrapCtx.undone (c : TrapCtx) (pc : Nat) : TrapCtx :=
  { c with strm := .s, imprecise := true, nextPc := pc, sysc := none, lhdr := false, pc := pc }

/-- The registers and queues of a wave return to their values at RGN.beg. A wave at handler level stays there (R343): its user
state is rolled back, and its handler goes on. -/
def Wave.rollBack (w : Wave) (g : Region) : Wave :=
  let held := w.ss.blocks
  let blocks := min held g.ck.soft.ext
  { w with
    ss := { w.ss with pc := if w.priv.handler then w.ss.pc else g.ck.pc, s := g.ck.s, waitS := none,
                      parkS := if w.priv.handler then w.ss.parkS else none, yielded := none, yieldN := 0,
                      release := [], blocks := blocks,
                      acquire := if blocks < g.ck.soft.ext then some g.ck.soft.ext else none },
    ls := { w.ls.drain true with w := Vector.replicate 4 0, staged := [] }.empty,
    soft := g.ck.soft,
    priv := { w.priv with ctx := w.priv.ctx.map fun c => c.undone g.ck.pc },
    green := Green.empty, arrival := none,
    region := some { g with rollbacks := g.rollbacks + 1, ended := none, sig := 0 } }

/-- Zero a range of bytes: nothing is listed there. -/
def cellZero (c : Cells) (lo len : Nat) : Cells := c.filter fun e => decide (e.1 < lo) || decide (lo + len ≤ e.1)

/-- Zero the accumulator and weight-buffer bytes that a job has written (R242). One that has not run has written none, and the
replay's job writes each of its bytes. -/
def State.zeroJob (s : State) (j : Job) : State :=
  j.wrote.foldl (fun z f =>
    let clean (l : List Nat) : List Nat := l.filter fun u => decide (64 * u < f.lo) || decide (f.lo + f.len < 64 * u + 64)
    let put (t : Nat) (odd : Bool) (g : Half → Half) : State :=
      z.modTeam t fun x => if odd then { x with hi := g x.hi } else { x with lo := g x.lo }
    match f.space with
    | .acc t odd => put t odd fun h => { h with acc := cellZero h.acc f.lo f.len, accPoison := clean h.accPoison }
    | .wbuf t odd => put t odd fun h => { h with wbuf := cellZero h.wbuf f.lo f.len, wbufPoison := clean h.wbufPoison }
    | _ => z) s

/-- The job is one of wave i inside its region: its own, or a joint MMA of which it is a member (R242, R249). -/
def Job.inRegionOf (j : Job) (i : Nat) : Bool := j.region && (j.wave == i || j.members.contains i)

/-- The completion bits that a cancelled job still owns are set (R314). -/
def State.freeChunks (s : State) (jn team : Nat) : State :=
  let clear (h : Half) : Half := { h with pending := h.pending.filter fun e => e.2 != jn }
  s.modTeam team fun t => { t with lo := clear t.lo, hi := clear t.hi }

/-- The jobs of a wave's region are cancelled (R319): what the engine wrote into accumulator and weight buffer is zeroed (R242),
and the chunks that a load owns are complete (R314). -/
def State.cancelJobs (s : State) (i : Nat) : State :=
  (positions (fun j => j.inRegionOf i) 0 s.jobs).foldl (fun (z : State) jn =>
    match z.jobs[jn]? with
    | none => z
    | some j =>
      let z1 := z.zeroJob j
      if j.complete then z1
      else (z1.freeChunks jn j.team).modJob jn fun x => { x with cancelled := true, complete := true, held := none }) s

/-- Roll one wave back: its jobs of the region are cancelled, its rays of the region dropped, and a request for blocks that
are missing joins the core's order (R474). -/
def State.rollWave (s : State) (i : Nat) (mark : Region → Region) : State :=
  match s.waves[i]? with
  | none => s
  | some w =>
    match w.region with
    | none => s
    | some g =>
      -- registers staged for the block that ends here hold the only copy of what it wrote
      let w1 := { w with ls := (w.ls.drain true).unstage }
      let w2 := w1.rollBack (mark g)
      let s1 := (((s.cancelJobs i).forget i).putWave i w2).dropRays i Ray.inRegion
      let s2 := { s1 with offers := s1.offers.filter fun o => o.job.wave != i }
      -- a wave's own reservation grants its blocks at once (R376)
      if s.reserves w then (s2.withdraw i w.core).modWave i fun y => (y.ss.acquire.map y.grant).getD y
      else if w2.ss.acquire.isSome then (s2.withdraw i w.core).modCore w.core fun c => { c with grants := c.grants ++ [i] }
      else s2.withdraw i w.core

/-- Roll a set back and hold its group for the recovery sequencer (R420). -/
def State.rollSet (s : State) (set : List Nat) (mark : Region → Region) : State :=
  let s1 := set.foldl (fun z i => z.rollWave i mark) s
  let ts := dedup ((set.filterMap fun i => (s.waves[i]?).map Wave.team).flatMap s.groupOf)
  ts.foldl (fun z t => z.modTeam t fun x => if x.st == .resident then { x with st := .waitingReplay } else x) s1

/-- The wave of the other copy of a twin grid (R325). -/
def State.twinOf (s : State) (i : Nat) : Option Nat :=
  match s.waves[i]? with
  | none => none
  | some w =>
    match s.teamOf w with
    | none => none
    | some t => if (s.launchOf w).twin then s.waveAt w.grid t.idx (!t.twin) w.num else none

/-- A detected error in a wave (R417, R419, R206): inside a checked region at user level its set rolls back, and the third
error of the instance, in either copy, makes the run unchecked (R422); otherwise the wave is killed. -/
def State.detected (s : State) (i : Nat) (c : Cause) (va aux : Nat) (r : Report) : State :=
  match s.waves[i]? with
  | none => s
  | some w =>
    match w.region with
    | some g =>
      if w.priv.handler || g.unchecked then (s.report (some i) { r with action := 3 }).kill i c va aux
      else
        let set := s.portSet i
        let other := (((s.twinOf i).bind fun k => (s.waves[k]?).bind Wave.region).map Region.errors).getD 0
        let third := decide (2 ≤ g.errors + other)
        let both := if third then set ++ set.filterMap s.twinOf else set
        let s1 := s.rollSet both fun h => { h with errors := h.errors + 1, unchecked := h.unchecked || third }
        s1.reportReplay i { r with action := if third then 5 else 4, set := set.length }
    | none => (s.report (some i) { r with action := 3 }).kill i c va aux

/-- REGION_OVERFLOW goes to the sequencer (R322): the set rolls back and runs unchecked; in a twin grid the sets of both copies
roll back, and the primary copy alone runs (R475). -/
def State.overflow (s : State) (i : Nat) (va : Nat) (instr : Nat) : State :=
  match s.waves[i]? with
  | none => s
  | some w =>
    let set := s.portSet i
    let both := set ++ set.filterMap s.twinOf
    (s.rollSet both fun h => { h with unchecked := true }).reportReplay i ⟨0x0B, 5, w.site, va, instr, set.length⟩

/-! ## Taking a trap (R344, R347 to R353) -/

/-- The user's state is left for the handler: the five registers are written, the window drains, the S-stream goes on at the
handler's entry. -/
def Wave.enter (w : Wave) (c : Context) (strm : Strm) (imp : Bool) (t : Trap) (trappc : Nat) (tc : TrapCtx) : Wave :=
  let lstr := match strm with
    | .s => false
    | .l _ => true
  let sideB := strm == .l .b
  { w with
    ss := { w.ss with pc := c.hentry, waitS := none, parkS := none },
    ls := { w.ls.drain true with waitA := none, waitB := none },
    arrival := none,
    priv := { w.priv with
      handler := true,
      cause := causeWord t.cause imp lstr sideB w.region.isSome,
      trappc := BitVec.ofNat 64 trappc,
      trapva := BitVec.ofNat 64 t.va,
      trapaux := BitVec.ofNat 64 (t.aux % 2 ^ 56 + min w.priv.discarded 255 * 2 ^ 56),
      lanemask := t.mask,
      ctx := some tc,
      discarded := 0 } }

/-- An instruction of the S-stream that has issued is parked: it completes before a handler can begin, for the handler issues in
the same stream (R344). Until then a trap of a lane side is discarded, and arises again (R348). -/
def Wave.waitsForS (w : Wave) (strm : Strm) : Option Side :=
  match strm with
  | .s => none
  | .l d => if w.ss.parkS.isSome then some d else none

/-- A precise trap of a stream of wave i (R350): the handler, a kill, or the sequencer. -/
def State.take (s : State) (i : Nat) (strm : Strm) (t : Trap) (trappc : Nat) (tc : TrapCtx) : State :=
  match s.waves[i]? with
  | none => s
  | some w =>
    if w.priv.handler then s.kill i .handlerFault 0 t.cause.code
    else if t.cause == .regionOverflow then s.overflow i t.va trappc
    else if (w.waitsForS strm).isSome && (s.ctxOf w).hen then s
    else
      let c := s.ctxOf w
      if c.hen then s.putWave i (w.enter c strm false t trappc tc)
      else s.kill i t.cause t.va t.aux

/-- A precise trap of the S-op group that issues. -/
def State.trapS (s : State) (w : Wave) (t : Trap) : State :=
  (s.setWave { w with ss := { w.ss with waitS := none } }).take s.cur.1 .s t w.ss.pc
    { strm := .s, imprecise := false, nextPc := s.opAddr w + 4, sysc := none, lhdr := false, pc := w.ss.pc }

/-- SYSC's trap: NEXT gives its destination a value. -/
def State.trapSysc (s : State) (w : Wave) (t : Trap) (d : SReg) : State :=
  (s.setWave { w with ss := { w.ss with waitS := none } }).take s.cur.1 .s t w.ss.pc
    { strm := .s, imprecise := false, nextPc := s.opAddr w + 4, sysc := some d, lhdr := false, pc := w.ss.pc }

/-- A precise trap of an L-op of a side, at its address. -/
def State.trapL (s : State) (i : Nat) (d : Side) (t : Trap) (pc : Nat) (lhdr : Bool) : State :=
  match s.waves[i]? with
  | none => s
  | some w => s.take i (.l d) t pc
      { strm := .l d, imprecise := false, nextPc := pc + 12, sysc := none, lhdr := lhdr, pc := w.ss.pc }

/-- An imprecise trap of wave i: delivered at once if it stands at a boundary of user level with a handler; otherwise held, at
most four (R348), or discarded with HEN = 0 (R350). -/
def State.holdImprecise (s : State) (i : Nat) (p : Imp) : State :=
  match s.waves[i]? with
  | none => s
  | some w =>
    if w.gone then s
    else if !(s.ctxOf w).hen then
      s.logEvent 0x08 ((s.ctxIdOf w).toNat + w.num * 2 ^ 16) (BitVec.ofNat 64 (p.cause.code + 2 ^ 16)) p.va
    else if w.priv.held.length < 4 then s.modWave i fun x => { x with priv := { x.priv with held := x.priv.held ++ [p] } }
    else s.modWave i fun x => { x with priv := { x.priv with discarded := min 255 (x.priv.discarded + 1) } }

/-- The lane stream after its block has ended (R37): the ticket still waits to complete. -/
def LStream.endBlock (x : LStream) : LStream :=
  { x with blk := { x.blk with phase := .ended }, sideA := none, sideB := none, stack := [], waitA := none, waitB := none,
           parkA := none, parkB := none }

/-- A side goes on at an address. -/
def LStream.goTo (x : LStream) (d : Side) (pc : Nat) : LStream :=
  (x.setSide d ((x.side? d).map fun p => { p with pc := pc })).setWait d none

/-- The side that a slot's parking record belongs to goes on at an address, and the record is freed. -/
def LStream.unpark (x : LStream) (d : Side) (pc : Nat) : LStream :=
  let y := if x.parkHolds d then x.goTo d pc else x.unspill d pc
  y.setPark d none

end Sys2Proof.Machine
end

