-- ==== Sys2Proof/Machine/Memory.lean ====
section
/-!
DEFINITION. Memory and translation: page walks (spec/18 R394 to R401), the last-level cache's residence, retention and
reader-count lines (R393, R400, R405, R406; spec/05 R114, R115), the L1's dirty bytes and gathering lines (R109, R227), poison
of sectors (spec/19 R411, R415), green bytes (R111) and the atomic operations (R165, R224).
-/

namespace Sys2Proof.Machine

/-- Bytes of HBM: 768 GiB (R19). -/
def hbmSize : Nat := 824633720832

/-! ## Physical storage -/

/-- The 256-byte line of a place, and the offset in it. -/
def Loc.line : Loc → Loc
  | .hbm a => .hbm (a / 256 * 256)
  | .carved a => .carved (a / 256 * 256)
  | .host a => .host (a / 256 * 256)
  | .fabric d r a => .fabric d r (a / 256 * 256)

def Loc.offset : Loc → Nat
  | .hbm a => a
  | .carved a => a
  | .host a => a
  | .fabric _ _ a => a

/-- A place some bytes further on. -/
def Loc.add (n : Nat) : Loc → Loc
  | .hbm a => .hbm (a + n)
  | .carved a => .carved (a + n)
  | .host a => .host (a + n)
  | .fabric d r a => .fabric d r (a + n)

/-- The place lies in this device's memory. -/
def Loc.near : Loc → Bool
  | .hbm _ => true
  | .carved _ => true
  | .host _ => false
  | .fabric _ _ _ => false

def Loc.isHost : Loc → Bool
  | .host _ => true
  | _ => false

/-- The line with a reader count at a place. -/
def Mem.counted? (m : Mem) (p : Loc) : Option LlcLine := m.llc.find? fun x => x.rc.isSome && x.home == p.line

/-- The byte at a place, as the home slice answers it. -/
def Mem.byte (m : Mem) (p : Loc) : Byte :=
  match m.counted? p with
  | some x => (x.bytes[p.offset % 256]?).getD 0
  | none =>
    match p with
    | .hbm a => cellGet m.hbm a
    | .carved a => cellGet m.carved a
    | _ => 0

/-- The sector of a place is poisoned. -/
def Mem.poisoned (m : Mem) (p : Loc) : Bool :=
  match m.counted? p with
  | some x => x.poison.contains (p.offset % 256 / 64)
  | none =>
    match p with
    | .hbm a => m.hbmPoison.contains (a / 64)
    | .carved a => m.carvedPoison.contains (a / 64)
    | _ => false

/-- A line loses its count: it is written back and stays as an ordinary line (R115). -/
def Mem.uncount (m : Mem) (p : Loc) : Mem :=
  match m.counted? p with
  | none => m
  | some x =>
    let m1 := m.writeLine x
    { m1 with llc := m1.llc.map fun y =>
        if y.home == x.home then { y with rc := none, bytes := [], poison := [], valid := 15, dirty := 0 } else y }

/-- One byte performed at a home slice of this device. -/
def Mem.putByte (m : Mem) (p : Loc) (b : Byte) : Mem :=
  match p with
  | .hbm a => { m with hbm := cellPut m.hbm a b }
  | .carved a => { m with carved := cellPut m.carved a b }
  | _ => m

/-- A word of physical HBM as a walk reads it (R396). -/
def Mem.word (m : Mem) (pa n : Nat) : Nat := numLE ((List.range n).map fun i => m.byte (.hbm (pa + i)))

/-- Bytes performed at the home slice: a counted line becomes an ordinary one first (R115). -/
def Mem.putBytes (m : Mem) (p : Loc) (bs : List Byte) : Mem :=
  (mapIx (fun i b => (i, b)) 0 bs).foldl (fun y e => y.putByte (p.add e.1) e.2) (m.uncount p)

/-! ## Translation (R392, R394, R395, R401) -/

/-- The slice of an address (R392). -/
def sliceOf (va : Nat) : Nat := field va 8 13 % 384

/-- The channel of an address (R392, R13). -/
def channelOf (va : Nat) : Nat := 32 * (sliceOf va % 12) + sliceOf va / 12

/-- The set of a line (R393). -/
def setOf (va : Nat) : Nat := (field va 8 13 / 384 + 22 * field va 21 9) % 512

/-- A fault of a walk: level and reason (R401). -/
structure XFault where
  level : Nat
  reason : Nat
  deriving DecidableEq, Repr

def xNotMapped : Nat := 1
def xReadOnly : Nat := 2
def xNoExec : Nat := 3
def xSysPage : Nat := 4
def xBadEntry : Nat := 5
def xBadFrame : Nat := 6
def xAlias : Nat := 7
def xHostWin : Nat := 8
def xFabric : Nat := 9

/-- SYSPAGE, BADENTRY and BADFRAME are fatal at once (R401). -/
def XFault.fatal (f : XFault) : Bool := f.reason == 4 || f.reason == 5 || f.reason == 6

/-- The translation report (R401). -/
def XFault.word (f : XFault) (asid va : Nat) (write fetch : Bool) : DWord :=
  BitVec.ofNat 64 (asid * 2 ^ 40 + channelOf va * 2 ^ 31 + f.level * 2 ^ 8 + (if write then 2 ^ 5 else 0) +
    (if fetch then 2 ^ 4 else 0) + f.reason)

/-- What an access does and for whom. -/
structure Kindly where
  write : Bool
  fetch : Bool
  /-- Dorzin's own access (R401) -/
  system : Bool
  /-- retention that a fill takes (R405) -/
  retention : Nat
  deriving DecidableEq, Repr

def reading : Kindly := ⟨false, false, false, 1⟩
def writing : Kindly := ⟨true, false, false, 1⟩
def fetching : Kindly := ⟨false, true, false, 1⟩

/-- An entry that breaks R395: a reserved bit, or LEAF against R394, at a level. -/
def badEntry (e level : Nat) : Bool :=
  let leaf := bitOf e 1
  field e 56 8 != 0 || field e 7 5 != 0 || (leaf && (level == 3 || level == 4)) || (!leaf && level == 1) ||
  (!leaf && field e 5 2 != 0) || (leaf && level == 2 && (field e 5 2 == 2 || field e 5 2 == 3)) ||
  (leaf && field e 5 2 == 0 && (if level == 2 then field e 12 18 != 0 else field e 12 9 != 0))

/-- Bits of an address above the index of a level: the addresses that share the entry which a walk reads there (R394). -/
def levelPage (va level : Nat) : Nat := va / 2 ^ (12 + 9 * level)

/-- The upper-level entry that the unit of the address's channel has cached for a level (R397). -/
def Mem.upper (m : Mem) (part asid va level : Nat) : Option Nat :=
  (m.uppers.find? fun x => x.chan == channelOf va && x.part == part && x.asid == asid && x.level == level &&
    x.page == levelPage va level).map fun x => x.pte.toNat

/-- The address of the entry of a level. -/
def entryAt (va level table : Nat) : Nat := table + 8 * (if level == 4 then field va 48 8 else field va (12 + 9 * level) 9)

/-- The walk from a table at a level down to a leaf (R394); an entry that the unit has cached is not read again. A table outside
HBM is a bad entry (notes/assumptions/13.md). -/
def walkFrom (m : Mem) (part asid va : Nat) : Nat → Nat → Except XFault (Nat × Bool)
  | 0, _ => .error ⟨1, xBadEntry⟩
  | level + 1, table =>
    let l := level + 1
    let pa := entryAt va l table
    match m.upper part asid va l with
    | some e => walkFrom m part asid va level (field e 12 44 * 4096)
    | none =>
      if hbmSize ≤ pa then .error ⟨l, xBadEntry⟩
      else
        let e := m.word pa 8
        if !bitOf e 0 then .error ⟨l, xNotMapped⟩
        else if badEntry e l then .error ⟨l, xBadEntry⟩
        else if bitOf e 1 then .ok (e, l == 2)
        else walkFrom m part asid va level (field e 12 44 * 4096)

/-- The entries that a walk which finds a leaf reads from memory: level and address. -/
def walkReads (m : Mem) (part asid va : Nat) : Nat → Nat → List (Nat × Nat)
  | 0, _ => []
  | level + 1, table =>
    let l := level + 1
    let pa := entryAt va l table
    match m.upper part asid va l with
    | some e => walkReads m part asid va level (field e 12 44 * 4096)
    | none =>
      let e := m.word pa 8
      (l, pa) :: (if bitOf e 1 then [] else walkReads m part asid va level (field e 12 44 * 4096))

/-- The root table of an address space, from its entry of the ASID table (R394). -/
def State.rootTable (s : State) (part asid : Nat) : Except XFault Nat :=
  let tab := (s.sys.parts.toList[part]?.map Partition.asidTable).getD 0
  let pa := tab + 8 * asid
  if hbmSize ≤ pa then .error ⟨0, xNotMapped⟩
  else
    let e := s.mem.word pa 8
    if !bitOf e 0 then .error ⟨0, xNotMapped⟩
    else if field e 1 11 != 0 || field e 56 8 != 0 then .error ⟨0, xBadEntry⟩
    else .ok (field e 12 44 * 4096)

/-- The leaf of an address by a walk (R394). -/
def State.walk (s : State) (part asid va : Nat) : Except XFault (Nat × Bool) :=
  match s.rootTable part asid with
  | .error f => .error f
  | .ok root => walkFrom s.mem part asid va 4 root

/-- The leaf that the unit of the address's channel has cached (R397). -/
def Mem.cached (m : Mem) (part asid va : Nat) : Option (Nat × Bool) :=
  (m.leaves.find? fun x => x.chan == channelOf va && x.part == part && x.asid == asid &&
    (if x.big then x.page == va / 2 ^ 30 else x.page == va / 2 ^ 21)).map fun x => (x.pte.toNat, x.big)

/-- The leaf of an address: the cached one, or by a walk. -/
def State.leafOf (s : State) (part asid va : Nat) : Except XFault (Nat × Bool) :=
  match s.mem.cached part asid va with
  | some x => .ok x
  | none => s.walk part asid va

/-- Put an entry at the head of a cache that keeps at most n of its kind: the oldest of the kind gives way (R397). -/
def keepIn {α : Type} (n : Nat) (kind : α → Bool) (x : α) (l : List α) : List α :=
  match l with
  | [] => [x]
  | _ => x :: (if (l.filter kind).length < n then l else
      (l.reverse.eraseP kind).reverse)

/-- The unit of the address's channel caches the leaf that a walk found, 2,048 of 2 MiB and 64 of 1 GiB, and the upper-level
entries that the walk read, 64 of them (R397). -/
def State.keepLeaf (s : State) (part asid va : Nat) : State :=
  match s.mem.cached part asid va with
  | some _ => s
  | none =>
    match s.walk part asid va, s.rootTable part asid with
    | .ok (e, big), .ok root =>
      let ch := channelOf va
      let x : Leaf := ⟨ch, part, asid, if big then va / 2 ^ 30 else va / 2 ^ 21, big, BitVec.ofNat 64 e⟩
      let m := s.mem
      let tables := (walkReads m part asid va 4 root).filter fun q => !bitOf (m.word q.2 8) 1
      let uppers := tables.foldl (fun l q =>
        keepIn 64 (fun u => u.chan == ch) (⟨ch, part, asid, q.1, levelPage va q.1, BitVec.ofNat 64 (m.word q.2 8)⟩ : Upper) l) m.uppers
      { s with mem := { m with
          leaves := keepIn (if big then 64 else 2048) (fun y => y.chan == ch && y.big == big) x m.leaves, uppers := uppers } }
    | _, _ => s

/-- A valid range of the partition covers the frame (R435). -/
def Partition.covers (p : Partition) (carved : Bool) (frame : Nat) : Bool :=
  p.mem.toList.any fun r =>
    let v := r.toNat
    bitOf v 63 && bitOf v 62 == carved && decide (field v 0 19 ≤ frame) && decide (frame < field v 0 19 + field v 32 19)

/-- A carved frame is valid (R409): below floor(512 CUR / 22), with a way for each of its lines (R427). -/
def State.carvedFrame (s : State) (n : Nat) : Bool :=
  decide (n < 512 * s.mem.carveCur / 22) &&
  s.sys.fuses.repoint.all fun e =>
    let v := e.toNat
    field v 62 2 != 2 || decide ((22 * n + 21) / 512 + ((s.retiredWays (field v 43 9)).filter (· < 12)).length < 12)

/-- A frame of the partition's ranges. -/
def State.owns (s : State) (part : Nat) (carved : Bool) (frame : Nat) : Bool :=
  ((s.sys.parts.toList[part]?).map fun p => p.covers carved frame).getD false

/-- The window entry of a partition: its committed words (R452). -/
def State.window (s : State) (part w : Nat) : Option (Nat × Nat × Nat) :=
  if 255 < w then none
  else
    ((s.sys.parts.toList[part]?).bind fun p => p.windows.find? fun e => e.1 == w).map fun e =>
      (e.2.1.toNat, e.2.2.1.toNat, e.2.2.2.toNat)

/-- Where a leaf leads, after the checks of permission and frame (R395, R398, R401, R452). -/
def State.placeOf (s : State) (part : Nat) (va : Nat) (k : Kindly) (e : Nat) (big : Bool) : Except XFault Loc :=
  let level := if big then 2 else 1
  let off := if big then va % 2 ^ 30 else va % 2 ^ 21
  if bitOf e 4 && !k.system then .error ⟨level, xSysPage⟩
  else if k.write && !bitOf e 2 then .error ⟨level, xReadOnly⟩
  else if k.fetch && !bitOf e 3 then .error ⟨level, xNoExec⟩
  else
    match field e 5 2 with
    | 0 =>
      let pa := field e 12 44 * 4096 + off
      if pa / 2 ^ 21 < 393216 && s.owns part false (pa / 2 ^ 21) then .ok (.hbm pa) else .error ⟨level, xBadFrame⟩
    | 1 =>
      let n := field e 21 35 + off / 2 ^ 21
      if s.carvedFrame n && s.owns part true n then .ok (.carved (n * 2 ^ 21 + off % 2 ^ 21)) else .error ⟨level, xBadFrame⟩
    | 2 =>
      let pa := field e 12 44 * 4096 + 8 * field va 12 9
      if hbmSize ≤ pa then .error ⟨0, xHostWin⟩
      else
        let h := s.mem.word pa 8
        if !bitOf h 0 || bitOf h 1 || field h 3 9 != 0 || (k.write && !bitOf h 2) then .error ⟨0, xHostWin⟩
        else .ok (.host (field h 12 52 * 4096 + va % 4096))
    | _ =>
      match s.window part (field e 21 35) with
      | none => .error ⟨0, xFabric⟩
      | some (w0, w1, w2) =>
        let lbase := field w1 21 35 * 2 ^ 21
        let rbase := field w2 21 35 * 2 ^ 21
        if !bitOf w0 63 || va < lbase || lbase + field w0 0 19 * 2 ^ 21 ≤ va || (k.write && !bitOf w0 62) then
          .error ⟨0, xFabric⟩
        else .ok (.fabric (field w0 48 10) (field w0 32 16) (rbase + (va - lbase)))

/-- Where an address leads for an access (R401). -/
def State.translate (s : State) (part asid va : Nat) (k : Kindly) : Except XFault Loc :=
  match s.leafOf part asid va with
  | .error f => .error f
  | .ok (e, big) => s.placeOf part va k e big

/-! ## The last-level cache: residence, retention, victims (R393, R400, R405, R406) -/

/-- Ways that a partition may allocate into in a slice: its quota, less carved ways, ways under conversion and retired ways
(R405, R408, R427, R434). -/
def State.allowedWays (s : State) (part slice : Nat) (counted : Bool) : List Nat :=
  let quota := ((s.sys.parts.toList[part]?).map Partition.ways).getD 0
  let carved := s.carvedWays slice s.mem.carveTo
  (List.range 24).filter fun w =>
    quota.getLsbD w && !carved.contains w && (!counted || decide (12 ≤ w)) && !(s.retiredWays slice).contains w

/-- The line of lowest retention, the least recently filled among equals (R405). -/
def victim : List LlcLine → Option LlcLine
  | [] => none
  | x :: xs =>
    match victim xs with
    | none => some x
    | some y => if x.retention < y.retention || (x.retention == y.retention && x.order < y.order) then some x else some y

/-- Allocate a line for a place, with the sectors that are valid and dirty in it (R393, R405). Where the partition has no way
left, nothing is allocated. -/
def State.allocate (s : State) (part asid va : Nat) (p : Loc) (retention : Nat) (rc : Option Nat) (bytes : List Byte)
    (poison : List Nat) (valid dirty : BitVec 4) : State :=
  let slice := sliceOf va
  let set := setOf va
  let m := s.mem
  let inSet := m.llc.filter fun x => x.slice == slice && x.set == set
  -- a seventh counted line evicts the oldest counted one (R406)
  let old := if rc.isSome then inSet.filter (fun x => x.rc.isSome) else []
  let m1 := if old.length < 6 then m else ((victim (old.map fun x => { x with retention := 0 })).map m.evict).getD m
  let inSet1 := m1.llc.filter fun x => x.slice == slice && x.set == set
  let ways := s.allowedWays part slice rc.isSome
  let free := ways.find? fun w => !(inSet1.any fun x => x.way == w)
  let put (m : Mem) (way : Nat) : Mem :=
    { m with llc := ⟨slice, set, way, part, asid, va / 256, p.line, valid, dirty, retention, m.fills, rc, bytes, poison⟩ :: m.llc,
             fills := m.fills + 1 }
  let m2 :=
    match free with
    | some w => put m1 w
    | none =>
      -- when no line of retention 0 exists, every line of the set loses 1 first
      let lose := !(inSet1.any fun x => x.retention == 0)
      let m3 := if lose then
        { m1 with llc := m1.llc.map fun x => if x.slice == slice && x.set == set then { x with retention := x.retention - 1 } else x }
        else m1
      match victim ((m3.llc.filter fun x => x.slice == slice && x.set == set).filter fun x => ways.contains x.way) with
      | none => m3
      | some x => put (m3.evict x) x.way
  { s with mem := m2 }

/-! ## The L1 (R109, R110, R227) -/

/-- The dirty line of a core's L1. -/
def Core.line? (c : Core) (part asid line : Nat) : Option L1Line :=
  c.l1.find? fun x => x.part == part && x.asid == asid && x.line == line

def State.l1Line? (s : State) (core part asid line : Nat) : Option L1Line :=
  (s.cores[core]?).bind fun c => c.line? part asid line

/-- The new value of an atomic operation at its width in bits (R165, R224, R225). -/
def AtomOp.width : AtomOp → Nat
  | .add w | .and w | .or w | .xor w | .min w | .max w | .minu w | .maxu w | .swap w | .cas w
  | .fadd w | .fmin w | .fmax w => if w then 64 else 32
  | .faddBf16 | .faddF16 => 16

def atomNew (op : AtomOp) (old x c : Nat) : Nat :=
  let n := AtomOp.width op
  let sg (v : Nat) : Int := sfield v 0 n
  match op with
  | .add _ => (old + x) % 2 ^ n
  | .and _ => old &&& x
  | .or _ => old ||| x
  | .xor _ => old ^^^ x
  | .min _ => if sg x < sg old then x else old
  | .max _ => if sg old < sg x then x else old
  | .minu _ => min old x
  | .maxu _ => max old x
  | .swap _ => x
  | .cas _ => if old = x then c else old
  | .fadd w => let F := if w then fp64 else fp32; (F.add .rne 0 (F.decode old) (F.decode x)).1
  | .fmin w => ((if w then fp64 else fp32).minMax false false old x).1
  | .fmax w => ((if w then fp64 else fp32).minMax true false old x).1
  | .faddBf16 => (bf16.add .rne 0 (bf16.decode old) (bf16.decode x)).1
  | .faddF16 => (fp16.add .rne 0 (fp16.decode old) (fp16.decode x)).1

/-- One addition at a home slice of a value of a kind to an element: rounded once by RNE to the element's format; integers wrap
(R101, R265, R311). -/
def addInto (k acc : Kind) (old x : Nat) : Nat :=
  match k with
  | .fmt f =>
    match fmtFlt f with
    | some F => (F.add .rne 0 (F.decode old) (kindDecode acc x)).1
    | none => old
  | _ => (old + x) % 2 ^ 32

/-! ## Errors of storage that a read meets (R410 to R413) -/

/-- The site of an HBM sector: channel, bank and row (R432). The spec does not lay out rows: a free value of the sector. -/
def hbmSite (sector : Nat) : Nat :=
  let r := Config.rowOf sector
  channelOf (64 * sector) * 2 ^ 14 + r % 2 ^ 6 * 2 ^ 28 + r / 2 ^ 6 % 2 ^ 18 * 2 ^ 34

/-- A read of one half of an HBM sector, of a class by its check symbols (R411): corrected, written back and logged, or the sector
is poisoned and the event logged. Poison itself is not logged again. -/
def State.hbmEvent (s : State) (sector : Nat) (c : EccClass) : State :=
  match c with
  | .good => s
  | .poisoned => s
  | .corrected => s.report none ⟨1, 1, hbmSite sector, 64 * sector, 0, 0⟩
  | .uncorrectable =>
    ({ s with mem := s.mem.setPoison (.hbm (64 * sector)) true }).report none ⟨5, 2, hbmSite sector, 64 * sector, 0, 0⟩

/-- Sectors are read from HBM: the errors that wait in their halves are met, and are over. -/
def State.readHbm (s : State) (secs : List Nat) : State :=
  match s.sys.phys.ecc with
  | [] => s
  | es =>
    (es.filter fun q => secs.contains q.1).foldl (fun (z : State) q => z.hbmEvent q.1 q.2.2)
      (s.modPhys fun p => { p with ecc := p.ecc.filter fun q => !secs.contains q.1 })

/-- The line of the LLC that holds a place. -/
def Mem.line? (m : Mem) (p : Loc) : Option LlcLine := m.llc.find? fun x => x.home == p.line

/-- Sectors of a line, of a mask, as sectors of storage. -/
def secsOf (p : Loc) (secs : BitVec 4) : List Nat :=
  match p with
  | .hbm a => ((List.range 4).filter fun k => secs.getLsbD k).map fun k => a / 256 * 4 + k
  | _ => []

/-- A line of the LLC takes sectors of a place: they are valid now, and dirty where they are written (R393). -/
def Mem.take (m : Mem) (p : Loc) (secs : BitVec 4) (write : Bool) : Mem :=
  match m.llc with
  | [] => m
  | l => { m with llc := l.map fun y =>
      if y.home == p.line then { y with valid := y.valid ||| secs, dirty := if write then y.dirty ||| secs else y.dirty } else y }

/-- Sectors of a line that the LLC does not hold are read from HBM (R411). -/
def State.fetchSectors (s : State) (p : Loc) (secs : BitVec 4) : State :=
  let have_ := ((s.mem.line? p).map LlcLine.valid).getD 0
  let s1 := s.readHbm (secsOf p (secs &&& ~~~have_))
  { s1 with mem := s1.mem.take p secs false }

/-- An error in the copy that the LLC holds of a sector (R412): a clean copy is fetched again, and counts as corrected; a dirty one
is poisoned where it lies. -/
def State.llcEvent (s : State) (va : Nat) (p : Loc) (bad : Bool) : State :=
  match s.mem.line? p with
  | none => s
  | some x =>
    let k := p.offset % 256 / 64
    let site := llcSite x.slice x.way
    if !bad then s.report none ⟨2, 1, site, va, 0, 0⟩
    else if x.rc.isSome then
      let mark (y : LlcLine) : LlcLine := if y.home == x.home then { y with poison := putIn y.poison k true } else y
      ({ s with mem := { s.mem with llc := s.mem.llc.map mark } }).report none ⟨6, 2, site, va, 0, 0⟩
    else if x.dirty.getLsbD k then ({ s with mem := s.mem.setPoison p true }).report none ⟨6, 2, site, va, 0, 0⟩
    else ((s.report none ⟨2, 1, site, va, 0, 0⟩).readHbm (secsOf p (1#4 <<< k)))

/-- The errors that wait in cached copies of sectors of an address space, where the LLC holds the copy that is read. -/
def State.llcStruck (s : State) (part asid va : Nat) (p : Loc) (secs : BitVec 4) : State :=
  match s.sys.phys.sram with
  | [] => s
  | es =>
    let mine (q : Nat × Nat × Nat × Bool) : Bool := q.1 == part && q.2.1 == asid && q.2.2.1 / 4 == va / 256 && secs.getLsbD (q.2.2.1 % 4)
    (es.filter mine).foldl (fun (z : State) q => z.llcEvent (64 * q.2.2.1) (p.line.add (64 * (q.2.2.1 % 4))) q.2.2.2)
      (s.modPhys fun p => { p with sram := p.sram.filter fun q => !mine q })

/-! ## What leaves for the host and for other devices (R414, R449, R450) -/

/-- The origin of accesses that no wave makes. -/
def noWave : Nat := 2 ^ 64

/-- Bytes that a fabric request concerns (R450). -/
def FabOp.width : FabOp → Nat
  | .read n => n
  | .write bs => bs.length
  | .atomic op _ _ _ => AtomOp.bytes op
  | .addTo k _ _ => kindElem k / 8

/-- The reply that a request to a lost device gets (R455). -/
def lostReply : FabOp → Reply
  | .write _ => .done
  | op => .data (List.replicate (FabOp.width op) 0) true

/-- Send a request and keep it until its reply; a lost device answers at once (R455). -/
def State.askFor (s : State) (i : Nat) (strm : Strm) (out : Nat) (ls : List Lane) (va : Nat) (p : Loc) (op : FabOp) (poison : Bool) :
    State :=
  let k := s.sys.links
  let put (r : Remote) : State :=
    { s with sys := { s.sys with links := { k with remotes := k.remotes ++ [r], nextTag := k.nextTag + 1 } } }
  match p with
  | .host a => put ⟨none, none, k.nextTag, none, a, 0, op, i, strm, out, ls, va, poison, none, none⟩
  | .fabric d r a =>
    let reply := if k.lost.contains d then some (lostReply op) else none
    put ⟨none, none, k.nextTag, some d, a, r, op, i, strm, out, ls, va, poison, reply, none⟩
  | _ => s

/-- Send a request that carries no poison. -/
def State.ask (s : State) (i : Nat) (strm : Strm) (out : Nat) (ls : List Lane) (va : Nat) (p : Loc) (op : FabOp) : State :=
  s.askFor i strm out ls va p op false

/-- The requests that a state has sent since another are for an address space of a partition. -/
def State.sentVia (s z : State) (part asid : Nat) : State :=
  let n := s.sys.links.remotes.length
  let k := z.sys.links
  if k.remotes.length = n then z
  else
    { z with sys := { z.sys with links := { k with
        remotes := mapIx (fun j (r : Remote) => if n ≤ j then { r with via := some (part, asid) } else r) 0 k.remotes } } }

/-- Runs of neighbouring bytes. -/
def runs : Overlay → List (Nat × List Byte)
  | [] => []
  | (a, b) :: t =>
    match runs t with
    | (c, bs) :: rest => if c = a + 1 then (a, b :: bs) :: rest else (a, [b]) :: (c, bs) :: rest
    | [] => [(a, [b])]

/-- A write of bytes of one line, with byte enables (R16, R450): from the first sector that it touches to the last. -/
def enables (ov : Overlay) : Nat × List (Option Byte) :=
  match ov.head?, ov.getLast? with
  | some (a, _), some (b, _) =>
    let lo := a / 64 * 64
    (lo, (List.range (b / 64 * 64 + 64 - lo)).map fun i => ovGet ov (lo + i))
  | _, _ => (0, [])

/-- Bytes of one line written at a place that is not this device's, each with its poison: posted to the host, or one request over
the fabric for the sectors that are clean and one for those that are poisoned (R414, R449, R450). The keys are virtual. -/
def State.sendOut (s : State) (i : Nat) (strm : Strm) (out : Nat) (ls : List Lane) (home : Loc) (ov : Overlay) (poison : List Nat) : State :=
  let part (bad : Bool) : Overlay := ov.filter fun e => poison.contains (e.1 / 64) == bad
  let put (z : State) (bad : Bool) : State :=
    match part bad, home with
    | [], _ => z
    | o, .host a =>
      { z with sys := { z.sys with links := { z.sys.links with
          sent := z.sys.links.sent ++ (runs o).map fun e => .host (a + e.1 % 256) e.2 bad } } }
    | o, _ =>
      let (lo, bs) := enables o
      z.askFor i strm out ls lo (home.add (lo % 256)) (.write bs) bad
  put (put s false) true

/-! ## Performing at home (R109, R227, R415) -/

/-- Sectors of which an overlay holds all 64 bytes: a write that clears poison (R415). -/
def fullSectors (ov : Overlay) : List Nat :=
  (dedup (ov.map fun e => e.1 / 64)).filter fun k => decide ((ov.filter fun e => e.1 / 64 == k).length = 64)

/-- The sectors of a line that an overlay touches. -/
def secMask (ov : Overlay) : BitVec 4 :=
  BitVec.ofBoolListLE ((List.range 4).map fun k => ov.any fun e => e.1 / 64 % 4 == k)

/-- Bytes and poison of one line's overlay performed at the home slice: a sector that is written in part keeps its poison (R415).
The overlay's keys are virtual. Host and fabric lines are sent on. -/
def State.home (s : State) (home : Loc) (ov : Overlay) (poison : List Nat) : State :=
  match ov with
  | [] => s
  | _ =>
    if home.near then
      let secs := dedup (ov.map fun e => e.1 / 64)
      let full := fullSectors ov
      let part := secMask (ov.filter fun e => !full.contains (e.1 / 64))
      let s1 := s.fetchSectors home part
      let bad (k : Nat) : Bool := poison.contains k || (!full.contains k && s1.mem.poisoned (home.add (k % 4 * 64)))
      let m := s1.mem.uncount home
      let m1 := ov.foldl (fun y e => y.putByte (home.add (e.1 % 256)) e.2) m
      { s1 with mem := (secs.foldl (fun y k => y.setPoison (home.add (k % 4 * 64)) (bad k)) m1).take home (secMask ov) true }
    else s.sendOut noWave .s 0 [] home ov poison

/-- A gathering line's partials are applied at home, one contribution each (R227); one whose location is poisoned changes nothing,
and is logged (R228). -/
def State.applyPartials (s : State) (x : L1Line) : State :=
  match x.gather with
  | none => s
  | some op =>
    let n := AtomOp.bytes op
    x.partials.foldl (fun z e =>
      let p := x.home.add (e.1 % 256)
      if p.near then
        let z1 := z.fetchSectors p (1#4 <<< (e.1 % 256 / 64))
        if z1.mem.poisoned p then z1.report none ⟨0x0A, 0, 0, e.1, 0, 0⟩
        else
          let old := numLE ((List.range n).map fun i => z1.mem.byte (p.add i))
          { z1 with mem := (z1.mem.putBytes p (bytesLE n (atomNew op old e.2.toNat 0))).take p (1#4 <<< (e.1 % 256 / 64)) true }
      else z.ask noWave .s 0 [] e.1 p (.atomic op e.2 0 false)) s

/-- Write the lines of a core's L1 that a test selects back to their home slices. -/
def State.flush (s : State) (core : Nat) (sel : L1Line → Bool) : State :=
  match s.cores[core]? with
  | none => s
  | some c =>
    let out := c.l1.filter sel
    match out with
    | [] => s
    | _ =>
      let s1 := out.foldl (fun z x => z.sentVia ((z.applyPartials x).home x.home x.bytes x.poison) x.part x.asid) s
      s1.modCore core fun y => { y with l1 := y.l1.filter fun x => !sel x }

/-- Lines that an L1 holds: 512 KiB of 256 bytes (R15). -/
def l1Lines : Nat := 2048

/-- A line joins a core's L1; the one that joined first leaves a full L1, written back (R15, R109). -/
def State.l1Put (s : State) (core : Nat) (x : L1Line) : State :=
  let same (y : L1Line) : Bool := y.part == x.part && y.asid == x.asid && y.line == x.line
  let s1 := s.modCore core fun c => { c with l1 := x :: c.l1.filter fun y => !same y }
  match s1.cores[core]? with
  | none => s1
  | some c =>
    if c.l1.length ≤ l1Lines then s1
    else
      match c.l1.getLast? with
      | none => s1
      | some o => s1.flush core fun y => y.part == o.part && y.asid == o.asid && y.line == o.line

/-- Every core's gathering copies of a line are recalled before another access reaches its home (R227). -/
def State.recallGathers (s : State) (home : Loc) : State :=
  (List.range s.cores.length).foldl (fun z c => z.flush c fun x => x.gather.isSome && x.home == home.line) s

/-- Every core's copies of a line are written back (R400). -/
def State.recall (s : State) (home : Loc) : State :=
  (List.range s.cores.length).foldl (fun z c => z.flush c fun x => x.home == home.line) s

/-- The directory's outcome for a line request of HBM (R400): ALIAS, or the line stands free for the request. Lines of carved
storage lie in carved ways (R409), and those of the host and of other devices are never allocated: they meet no directory. -/
def State.meetCopies (s : State) (part asid va : Nat) (p : Loc) : Except XFault State :=
  match p with
  | .hbm _ =>
    match s.mem.line? p with
    | some x =>
      if x.part == part && x.asid == asid then (if x.line == va / 256 then .ok s else .error ⟨0, xAlias⟩)
      else
        let s1 := s.recall p
        .ok { s1 with mem := s1.mem.evict x }
    | none => .ok s
  | _ => .ok s

/-- A line request reaches its home slice (R400, R405): it hits, is refused with ALIAS, or fills. `secs` are the sectors that it
reads. A code fetch that hits leaves the retention as it is: the instruction caches stand before it. -/
def State.fill (s : State) (part asid va : Nat) (p : Loc) (k : Kindly) (secs : BitVec 4) : Except XFault State :=
  match s.meetCopies part asid va p with
  | .error f => .error f
  | .ok s1 =>
    match p with
    | .hbm _ =>
      match s1.mem.line? p with
      | some _ =>
        let up : State := { s1 with mem := { s1.mem with llc := s1.mem.llc.map fun y =>
          if y.home == p.line then { y with retention := min 3 (y.retention + 1) } else y } }
        .ok (((if k.fetch then s1 else up).fetchSectors p secs).llcStruck part asid va p secs)
      | none => .ok ((s1.allocate part asid va p k.retention none [] [] 0 0).fetchSectors p secs)
    | _ => .ok s1

/-- The sector of an address in its line. -/
def secAt (va : Nat) : BitVec 4 := 1#4 <<< (va % 256 / 64)

/-- Translate a line request and bring the sectors that it reads to the home slice. -/
def State.requestLine (s : State) (part asid va : Nat) (k : Kindly) (secs : BitVec 4) : Except XFault (Loc × State) :=
  match s.translate part asid va k with
  | .error f => .error f
  | .ok p =>
    match (s.keepLeaf part asid va).fill part asid va p k (if k.write then 0 else secs) with
    | .error f => .error f
    | .ok s1 => .ok (p, s1)

/-- Translate an access to one sector and bring it to the home slice. -/
def State.request (s : State) (part asid va : Nat) (k : Kindly) : Except XFault (Loc × State) := s.requestLine part asid va k (secAt va)

/-- Translate a store with a reader count, which allocates its line itself (R406). -/
def State.requestCounted (s : State) (part asid va : Nat) : Except XFault (Loc × State) :=
  match s.translate part asid va writing with
  | .error f => .error f
  | .ok p =>
    match (s.keepLeaf part asid va).meetCopies part asid va p with
    | .error f => .error f
    | .ok s1 => .ok (p, s1)

/-! ## Reads and writes of a wave -/

/-- Partition, ASID and core of a wave's accesses. -/
structure Via where
  part : Nat
  asid : Nat
  core : Nat
  deriving DecidableEq, Repr

def State.viaOf (s : State) (w : Wave) : Via := let c := s.ctxOf w; ⟨c.part, c.asid, w.core⟩

/-- A byte as a core sees it: its L1's dirty byte, or the home slice's. -/
def State.byteAt (s : State) (v : Via) (va : Nat) (p : Loc) : Byte :=
  match (s.l1Line? v.core v.part v.asid (va / 256)).bind fun x => ovGet x.bytes va with
  | some b => b
  | none => s.mem.byte p

/-- Poison of a sector as a core sees it. -/
def State.poisonAt (s : State) (v : Via) (va : Nat) (p : Loc) : Bool :=
  match s.l1Line? v.core v.part v.asid (va / 256) with
  | some x => if x.bytes.any fun e => e.1 / 64 == va / 64 then x.poison.contains (va / 64) else s.mem.poisoned p
  | none => s.mem.poisoned p

/-- Whether a wave's accesses are green now (R111, R322, R344). -/
def Wave.isGreen (w : Wave) : Bool :=
  match w.region with
  | none => false
  | some g => !g.unchecked && !w.priv.handler

/-- The bytes that a wave reads, its own green bytes merged over memory (R111). -/
def State.bytesFor (s : State) (w : Wave) (va n : Nat) (p : Loc) : List Byte :=
  let v := s.viaOf w
  (List.range n).map fun i =>
    match ovGet w.green.glob (va + i) with
    | some b => b
    | none => s.byteAt v (va + i) (p.add i)

/-- Some of the bytes that a wave reads lie in a poisoned sector. -/
def State.poisonFor (s : State) (w : Wave) (va n : Nat) (p : Loc) : Bool :=
  let v := s.viaOf w
  (sectors va n).any fun k =>
    if w.green.glob.any fun e => e.1 / 64 == k then w.green.poison.contains k
    else s.poisonAt v (max va (k * 64)) (p.add (max va (k * 64) - va))

/-- A write of one line performed in a core's L1 (R109). -/
def State.l1Write (s : State) (v : Via) (home : Loc) (ov : Overlay) (poisonIn : Bool) : State :=
  match ov with
  | [] => s
  | (a, _) :: _ =>
    let line := a / 256
    let s1 := s.flush v.core fun x => x.gather.isSome && x.part == v.part && x.asid == v.asid && x.line == line
    let full := fullSectors ov
    let secs := dedup (ov.map fun e => e.1 / 64)
    let bad (k : Nat) : Bool :=
      poisonIn || (!full.contains k && s1.poisonAt v (k * 64) (home.add (k % 4 * 64)))
    let old := (s1.l1Line? v.core v.part v.asid line).getD ⟨v.part, v.asid, line, home, [], [], none, []⟩
    let new := { old with bytes := ov.foldl (fun y e => ovPut y e.1 e.2) old.bytes,
                          poison := secs.foldl (fun y k => putIn y k (bad k)) old.poison }
    s1.l1Put v.core new

/-- A write of one line performed at the home slice, with the sectors whose data carries poison (R415). -/
def State.homeWrite (s : State) (v : Via) (home : Loc) (ov : Overlay) (poison : List Nat) : State :=
  match ov with
  | [] => s
  | (a, _) :: _ =>
    ((s.flush v.core fun x => x.part == v.part && x.asid == v.asid && x.line == a / 256).recallGathers home).home home.line ov poison

/-- A store with a reader count (R114, R406): the line is allocated at home with the count, filled from memory. On carved
storage, on the host and on another device the hint is ignored (R107). -/
def State.countedWrite (s : State) (v : Via) (home : Loc) (ov : Overlay) (n : Nat) (poison : List Nat) : State :=
  match ov, home with
  | (a, _) :: _, .hbm _ =>
    let s0 := (s.flush v.core fun x => x.part == v.part && x.asid == v.asid && x.line == a / 256).recallGathers home
    let base := home.line
    let s1 := s0.fetchSectors base (~~~(secMask (ov.filter fun e => (fullSectors ov).contains (e.1 / 64))))
    let full := fullSectors ov
    let bytes := (List.range 256).map fun i => (ovGet ov (a / 256 * 256 + i)).getD (s1.mem.byte (base.add i))
    let bad := (List.range 4).filter fun k => poison.contains (a / 256 * 4 + k) ||
      (!full.contains (a / 256 * 4 + k) && s1.mem.poisoned (base.add (64 * k)))
    let order := (((s1.mem.llc.find? fun x => x.home == base).filter fun x => x.rc.isSome).map LlcLine.order)
    let m := { s1.mem with llc := s1.mem.llc.filter fun x => x.home != base }
    let s2 := ({ s1 with mem := m }).allocate v.part v.asid a base 3 (some n) bytes bad 15 (secMask ov)
    -- where no way of 12 to 23 is allowed, the store is an ordinary one
    if (s2.mem.counted? base).isSome then
      { s2 with mem := { s2.mem with llc := s2.mem.llc.map fun x =>
          if x.home == base then { x with order := order.getD x.order } else x } }
    else s1.homeWrite v home ov poison
  | _, _ => s.homeWrite v home ov poison

/-- One line request of a wave, or one engine read, of a counted line (R115): the count falls, and at 0 the line is dropped. -/
def State.readCount (s : State) (p : Loc) : State :=
  match s.mem.counted? p with
  | none => s
  | some x =>
    let m := s.mem
    match x.rc with
    | some (n + 2) =>
      { s with mem := { m with llc := m.llc.map fun y => if y.home == x.home then { y with rc := some (n + 1) } else y } }
    | _ => { s with mem := { m with llc := m.llc.filter fun y => y.home != x.home } }

/-- Green bytes of a write, with the poison that they carry (R111, R415). A store without the hint takes away the count that an
earlier one of the region gave its line (R115, R116). -/
def Green.write (g : Green) (ov : Overlay) (bad : List Nat) : Green :=
  let secs := dedup (ov.map fun e => e.1 / 64)
  let lines := dedup (ov.map fun e => e.1 / 256)
  { g with glob := ov.foldl (fun y e => ovPut y e.1 e.2) g.glob, poison := secs.foldl (fun y k => putIn y k (bad.contains k)) g.poison,
           rc := g.rc.filter fun e => !lines.contains e.1 }

/-- Lines that an overlay touches. -/
def ovLines (ov : Overlay) : List Nat := dedup (ov.map fun e => e.1 / 256)

/-- The part of an overlay in one line. -/
def ovLine (ov : Overlay) (line : Nat) : Overlay := ov.filter fun e => e.1 / 256 == line

/-! ## Scratchpad (R105, R415) -/

/-- Which half of a team's on-core memory lies on a core: false for the even core. -/
def Team.half (t : Team) (odd : Bool) : Half := if odd then t.hi else t.lo

def Team.setHalf (t : Team) (odd : Bool) (h : Half) : Team := if odd then { t with hi := h } else { t with lo := h }

/-- Write bytes into scratchpad: a unit of which one write enables all 64 bytes is clean (R415). -/
def Half.write (h : Half) (ov : Overlay) (poisonIn : Bool) : Half :=
  let full := fullSectors ov
  let secs := dedup (ov.map fun e => e.1 / 64)
  { h with scratch := ov.foldl (fun y e => cellPut y e.1 e.2) h.scratch,
           scratchPoison := secs.foldl (fun y k =>
             putIn y k (poisonIn || (!full.contains k && h.scratchPoison.contains k))) h.scratchPoison }

end Sys2Proof.Machine
end

