-- ==== Sys2Proof/Machine/Operands.lean ====
section
/-!
DEFINITION. The operand forms of S-ops (spec/06 R133 to R136) and of L-ops (spec/03 R58, R59; spec/06 R141, R143), and what
every L-op does around its own effect: the checks before it issues (R68, R75 to R78), the forwarding window (R72, R184), stall
counts (R74), and the draws and flags of its results (R89, R98, R182).
-/

namespace Sys2Proof.Machine

/-- What a step answers. -/
abbrev Result := Host.Outcome State Fault Refusal

/-! ## S-ops -/

/-- Sign extension of an n-bit field to 64 bits. -/
def sextTo64 (n : Nat) (x : Nat) : DWord := BitVec.ofInt 64 (sfield x 0 n)

/-- An immediate field of n bits, with the payload of an XIM above it (R133, R139). -/
def Pfx.imm (p : Pfx) (n : Nat) (x : Nat) : DWord :=
  match p.xim with
  | Option.none => sextTo64 n x
  | some y => sextTo64 (n + 26) (y.toNat * 2 ^ n + x)

/-- The b operand of format SR (R133). -/
def State.opB (s : State) (w : Wave) : SrcB → DWord
  | .reg r => w.readS r
  | .imm v => s.pfx.imm 10 v.toNat

/-- The condition codes (R134). -/
def Cond.holds (c : Cond) (a b : DWord) : Bool :=
  match c with
  | .eq => a == b
  | .ne => a != b
  | .lt => a.slt b
  | .ge => !a.slt b
  | .ltu => a.ult b
  | .geu => !a.ult b

/-- The target of a branch: P + 4 x offset (R135, R161). -/
def State.target (s : State) (w : Wave) (n : Nat) (off : Nat) : DWord :=
  BitVec.ofNat 64 (s.opAddr w) + 4 * s.pfx.imm n off

/-- Base and size of the scalar section that the wave fetches from: the grid's, or at handler level the handler's (R343). -/
def State.scalarSection (s : State) (w : Wave) : Nat × Nat :=
  if w.priv.handler then ((s.ctxOf w).hbase, (s.ctxOf w).hsize) else ((s.launchOf w).sbase, (s.launchOf w).ssize)

/-- A word at an address lies in a section (R137). -/
def inSection (sec : Nat × Nat) (a : Nat) : Bool := decide (sec.1 ≤ a) && decide (a + 4 ≤ sec.1 + sec.2)

/-- Bytes of a scalar access (R136). -/
def SSize.bytes : SSize → Nat
  | .b1 => 1 | .b2 => 2 | .b4 => 4 | .b8 => 8

/-! ## L-ops: what an L-op names -/

/-- The registers that an L-op names: each source with the registers it covers and its last-use bit, its destinations, whether
the result is dead on production, and reservoirs read and written. -/
structure LUse where
  reads : List (Opnd × Nat × Bool)
  writes : List (Dst × Nat)
  lud : Bool
  zs : List ZReg
  deriving DecidableEq, Repr

/-- Registers of a position of a width in bits. -/
def regsOf (bits : Nat) : Nat := if bits = 64 then 2 else 1

def use0 : LUse := ⟨[], [], false, []⟩
def use1 (c : LCtl) (d : Dst) (dn : Nat) (a : Opnd) (an : Nat) : LUse := ⟨[(a, an, c.lua)], [(d, dn)], c.lud, []⟩
def use2 (c : LCtl) (d : Dst) (dn : Nat) (a b : Opnd) (n : Nat) : LUse :=
  ⟨[(a, n, c.lua), (b, n, c.lub)], [(d, dn)], c.lud, []⟩
def use3 (c : LCtl) (d : Dst) (a b x : Opnd) (n : Nat) : LUse :=
  ⟨[(a, n, c.lua), (b, n, c.lub), (x, n, c.luc)], [(d, n)], c.lud, []⟩

def spanO (o : Opnd) (n : Nat) : List Nat :=
  match o with
  | .v r => (List.range n).map (r.val + ·)
  | _ => []

def spanD (d : Dst) (n : Nat) : List Nat :=
  match d with
  | .v r => (List.range n).map (r.val + ·)
  | .zero => []

def LUse.readRegs (u : LUse) : List Nat := u.reads.flatMap fun x => spanO x.1 x.2.1
def LUse.writeRegs (u : LUse) : List Nat := u.writes.flatMap fun x => spanD x.1 x.2

/-- The least of a list. -/
def least : List Nat → Option Nat
  | [] => none
  | x :: xs => match least xs with
    | none => some x
    | some y => some (min x y)

/-- A register of the block's working set (R65, R68). -/
def Blk.names (b : Blk) (r : Nat) : Bool := b.ranges.any fun g => decide (g.first ≤ r) && decide (r < g.first + g.count)

/-- UNSTAGED, with its report (R68, R476). -/
def LUse.unstaged (u : LUse) (b : Blk) : Option Trap :=
  match least ((u.readRegs ++ u.writeRegs).filter fun r => !b.names r) with
  | some r => some (.aux_ .unstaged r)
  | none =>
    if b.z then none
    else (least (u.zs.map Fin.val)).map fun n => .aux_ .unstaged (n + 2 ^ 9)

/-! ## Hazards (R74, R75, R78) -/

/-- A fixed-latency result of the side that stall counts do not yet cover. -/
def Prod.open_ (p : Prod) (d : Side) : Bool := p.side == d && decide (p.acc < p.lat)

/-- A variable-latency write of a register that is outstanding. -/
def Outst.owes (o : Outst) (r : Nat) : Bool := o.load && !o.done && o.regs.any fun e => e.1 == r

/-- STALL_UNDERSIZED, with its report (R75, R78, R476): the lowest v register, or else the lowest reservoir. -/
def LStream.hazard (x : LStream) (d : Side) (u : LUse) : Option Trap :=
  let regs := u.readRegs ++ u.writeRegs
  let r74 := regs.filter fun r => x.prods.any fun p => p.open_ d && p.regs.any fun e => e.1 == r
  let r78 := regs.filter fun r => x.outs.any fun o => o.owes r
  match least (r74 ++ r78) with
  | some r => some (.aux_ .stallUndersized (r + (if r74.contains r then 0 else 2 ^ 8)))
  | none =>
    (least ((u.zs.map Fin.val).filter fun n => x.prods.any fun p => p.open_ d && p.zs.any fun e => e.1 == n)).map fun n =>
      .aux_ .stallUndersized (n + 2 ^ 9)

/-! ## Reading -/

/-- A lane's value of a register: the youngest window result, or the committed value (R72). -/
def LStream.laneVal (x : LStream) (r : VReg) (l : Lane) : Word :=
  match x.win.find? fun e => e.reg == r.val && inMask e.mask l with
  | some e => e.val[l]
  | none => (x.committed r)[l]

/-- An L-op that issues: the state, the wave and side, its active set (R141), the running ticket, and the values that replace
registers at an operand position where R75 or R78 let the old or the returned value be read. -/
structure LIss where
  s : State
  i : Nat
  w : Wave
  d : Side
  p : PcSide
  act : Mask
  tk : Ticket
  old : List (Nat × Nat × Lanes Word)

/-- The active set: the side's lanes in which the guard, with its sense, is true (R141). -/
def Wave.active (w : Wave) (p : PcSide) (c : LCtl) : Mask :=
  let g : Mask := if c.guard.val = 7 then BitVec.allOnes 32 else w.ls.p[c.guard]
  p.mask &&& (if c.sense then ~~~g else g)

/-- The ticket that runs. -/
def LStream.ticket (x : LStream) : Ticket := (x.tickets.head?).getD ⟨0, 0, Vector.replicate 4 0, 0, 0, 0⟩

/-- Values that replace registers when the scoreboard is off and a count is too small (R75, R78): free choices, one for each
operand position under R75 and one for each lane under R78. A drain has waited for every result in flight (R184): then no old value
is left to read. -/
def LStream.stale (x : LStream) (d : Side) (u : LUse) (free : Nat) : List (Nat × Nat × Lanes Word) :=
  (mapIx (fun pos (y : Opnd × Nat × Bool) =>
    (spanO y.1 y.2.1).flatMap fun r =>
      ((x.prods.filter fun p => p.open_ d && p.inFlight).flatMap fun p =>
        ((p.regs.filter fun e => e.1 == r).filter fun _ => Config.freeBit (free + pos)).map fun e => (pos, r, e.2)) ++
      ((x.outs.filter fun o => o.owes r).flatMap fun o =>
        (o.regs.filter fun e => e.1 == r).map fun e =>
          (pos, r, if h : r < 256 then
            lanes fun l => if inMask o.mask l && Config.freeBit (free + 8 + 32 * pos + l.val) then e.2[l] else x.laneVal ⟨r, h⟩ l
            else e.2))) 0 u.reads).flatten

/-- The value of a register at an operand position. -/
def LIss.lane (x : LIss) (pos : Nat) (r : Nat) (l : Lane) : Word :=
  match x.old.find? fun e => e.1 == pos && e.2.1 == r with
  | some e => e.2.2[l]
  | none => if h : r < 256 then x.w.ls.laneVal ⟨r, h⟩ l else 0

/-- A source operand of a lane, cut to the width of its position (R58, R59, R181). -/
def LIss.read (x : LIss) (pos : Nat) (o : Opnd) (bits : Nat) (l : Lane) : Nat :=
  match o with
  | .v r =>
    if bits = 64 then (x.lane pos r.val l).toNat + (x.lane pos (r.val + 1) l).toNat * 2 ^ 32
    else (x.lane pos r.val l).toNat % 2 ^ bits
  | .t k => x.tk.snaps[k].toNat % 2 ^ bits
  | .lane => l.val
  | .wave => x.w.num % 64
  | .zero => 0

/-! ## Before an L-op issues -/

/-- One lane entry of R426 applied to a physical lane of a quarter. -/
def State.repointed (s : State) (w : Wave) (l : Nat) : Nat :=
  ((s.sys.fuses.repoint.find? fun e =>
    let v := e.toNat
    field v 62 2 == 1 && field v 43 9 == 4 * w.core + w.quarter && field v 37 6 == l).map fun e => field e.toNat 13 6).getD l

/-- The physical lane on which a program lane runs: its own, a spare, or the spare of a retired spare (R426). -/
def State.physLane (s : State) (w : Wave) (l : Lane) : Nat := s.repointed w (s.repointed w l.val)

/-- A parity error in a register or reservoir that the L-op reads in an active lane (R419). -/
def State.parityHit (s : State) (i : Nat) (u : LUse) (act : Mask) : Option (Nat × Lane) :=
  (s.sys.phys.parity.find? fun e =>
    e.1 == i && (u.readRegs ++ u.zs.map fun (n : ZReg) => 512 + n.val).contains e.2.1 && inMask act e.2.2).map fun e => e.2

/-- A side waits at its L-op and issues it again. A wait for another reason counts from now on. -/
def State.waitL (s : State) (w : Wave) (d : Side) (why : Wait) : State :=
  let since := if w.ls.wait? d == some why then w.ls.since d else s.cyclesOf w.core
  s.setWave { w with ls := (w.ls.setWait d (some why)).setSince d since }

/-- A precise trap of the L-op that issues. -/
def LIss.trap (x : LIss) (t : Trap) : State := x.s.trapL x.i x.d t x.p.pc false

/-- What stands before an L-op's own effect: UNSTAGED (R145), its wait on a counter (R76, R77), the scoreboard (R75, R78) and
register parity (R419). -/
def State.lStart (s : State) (c : LCtl) (u : LUse) : Except State LIss :=
  match s.wave? with
  | none => .error s
  | some w =>
    let d := s.cur.2
    match w.ls.side? d with
    | none => .error s
    | some p =>
      match u.unstaged w.ls.blk with
      | some t => .error (s.trapL s.cur.1 d t p.pc false)
      | none =>
        if (c.wt && w.ls.w[c.cnt] != 0) || (c.inc && !c.wt && w.ls.w[c.cnt] == 63) then .error (s.waitL w d .other)
        else
          let hz := w.ls.hazard d u
          match hz, (s.ctxOf w).scb with
          | some t, true => .error (s.trapL s.cur.1 d t p.pc false)
          | _, _ =>
            let act := w.active p c
            match s.parityHit s.cur.1 u act with
            | some (r, l) =>
              .error ((s.modPhys fun p => { p with parity := p.parity.filter fun e => e != (s.cur.1, r, l) }).detected s.cur.1 .rfParity 0 (r % 2 ^ 8 + l.val * 2 ^ 8) ⟨7, 0, w.site + s.physLane w l * 2 ^ 8, 0, p.pc, 0⟩)
            | none =>
              .ok { s := if hz.isSome then { s with free := s.free + 512 } else s, i := s.cur.1, w := w, d := d, p := p, act := act,
                    tk := w.ls.ticket, old := if hz.isSome then w.ls.stale d u s.free else [] }

/-! ## After an L-op issued -/

/-- Mark a value dead in the lanes of a set: the youngest result of the register in each (R72). -/
def markDead (r : Nat) : Mask → List WinEnt → List WinEnt
  | _, [] => []
  | m, e :: es =>
    if e.reg == r then { e with dead := e.dead ||| (e.mask &&& m) } :: markDead r (m &&& ~~~e.mask) es
    else e :: markDead r m es

/-- A result leaves the window: the eighth later L-op has issued, and the result is produced (R72, R184). -/
def WinEnt.over (e : WinEnt) : Bool := decide (8 ≤ e.age) && e.due == 0

/-- Age the window by one issue of a side; results that are over leave, oldest first (R72, R184). -/
def LStream.age (x : LStream) (d : Side) : LStream :=
  let win := x.win.map fun e => if e.side == d then { e with age := e.age + 1 } else e
  let y := (win.filter WinEnt.over).foldr (fun e z => z.leave false e) x
  { y with win := win.filter fun e => !e.over,
           outs := y.outs.map fun o => if o.side == d then { o with age := o.age + 1 } else o }

/-- Results of a latency enter the window (R72). -/
def LStream.push (x : LStream) (d : Side) (act : Mask) (lud : Bool) (lat : Nat) (res : List (Nat × Lanes Word)) : LStream :=
  if act = 0 then x
  else { x with win := (res.map fun e => (⟨e.1, d, e.2, act, if lud then act else 0, 0, lat⟩ : WinEnt)) ++ x.win }

/-- The stall count of the L-op covers earlier results of its side, and its own results are new ones (R74). -/
def LStream.cover (x : LStream) (d : Side) (stall : Nat) (new : List Prod) : LStream :=
  let ps := x.prods.map fun p => if p.side == d then { p with acc := p.acc + stall + 1 } else p
  { x with prods := (ps ++ new).filter fun p => decide (p.acc < p.lat),
           win := x.win.map fun e => if e.side == d then { e with due := e.due - (stall + 1) } else e }

/-- The values that registers hold before the L-op, for R75. -/
def LStream.before (x : LStream) (regs : List Nat) : List (Nat × Lanes Word) :=
  regs.filterMap fun r => if h : r < 256 then some (r, lanes fun l => x.laneVal ⟨r, h⟩ l) else none

/-- Results of a destination of a width: a pair for 64 bits, nothing for 0x112 (R57 to R59). -/
def destRegs (d : Dst) (bits : Nat) (f : Lane → DWord) : List (Nat × Lanes Word) :=
  match d with
  | .zero => []
  | .v r =>
    if bits = 64 then [(r.val, lanes fun l => (f l).setWidth 32), (r.val + 1, lanes fun l => ((f l) >>> 32).setWidth 32)]
    else [(r.val, lanes fun l => (f l).setWidth 32)]

/-- The lane stream after the L-op: last-use marks, the window, stall counts; the side goes on at the next L-op. -/
def LIss.stream (x : LIss) (c : LCtl) (u : LUse) (lat : Nat) (res : List (Nat × Lanes Word)) (y : LStream) : LStream :=
  let dead := u.reads.filter fun e => e.2.2
  let win := (dead.flatMap fun e => spanO e.1 e.2.1).foldl (fun z r => markDead r x.act z) y.win
  let z := (({ y with win := win }).age x.d).push x.d x.act u.lud lat res
  let new := if res.isEmpty then [] else
    [(⟨x.d, lat, c.stall.toNat + 1, y.before (res.map (·.1)), [], true⟩ : Prod)]
  (z.cover x.d c.stall.toNat new).goTo x.d (x.p.pc + 12)

/-- The L-op is done: its results and what it changes beside them. -/
def LIss.done (x : LIss) (c : LCtl) (u : LUse) (lat : Nat) (res : List (Nat × Lanes Word)) (f : Wave → Wave) : State :=
  let w := f x.w
  (x.s.putWave x.i { w with ls := x.stream c u lat res w.ls }).countIssue x.w.team

/-- A lane instruction that computes one result a lane, of a width in bits. -/
def State.laneOp (s : State) (c : LCtl) (u : LUse) (lat : Nat) (d : Dst) (bits : Nat) (f : LIss → Lane → Nat) : State :=
  match s.lStart c u with
  | .error t => t
  | .ok x => x.done c u lat (destRegs d bits fun l => BitVec.ofNat 64 (f x l)) id

/-- The second operand of an instruction with an immediate form (R143). -/
inductive BSrc where
  | reg (o : Opnd)
  | imm (w : Word)
  deriving DecidableEq, Repr

/-- What an instruction of two sources names: an immediate is no operand. -/
def useB (c : LCtl) (d : Dst) (dn : Nat) (a : Opnd) (b : BSrc) (n : Nat) : LUse :=
  match b with
  | .reg o => use2 c d dn a o n
  | .imm _ => use1 c d dn a n

/-- An integer immediate: as it stands, sign-extended to 64 bits, or its low 16 bits (R143). -/
def immInt (bits : Nat) (w : Word) : Nat := if bits = 64 then (w.signExtend 64).toNat else w.toNat % 2 ^ bits

/-- The second operand of an integer instruction in lane l. -/
def LIss.readB (x : LIss) (b : BSrc) (bits : Nat) (l : Lane) : Nat :=
  match b with
  | .reg o => x.read 1 o bits l
  | .imm w => immInt bits w

/-- The figure of a latency table for 16, 32 and 64 bits (R183). -/
def byWidth (bits x y z : Nat) : Nat := if bits = 64 then z else if bits = 32 then y else x

/-! ## Draws and flags -/

/-- The draw that lane l takes for its k-th element (R89, R270): seed of the ticket, counter of the lane. -/
def LIss.draw (x : LIss) (l : Lane) (k : Nat) : Nat :=
  drawV (laneKey x.tk.seed l.val) (x.w.soft.rndctr[l] + BitVec.ofNat 32 k)

/-- Advance the rounding counters of the active lanes by the elements drawn, and raise flags (R89, R98). -/
def Wave.drew (w : Wave) (act : Mask) (n : Nat) (fl : Flags) : Wave :=
  { w with soft := { w.soft with fflags := w.soft.fflags ||| fl,
                                 rndctr := if n = 0 then w.soft.rndctr else
                                   lanes fun l => if inMask act l then w.soft.rndctr[l] + BitVec.ofNat 32 n else w.soft.rndctr[l] } }

/-- Flags of the active lanes (R98). -/
def activeFlags (act : Mask) (f : Lane → Flags) : Flags := flagsOr ((lanesIn act).map f)

/-- The executions in which a residue check of this wave finds a difference, with the physical lane (R206). -/
def State.residueHit (s : State) (w : Wave) (act : Mask) : Option (Nat × Nat) :=
  (s.sys.phys.residue.find? fun e =>
    e.1 == w.core && e.2.1 == w.quarter && (lanesIn act).any fun l => s.physLane w l == e.2.2.1).map fun e => (e.2.2.1, e.2.2.2)

/-- The struck error is over. -/
def State.residueOver (s : State) (w : Wave) : State :=
  let p := s.sys.phys
  { s with sys := { s.sys with phys := { p with
      residue := p.residue.eraseP fun e => e.1 == w.core && e.2.1 == w.quarter } } }

/-- The outcome of a residue check (R206): a difference on the first execution is logged and changes nothing; one on both is
a detected error, and the instruction has no other effect. -/
def LIss.residue (x : LIss) (checked : Bool) : Except State State :=
  match (if checked then x.s.residueHit x.w x.act else none) with
  | none => .ok x.s
  | some (pl, n) =>
    let s1 := x.s.residueOver x.w
    let site := x.w.site + pl * 2 ^ 8
    if n ≤ 1 then .ok (s1.report (some x.i) ⟨3, 1, site, 0, x.p.pc, 0⟩)
    else .error (s1.detected x.i .residueFail 0 pl ⟨4, 0, site, 0, x.p.pc, 0⟩)

/-- A lane instruction whose result is a float encoding with flags: `rnd` says whether it takes a draw (R89, R182). -/
def State.floatOp (s : State) (c : LCtl) (u : LUse) (lat : Nat) (d : Dst) (bits : Nat) (checked : Bool) (rnd : Rnd)
    (f : LIss → Lane → Nat → Nat × Flags) : State :=
  match s.lStart c u with
  | .error t => t
  | .ok x =>
    match x.residue checked with
    | .error t => t
    | .ok s1 =>
      let r (l : Lane) : Nat × Flags := f x l (if rnd == Rnd.sr then x.draw l 0 else 0)
      ({ x with s := s1 }).done c u lat (destRegs d bits fun l => BitVec.ofNat 64 (r l).1) fun w =>
        w.drew x.act (if rnd == Rnd.sr then 1 else 0) (activeFlags x.act fun l => (r l).2)

/-- A residue-checked integer instruction (R205). -/
def State.checkedOp (s : State) (c : LCtl) (u : LUse) (lat : Nat) (d : Dst) (bits : Nat) (f : LIss → Lane → Nat) : State :=
  match s.lStart c u with
  | .error t => t
  | .ok x =>
    match x.residue true with
    | .error t => t
    | .ok s1 => ({ x with s := s1 }).done c u lat (destRegs d bits fun l => BitVec.ofNat 64 (f x l)) id

end Sys2Proof.Machine
end

