-- ==== Sys2Proof/Machine/Access.lean ====
section
/-!
DEFINITION. A wave's access to memory, shared by scalar and lane instructions, engines and replays: the checks of an access
(spec/05 R104, R112; spec/12 R325; spec/22 R471), green writes with their limit and signature (R111, R322, R326), translation
with parking (spec/09 R221, spec/16 R357, spec/18 R402), reads, writes and atomic operations at the place R119 gives, and
requests to the host and to other devices (R449, R453).
-/

namespace Sys2Proof.Machine

/-! ## Ordering (R42, R109, R117) -/

def scopeWide (c : Scope) : Bool := c == .b || c == .d || c == .p

def annRel (a : Ann) : Bool := a.ord == .rel || a.ord == .ar
def annAcq (a : Ann) : Bool := a.ord == .acq || a.ord == .ar

/-- The scope as it reaches: .t of a paired team acts as .b (R118). -/
def State.scopeOf (s : State) (w : Wave) (c : Scope) : Scope :=
  if c == .t && ((s.launchOf w).pair || decide (32 < (s.launchOf w).waves)) then .b else c

/-- A release of scope .b or wider sends what the core's L1 holds to the home slices before it is performed (R109, R227). -/
def State.release (s : State) (core : Nat) (c : Scope) : State := if scopeWide c then s.flush core fun _ => true else s

/-- A write or atomic of a wave to another device that is not acknowledged: what a release of scope .p waits for (R128). Lines
that an L1 has sent on carry no wave, and are waited for whose ever they are. -/
def State.unacknowledged (s : State) (i : Nat) : Bool :=
  s.sys.links.remotes.any fun r => (r.wave == i || r.wave == noWave) && r.reply.isNone &&
    match r.op with
    | .read _ => false
    | _ => true

/-! ## Checks that depend on the instruction and the wave (R112, R325) -/

/-- The wave is at user level inside a region. -/
def Wave.inRegion (w : Wave) : Bool := w.region.isSome && !w.priv.handler

/-- REGION_ILLEGAL of an access: an atomic of scope wider than .w, or .rel or .ar of scope wider than .w (R112). -/
def regionIllegal (w : Wave) (atomic : Bool) (a : Ann) : Bool := w.inRegion && (a.scope != .w) && (atomic || annRel a)

/-- TWIN_ILLEGAL of an access that writes global memory (R325). -/
def State.twinIllegal (s : State) (w : Wave) : Bool := (s.launchOf w).twin && w.region.isNone && !w.priv.handler

/-- The address of an access lies in 56 bits, and is a multiple of its width (R104). -/
def addrBad (va : Nat) : Bool := decide (2 ^ 56 ≤ va)
def alignBad (va n : Nat) : Bool := va % n != 0

/-! ## Watchpoints (R469 to R471) -/

/-- The lowest watched byte of a range that a watchpoint matches. -/
def watchByte (wp : DWord × DWord) (part asid va n : Nat) : Option Nat :=
  let a := wp.1.toNat
  let c := wp.2.toNat
  if bitOf c 63 && field c 48 3 == part && field c 32 16 == asid then
    (List.range n).findSome? fun i =>
      if (va + i) / 16 == field a 4 52 && bitOf c ((va + i) % 16) then some (va + i) else none
  else none

/-- WATCH of a wave's write: the lowest byte and watchpoint that match, and the lanes (R471). -/
def State.watchHit (s : State) (w : Wave) (strm : Strm) (rs : List (Lane × Nat × Nat)) : Option Trap :=
  if w.priv.handler || w.ss.unwatched.contains strm then none
  else
    let v := s.viaOf w
    let wps := ((s.cores[w.core]?).map fun c => c.watch.toList).getD []
    let hits := rs.flatMap fun r => (mapIx (fun k wp => (k, watchByte wp v.part v.asid r.2.1 r.2.2)) 0 wps).filterMap fun h =>
      h.2.map fun b => (r.1, h.1, b)
    match least (hits.map fun h => h.2.2), least (hits.map fun h => h.2.1) with
    | some b, some k => some ⟨.watch, b, k, maskOf fun l => hits.any fun h => h.1 == l⟩
    | _, _ => none

/-- The store after RETRY of a WATCH has issued: checks apply again. -/
def Wave.rewatch (w : Wave) (strm : Strm) : Wave :=
  { w with ss := { w.ss with unwatched := w.ss.unwatched.filter (· != strm) } }

/-! ## Green sectors: limit and signature (R322, R326) -/

/-- Green sectors that a wave holds: global and scratchpad. -/
def Green.sectors (g : Green) : Nat := (dedup (g.glob.map fun e => e.1 / 64)).length + (dedup (g.scr.map fun e => e.1 / 64)).length

/-- Green sectors on a core: a save writes a wave's into its image, and frees them (R365). -/
def State.greenOf (s : State) (core : Nat) : Nat :=
  s.waves.foldl (fun n w => if w.core == core && w.st == .resident then n + w.green.sectors else n) 0

/-- A wave's green writes would need more sectors than its L1's 256 KiB and its bay's 4 MiB of spill hold (R322). -/
def State.greenFull (s : State) (w : Wave) (new : Green) : Bool :=
  let bay := w.core / 8
  let beyond (c : Nat) : Nat := (s.greenOf c + (if c == w.core then new.sectors - w.green.sectors else 0)) - 4096
  let spill := (List.range 8).foldl (fun n k => n + beyond (8 * bay + k)) 0
  decide (w.green.sectors < new.sectors) && decide (65536 < spill)

/-- CRC-64 with the ECMA-182 polynomial, most significant bit first, over bytes (R326). -/
def crcBit (c : DWord) (b : Bool) : DWord := if c.msb != b then (c <<< 1) ^^^ 0x42F0E1EBA9EA3693#64 else c <<< 1
def crcByte (c : DWord) (b : Byte) : DWord := (List.range 8).foldl (fun x i => crcBit x (b.getLsbD (7 - i))) c
def crc64 (bs : List Byte) : DWord := bs.foldl crcByte 0

/-- The record of one 8-byte unit (R326). -/
def unitRecord (unit : Nat) (ov : Overlay) (space : Nat) : DWord :=
  let data := (List.range 8).map fun i => (ovGet ov (8 * unit + i)).getD 0
  let mask := (List.range 8).foldl (fun n i => n + (if (ovGet ov (8 * unit + i)).isSome then 2 ^ i else 0)) 0
  crc64 (bytesLE 8 unit ++ data ++ [BitVec.ofNat 8 mask, BitVec.ofNat 8 space] ++ List.replicate 6 0)

/-- What one instruction or job adds to the signature: one record for each unit that its overlay touches. -/
def sigOf (ov : Overlay) (space : Nat) : DWord :=
  (dedup (ov.map fun e => e.1 / 8)).foldl (fun x u => x + unitRecord u ov space) 0

/-- Count a green write in the wave's signature: only a twin grid compares it. -/
def State.signed (s : State) (w : Wave) (ov : Overlay) (space : Nat) : Wave :=
  if (s.launchOf w).twin then { w with region := w.region.map fun g => { g with sig := g.sig + sigOf ov space } } else w

/-! ## Requests to the host and to other devices (R449, R451, R453) -/

/-- Take a finished request off the list. -/
def State.dropRemote (s : State) (tag : Nat) : State :=
  { s with sys := { s.sys with links := { s.sys.links with remotes := s.sys.links.remotes.filter fun r => r.tag != tag } } }

/-- Bytes that came from the host or another device, with the wave's own green bytes merged over them (R111). -/
def Wave.merge (w : Wave) (va : Nat) (bs : List Byte) : List Byte := mapIx (fun k b => (ovGet w.green.glob (va + k)).getD b) 0 bs

/-- The wave's green data cover the sectors of n bytes: poison of what lies below them is not read. -/
def Wave.covers (w : Wave) (va n : Nat) : Bool := (sectors va n).all fun k => w.green.glob.any fun e => e.1 / 64 == k

/-- The poison of bytes that came from away, as the wave reads them. -/
def Wave.poisonOf (w : Wave) (va n : Nat) (bad : Bool) : Bool :=
  (bad && !w.covers va n) || (sectors va n).any fun k => w.green.glob.any (fun e => e.1 / 64 == k) && w.green.poison.contains k

/-! ## Reaching places -/

/-- The place of a request whose bytes its core's L1 holds (R109): it needs no line request. -/
def State.l1Holds (s : State) (v : Via) (n : Nat) (r : LaneReq) : Option Loc :=
  match s.l1Line? v.core v.part v.asid (r.addr / 256) with
  | none => none
  | some x =>
    if x.gather.isNone && (List.range n).all fun k => (ovGet x.bytes (r.addr + k)).isSome then some (x.home.add (r.addr % 256)) else none

/-- Lines of requests, each once, in the order of the lanes. -/
def reqLines (rs : List LaneReq) : List Nat := dedup (rs.map fun r => r.addr / 256)

/-- The sectors of a line that requests touch (R16): a lane's bytes lie in one sector. -/
def reqSecs (rs : List LaneReq) (line : Nat) : BitVec 4 :=
  (rs.filter fun r => r.addr / 256 == line).foldl (fun m r => m ||| secAt r.addr) 0

/-- Make the line requests of one instruction, one for each line with the sectors that it touches (R16), by a request function:
the place of each line, or its fault. -/
def reachLines (req : State → Nat → BitVec 4 → Except XFault (Loc × State)) (rs : List LaneReq) :
    State → List Nat → State × List (Nat × Except XFault Loc)
  | s, [] => (s, [])
  | s, l :: ls =>
    let va := ((rs.find? fun r => r.addr / 256 == l).map LaneReq.addr).getD (256 * l)
    match req s va (reqSecs rs l) with
    | .error f =>
      let (s1, out) := reachLines req rs s ls
      (s1, (l, .error f) :: out)
    | .ok (p, s1) =>
      let (s2, out) := reachLines req rs s1 ls
      (s2, (l, .ok p.line) :: out)

/-- Requests by the outcome of their lines: what is reached, and what faults (R403). -/
def reached (lines : List (Nat × Except XFault Loc)) (rs : List LaneReq) : List (LaneReq × Loc) × List (LaneReq × XFault) :=
  let of (r : LaneReq) : Option (Except XFault Loc) := (lines.find? fun e => e.1 == r.addr / 256).map fun e => e.2
  (rs.filterMap fun r => match of r with
    | some (.ok p) => some (r, p.add (r.addr % 256))
    | _ => none,
   rs.filterMap fun r => match of r with
    | some (.error f) => some (r, f)
    | _ => none)

/-- Translate the requests of one instruction: what is reached, and what faults. -/
def State.reach (v : Via) (k : Kindly) (s : State) (rs : List LaneReq) : State × List (LaneReq × Loc) × List (LaneReq × XFault) :=
  let (s1, lines) := reachLines (fun z va secs => z.requestLine v.part v.asid va k secs) rs s (reqLines rs)
  let (ok, bad) := reached lines rs
  (s1, ok, bad)

/-- The same for stores with a reader count. -/
def State.reachCounted (v : Via) (s : State) (rs : List LaneReq) : State × List (LaneReq × Loc) × List (LaneReq × XFault) :=
  let (s1, lines) := reachLines (fun z va _ => z.requestCounted v.part v.asid va) rs s (reqLines rs)
  let (ok, bad) := reached lines rs
  (s1, ok, bad)

/-- Kindly with the retention of a hint (R139, R405). -/
def Kindly.hinted (k : Kindly) (h : LHint) : Kindly :=
  { k with retention := match h with
      | .none => 1
      | .nt => 0
      | .keep => 3
      | .nol1 => 1 }

/-- A read of a counted line by one instruction of a wave: the count falls once a line, or inside a region the decrement joins
the wave's list of 64; a full list takes the line's count away (R115, R116). -/
def State.countReads (s : State) (i : Nat) (ps : List (Nat × Loc)) : State :=
  (dedup (ps.map fun e => e.1 / 256)).foldl (fun z line =>
    match (ps.find? fun e => e.1 / 256 == line), z.waves[i]? with
    | some (_, p), some w =>
      if (z.mem.counted? p).isNone then z
      else if w.isGreen then
        if w.green.dec.length < 64 then z.modWave i fun y => { y with green := { y.green with dec := y.green.dec ++ [p.line.offset] } }
        else { z with mem := z.mem.uncount p }
      else z.readCount p
    | _, _ => z) s

/-! ## Errors in the L1 that a load meets (R412) -/

/-- An error in the dirty copy that a core's L1 holds of a sector: corrected, or the sector is poisoned where it lies. -/
def State.l1Event (s : State) (i : Nat) (v : Via) (va : Nat) (bad : Bool) : State :=
  if !bad then s.report (some i) ⟨2, 1, v.core, va, 0, 0⟩
  else
    let mark (x : L1Line) : L1Line :=
      if x.part == v.part && x.asid == v.asid && x.line == va / 256 then { x with poison := putIn x.poison (va / 64) true } else x
    (s.modCore v.core fun c => { c with l1 := c.l1.map mark }).report (some i) ⟨6, 2, v.core, va, 0, 0⟩

/-- The errors that wait for a load of dirty sectors of its core's L1 strike it, and are over. -/
def State.l1Struck (s : State) (i : Nat) (v : Via) (rs : List LaneReq) : State :=
  match s.sys.phys.sram with
  | [] => s
  | es =>
    let dirty (k : Nat) : Bool := ((s.l1Line? v.core v.part v.asid (k / 4)).map fun x => x.bytes.any fun e => e.1 / 64 == k).getD false
    let mine (q : Nat × Nat × Nat × Bool) : Bool := q.1 == v.part && q.2.1 == v.asid && dirty q.2.2.1 &&
      rs.any fun r => r.addr / 64 == q.2.2.1
    (es.filter mine).foldl (fun (z : State) q => z.l1Event i v (64 * q.2.2.1) q.2.2.2)
      (s.modPhys fun p => { p with sram := p.sram.filter fun q => !mine q })

/-- An error that cannot be corrected in a green sector that an access reads: the region rolls back (R412). -/
def State.greenStruck (s : State) (i : Nat) (w : Wave) (pc : Nat) (rs : List LaneReq) : Option State :=
  let v := s.viaOf w
  let hit (q : Nat × Nat × Nat × Bool) : Bool := q.1 == v.part && q.2.1 == v.asid && q.2.2.2 &&
    (rs.any fun r => r.addr / 64 == q.2.2.1) && w.green.glob.any fun e => e.1 / 64 == q.2.2.1
  (s.sys.phys.sram.find? hit).map fun q =>
    (s.modPhys fun p => { p with sram := p.sram.filter fun e => e != q }).detected i .poisonConsumed (64 * q.2.2.1) 0
      ⟨6, 0, w.site, 64 * q.2.2.1, pc, 0⟩

/-! ## Reads -/

/-- What a read brought: values, poisoned requests, faults, and requests that wait for a reply. -/
structure Got where
  s : State
  vals : List (LaneReq × List Byte)
  poisoned : List LaneReq
  bad : List (LaneReq × XFault)
  away : List (LaneReq × Loc)

/-- Requests that a core's L1 holds, and the others. -/
def State.splitHeld (s : State) (v : Via) (n : Nat) (rs : List LaneReq) : List (LaneReq × Loc) × List LaneReq :=
  (rs.filterMap fun r => (s.l1Holds v n r).map fun p => (r, p), rs.filter fun r => (s.l1Holds v n r).isNone)

/-- The homes of reached lines, one each. -/
def lineHomes (ps : List (LaneReq × Loc)) : List Loc :=
  (reqLines (ps.map fun e => e.1)).filterMap fun l => (ps.find? fun e => e.1.addr / 256 == l).map fun e => e.2.line

/-- A core's read reaches the home slices of lines: every gathering of such a line ends first (R227), and a read that acquires at
scope .b or wider sends its own core's copies home (R110). -/
def State.meetHomes (s : State) (core : Nat) (wide : Bool) (homes : List Loc) : State :=
  homes.foldl (fun z p => (z.flush core fun x => x.home == p && (wide || x.gather.isSome)).recallGathers p) s

/-- Read n bytes for each request (R110, R111, R115, R222). What its core's L1 holds needs no line request, unless the read acquires at
scope .b or wider (R110, R118). A read that reaches a home slice ends every gathering of its line, and one that touches its
core's L1 ends the gathering there (R227). -/
def State.readAll (s : State) (i : Nat) (w : Wave) (n : Nat) (ann : Ann) (h : LHint) (rs : List LaneReq) : Got :=
  let v := s.viaOf w
  let wide := annAcq ann && scopeWide (s.scopeOf w ann.scope)
  let s0 := s.l1Struck i v rs
  let (held, rest) := if wide then ([], rs) else s0.splitHeld v n rs
  let (s1, ok, bad) := State.reach v (reading.hinted h) s0 rest
  let near := ok.filter fun e => e.2.near
  let s2 := s1.meetHomes v.core wide (lineHomes near)
  let got := held ++ near
  let vals := got.map fun e => (e.1, s2.bytesFor w e.1.addr n e.2)
  let poisoned := (got.filter fun e => s2.poisonFor w e.1.addr n e.2).map (·.1)
  { s := s2.countReads i (near.map fun e => (e.1.addr, e.2)), vals := vals, poisoned := poisoned, bad := bad,
    away := ok.filter fun e => !e.2.near }

/-- The lowest address of requests: what a report of several lanes names (R351, R417). -/
def lowestAddr (rs : List LaneReq) : Nat := (least (rs.map LaneReq.addr)).getD 0

/-! ## Writes -/

/-- The bytes of requests as one overlay: of two lanes that write one byte, the higher one stands (R108). -/
def overlayOf (rs : List LaneReq) : Overlay := rs.foldl (fun y r => ovWrite y r.addr r.data) []

/-- A plain write of a wave: in its core's L1, or with .nol1 at the home slice where the L1 does not hold the line (R109, R139). -/
def State.plainWrite (s : State) (v : Via) (home : Loc) (ov : Overlay) (nol1 : Bool) : State :=
  match ov with
  | [] => s
  | (a, _) :: _ =>
    if nol1 && (s.l1Line? v.core v.part v.asid (a / 256)).isNone then s.homeWrite v home ov [] else s.l1Write v home ov false

/-- Write lines, with a count or plain. -/
def State.writeLines (s : State) (v : Via) (rc : Option Nat) (nol1 : Bool) (ps : List (LaneReq × Loc)) : State :=
  let ov := overlayOf (ps.map (·.1))
  (ovLines ov).foldl (fun z line =>
    match ps.find? fun e => e.1.addr / 256 == line with
    | none => z
    | some (_, p) =>
      match rc with
      | some n => z.countedWrite v p.line (ovLine ov line) n []
      | none => z.plainWrite v p.line (ovLine ov line) nol1) s

/-- The write of one line that is not this device's: its place, its bytes and its lanes. -/
structure FarWrite where
  home : Loc
  ov : Overlay
  lanes : List Lane

/-- The far lines of a store, one request each (R16). -/
def farWrites (ps : List (LaneReq × Loc)) : List FarWrite :=
  let ov := overlayOf (ps.map (·.1))
  (ovLines ov).filterMap fun line => (ps.find? fun e => e.1.addr / 256 == line).map fun e =>
    ⟨e.2.line, ovLine ov line, (ps.filter fun q => q.1.addr / 256 == line).map fun q => q.1.lane⟩

/-- What a write did: the state, and the requests that fault; or the green limit is reached. -/
structure Put where
  s : State
  bad : List (LaneReq × XFault)
  full : Bool
  /-- writes to other devices, which the caller sends -/
  far : List FarWrite

/-- Write the data of each request (R109, R111, R114, R115, R322). -/
def State.writeAll (s : State) (i : Nat) (w : Wave) (strm : Strm) (rc : Option Nat) (h : LHint) (rs : List LaneReq) : Put :=
  let v := s.viaOf w
  let (s1, ok, bad) := if rc.isSome then State.reachCounted v s rs else State.reach v (writing.hinted h) s rs
  if w.isGreen then
    let ov := overlayOf (ok.map (·.1))
    let full := fullSectors ov
    let badSec := (dedup (ov.map fun e => e.1 / 64)).filter fun k =>
      !full.contains k && (ok.any fun e => e.1.addr / 64 == k && s1.poisonFor w e.1.addr 1 e.2)
    let g := w.green.write ov badSec
    let g1 := match rc with
      | some n => { g with rc := g.rc ++ (ovLines ov).map fun l => (l, n) }
      | none => g
    if s1.greenFull w g1 then ⟨s, [], true, []⟩
    else ⟨s1.modWave i fun y => s1.signed { y with green := g1 } ov 0, bad, false, []⟩
  else
    let s2 := s1.writeLines v rc (h == .nol1) (ok.filter fun e => e.2.near)
    -- bytes of these lines that atomics of scope .w left in the L1 go ahead (R119)
    let away := ok.filter fun e => !e.2.near
    let s3 := (reqLines (away.map fun e => e.1)).foldl (fun z l =>
      z.flush v.core fun x => x.part == v.part && x.asid == v.asid && x.line == l) s2
    let out := farWrites away
    ⟨(out.filter fun e => e.home.isHost).foldl (fun z e => z.sendOut i strm 0 [] e.home e.ov []) s3, bad, false,
     out.filter fun e => !e.home.isHost⟩

/-! ## Atomics (R101, R119, R224 to R228) -/

/-- What an atomic access is. -/
structure Atomic where
  op : AtomOp
  ann : Ann
  ordm : Bool
  /-- its returned value is used -/
  ret : Bool
  /-- it may gather in the L1 (a RED) -/
  red : Bool
  deriving DecidableEq, Repr

/-- An atomic of scope .w, or .t in an unpaired team, is performed in the L1 (R119). -/
def State.atL1 (s : State) (w : Wave) (c : Scope) : Bool := !scopeWide (s.scopeOf w c)

/-- The operation's own place: green in the L1, in the L1, or at the home slice (R111, R119). -/
def State.storeAtomic (s : State) (i : Nat) (w : Wave) (l1 : Bool) (p : Loc) (ov : Overlay) : State :=
  let v := s.viaOf w
  if w.isGreen then s.modWave i fun y => { y with green := y.green.write ov [] }
  else if l1 then s.l1Write v p.line ov false
  else s.homeWrite v p.line ov []

/-- One atomic operation at a reached place: the state and the old bytes, or none for a poisoned location (R228). -/
def State.atomOne (s : State) (i : Nat) (a : Atomic) (r : LaneReq) (p : Loc) : State × Option (List Byte) :=
  match s.waves[i]? with
  | none => (s, none)
  | some w =>
    let n := AtomOp.bytes a.op
    let v := s.viaOf w
    let l1 := s.atL1 w a.ann.scope
    let here (x : L1Line) : Bool := x.part == v.part && x.asid == v.asid && x.line == r.addr / 256
    let s1 := if w.isGreen then s else if l1 then s.flush v.core fun x => here x && x.gather.isSome
      else (s.flush v.core here).recallGathers p
    if s1.poisonFor w r.addr n p then (s1, none)
    else
      let old := s1.bytesFor w r.addr n p
      let new := bytesLE n (atomNew a.op (numLE old) (numLE r.data) r.swap.toNat)
      (s1.storeAtomic i w l1 p (ovWrite [] r.addr new), some old)

/-- Bytes of this core over bytes that came from away: what its L1 holds, and the wave's own green bytes (R109, R111). -/
def State.mergeFar (s : State) (w : Wave) (va : Nat) (bs : List Byte) : List Byte :=
  let x? := let v := s.viaOf w; s.l1Line? v.core v.part v.asid (va / 256)
  w.merge va (mapIx (fun k b => ((x?.bind fun x => ovGet x.bytes (va + k)).getD b)) 0 bs)

/-- An atomic operation on bytes that lie away and were read, performed on this core: its result is green, or in the L1 (R111,
R119). -/
def State.atomHere (s : State) (i : Nat) (op : AtomOp) (r : LaneReq) (p : Loc) (bs : List Byte) : State × List Byte :=
  match s.waves[i]? with
  | none => (s, bs)
  | some w =>
    let old := s.mergeFar w r.addr bs
    let ov := ovWrite [] r.addr (bytesLE (AtomOp.bytes op) (atomNew op (numLE old) (numLE r.data) r.swap.toNat))
    (s.storeAtomic i w true p ov, old)

/-- The signature of the atomics of one instruction: the units that they wrote, with their final values (R326). -/
def State.signAtoms (s : State) (i : Nat) (n : Nat) (rs : List LaneReq) : State :=
  s.modWave i fun w =>
    if !w.isGreen then w
    else
      let ov : Overlay := rs.foldl (fun y r => (List.range n).foldl (fun z k =>
        match ovGet w.green.glob (r.addr + k) with
        | some b => ovPut z (r.addr + k) b
        | none => z) y) []
      s.signed w ov 0

/-- A RED gathers in its core's L1: the partial result of its element takes one more contribution (R227). -/
def State.gather (s : State) (v : Via) (op : AtomOp) (r : LaneReq) (p : Loc) : State :=
  let line := r.addr / 256
  let here (x : L1Line) : Bool := x.part == v.part && x.asid == v.asid && x.line == line
  -- another operation on the line, or its dirty bytes, first go home
  let s1 := s.flush v.core fun x => here x && x.gather != some op
  let old := (s1.l1Line? v.core v.part v.asid line).getD ⟨v.part, v.asid, line, p.line, [], [], some op, []⟩
  let parts := if old.partials.any fun e => e.1 == r.addr then
      old.partials.map fun e => if e.1 == r.addr then (e.1, BitVec.ofNat 64 (atomNew op e.2.toNat (numLE r.data) 0)) else e
    else old.partials ++ [(r.addr, BitVec.ofNat 64 (numLE r.data))]
  s1.l1Put v.core { old with partials := parts }

/-- What atomics of one instruction did. -/
structure Done where
  s : State
  vals : List (LaneReq × List Byte)
  poisoned : List LaneReq

/-- The atomic is performed on this core: inside a region, or in the L1 (R111, R119). Bytes that lie away are then only read. -/
def State.atomLocal (s : State) (i : Nat) (a : Atomic) : Bool :=
  (s.waves[i]?).any fun w => w.isGreen || s.atL1 w a.ann.scope

/-- A reached place away whose bytes this core holds: the atomic needs no request. -/
def State.heldHere (s : State) (i : Nat) (a : Atomic) (r : LaneReq) : Bool :=
  (s.waves[i]?).any fun w =>
    let n := AtomOp.bytes a.op
    if w.isGreen then (List.range n).all fun k => (ovGet w.green.glob (r.addr + k)).isSome
    else s.atL1 w a.ann.scope && (s.l1Holds (s.viaOf w) n r).isSome

/-- Perform the atomics of one instruction in lane order (R108): one at its place, one that gathers, or one that is sent to its home
device. -/
def State.atomRun (i : Nat) (strm : Strm) (out : Nat) (a : Atomic) (gather : Bool) : State → List (LaneReq × Loc) → Done
  | s, [] => ⟨s, [], []⟩
  | s, (r, p) :: rs =>
    if !p.near && !s.heldHere i a r then
      State.atomRun i strm out a gather
        (s.ask i strm out [r.lane] r.addr p (.atomic a.op (BitVec.ofNat 64 (numLE r.data)) r.swap a.ret)) rs
    else if gather && (s.waves[i]?).any fun w => !w.isGreen && !s.mem.poisoned p then
      match s.waves[i]? with
      | none => ⟨s, [], []⟩
      | some w =>
        let d := State.atomRun i strm out a gather (s.gather (s.viaOf w) a.op r p) rs
        { d with vals := (r, []) :: d.vals }
    else
      match s.atomOne i a r p with
      | (s1, some old) =>
        let d := State.atomRun i strm out a gather s1 rs
        { d with vals := (r, old) :: d.vals }
      | (s1, none) =>
        let d := State.atomRun i strm out a gather s1 rs
        { d with poisoned := r :: d.poisoned }

/-- Read lines that lie away, one request each for the sectors that lanes touch (R16, R450). -/
def State.askLines (s : State) (i : Nat) (strm : Strm) (out : Nat) (ps : List (LaneReq × Loc)) : State :=
  (reqLines (ps.map fun e => e.1)).foldl (fun z l =>
    let mine := ps.filter fun e => e.1.addr / 256 == l
    let secs := mine.map fun e => e.1.addr / 64
    match mine.head?, least secs with
    | some (_, p), some lo =>
      let hi := secs.foldl max lo
      z.ask i strm out (mine.map fun e => e.1.lane) (64 * lo) (p.line.add (64 * lo % 256)) (.read (64 * (hi + 1 - lo)))
    | _, _ => z) s

/-- The bytes of a lane in the reply to its line request. -/
def Remote.bytesOf (q : Remote) (r : LaneReq) (n : Nat) (bs : List Byte) : List Byte := (bs.drop (r.addr - q.va)).take n

/-- The place of a request that its reply answers. -/
def Remote.place (q : Remote) (va : Nat) : Loc :=
  match q.dev with
  | none => .host (q.addr + (va - q.va))
  | some d => .fabric d q.asid (q.addr + (va - q.va))

/-! ## Poison of what a register takes (R417, R418) -/

/-- The substitute for w bytes (R345). -/
def substBytes (c : Context) (n : Nat) : List Byte := if n = 16 then bytesLE 8 c.subst.toNat ++ bytesLE 8 c.subst.toNat else bytesLE n c.subst.toNat

/-- Poison accepted under PACC: the grid's indicator and the log (R418). -/
def State.acceptPoison (s : State) (i : Nat) (va : Nat) : State :=
  match s.waves[i]? with
  | none => s
  | some w => (s.modGrid w.grid fun g => { g with poisoned := true }).report (some i) ⟨9, 0, w.site, va, 0, 0⟩

/-- A wave takes poison into a register: accepted, or the outcome of a detected error (R417). Answers whether it goes on. -/
def State.consume (s : State) (i : Nat) (va : Nat) (instr : Nat) (mayAccept : Bool) : State × Bool :=
  match s.waves[i]? with
  | none => (s, false)
  | some w =>
    if mayAccept && (s.ctxOf w).pacc then (s.acceptPoison i va, true)
    else (s.detected i .poisonConsumed va 0 ⟨8, 0, w.site, va, instr, 0⟩, false)

/-! ## Parking (R221, R357, R402) -/

/-- A fault that Dorzin passes on: a record in the partition's fault ring, and its vector (R402, R446). -/
def State.faultRecord (s : State) (part asid : Nat) (ctx : BitVec 16) (h : Holder) (f : XFault) (va : Nat) (write fetch : Bool) :
    State × Word × DWord :=
  let rep := f.word asid va write fetch
  let id := s.mem.nextId
  let r : FaultRec := ⟨part, id, rep, va, ctx, h, false⟩
  (({ s with mem := { s.mem with faults := s.mem.faults ++ [r], nextId := id + 1 } }).msix (8 + part), id, rep)

/-- The 32 bytes of a record in its partition's fault ring, as four words at 0x00, 0x08, 0x10 and 0x18 (R402). -/
def FaultRec.words (r : FaultRec) : Vector DWord 4 :=
  #v[r.id.setWidth 64, r.report, BitVec.ofNat 64 r.va, r.ctx.setWidth 64]

/-- The records of a partition's fault ring, oldest first (R402). -/
def State.faultRing (s : State) (part : Nat) : List (Vector DWord 4) :=
  (s.mem.faults.filter fun r => r.part == part).map FaultRec.words

/-- The mask of requests. -/
def reqMask (rs : List LaneReq) : Mask := maskOf fun l => rs.any fun r => r.lane == l

/-- The trap of a fatal fault (R357, R401). -/
def XFault.trap (f : XFault) (rep : DWord) (va : Nat) (m : Mask) : Trap :=
  ⟨if f.reason == xAlias then .alias_ else .pageFault, va, rep.toNat, m⟩

/-- The trap that a record answered FATAL raises: PAGE_FAULT, or ALIAS by the reason of its report (R357, R401). -/
def Park.cause (k : Park) : Cause := if field k.report.toNat 0 4 == xAlias then .alias_ else .pageFault

/-- Park a stream of wave i at an instruction on requests that fault. A fault that is fatal at once raises its trap; where the wave
cannot take it yet, the record keeps it. -/
def State.park (s : State) (i : Nat) (strm : Strm) (pc : Nat) (instr : Option Instr) (out : Nat) (write fetch : Bool)
    (bad : List (LaneReq × XFault)) : State :=
  match s.waves[i]?, bad with
  | some w, (r, f) :: _ =>
    let v := s.viaOf w
    let reqs := bad.map (·.1)
    let fatal := bad.find? fun e => e.2.fatal
    -- Dorzin passes every fault on that is not fatal at once (R401)
    let (s1, id, rep0) := match bad.find? fun e => !e.2.fatal with
      | some (q, g) => s.faultRecord v.part v.asid (s.ctxIdOf w) (.wave i strm) g q.addr write fetch
      | none => (s, (0 : Word), f.word v.asid r.addr write fetch)
    let rep := match fatal with
      | some (q, g) => g.word v.asid q.addr write fetch
      | none => rep0
    let resume : Nat := match strm with
      | .s => out
      | .l d => ((w.ls.side? d).map PcSide.pc).getD (pc + 12)
    let k : Park := ⟨pc, instr, reqs, out, r.addr, rep, id, false, fatal.isSome, false, max resume (pc + 12)⟩
    let s2 := s1.modWave i fun y => match strm with
      | .s => { y with ss := { y.ss with parkS := some k, waitS := none } }
      | .l d => { y with ls := (if instr.isSome then y.ls.goTo d pc else y.ls).setPark d (some k) |>.setWait d none }
    match fatal with
    | none => s2
    | some (_, g) =>
      let m : Mask := match strm with
        | .s => 0
        | .l _ => if instr.isNone then 0 else reqMask reqs
      let t := g.trap rep r.addr m
      match strm with
      | .s => s2.take i .s t pc { strm := .s, imprecise := false, nextPc := out, sysc := none, lhdr := false, pc := pc }
      | .l d => s2.trapL i d t pc (w.ls.blk.phase == .none)
  | _, _ => s

end Sys2Proof.Machine
end

