-- ==== Sys2Proof/Machine/LaneInt.lean ====
section
/-!
DEFINITION. The lane integer instructions (spec/08 R185 to R190), with their latencies (R183).
-/

namespace Sys2Proof.Machine

/-! ## Values and results of a type -/

/-- An n-bit pattern as a value of the type: signed for .i types (R186). -/
def ival (ty : IntTy) (v : Nat) : Int := if ty.signed then sfield v 0 ty.bits else (v : Int)

/-- A value saturated to the type's range (R186). -/
def iclamp (ty : IntTy) (x : Int) : Int := max (intLo ty.signed ty.bits) (min (intHi ty.signed ty.bits) x)

/-- The low n bits of a value as the destination takes them: a 16-bit result is extended by the type's sign (R181). -/
def iout (ty : IntTy) (x : Int) : Nat :=
  let v := intBits ty.bits x
  if ty.bits = 16 ∧ ty.signed then intBits 32 (sfield v 0 16) else v

/-- A result, saturated when .sat asks for it. -/
def ires (ty : IntTy) (sat : Bool) (x : Int) : Nat := iout ty (if sat then iclamp ty x else x)

/-- An instruction of two sources: a function of their n-bit patterns. -/
def intBin (c : LCtl) (ty : IntTy) (lat : Nat) (d : Dst) (a : Opnd) (b : BSrc) (f : Nat → Nat → Nat) (s : State) : State :=
  s.laneOp c (useB c d (regsOf ty.bits) a b (regsOf ty.bits)) lat d ty.bits fun x l => f (x.read 0 a ty.bits l) (x.readB b ty.bits l)

/-- The same for a residue-checked instruction (R205). -/
def intMul (c : LCtl) (ty : IntTy) (d : Dst) (a : Opnd) (b : BSrc) (f : Nat → Nat → Nat) (s : State) : State :=
  s.checkedOp c (useB c d (regsOf ty.bits) a b (regsOf ty.bits)) (byWidth ty.bits 2 2 3) d ty.bits fun x l =>
    f (x.read 0 a ty.bits l) (x.readB b ty.bits l)

/-- An instruction of one source. -/
def intUn (c : LCtl) (ty : IntTy) (d : Dst) (a : Opnd) (f : Nat → Nat) (s : State) : State :=
  s.laneOp c (use1 c d (regsOf ty.bits) a (regsOf ty.bits)) 1 d ty.bits fun x l => f (x.read 0 a ty.bits l)

/-! ## The functions (R186 to R190) -/

def addOf (ty : IntTy) (sat : Bool) (a b : Nat) : Nat := ires ty sat (ival ty a + ival ty b)
def subOf (ty : IntTy) (sat : Bool) (a b : Nat) : Nat := ires ty sat (ival ty a - ival ty b)
def mulOf (ty : IntTy) (sat : Bool) (a b : Nat) : Nat := ires ty sat (ival ty a * ival ty b)
def mulhOf (ty : IntTy) (a b : Nat) : Nat := iout ty (ival ty a * ival ty b / ((2 ^ ty.bits : Nat) : Int))
def madOf (ty : IntTy) (sat : Bool) (a b x : Nat) : Nat := ires ty sat (ival ty a * ival ty b + ival ty x)
def minOf (ty : IntTy) (a b : Nat) : Nat := iout ty (min (ival ty a) (ival ty b))
def maxOf (ty : IntTy) (a b : Nat) : Nat := iout ty (max (ival ty a) (ival ty b))
def absOf (ty : IntTy) (sat : Bool) (a : Nat) : Nat := ires ty sat (if ival ty a < 0 then -ival ty a else ival ty a)

/-- Quotient and remainder: no division traps (R187). -/
def divOf (ty : IntTy) (rem : Bool) (a b : Nat) : Nat :=
  let x := ival ty a
  let y := ival ty b
  if y = 0 then (if rem then iout ty x else iout ty (-1))
  else if rem then iout ty (x - x.tdiv y * y) else iout ty (x.tdiv y)

/-- The bitwise operations on n bits (R188). -/
def logicOf (n : Nat) (op : LogicOp) (a b : Nat) : Nat :=
  let inv (v : Nat) : Nat := 2 ^ n - 1 - v % 2 ^ n
  match op with
  | .and => a &&& b
  | .or => a ||| b
  | .xor => a ^^^ b
  | .andn => a &&& inv b
  | .orn => a ||| inv b
  | .xnor => inv (a ^^^ b)
  | .nor => inv (a ||| b)

/-- Shifts and rotation (R188). -/
def shiftOf (n : Nat) (op : ShiftOp) (clamp : Bool) (a b : Nat) : Nat :=
  let k := if clamp && op != .rol then min b n else b % n
  match op with
  | .shl => a * 2 ^ k % 2 ^ n
  | .shr => a / 2 ^ k
  | .sar => intBits n (sfield a 0 n / ((2 ^ k : Nat) : Int))
  | .rol => (a * 2 ^ k + a / 2 ^ (n - k)) % 2 ^ n

/-- The conditions of ICMP (R189). -/
def icmpOf (ty : IntTy) (cond : ICond) (a b : Nat) : Nat :=
  let x := ival ty a
  let y := ival ty b
  let r : Bool := match cond with
    | .eq => x == y
    | .ne => x != y
    | .lt => decide (x < y)
    | .le => decide (x ≤ y)
    | .gt => decide (y < x)
    | .ge => decide (y ≤ x)
    | .tst => a &&& b != 0
    | .ntst => a &&& b == 0
  if r then 1 else 0

/-- Population count, leading zeros and bit reversal of n bits (R190). -/
def popcOf (n a : Nat) : Nat := ((List.range n).filter fun i => bitOf a i).length
def clzOf (n a : Nat) : Nat := if a % 2 ^ n = 0 then n else n - 1 - Nat.log2 (a % 2 ^ n)
def brevOf (n a : Nat) : Nat := (List.range n).foldl (fun acc i => acc + (if bitOf a i then 2 ^ (n - 1 - i) else 0)) 0

/-- Byte permutation (R190). -/
def prmtOf (n a b : Nat) : Nat :=
  (List.range (n / 8)).foldl (fun acc i =>
    let e := field b (4 * i) 4
    acc + (if 8 ≤ e then 0 else field a (8 * (e % 8 % (n / 8))) 8 * 2 ^ (8 * i))) 0

/-- Field extraction (R190). -/
def extOf (ty : IntTy) (a b : Nat) : Nat :=
  let n := ty.bits
  let pos := field b 0 8
  let len := min (field b 8 8) n
  let f := a / 2 ^ pos % 2 ^ len
  if len = 0 then 0 else if ty.signed then iout ty (sfield f 0 len) else f

/-- Field insertion (R190). -/
def insOf (ty : IntTy) (a b x : Nat) : Nat :=
  let n := ty.bits
  let pos := field x 0 8
  let len := min (field x 8 8) n
  let m := (2 ^ len - 1) * 2 ^ pos % 2 ^ n
  iout ty (((a &&& (2 ^ n - 1 - m)) ||| (b * 2 ^ pos % 2 ^ n &&& m) : Nat) : Int)

/-- A result of n bits as the destination takes it. -/
def ioutN (ty : IntTy) (x : Nat) : Nat := iout ty (x : Int)

/-! ## The instructions -/

/-- IADD (R185, R186). -/
def execIadd (c : LCtl) (ty : IntTy) (sat : Bool) (d : Dst) (a b : Opnd) (s : State) : Result :=
  .next (intBin c ty 1 d a (.reg b) (addOf ty sat) s)

/-- IADD, immediate form. -/
def execIaddImm (c : LCtl) (ty : IntTy) (sat : Bool) (d : Dst) (a : Opnd) (imm : Word) (s : State) : Result :=
  .next (intBin c ty 1 d a (.imm imm) (addOf ty sat) s)

/-- ISUB (R185, R186). -/
def execIsub (c : LCtl) (ty : IntTy) (sat : Bool) (d : Dst) (a b : Opnd) (s : State) : Result :=
  .next (intBin c ty 1 d a (.reg b) (subOf ty sat) s)

/-- ISUB, immediate form. -/
def execIsubImm (c : LCtl) (ty : IntTy) (sat : Bool) (d : Dst) (a : Opnd) (imm : Word) (s : State) : Result :=
  .next (intBin c ty 1 d a (.imm imm) (subOf ty sat) s)

/-- IMUL (R185, R186, R205). -/
def execImul (c : LCtl) (ty : IntTy) (sat : Bool) (d : Dst) (a b : Opnd) (s : State) : Result :=
  .next (intMul c ty d a (.reg b) (mulOf ty sat) s)

/-- IMUL, immediate form. -/
def execImulImm (c : LCtl) (ty : IntTy) (sat : Bool) (d : Dst) (a : Opnd) (imm : Word) (s : State) : Result :=
  .next (intMul c ty d a (.imm imm) (mulOf ty sat) s)

/-- IMULH (R185, R186, R205). -/
def execImulh (c : LCtl) (ty : IntTy) (d : Dst) (a b : Opnd) (s : State) : Result :=
  .next (intMul c ty d a (.reg b) (mulhOf ty) s)

/-- IMULH, immediate form. -/
def execImulhImm (c : LCtl) (ty : IntTy) (d : Dst) (a : Opnd) (imm : Word) (s : State) : Result :=
  .next (intMul c ty d a (.imm imm) (mulhOf ty) s)

/-- IMAD (R185, R186, R205): exact, one saturation at most. -/
def execImad (c : LCtl) (ty : IntTy) (sat : Bool) (d : Dst) (a b x : Opnd) (s : State) : Result :=
  .next (s.checkedOp c (use3 c d a b x (regsOf ty.bits)) (byWidth ty.bits 2 2 3) d ty.bits fun y l =>
    madOf ty sat (y.read 0 a ty.bits l) (y.read 1 b ty.bits l) (y.read 2 x ty.bits l))

/-- IDIV (R187). -/
def execIdiv (c : LCtl) (ty : IntTy) (rem : Bool) (d : Dst) (a b : Opnd) (s : State) : Result :=
  .next (intBin c ty (byWidth ty.bits 10 12 20) d a (.reg b) (divOf ty rem) s)

/-- IDIV, immediate form. -/
def execIdivImm (c : LCtl) (ty : IntTy) (rem : Bool) (d : Dst) (a : Opnd) (imm : Word) (s : State) : Result :=
  .next (intBin c ty (byWidth ty.bits 10 12 20) d a (.imm imm) (divOf ty rem) s)

/-- ILOP (R188). -/
def execIlop (c : LCtl) (ty : IntTy) (op : LogicOp) (d : Dst) (a b : Opnd) (s : State) : Result :=
  .next (intBin c ty 1 d a (.reg b) (fun x y => ioutN ty (logicOf ty.bits op x y)) s)

/-- ILOP, immediate form. -/
def execIlopImm (c : LCtl) (ty : IntTy) (op : LogicOp) (d : Dst) (a : Opnd) (imm : Word) (s : State) : Result :=
  .next (intBin c ty 1 d a (.imm imm) (fun x y => ioutN ty (logicOf ty.bits op x y)) s)

/-- ISHF (R188). -/
def execIshf (c : LCtl) (ty : IntTy) (op : ShiftOp) (clamp : Bool) (d : Dst) (a b : Opnd) (s : State) : Result :=
  .next (intBin c ty 1 d a (.reg b) (fun x y => ioutN ty (shiftOf ty.bits op clamp x y)) s)

/-- ISHF, immediate form. -/
def execIshfImm (c : LCtl) (ty : IntTy) (op : ShiftOp) (clamp : Bool) (d : Dst) (a : Opnd) (imm : Word) (s : State) : Result :=
  .next (intBin c ty 1 d a (.imm imm) (fun x y => ioutN ty (shiftOf ty.bits op clamp x y)) s)

/-- IMIN (R186). -/
def execImin (c : LCtl) (ty : IntTy) (d : Dst) (a b : Opnd) (s : State) : Result :=
  .next (intBin c ty 1 d a (.reg b) (minOf ty) s)

/-- IMIN, immediate form. -/
def execIminImm (c : LCtl) (ty : IntTy) (d : Dst) (a : Opnd) (imm : Word) (s : State) : Result :=
  .next (intBin c ty 1 d a (.imm imm) (minOf ty) s)

/-- IMAX (R186). -/
def execImax (c : LCtl) (ty : IntTy) (d : Dst) (a b : Opnd) (s : State) : Result :=
  .next (intBin c ty 1 d a (.reg b) (maxOf ty) s)

/-- IMAX, immediate form. -/
def execImaxImm (c : LCtl) (ty : IntTy) (d : Dst) (a : Opnd) (imm : Word) (s : State) : Result :=
  .next (intBin c ty 1 d a (.imm imm) (maxOf ty) s)

/-- IABS (R186). -/
def execIabs (c : LCtl) (ty : IntTy) (sat : Bool) (d : Dst) (a : Opnd) (s : State) : Result :=
  .next (intUn c ty d a (absOf ty sat) s)

/-- ICMP (R189). -/
def execIcmp (c : LCtl) (ty : IntTy) (cond : ICond) (d : Dst) (a b : Opnd) (s : State) : Result :=
  .next (intBin c ty 1 d a (.reg b) (icmpOf ty cond) s)

/-- ICMP, immediate form. -/
def execIcmpImm (c : LCtl) (ty : IntTy) (cond : ICond) (d : Dst) (a : Opnd) (imm : Word) (s : State) : Result :=
  .next (intBin c ty 1 d a (.imm imm) (icmpOf ty cond) s)

/-- A destination read as a source. -/
def Dst.asOpnd : Dst → Opnd
  | .v n => .v n
  | .zero => .zero

/-- ISEL: its own destination is the condition, read through a position with no last-use bit (R189). -/
def selOp (c : LCtl) (ty : IntTy) (z : Bool) (d : Dst) (a : Opnd) (b : BSrc) (s : State) : State :=
  let n := regsOf ty.bits
  let u := useB c d n a b n
  -- the condition stands at operand position 2
  let u' := { u with reads := (u.reads ++ [(Opnd.zero, 0, false)]).take 2 ++ [(Dst.asOpnd d, n, false)] }
  s.laneOp c u' 1 d ty.bits fun x l =>
    let cond := x.read 2 (Dst.asOpnd d) ty.bits l
    if (cond == 0) == z then ioutN ty (x.read 0 a ty.bits l) else ioutN ty (x.readB b ty.bits l)

/-- ISEL (R189). -/
def execIsel (c : LCtl) (ty : IntTy) (z : Bool) (d : Dst) (a b : Opnd) (s : State) : Result :=
  .next (selOp c ty z d a (.reg b) s)

/-- ISEL, immediate form. -/
def execIselImm (c : LCtl) (ty : IntTy) (z : Bool) (d : Dst) (a : Opnd) (imm : Word) (s : State) : Result :=
  .next (selOp c ty z d a (.imm imm) s)

/-- IPOPC (R190). -/
def execIpopc (c : LCtl) (ty : IntTy) (d : Dst) (a : Opnd) (s : State) : Result :=
  .next (intUn c ty d a (popcOf ty.bits) s)

/-- ICLZ (R190). -/
def execIclz (c : LCtl) (ty : IntTy) (d : Dst) (a : Opnd) (s : State) : Result :=
  .next (intUn c ty d a (clzOf ty.bits) s)

/-- IBREV (R190). -/
def execIbrev (c : LCtl) (ty : IntTy) (d : Dst) (a : Opnd) (s : State) : Result :=
  .next (intUn c ty d a (fun x => ioutN ty (brevOf ty.bits x)) s)

/-- IPRMT (R190). -/
def execIprmt (c : LCtl) (ty : IntTy) (d : Dst) (a b : Opnd) (s : State) : Result :=
  .next (intBin c ty 1 d a (.reg b) (prmtOf ty.bits) s)

/-- IPRMT, immediate form. -/
def execIprmtImm (c : LCtl) (ty : IntTy) (d : Dst) (a : Opnd) (imm : Word) (s : State) : Result :=
  .next (intBin c ty 1 d a (.imm imm) (prmtOf ty.bits) s)

/-- IEXT (R190). -/
def execIext (c : LCtl) (ty : IntTy) (d : Dst) (a b : Opnd) (s : State) : Result :=
  .next (intBin c ty 1 d a (.reg b) (extOf ty) s)

/-- IEXT, immediate form. -/
def execIextImm (c : LCtl) (ty : IntTy) (d : Dst) (a : Opnd) (imm : Word) (s : State) : Result :=
  .next (intBin c ty 1 d a (.imm imm) (extOf ty) s)

/-- IINS (R190). -/
def execIins (c : LCtl) (ty : IntTy) (d : Dst) (a b x : Opnd) (s : State) : Result :=
  .next (s.laneOp c (use3 c d a b x (regsOf ty.bits)) 1 d ty.bits fun y l =>
    insOf ty (y.read 0 a ty.bits l) (y.read 1 b ty.bits l) (y.read 2 x ty.bits l))

end Sys2Proof.Machine
end

