-- ==== Sys2Proof/Machine/LaneFloat.lean ====
section
/-!
DEFINITION. The lane floating-point instructions (spec/08 R191 to R196) and the elementary functions (R203, R204), with their
latencies (R183). The .f64 forms of FADD, FSUB, FMUL, FFMA, FDIV, FSQRT and FSCALE are residue-checked (R205).
-/

namespace Sys2Proof.Machine

/-- A floating immediate as an encoding of the type: an FP32 pattern widened exactly, or an FP16 pattern (R143). -/
def immFlt (ty : FTy) (w : Word) : Nat :=
  match ty with
  | .f64 =>
    match fp32.decode w.toNat with
    | .nan _ => field w.toNat 31 1 * 2 ^ 63 + 2047 * 2 ^ 52 + field w.toNat 0 23 * 2 ^ 29
    | y => (fp64.convert .rne false 0 y).1
  | .f32 => w.toNat
  | .f16 => w.toNat % 2 ^ 16

/-- The second operand of a float instruction in lane l, as an encoding. -/
def LIss.readF (x : LIss) (b : BSrc) (ty : FTy) (l : Lane) : Nat :=
  match b with
  | .reg o => x.read 1 o ty.bits l
  | .imm w => immFlt ty w

/-- A rounded instruction of two sources (R191, R192). -/
def fltBin (c : LCtl) (ty : FTy) (rnd : Rnd) (lat : Nat) (d : Dst) (a : Opnd) (b : BSrc)
    (f : Flt → Rnd → Nat → Val → Val → Nat × Flags) (s : State) : State :=
  let F := ftyFlt ty
  s.floatOp c (useB c d (regsOf ty.bits) a b (regsOf ty.bits)) lat d ty.bits (ty == .f64) rnd fun x l v =>
    f F rnd v (F.decode (x.read 0 a ty.bits l)) (F.decode (x.readF b ty l))

/-- An instruction of one source, given the encoding. -/
def fltUn (c : LCtl) (ty : FTy) (checked : Bool) (rnd : Rnd) (lat : Nat) (d : Dst) (a : Opnd)
    (f : Nat → Nat → Nat × Flags) (s : State) : State :=
  s.floatOp c (use1 c d (regsOf ty.bits) a (regsOf ty.bits)) lat d ty.bits checked rnd fun x l v => f v (x.read 0 a ty.bits l)

/-- FMIN and FMAX: no rounding, no draw (R193). -/
def fltMinMax (c : LCtl) (ty : FTy) (isMax nan : Bool) (d : Dst) (a : Opnd) (b : BSrc) (s : State) : State :=
  s.floatOp c (useB c d (regsOf ty.bits) a b (regsOf ty.bits)) 2 d ty.bits false .rne fun x l _ =>
    (ftyFlt ty).minMax isMax nan (x.read 0 a ty.bits l) (x.readF b ty l)

/-- FCMP: the integer 1 or 0 at the type's width (R194). -/
def fltCmp (c : LCtl) (ty : FTy) (cond : FCond) (d : Dst) (a : Opnd) (b : BSrc) (s : State) : State :=
  let F := ftyFlt ty
  s.floatOp c (useB c d (regsOf ty.bits) a b (regsOf ty.bits)) 2 d ty.bits false .rne fun x l _ =>
    let r := fcmpOf cond (F.decode (x.read 0 a ty.bits l)) (F.decode (x.readF b ty l))
    (if r.1 then 1 else 0, r.2)

/-- FSCALE: b is a 32-bit integer whatever the type (R191, R192). -/
def fltScale (c : LCtl) (ty : FTy) (rnd : Rnd) (d : Dst) (a : Opnd) (b : BSrc) (s : State) : State :=
  let F := ftyFlt ty
  let u : LUse := match b with
    | .reg o => ⟨[(a, regsOf ty.bits, c.lua), (o, 1, c.lub)], [(d, regsOf ty.bits)], c.lud, []⟩
    | .imm _ => use1 c d (regsOf ty.bits) a (regsOf ty.bits)
  s.floatOp c u (byWidth ty.bits 3 3 4) d ty.bits (ty == .f64) rnd fun x l v =>
    F.scale rnd v (sfield (x.readB b 32 l) 0 32) (F.decode (x.read 0 a ty.bits l))

/-! ## The instructions -/

/-- FADD (R191, R192). -/
def execFadd (c : LCtl) (ty : FTy) (rnd : Rnd) (d : Dst) (a b : Opnd) (s : State) : Result :=
  .next (fltBin c ty rnd (byWidth ty.bits 3 3 4) d a (.reg b) Flt.add s)

/-- FADD, immediate form. -/
def execFaddImm (c : LCtl) (ty : FTy) (rnd : Rnd) (d : Dst) (a : Opnd) (imm : Word) (s : State) : Result :=
  .next (fltBin c ty rnd (byWidth ty.bits 3 3 4) d a (.imm imm) Flt.add s)

/-- FSUB (R191, R192). -/
def execFsub (c : LCtl) (ty : FTy) (rnd : Rnd) (d : Dst) (a b : Opnd) (s : State) : Result :=
  .next (fltBin c ty rnd (byWidth ty.bits 3 3 4) d a (.reg b) Flt.sub s)

/-- FSUB, immediate form. -/
def execFsubImm (c : LCtl) (ty : FTy) (rnd : Rnd) (d : Dst) (a : Opnd) (imm : Word) (s : State) : Result :=
  .next (fltBin c ty rnd (byWidth ty.bits 3 3 4) d a (.imm imm) Flt.sub s)

/-- FMUL (R191, R192). -/
def execFmul (c : LCtl) (ty : FTy) (rnd : Rnd) (d : Dst) (a b : Opnd) (s : State) : Result :=
  .next (fltBin c ty rnd (byWidth ty.bits 3 3 4) d a (.reg b) Flt.mul s)

/-- FMUL, immediate form. -/
def execFmulImm (c : LCtl) (ty : FTy) (rnd : Rnd) (d : Dst) (a : Opnd) (imm : Word) (s : State) : Result :=
  .next (fltBin c ty rnd (byWidth ty.bits 3 3 4) d a (.imm imm) Flt.mul s)

/-- FFMA (R191, R192): rounded once. -/
def execFfma (c : LCtl) (ty : FTy) (rnd : Rnd) (d : Dst) (a b x : Opnd) (s : State) : Result :=
  let F := ftyFlt ty
  .next (s.floatOp c (use3 c d a b x (regsOf ty.bits)) (byWidth ty.bits 3 3 4) d ty.bits (ty == .f64) rnd fun y l v =>
    F.fma rnd v (F.decode (y.read 0 a ty.bits l)) (F.decode (y.read 1 b ty.bits l)) (F.decode (y.read 2 x ty.bits l)))

/-- FMIN (R193). -/
def execFmin (c : LCtl) (ty : FTy) (nan : Bool) (d : Dst) (a b : Opnd) (s : State) : Result :=
  .next (fltMinMax c ty false nan d a (.reg b) s)

/-- FMIN, immediate form. -/
def execFminImm (c : LCtl) (ty : FTy) (nan : Bool) (d : Dst) (a : Opnd) (imm : Word) (s : State) : Result :=
  .next (fltMinMax c ty false nan d a (.imm imm) s)

/-- FMAX (R193). -/
def execFmax (c : LCtl) (ty : FTy) (nan : Bool) (d : Dst) (a b : Opnd) (s : State) : Result :=
  .next (fltMinMax c ty true nan d a (.reg b) s)

/-- FMAX, immediate form. -/
def execFmaxImm (c : LCtl) (ty : FTy) (nan : Bool) (d : Dst) (a : Opnd) (imm : Word) (s : State) : Result :=
  .next (fltMinMax c ty true nan d a (.imm imm) s)

/-- FCMP (R194). -/
def execFcmp (c : LCtl) (ty : FTy) (cond : FCond) (d : Dst) (a b : Opnd) (s : State) : Result :=
  .next (fltCmp c ty cond d a (.reg b) s)

/-- FCMP, immediate form. -/
def execFcmpImm (c : LCtl) (ty : FTy) (cond : FCond) (d : Dst) (a : Opnd) (imm : Word) (s : State) : Result :=
  .next (fltCmp c ty cond d a (.imm imm) s)

/-- FCLASS: a 32-bit destination whatever the type (R195). -/
def execFclass (c : LCtl) (ty : FTy) (d : Dst) (a : Opnd) (s : State) : Result :=
  .next (s.laneOp c (use1 c d 1 a (regsOf ty.bits)) 2 d 32 fun x l => (ftyFlt ty).classify (x.read 0 a ty.bits l))

/-- FDIV (R191, R192). -/
def execFdiv (c : LCtl) (ty : FTy) (rnd : Rnd) (d : Dst) (a b : Opnd) (s : State) : Result :=
  .next (fltBin c ty rnd (byWidth ty.bits 8 12 22) d a (.reg b) Flt.div s)

/-- FDIV, immediate form. -/
def execFdivImm (c : LCtl) (ty : FTy) (rnd : Rnd) (d : Dst) (a : Opnd) (imm : Word) (s : State) : Result :=
  .next (fltBin c ty rnd (byWidth ty.bits 8 12 22) d a (.imm imm) Flt.div s)

/-- FSQRT (R191, R192). -/
def execFsqrt (c : LCtl) (ty : FTy) (rnd : Rnd) (d : Dst) (a : Opnd) (s : State) : Result :=
  let F := ftyFlt ty
  .next (fltUn c ty (ty == .f64) rnd (byWidth ty.bits 8 13 24) d a (fun v w => F.sqrt rnd v (F.decode w)) s)

/-- FRCP (R196). -/
def execFrcp (c : LCtl) (ty : FTy) (d : Dst) (a : Opnd) (s : State) : Result :=
  let F := ftyFlt ty
  .next (fltUn c ty false .rne (byWidth ty.bits 4 4 6) d a (fun _ w => F.rcp (F.decode w)) s)

/-- FRSQ (R196). -/
def execFrsq (c : LCtl) (ty : FTy) (d : Dst) (a : Opnd) (s : State) : Result :=
  let F := ftyFlt ty
  .next (fltUn c ty false .rne (byWidth ty.bits 4 4 6) d a (fun _ w => F.rsq (F.decode w)) s)

/-- FSCALE (R191, R192). -/
def execFscale (c : LCtl) (ty : FTy) (rnd : Rnd) (d : Dst) (a b : Opnd) (s : State) : Result :=
  .next (fltScale c ty rnd d a (.reg b) s)

/-- FSCALE, immediate form. -/
def execFscaleImm (c : LCtl) (ty : FTy) (rnd : Rnd) (d : Dst) (a : Opnd) (imm : Word) (s : State) : Result :=
  .next (fltScale c ty rnd d a (.imm imm) s)

/-- FRND (R191, R192). -/
def execFrnd (c : LCtl) (ty : FTy) (rnd : Rnd) (d : Dst) (a : Opnd) (s : State) : Result :=
  let F := ftyFlt ty
  .next (fltUn c ty false rnd 2 d a (fun v w => F.rint rnd v (F.decode w)) s)

/-- FEXP2: 2^a, rounded by RNE (R203, R204). -/
def execFexp2 (c : LCtl) (ty : FTy) (d : Dst) (a : Opnd) (s : State) : Result :=
  .next (fltUn c ty false .rne (byWidth ty.bits 8 10 18) d a (fun _ w => (ftyFlt ty).exp2 w) s)

/-- FLOG2: log2 a, rounded by RNE (R203, R204). -/
def execFlog2 (c : LCtl) (ty : FTy) (d : Dst) (a : Opnd) (s : State) : Result :=
  .next (fltUn c ty false .rne (byWidth ty.bits 8 10 18) d a (fun _ w => (ftyFlt ty).log2 w) s)

/-- FSIN: sin(pi a), rounded by RNE (R203, R204). -/
def execFsin (c : LCtl) (ty : FTy) (d : Dst) (a : Opnd) (s : State) : Result :=
  .next (fltUn c ty false .rne (byWidth ty.bits 8 12 20) d a (fun _ w => (ftyFlt ty).sinPi w) s)

/-- FCOS: cos(pi a), rounded by RNE (R203, R204). -/
def execFcos (c : LCtl) (ty : FTy) (d : Dst) (a : Opnd) (s : State) : Result :=
  .next (fltUn c ty false .rne (byWidth ty.bits 8 12 20) d a (fun _ w => (ftyFlt ty).cosPi w) s)

end Sys2Proof.Machine
end

