-- ==== Sys2Proof/Machine/LaneConv.lean ====
section
/-!
DEFINITION. The lane conversions FCVT, FPACK and FUNPK (spec/08 R197 to R202).
-/

namespace Sys2Proof.Machine

/-- The source value of a conversion from a register position (R197, R199): `scaled` reads the scale byte in [15:8]. -/
def convSource (k : Kind) (scaled : Bool) (w : Nat) : Val :=
  if scaled then kindDecodeScaled k (field w 0 8) (field w 8 8) else kindDecode k w

/-- A converted element as the destination register takes it (R197): I8 and I16 results are sign-extended to 32 bits. -/
def convOut (k : Kind) (e : Nat) : Nat :=
  match k with
  | .fmt .i8 => intBits 32 (sfield e 0 8)
  | .fmt .i16 => intBits 32 (sfield e 0 16)
  | _ => e

/-- A scaled source or target: blk with a scalable or four-bit kind (R197, R199). -/
def scaledKind (blk : Bool) (k : Kind) : Bool := blk && (k.scalable || k.four)

/-- The draws that a conversion of n elements takes. -/
def drawsOf (rnd : Rnd) (n : Nat) : Nat := if rnd == Rnd.sr then n else 0

/-- The draw of an element, where the mode takes one. -/
def LIss.drawIf (x : LIss) (rnd : Rnd) (l : Lane) (k : Nat) : Nat := if rnd == Rnd.sr then x.draw l k else 0

/-- A conversion of n elements a lane: values with flags. -/
def State.convOp (s : State) (c : LCtl) (u : LUse) (lat : Nat) (d : Dst) (k : Cvt) (bits n : Nat)
    (f : LIss → Lane → Nat × Flags) : State :=
  match s.lStart c u with
  | .error t => t
  | .ok x =>
    x.done c u lat (destRegs d bits fun l => BitVec.ofNat 64 (f x l).1) fun w =>
      w.drew x.act (drawsOf k.rnd n) (activeFlags x.act fun l => (f x l).2)

/-- FCVT (R199, R200): a scaled target takes one offset over the active lanes of the side. -/
def execFcvt (c : LCtl) (k : Cvt) (d : Dst) (a : Opnd) (s : State) : Result :=
  let ab := Kind.bits k.src
  let src := scaledKind k.blk k.src
  let dst := scaledKind k.blk k.dst
  .next (s.convOp c (use1 c d (regsOf (Kind.bits k.dst)) a (regsOf ab)) (if dst then 6 else 3) d k (Kind.bits k.dst) 1
    fun x l =>
      let val (m : Lane) : Val := convSource k.src src (x.read 0 a ab m)
      if dst then
        let off := blockOff k.dst ((lanesIn x.act).map val)
        let (e, fl) := kindConvertScaled k.dst k.rnd (x.drawIf k.rnd l 0) off (val l)
        (e + scaleByte k.dst off * 2 ^ 8, fl)
      else
        let (e, fl) := kindConvert k.dst k.rnd k.sat (x.drawIf k.rnd l 0) (val l)
        (convOut k.dst e, fl))

/-- FPACK (R201): a and then b, packed into one register. -/
def execFpack (c : LCtl) (k : Cvt) (d : Dst) (a b : Opnd) (s : State) : Result :=
  let ab := Kind.bits k.src
  .next (s.convOp c (use2 c d 1 a b (regsOf ab)) 3 d k 32 2 fun x l =>
    let (ea, fa) := kindConvert k.dst k.rnd k.sat (x.drawIf k.rnd l 0) (kindDecode k.src (x.read 0 a ab l))
    let (eb, fb) := kindConvert k.dst k.rnd k.sat (x.drawIf k.rnd l 1) (kindDecode k.src (x.read 1 b ab l))
    let n := if k.dst.half then 16 else 8
    (ea % 2 ^ n + eb % 2 ^ n * 2 ^ n, fa ||| fb))

/-- FUNPK (R202): one element of a packed operand, with the scale byte in b when blk is 1. -/
def execFunpk (c : LCtl) (k : Cvt) (elem : BitVec 3) (d : Dst) (a b : Opnd) (s : State) : Result :=
  .next (s.convOp c (⟨[(a, 1, c.lua), (b, 1, c.lub)], [(d, regsOf (Kind.bits k.dst))], c.lud, []⟩) 3 d k (Kind.bits k.dst) 1
    fun x l =>
      let n := if k.src.half then 16 else if k.src.four then 4 else 8
      let code := field (x.read 0 a 32 l) (n * elem.toNat) n
      let v := if k.blk then kindDecodeScaled k.src code (x.read 1 b 32 l % 256) else kindDecode k.src code
      let (e, fl) := kindConvert k.dst k.rnd k.sat (x.drawIf k.rnd l 0) v
      (convOut k.dst e, fl))

end Sys2Proof.Machine
end

