-- ==== Sys2Proof/Machine/LaneMove.lean ====
section
/-!
DEFINITION. Movement between lanes and steering of the lane stream: MOV, SHFL, VOTE, LRED, LHDR, LBR, LJOIN, LEND and LKILL
(spec/09 R208 to R217; spec/02 R36, R43 to R48; spec/03 R65 to R67).
-/

namespace Sys2Proof.Machine

/-! ## MOV and SHFL -/

/-- MOV (R209). -/
def execMov (c : LCtl) (op : MovOp) (s : State) : Result :=
  .next (match op with
    | .b32 d a => s.laneOp c (use1 c d 1 a 1) 1 d 32 fun x l => x.read 0 a 32 l
    | .b64 d a => s.laneOp c (use1 c d 2 a 2) 1 d 64 fun x l => x.read 0 a 64 l
    | .toP p a =>
      match s.lStart c (use1 c .zero 1 a 1) with
      | .error t => t
      | .ok x =>
        x.done c (use1 c .zero 1 a 1) 1 [] fun w =>
          if p.val = 7 then w
          else
            let m := maskOf fun l => if inMask x.act l then x.read 0 a 32 l != 0 else inMask (w.ls.p[p]) l
            { w with ls := { w.ls with p := w.ls.p.set p m } }
    | .fromP d p => s.laneOp c ⟨[], [(d, 1)], c.lud, []⟩ 1 d 32 fun x l =>
        if p.val = 7 then 1 else if inMask (x.w.ls.p[p]) l then 1 else 0)

/-- MOV, immediate form: for .b64 the immediate is sign-extended (R209). -/
def execMovImm (c : LCtl) (w64 : Bool) (d : Dst) (imm : Word) (s : State) : Result :=
  let n := if w64 then 64 else 32
  .next (s.laneOp c ⟨[], [(d, regsOf n)], c.lud, []⟩ 1 d n fun _ _ => immInt n imm)

/-- The lane that SHFL reads (R210). -/
def shflLane (mode : ShflMode) (l k : Nat) : Int :=
  match mode with
  | .idx => ((k % 32 : Nat) : Int)
  | .xor => ((l ^^^ (k % 32) : Nat) : Int)
  | .up => (l : Int) - (k : Int)
  | .down => (l : Int) + (k : Int)

/-- SHFL (R210): a lane outside the active set, or outside 0 to 31, gives the lane's own value. -/
def execShfl (c : LCtl) (mode : ShflMode) (w64 : Bool) (d : Dst) (a : Opnd) (sel : ShflSel) (s : State) : Result :=
  let n := if w64 then 64 else 32
  let u : LUse := match sel with
    | .reg b => ⟨[(a, regsOf n, c.lua), (b, 1, c.lub)], [(d, regsOf n)], c.lud, []⟩
    | .imm _ => use1 c d (regsOf n) a (regsOf n)
  .next (s.laneOp c u 2 d n fun x l =>
    let k := match sel with
      | .reg b => x.read 1 b 32 l
      | .imm k => k.toNat
    let t := shflLane mode l.val k
    match allLanes.find? fun m => decide ((m.val : Int) = t) && inMask x.act m with
    | some m => x.read 0 a n m
    | none => x.read 0 a n l)

/-! ## Results to the scalar side (R38, R211) -/

/-- Append an entry to the result queue. -/
def Wave.answer (w : Wave) (e : DWord) : Wave := { w with ls := { w.ls with results := w.ls.results ++ [e] } }

/-- An L-op that appends an entry waits while the queue holds 8 (R38). -/
def State.resultOp (s : State) (c : LCtl) (u : LUse) (f : LIss → DWord × Flags) : State :=
  match s.lStart c u with
  | .error t => t
  | .ok x =>
    if 8 ≤ x.w.ls.results.length then x.s.waitL x.w x.d .result
    else
      let (e, fl) := f x
      x.done c u 0 [] fun w => (w.answer e).drew x.act 0 fl

/-- The entry of VOTE (R212). -/
def voteOf (mode : VoteMode) (act : Mask) (f : Lane → Nat) : Nat :=
  let ls := lanesIn act
  match mode with
  | .any => if ls.any fun l => f l != 0 then 1 else 0
  | .all => if ls.all fun l => f l != 0 then 1 else 0
  | .ballot => ls.foldl (fun acc l => acc + (if f l != 0 then 2 ^ l.val else 0)) 0
  | .uni => if ls.all fun l => ls.all fun m => f l == f m then 1 else 0

/-- VOTE (R211, R212). -/
def execVote (c : LCtl) (mode : VoteMode) (a : Opnd) (s : State) : Result :=
  .next (s.resultOp c ⟨[(a, 1, c.lua)], [], false, []⟩ fun x => (BitVec.ofNat 64 (voteOf mode x.act fun l => x.read 0 a 32 l), 0))

/-- The width of LRED's type, its float format, its signedness. -/
def redFlt : RedTy → Option Flt
  | .f32 => some fp32
  | .f64 => some fp64
  | _ => none

def redSigned : RedTy → Bool
  | .i32 => true
  | .i64 => true
  | _ => false

/-- One node of the reduction tree (R213). -/
def redNode (ty : RedTy) (op : RedOp) (x y : Nat × Flags) : Nat × Flags :=
  let n := RedTy.bits ty
  match redFlt ty with
  | some F =>
    let (v, f) := match op with
      | .add => F.add .rne 0 (F.decode x.1) (F.decode y.1)
      | .max => F.minMax true false x.1 y.1
      | _ => F.minMax false false x.1 y.1
    (v, x.2 ||| y.2 ||| f)
  | none =>
    let sg (v : Nat) : Int := if redSigned ty then sfield v 0 n else (v : Int)
    let v := match op with
      | .add => (x.1 + y.1) % 2 ^ n
      | .min => if sg y.1 < sg x.1 then y.1 else x.1
      | .max => if sg x.1 < sg y.1 then y.1 else x.1
      | .and => x.1 &&& y.1
      | .or => x.1 ||| y.1
      | .xor => x.1 ^^^ y.1
    (v, 0)

/-- One level of the tree: children 2i and 2i + 1 of node i (R213). -/
def redLevel (f : Nat × Flags → Nat × Flags → Nat × Flags) : List (Option (Nat × Flags)) → List (Option (Nat × Flags))
  | x :: y :: t =>
    (match x, y with
     | some a, some b => some (f a b)
     | some a, none => some a
     | none, some b => some b
     | none, none => none) :: redLevel f t
  | l => l

/-- The identity that an empty set delivers (R213). -/
def redIdentity (ty : RedTy) (op : RedOp) : Nat :=
  let n := RedTy.bits ty
  match redFlt ty, op with
  | some F, .min => F.infMag
  | some F, .max => F.signed true F.infMag
  | some _, _ => 0
  | none, .min => if redSigned ty then 2 ^ (n - 1) - 1 else 2 ^ n - 1
  | none, .max => if redSigned ty then 2 ^ (n - 1) else 0
  | none, .and => 2 ^ n - 1
  | none, _ => 0

/-- The result of LRED at the type's width, and its flags (R213). -/
def redOf (ty : RedTy) (op : RedOp) (act : Mask) (f : Lane → Nat) : Nat × Flags :=
  let leaves := allLanes.map fun l => if inMask act l then some (f l, (0 : Flags)) else none
  let g := redNode ty op
  let root := redLevel g (redLevel g (redLevel g (redLevel g (redLevel g leaves))))
  let nv := match redFlt ty with
    | some F => flagIf ((lanesIn act).any fun l => (F.decode (f l)).isSignalling) fNV
    | none => 0
  match root.head?.join with
  | none => (redIdentity ty op, 0)
  | some (v, fl) =>
    match redFlt ty with
    | some F => (if (F.decode v).isNan then F.nan else v, fl ||| nv)
    | none => (v, 0)

/-- LRED (R211, R213): an entry, or with .l a result in every active lane. -/
def execLred (c : LCtl) (ty : RedTy) (op : RedOp) (l : Bool) (d : Dst) (a : Opnd) (s : State) : Result :=
  let n := RedTy.bits ty
  if l then
    let u := use1 c d (regsOf n) a (regsOf n)
    .next (match s.lStart c u with
      | .error t => t
      | .ok x =>
        let (v, fl) := redOf ty op x.act fun m => x.read 0 a n m
        x.done c u (if (redFlt ty).isSome then 8 else 4) (destRegs d n fun _ => BitVec.ofNat 64 v) fun w => w.drew x.act 0 fl)
  else
    .next (s.resultOp c ⟨[(a, regsOf n, c.lua)], [], false, []⟩ fun x =>
      let (v, fl) := redOf ty op x.act fun m => x.read 0 a n m
      (if redSigned ty then sextTo64 n v else BitVec.ofNat 64 v, fl))

/-! ## LHDR: the block is taken up (R36, R63, R66, R180) -/

/-- The lowest register of the ranges above the extent that the ticket recorded (R66, R476): the first range that fails. -/
def regAbsent (ranges : List RangeDesc) (extent : Nat) : Option Nat :=
  (ranges.find? fun g => decide (32 * (extent + 1) < g.first + g.count)).map fun g => max g.first (32 * (extent + 1))

/-- The header of the oldest ticket's block: its checks; then the block waits for its staging, or ends at once with an empty
live mask (R36). -/
def State.takeHeader (s : State) (z : Bool) (ranges : List RangeDesc) : State :=
  match s.wave? with
  | none => s
  | some w =>
    match w.ls.tickets.head? with
    | none => s
    | some t =>
      match regAbsent ranges t.extent with
      | some r => s.trapL s.cur.1 .a (.aux_ .regAbsent r) t.addr true
      | none =>
        if w.ls.live = 0 then (s.setWave { w with ls := w.ls.endBlock }).countIssue w.team
        else (s.setWave { w with ls := { w.ls with blk := ⟨.staging, z, ranges, 0⟩ } }).countIssue w.team

/-- LHDR. -/
def execLhdr (z : Bool) (ranges : List RangeDesc) (s : State) : Result := .next (s.takeHeader z ranges)

/-! ## Steering (R43 to R48) -/

/-- The splitting slot of the pair that now holds both slots: the other one than the top entry came from; a lone side stands in
lpcA, so the bottom pair split from there (R44, R45). -/
def LStream.splitSlot (x : LStream) : Side :=
  match x.stack with
  | [] => .a
  | e :: _ => Side.other e.slot

/-- A parking record whose side comes back from the stack belongs to a side in a slot again (R357). -/
def LStream.unstack (x : LStream) (e : Spilled) : LStream :=
  if e.parked then x.setPark e.slot ((x.park? e.slot).map fun k => { k with stacked := false }) else x

/-- Merge the two sides into one with a PC and a state; the top of the stack is popped into the other slot (R45). -/
def LStream.merge (x : LStream) (m : Mask) (pc : Nat) (st : SideSt) : LStream :=
  let slot := x.splitSlot
  match x.stack with
  | [] => ({ x with sideA := none, sideB := none }).setSide slot (some ⟨pc, m, none, st⟩)
  | e :: es =>
    ((({ x with stack := es }).setSide slot (some ⟨pc, m, e.side.join, st⟩)).setSide (Side.other slot) (some e.side)).unstack e

/-- A side spilled to the stack takes its parking record along (R44, R357). -/
def LStream.spill (x : LStream) (q : PcSide) (d : Side) : LStream :=
  let mine := x.parkHolds d
  let y := { x with stack := ⟨q, d, mine⟩ :: x.stack, waitA := none, waitB := none }
  if mine then y.setPark d ((y.park? d).map fun k => { k with stacked := true }) else y

/-- What the sides' states lead to: nothing more, a mismatch at a side of the stream as merged so far, or the end of the block. -/
inductive Settled where
  | stay (x : LStream)
  | mismatch (x : LStream) (d : Side)
  | ends
  deriving DecidableEq, Repr

/-- Merge as far as arrivals allow, with fuel (R45 to R47). -/
def LStream.settle : Nat → LStream → Settled
  | 0, x => .stay x
  | n + 1, x =>
    match x.sideA, x.sideB with
    | some a, some b =>
      if a.mask = 0 && b.mask = 0 then settle n (x.merge 0 a.pc .arrived)
      else if a.mask = 0 || b.mask = 0 then
        let y := if a.mask = 0 then b else a
        match y.st with
        | .running => .stay x
        | .arrived => settle n (x.merge y.mask (y.pc + 12) .running)
        | .atLend => settle n (x.merge y.mask y.pc .atLend)
      else
        match a.st, b.st with
        | .arrived, .arrived => settle n (x.merge (a.mask ||| b.mask) (a.pc + 12) .running)
        | .atLend, .atLend => settle n (x.merge (a.mask ||| b.mask) a.pc .atLend)
        | .arrived, .atLend => .mismatch x .a
        | .atLend, .arrived => .mismatch x .b
        | _, _ => .stay x
    | some a, none => if a.mask = 0 || a.st == .atLend then .ends else .stay x
    | none, some b => if b.mask = 0 || b.st == .atLend then .ends else .stay x
    | none, none => .stay x

/-- Settle the sides of wave i. A mismatch traps at the LJOIN at which a side waits (R47). -/
def State.settleSides (s : State) (i : Nat) (w : Wave) : State :=
  match LStream.settle (w.ls.stack.length + 2) w.ls with
  | .stay x => s.putWave i { w with ls := x }
  | .ends => s.putWave i { w with ls := w.ls.endBlock }
  | .mismatch x d =>
    match x.side? d with
    | none => s.putWave i { w with ls := x }
    | some p =>
      let w1 := { w with ls := x.setSide d (some { p with st := .running }) }
      (s.putWave i w1).trapL i d (.of .joinMismatch) p.pc false

/-- LBR, LJOIN and LEND drain the window and wait for every fixed-latency result (R73, R74). -/
def LIss.fence (x : LIss) : LStream := { ((x.w.ls.drain false).age x.d).setWait x.d none with prods := [] }

/-- The lane section that the wave fetches from (R137). -/
def State.laneSection (s : State) (w : Wave) : Nat × Nat := ((s.launchOf w).lbase, (s.launchOf w).lsize)

/-- LBR (R44, R48, R215): both targets are relative to its own address, in units of one L-op. A target below address 0 is outside
every section; the spec does not say what sys.trapva then holds: the target modulo 2^64 (notes/assumptions/38.md). -/
def execLbr (c : LCtl) (taken join : BitVec 16) (s : State) : Result :=
  .next (match s.lStart c use0 with
    | .error t => t
    | .ok x =>
      let p := x.p
      let fall := p.mask &&& ~~~x.act
      let at_ (o : BitVec 16) : Int := (p.pc : Int) + 12 * o.toInt
      let tgt := at_ taken
      let sec := s.laneSection x.w
      let y := x.fence
      let put (z : LStream) : State := (x.s.putWave x.i { x.w with ls := z }).countIssue x.w.team
      if x.act = 0 then put (y.goTo x.d (p.pc + 12))
      else if tgt < 0 || !inSection sec tgt.toNat then x.trap (.at .codeRange (tgt % ((2 ^ 64 : Nat) : Int)).toNat)
      else if fall = 0 then put (y.goTo x.d tgt.toNat)
      else
        -- only the low 56 bits of a join target are kept (R364)
        let j := ((at_ join) % ((2 ^ 56 : Nat) : Int)).toNat
        let split (z : LStream) : LStream :=
          { z with sideA := some ⟨p.pc + 12, fall, some j, .running⟩, sideB := some ⟨tgt.toNat, x.act, some j, .running⟩ }
        match y.side? (Side.other x.d) with
        | none => put (split y)
        | some q =>
          if 256 ≤ y.stack.length then x.trap (.of .divstackFull)
          else put (split (y.spill q (Side.other x.d))))

/-- LJOIN (R45): at the side's own join target it arrives; elsewhere it is a no-operation. -/
def execLjoin (c : LCtl) (s : State) : Result :=
  .next (match s.lStart c use0 with
    | .error t => t
    | .ok x =>
      let y := x.fence
      if x.p.join == some x.p.pc then
        let z := y.setSide x.d (some { x.p with st := .arrived })
        (x.s.settleSides x.i { x.w with ls := z }).countIssue x.w.team
      else (x.s.putWave x.i { x.w with ls := y.goTo x.d (x.p.pc + 12) }).countIssue x.w.team)

/-- LEND (R47): the side waits for its sibling, or the block ends. -/
def execLend (c : LCtl) (s : State) : Result :=
  .next (match s.lStart c use0 with
    | .error t => t
    | .ok x =>
      let z := x.fence.setSide x.d (some { x.p with st := .atLend })
      (x.s.settleSides x.i { x.w with ls := z }).countIssue x.w.team)

/-- Lanes leave a side; an emptied side counts as arrived (R32, R46). -/
def PcSide.drop (p : PcSide) (m : Mask) : PcSide :=
  let left := p.mask &&& ~~~m
  { p with mask := left, st := if left = 0 then .arrived else p.st }

/-- Lanes leave the live mask, and with it every side, spilled ones included (R32, R46). -/
def LStream.drop (x : LStream) (m : Mask) : LStream :=
  { x with live := x.live &&& ~~~m, sideA := x.sideA.map fun p => p.drop m, sideB := x.sideB.map fun p => p.drop m,
           stack := x.stack.map fun e => { e with side := e.side.drop m } }

/-- LKILL: the active lanes leave the live mask for good (R32, R46, R217). -/
def execLkill (c : LCtl) (s : State) : Result :=
  .next (match s.lStart c use0 with
    | .error t => t
    | .ok x =>
      let y := x.stream c use0 0 [] x.w.ls
      (x.s.settleSides x.i { x.w with ls := y.drop x.act }).countIssue x.w.team)

end Sys2Proof.Machine
end

