-- ==== Sys2Proof/Machine/LaneMem.lean ====
section
/-!
DEFINITION. Lane loads, stores, atomics and reductions (spec/09 R218 to R228), with the replay of their parked lanes (R221,
spec/16 R358).
-/

namespace Sys2Proof.Machine

/-! ## Addresses -/

/-- A lane's global address: a + sext(off23), modulo 2^64 (R219, R225). -/
def LIss.globalAddr (x : LIss) (a : Opnd) (off : BitVec 23) (l : Lane) : Nat :=
  (BitVec.ofNat 64 (x.read 0 a 64 l) + off.signExtend 64).toNat

/-- A lane's scratchpad offset or remote address before its range check (R219). -/
def LIss.localAddr (x : LIss) (a : Opnd) (off : BitVec 23) (l : Lane) : Int := (x.read 0 a 32 l : Int) + off.toInt

/-- The trap of a check that lanes fail: the lowest failing lane's address, and the failing lanes (R351, R352). -/
def laneTrap (c : Cause) (act : Mask) (va : Lane → Nat) (fails : Lane → Bool) : Option Trap :=
  let m := maskOf fun l => inMask act l && fails l
  (lowest m).map fun l => ⟨c, va l, 0, m⟩

/-- ADDR_RANGE and MISALIGNED of a global access, in that order (R104, R220). -/
def globalTrap (act : Mask) (n : Nat) (va : Lane → Nat) : Option Trap :=
  match laneTrap .addrRange act va fun l => addrBad (va l) with
  | some t => some t
  | none => laneTrap .misaligned act va fun l => alignBad (va l) n

/-! ## Registers of a load -/

/-- A loaded value as its destination registers take it (R219). -/
def loadWord (sz : MSize) (bs : List Byte) (k : Nat) : Word :=
  let v := numLE bs
  match sz with
  | .i8 => BitVec.ofNat 32 (intBits 32 (sfield v 0 8))
  | .i16 => BitVec.ofNat 32 (intBits 32 (sfield v 0 16))
  | _ => BitVec.ofNat 32 (v / 2 ^ (32 * k))

/-- Registers that the data of a size takes. -/
def sizeRegs (sz : MSize) : Nat := (MSize.bytes sz + 3) / 4

/-- The values of lanes, by the requests' lanes. -/
def laneBytes (vals : List (LaneReq × List Byte)) (l : Lane) : List Byte := ((vals.find? fun e => e.1.lane == l).map (·.2)).getD []

/-- Put the loaded values of lanes into the values that an outstanding load will write. -/
def Outst.fillIn (o : Outst) (f : List Byte → Nat → Word) (vals : List (LaneReq × List Byte)) : Outst :=
  let m := reqMask (vals.map (·.1))
  { o with regs := mapIx (fun k (e : Nat × Lanes Word) => (e.1, lanes fun l => if inMask m l then f (laneBytes vals l) k else e.2[l])) 0 o.regs,
           mask := o.mask ||| m }

/-- Change an outstanding L-op of wave i. -/
def State.modOut (s : State) (i out : Nat) (f : Outst → Outst) : State :=
  s.modWave i fun w => { w with ls := { w.ls with outs := modAt w.ls.outs out f } }

/-! ## Issue -/

/-- The L-op issues: its side goes on, its counter rises, and it is outstanding until its completion (R76); with an empty active
set it completes at once (R141). -/
def LIss.issue (x : LIss) (c : LCtl) (u : LUse) (load : Bool) (regs : List Nat)
    (src : Option (Instr × List LaneReq) := none) : State :=
  let o : Outst := { load := load, side := x.d, age := 0, lud := c.lud, rays := false,
                     regs := regs.map fun r => (r, Vector.replicate 32 0), mask := 0, parked := 0, remote := 0, src := src.map fun e => (x.p.pc, e.1, e.2),
                     cnt := if c.inc then some c.cnt else none, inTicket := true, done := x.act == 0 }
  let y := x.stream c u 0 [] x.w.ls
  let y1 := { y with outs := y.outs ++ [o], w := if c.inc && x.act != 0 then y.w.set c.cnt (y.w[c.cnt] + 1) else y.w }
  (x.s.putWave x.i ({ x.w with ls := y1 }.rewatch (.l x.d))).countIssue x.w.team

/-- The position of the new outstanding L-op. -/
def LIss.outIx (x : LIss) : Nat := x.w.ls.outs.length

/-- The side stands at the parked L-op again, and its faulting lanes are parked: when they are done it goes on where it was. -/
def State.parkLane (s : State) (i : Nat) (d : Side) (pc : Nat) (instr : Instr) (out : Nat) (write : Bool)
    (bad : List (LaneReq × XFault)) : State :=
  match bad with
  | [] => s
  | _ =>
    let s1 := s.modOut i out fun o => { o with parked := reqMask (bad.map (·.1)) }
    s1.park i (.l d) pc (some instr) out write false bad

/-- Requests that one instruction has added to those in flight. -/
def State.asked (s z : State) : Nat := z.sys.links.remotes.length - s.sys.links.remotes.length

/-- Stores of an L-op to other devices: it is not performed before their acknowledgements (R454). -/
def State.sendFar (s : State) (i : Nat) (d : Side) (out : Nat) (far : List FarWrite) : State :=
  let s1 := far.foldl (fun (z : State) e => z.sendOut i (.l d) out e.lanes e.home e.ov []) s
  s1.modOut i out fun o => { o with remote := o.remote + s.asked s1 }

/-- The record of the side's slot is another side's, which was spilled with it (R44): an L-op that may park waits for the record
(notes/assumptions/39.md). -/
def LIss.noRecord (x : LIss) : Bool := (x.w.ls.park? x.d).isSome

/-! ## The accesses themselves, at first issue and at a replay -/

/-- Perform a load for requests: values, poison, requests sent away, and faults (R222, R416, R417). The second component is
false where poison ended the L-op. -/
def State.loadCore (s : State) (i : Nat) (d : Side) (pc : Nat) (sz : MSize) (hint : LHint) (ann : Ann) (dst : Dst) (out : Nat)
    (rs : List LaneReq) : State × Bool × List (LaneReq × XFault) :=
  match s.waves[i]? with
  | none => (s, false, [])
  | some w =>
    let n := MSize.bytes sz
    match s.greenStruck i w pc rs with
    | some z => (z, false, [])
    | none =>
    let g := s.readAll i w n ann hint rs
    let (s1, on) :=
      match g.poisoned, dst with
      | _ :: _, .v _ => g.s.consume i (lowestAddr g.poisoned) pc true
      | _, _ => (g.s, true)
    if !on then (s1, false, [])
    else
      let sub := substBytes (s.ctxOf w) n
      let vals := if dst.isV then g.vals.map fun e => if g.poisoned.contains e.1 then (e.1, sub) else e else g.vals
      let s2 := s1.askLines i (.l d) out g.away
      (s2.modOut i out fun o => { o.fillIn (loadWord sz) vals with remote := o.remote + s1.asked s2, parked := 0 }, true, g.bad)

/-- Perform atomics for requests (R228): the returned values of poisoned locations consume poison. -/
def State.atomCore (s : State) (i : Nat) (d : Side) (pc : Nat) (a : Atomic) (out : Nat) (rs : List LaneReq) :
    State × Bool × List (LaneReq × XFault) :=
  match s.waves[i]? with
  | none => (s, false, [])
  | some w =>
    match s.greenStruck i w pc rs with
    | some z => (z, false, [])
    | none =>
    let n := AtomOp.bytes a.op
    let (s0, ok, bad) := State.reach (s.viaOf w) writing s rs
    let far (e : LaneReq × Loc) : Bool := !e.2.near && s0.atomLocal i a && !s0.heldHere i a e.1
    if w.isGreen && s0.greenFull w (w.green.write (overlayOf (ok.map fun e => e.1)) []) then
      (s.trapL i d (.at .regionOverflow (lowestAddr rs)) pc false, false, [])
    else
      let gather := a.red && a.ann.ord == .rlx && !a.ordm && scopeWide a.ann.scope && Config.freeBit s0.free
      let near := ok.filter fun e => !far e
      let s1 : State := { s0 with free := s0.free + 1 }
      let r0 := State.atomRun i (.l d) out a gather s1 near
      let done := near.filter fun e => !r0.poisoned.contains e.1
      let s2 := if s0.atomLocal i a then
          (r0.s.signAtoms i n (done.map fun e => e.1)).countReads i ((near.filter fun e => e.2.near).map fun e => (e.1.addr, e.2))
        else r0.s
      let s3 := s2.askLines i (.l d) out (ok.filter far)
      let (s4, on) :=
        match r0.poisoned, a.ret with
        | _ :: _, true => s3.consume i (lowestAddr r0.poisoned) pc true
        | _ :: _, false => (s3.report (some i) ⟨0x0A, 0, w.site, lowestAddr r0.poisoned, pc, 0⟩, true)
        | [], _ => (s3, true)
      if !on then (s4, false, [])
      else
        let sub := substBytes (s.ctxOf w) n
        let vals := if a.ret then r0.vals ++ r0.poisoned.map fun q => (q, sub) else []
        (s4.modOut i out fun o => { o.fillIn (fun bs k => BitVec.ofNat 32 (numLE bs / 2 ^ (32 * k))) vals with
          remote := o.remote + s1.asked s3, parked := 0 }, true, bad)

/-! ## LD and ST -/

/-- LD (R218 to R222). -/
def execLd (c : LCtl) (sz : MSize) (hint : LHint) (ann : Ann) (d : Dst) (a : Opnd) (off : BitVec 23) (s : State) : Result :=
  let u : LUse := ⟨[(a, 2, c.lua)], [(d, sizeRegs sz)], c.lud, []⟩
  .next (match s.lStart c u with
    | .error t => t
    | .ok x =>
      let va := x.globalAddr a off
      match globalTrap x.act (MSize.bytes sz) va with
      | some t => x.trap t
      | none =>
        if x.noRecord then x.s.waitL x.w x.d .other
        else
        let rs := (lanesIn x.act).map fun l => (⟨l, va l, [], 0⟩ : LaneReq)
        let (s2, on, bad) := (x.issue c u true (spanD d (sizeRegs sz)) (some (.ld c sz hint ann d a off, rs))).loadCore x.i x.d x.p.pc sz hint ann d
          x.outIx rs
        if on then s2.parkLane x.i x.d x.p.pc (.ld c sz hint ann d a off) x.outIx false bad else s2)

/-- The bytes that a store takes from its data operand (R219). -/
def LIss.dataBytes (x : LIss) (b : Opnd) (sz : MSize) (l : Lane) : List Byte :=
  match sz with
  | .b64 => bytesLE 8 (x.read 1 b 64 l)
  | .b128 =>
    match b with
    | .v r => (List.range 4).flatMap fun k => bytesLE 4 (x.lane 1 (r.val + k) l).toNat
    | _ => bytesLE 16 0
  | _ => bytesLE (MSize.bytes sz) (x.read 1 b 32 l)

/-- The traps of an instruction that writes global memory, beside those of its addresses: REGION_ILLEGAL, TWIN_ILLEGAL, WATCH
in that order (R220, R325, R471). -/
def LIss.writeTrap (x : LIss) (atomic : Bool) (ann : Ann) (n : Nat) (va : Lane → Nat) : Option Trap :=
  if regionIllegal x.w atomic ann then some (.of .regionIllegal)
  else if x.s.twinIllegal x.w then some (.of .twinIllegal)
  else x.s.watchHit x.w (.l x.d) ((lanesIn x.act).map fun l => (l, va l, n))

/-- A .rel access of scope .p waits for the wave's writes to other devices (R128). -/
def LIss.mustWait (x : LIss) (ann : Ann) : Bool := annRel ann && ann.scope == .p && x.s.unacknowledged x.i

/-- ST (R218 to R222), with the hint .rcN (R114). -/
def execSt (c : LCtl) (sz : MSize) (hint : LHint) (ann : Ann) (a b : Opnd) (rc : BitVec 8) (off : BitVec 23) (s : State) : Result :=
  let u : LUse := ⟨[(a, 2, c.lua), (b, sizeRegs sz, c.lub)], [], false, []⟩
  .next (match s.lStart c u with
    | .error t => t
    | .ok x =>
      let va := x.globalAddr a off
      match (globalTrap x.act (MSize.bytes sz) va).or (x.writeTrap false ann (MSize.bytes sz) va) with
      | some t => x.trap t
      | none =>
        if x.mustWait ann || x.noRecord then x.s.waitL x.w x.d .other
        else
          let rs := (lanesIn x.act).map fun l => (⟨l, va l, x.dataBytes b sz l, 0⟩ : LaneReq)
          let s1 := x.issue c u false [] (some (.st c sz hint ann a b rc off, rs))
          let s2 := if annRel ann then s1.release x.w.core (x.s.scopeOf x.w ann.scope) else s1
          match s2.waves[x.i]? with
          | none => s2
          | some w =>
            let p := s2.writeAll x.i w (.l x.d) (if rc = 0 then none else some rc.toNat) hint rs
            if p.full then x.trap (.at .regionOverflow (lowestAddr rs))
            else (p.s.sendFar x.i x.d x.outIx p.far).parkLane x.i x.d x.p.pc (.st c sz hint ann a b rc off) x.outIx true p.bad)

/-! ## Scratchpad: LDS, STS, LDR, STR -/

/-- One place in scratchpad: team, half and offset. -/
structure Spot where
  team : Nat
  odd : Bool
  off : Nat
  deriving DecidableEq, Repr

/-- The key of a green scratchpad byte. -/
def Spot.key (p : Spot) : Nat := (2 * p.team + (if p.odd then 1 else 0)) * 2 ^ 21 + p.off

/-- Declared scratchpad size S in bytes (R105). -/
def State.scratchSize (s : State) (w : Wave) : Nat := (s.launchOf w).scratch * 512

/-- The wave runs on the odd core of its team's pair (R27). -/
def Wave.odd (w : Wave) : Bool := decide (32 ≤ w.num)

def State.paired (s : State) (w : Wave) : Bool := (s.launchOf w).pair || decide (32 < (s.launchOf w).waves)

/-- Bytes of scratchpad as a wave reads them: its own green bytes merged (R223). -/
def State.scratchBytes (s : State) (w : Wave) (p : Spot) (n : Nat) : List Byte :=
  match s.teams[p.team]? with
  | none => List.replicate n 0
  | some t =>
    (List.range n).map fun i =>
      match ovGet w.green.scr (Spot.key p + i) with
      | some b => b
      | none => cellGet (t.half p.odd).scratch (p.off + i)

/-- A unit that the bytes touch is poisoned, as the wave sees it. -/
def State.scratchPoisoned (s : State) (w : Wave) (p : Spot) (n : Nat) : Bool :=
  match s.teams[p.team]? with
  | none => false
  | some t =>
    (sectors p.off n).any fun k =>
      let key := Spot.key { p with off := k * 64 } / 64
      if w.green.scr.any fun e => e.1 / 64 == key then w.green.scrPoison.contains key else (t.half p.odd).scratchPoison.contains k

/-- A key of green scratchpad as the address that reaches it: the offset, or the remote address with half and rank (R106, R326, R360). -/
def State.scrAddress (s : State) (remote : Bool) (key : Nat) : Nat :=
  let place := key / 2 ^ 21
  let rank := ((s.teams[place / 2]?).map Team.rank).getD 0
  key % 2 ^ 21 + (if remote then rank * 2 ^ 21 + place % 2 * 2 ^ 24 else 0)

/-- Green scratchpad bytes by the addresses of the store. -/
def State.addressed (s : State) (remote : Bool) (ov : Overlay) : Overlay :=
  ov.foldl (fun y e => ovPut y (s.scrAddress remote e.1) e.2) []

/-- The target of a lane's scratchpad access, or nothing where it breaks R105 or R106. -/
def State.spotOf (s : State) (w : Wave) (remote : Bool) (q : Int) (n : Nat) : Option Spot :=
  let size := s.scratchSize w
  if q < 0 then none
  else if !remote then (if q.toNat + n ≤ size then some ⟨w.team, w.odd, q.toNat⟩ else none)
  else
    let r := q.toNat
    let off := field r 0 21
    if 2 ^ 25 ≤ r || size < off + n || (bitOf r 24 && !s.paired w) then none
    else
      ((s.clusterOf w.team).find? fun t => ((s.teams[t]?).map fun x => x.rank == field r 21 3).getD false).map fun t =>
        ⟨t, bitOf r 24, off⟩

/-- The traps of a scratchpad access: MISALIGNED, then the range (R220). -/
def LIss.scratchTrap (x : LIss) (remote : Bool) (n : Nat) (q : Lane → Int) : Option Trap :=
  let va (l : Lane) : Nat := (q l % ((2 ^ 64 : Nat) : Int)).toNat
  match laneTrap .misaligned x.act va fun l => q l % (n : Int) != 0 with
  | some t => some t
  | none => laneTrap (if remote then .remoteRange else .scratchRange) x.act va fun l => (x.s.spotOf x.w remote (q l) n).isNone

/-- Mark a unit of a team's on-core memory poisoned. -/
def State.poisonUnit (s : State) (q : Space × Nat) : State :=
  let put (t : Nat) (odd : Bool) (f : Half → Half) : State := s.modTeam t fun x => x.setHalf odd (f (x.half odd))
  match q.1 with
  | .scr t odd => put t odd fun h => { h with scratchPoison := putIn h.scratchPoison q.2 true }
  | .acc t odd => put t odd fun h => { h with accPoison := putIn h.accPoison q.2 true }
  | .wbuf t odd => put t odd fun h => { h with wbufPoison := putIn h.wbufPoison q.2 true }
  | .glob => s

/-- Errors of units of on-core memory that a read meets: the unit is poisoned, and the error logged (R412). -/
def State.unitsHit (s : State) (i : Option Nat) (core : Nat) (hit : Space × Nat → Bool) : State :=
  match s.sys.phys.units with
  | [] => s
  | us => (us.filter hit).foldl (fun z q => (z.poisonUnit q).report i ⟨6, 2, core, 64 * q.2, 0, 0⟩)
      (s.modPhys fun p => { p with units := p.units.filter fun q => !hit q })

/-- The errors of the scratchpad units that a lane load reads. -/
def State.unitsStruck (s : State) (i : Nat) (n : Nat) (ps : List Spot) : State :=
  s.unitsHit (some i) (((s.waves[i]?).map Wave.core).getD 0) fun q =>
    ps.any fun p => q.1 == .scr p.team p.odd && (sectors p.off n).contains q.2

/-- LDS and LDR: a load from scratchpad, which is never translated (R219, R221 to R223). -/
def scratchLoad (remote : Bool) (c : LCtl) (sz : MSize) (d : Dst) (a : Opnd) (off : BitVec 23) (s : State) : State :=
  let u : LUse := ⟨[(a, 1, c.lua)], [(d, sizeRegs sz)], c.lud, []⟩
  let n := MSize.bytes sz
  match s.lStart c u with
  | .error t => t
  | .ok y =>
    let q := y.localAddr a off
    match y.scratchTrap remote n q with
    | some t => y.trap t
    | none =>
      let spots : List (Lane × Spot) := (lanesIn y.act).filterMap fun l => (y.s.spotOf y.w remote (q l) n).map fun p => (l, p)
      let x : LIss := { y with s := y.s.unitsStruck y.i n (spots.map fun e => e.2) }
      let vals := spots.map fun e => ((⟨e.1, e.2.off, [], 0⟩ : LaneReq), x.s.scratchBytes x.w e.2 n)
      let bad : List (Lane × Spot) := spots.filter fun e => x.s.scratchPoisoned x.w e.2 n
      let s1 := x.issue c u true (spanD d (sizeRegs sz))
      let (s2, on) :=
        match least (bad.map fun (e : Lane × Spot) => e.2.off), d with
        | some a, .v _ => s1.consume x.i a x.p.pc true
        | _, _ => (s1, true)
      if !on then s2
      else
        let sub := substBytes (x.s.ctxOf x.w) n
        let vals' := if d.isV then vals.map fun e => if bad.any fun (b : Lane × Spot) => b.1 == e.1.lane then (e.1, sub) else e else vals
        s2.modOut x.i x.outIx fun o => o.fillIn (loadWord sz) vals'

/-- Bytes written at one place of scratchpad, outside a region. -/
def State.scratchWrite (s : State) (team : Nat) (odd : Bool) (ov : Overlay) (poison : Bool) : State :=
  s.modTeam team fun t => t.setHalf odd ((t.half odd).write ov poison)

/-- Green scratchpad bytes of one write (R223). -/
def Green.writeScr (g : Green) (ov : Overlay) (bad : List Nat) : Green :=
  let secs := dedup (ov.map fun e => e.1 / 64)
  { g with scr := ov.foldl (fun y e => ovPut y e.1 e.2) g.scr,
           scrPoison := secs.foldl (fun y k => putIn y k (bad.contains k)) g.scrPoison }

/-- STS and STR (R219, R223). -/
def scratchStore (remote : Bool) (c : LCtl) (sz : MSize) (ann : Ann) (a b : Opnd) (off : BitVec 23) (s : State) : State :=
  let u : LUse := ⟨[(a, 1, c.lua), (b, sizeRegs sz, c.lub)], [], false, []⟩
  let n := MSize.bytes sz
  match s.lStart c u with
  | .error t => t
  | .ok x =>
    let q := x.localAddr a off
    match x.scratchTrap remote n q with
    | some t => x.trap t
    | none =>
      if regionIllegal x.w false ann then x.trap (.of .regionIllegal)
      else
        let spots : List (Lane × Spot) := (lanesIn x.act).filterMap fun l => (x.s.spotOf x.w remote (q l) n).map fun p => (l, p)
        let s1 := x.issue c u false []
        let s2 := if annRel ann then s1.release x.w.core (x.s.scopeOf x.w ann.scope) else s1
        if x.w.isGreen then
          let ov := spots.foldl (fun y e => ovWrite y (Spot.key e.2) (x.dataBytes b sz e.1)) []
          let full := fullSectors ov
          let bad := (dedup (ov.map fun e => e.1 / 64)).filter fun k =>
            !full.contains k && spots.any fun e => Spot.key e.2 / 64 == k && x.s.scratchPoisoned x.w { e.2 with off := e.2.off / 64 * 64 } 1
          let g := x.w.green.writeScr ov bad
          if x.s.greenFull x.w g then x.trap (.at .regionOverflow ((least (spots.map fun e => e.2.off)).getD 0))
          else s2.modWave x.i fun y => x.s.signed { y with green := g } (x.s.addressed remote ov) (if remote then 2 else 1)
        else
          let homes := spots.foldl (fun l e => if l.contains (e.2.team, e.2.odd) then l else l ++ [(e.2.team, e.2.odd)]) []
          homes.foldl (fun z h =>
            let mine := spots.filter fun e => e.2.team == h.1 && e.2.odd == h.2
            z.scratchWrite h.1 h.2 (mine.foldl (fun y e => ovWrite y e.2.off (x.dataBytes b sz e.1)) []) false) s2

/-- LDS (R218, R219). -/
def execLds (c : LCtl) (sz : MSize) (_ann : Ann) (d : Dst) (a : Opnd) (off : BitVec 23) (s : State) : Result :=
  .next (scratchLoad false c sz d a off s)

/-- STS (R218, R219). -/
def execSts (c : LCtl) (sz : MSize) (ann : Ann) (a b : Opnd) (off : BitVec 23) (s : State) : Result :=
  .next (scratchStore false c sz ann a b off s)

/-- LDR (R106, R218, R219). -/
def execLdr (c : LCtl) (sz : MSize) (_ann : Ann) (d : Dst) (a : Opnd) (off : BitVec 23) (s : State) : Result :=
  .next (scratchLoad true c sz d a off s)

/-- STR (R106, R218, R219). -/
def execStr (c : LCtl) (sz : MSize) (ann : Ann) (a b : Opnd) (off : BitVec 23) (s : State) : Result :=
  .next (scratchStore true c sz ann a b off s)

/-! ## ATOM and RED (R224 to R228) -/

/-- An atomic L-op. -/
def atomOp (c : LCtl) (at_ : Atomic) (d : Dst) (a b x : Opnd) (off : BitVec 23) (instr : Instr) (s : State) : State :=
  let n := AtomOp.bytes at_.op
  let rn := if n = 8 then 2 else 1
  let u : LUse := ⟨[(a, 2, c.lua), (b, rn, c.lub), (x, rn, c.luc)], [(d, rn)], c.lud, []⟩
  match s.lStart c u with
  | .error t => t
  | .ok y =>
    let va := y.globalAddr a off
    match (globalTrap y.act n va).or (y.writeTrap true at_.ann n va) with
    | some t => y.trap t
    | none =>
      if y.mustWait at_.ann || y.noRecord then y.s.waitL y.w y.d .other
      else
        let bits := if n = 8 then 64 else 32
        let rs := (lanesIn y.act).map fun l =>
          (⟨l, va l, bytesLE n (y.read 1 b bits l), BitVec.ofNat 64 (y.read 2 x bits l % 2 ^ (8 * n))⟩ : LaneReq)
        let s1 := y.issue c u at_.ret (spanD d rn) (some (instr, rs))
        let s2 := if annRel at_.ann then s1.release y.w.core (y.s.scopeOf y.w at_.ann.scope) else s1
        if y.w.isGreen && y.s.greenFull y.w (y.w.green.write (overlayOf rs) []) then y.trap (.at .regionOverflow (lowestAddr rs))
        else
          let (s3, on, bad) := s2.atomCore y.i y.d y.p.pc at_ y.outIx rs
          if on then s3.parkLane y.i y.d y.p.pc instr y.outIx true bad else s3

/-- ATOM: with dest 0x112 it has no returned value (R225, R226). -/
def execAtom (c : LCtl) (op : AtomOp) (ordm : Bool) (ann : Ann) (d : Dst) (a b x : Opnd) (off : BitVec 23) (s : State) : Result :=
  .next (atomOp c ⟨op, ann, ordm, d.isV, false⟩ d a b x off (.atom c op ordm ann d a b x off) s)

/-- RED (R225 to R228). -/
def execRed (c : LCtl) (op : AtomOp) (ordm : Bool) (ann : Ann) (a b : Opnd) (off : BitVec 23) (s : State) : Result :=
  .next (atomOp c ⟨op, ann, ordm, false, true⟩ .zero a b .zero off (.red c op ordm ann a b off) s)

/-! ## Replay of parked lanes (R221, R358) -/

/-- The parked lanes of a record have all been performed: its side goes on. -/
def State.unpark (s : State) (i : Nat) (d : Side) (k : Park) : State :=
  s.modWave i fun w => { w with ls := w.ls.unpark d k.resume }

/-- A spilled side whose lanes fault again stands parked on the stack again. -/
def State.respill (s : State) (i : Nat) (d : Side) (pc : Nat) (at_ : Option Nat) : State :=
  match at_ with
  | none => s
  | some k => s.modWave i fun w =>
      { w with ls := { w.ls.setPark d ((w.ls.park? d).map fun r => { r with stacked := true }) with
          stack := modAt w.ls.stack k fun e => { e with parked := true, side := { e.side with pc := pc } } } }

/-- The lanes that fault again at a replay are parked again: the side stands at the L-op, in its slot or on the stack. -/
def State.parkAgain (s : State) (i : Nat) (d : Side) (k : Park) (ins : Instr) (bad : List (LaneReq × XFault)) (write : Bool)
    (at_ : Option Nat) : State :=
  match bad with
  | [] => s
  | _ =>
    let s1 := s.modOut i k.out fun o => { o with parked := reqMask (bad.map (·.1)) }
    match at_ with
    | none => s1.park i (.l d) k.pc (some ins) k.out write false bad
    | some _ =>
      -- another side stands in the slot, and stays where it is
      let here := ((s1.waves[i]?).bind fun w => w.ls.side? d).map PcSide.pc
      let s2 := s1.park i (.l d) k.pc (some ins) k.out write false bad
      let s3 := s2.modWave i fun w =>
        let y := w.ls.setPark d ((w.ls.park? d).map fun r => { r with resume := k.resume })
        { w with ls := (here.map fun pc => y.goTo d pc).getD y }
      s3.respill i d k.pc (if (s3.waves[i]?).any fun w => w.gone then none else at_)

/-- Perform the parked L-op in the lanes of its record, with the recorded operands. -/
def State.replayLanes (s : State) (i : Nat) (d : Side) (k : Park) : State :=
  match k.instr with
  | none => s.modWave i fun w => { w with ls := w.ls.setPark d none }
  | some ins =>
    let s0 := s.unpark i d k
    let at_ := if k.stacked then (s.waves[i]?).bind fun w => w.ls.spilledAt d else none
    let again (s1 : State) (bad : List (LaneReq × XFault)) (write : Bool) : State := s1.parkAgain i d k ins bad write at_
    match ins with
    | .ld _ sz hint ann dst _ _ =>
      let (s1, on, bad) := s0.loadCore i d k.pc sz hint ann dst k.out k.reqs
      if on then again s1 bad false else s1
    | .st _ _ hint _ _ _ rc _ =>
      match s0.waves[i]? with
      | none => s0
      | some w =>
        let p := s0.writeAll i w (.l d) (if rc = 0 then none else some rc.toNat) hint k.reqs
        if p.full then s.trapL i d (.at .regionOverflow k.first) k.pc false
        else again ((p.s.sendFar i d k.out p.far).modOut i k.out fun o => { o with parked := 0 }) p.bad true
    | .atom _ op ordm ann dst _ _ _ _ =>
      let (s1, on, bad) := s0.atomCore i d k.pc ⟨op, ann, ordm, dst.isV, false⟩ k.out k.reqs
      if on then again s1 bad true else s1
    | .red _ op ordm ann _ _ _ =>
      let (s1, on, bad) := s0.atomCore i d k.pc ⟨op, ann, ordm, false, true⟩ k.out k.reqs
      if on then again s1 bad true else s1
    | _ => s0

/-! ## Replies from the host and from other devices (R449, R453, R454) -/

/-- Answered requests of an outstanding L-op. -/
def State.answered (s : State) (i out : Nat) : List Remote :=
  s.sys.links.remotes.filter fun r => r.wave == i && r.out == out && r.strm != .s && !r.lanes.isEmpty && r.job.isNone && r.ray.isNone &&
    r.reply.isSome

/-- Requests in ascending lane order. -/
def byLane (rs : List LaneReq) : List LaneReq := allLanes.filterMap fun l => rs.find? fun r => r.lane == l

/-- Lanes whose requests were refused are parked, beside those that are parked already (R221, R453): the record names the lowest
lane's address (R345). -/
def State.parkMore (s : State) (i : Nat) (d : Side) (pc : Nat) (ins : Instr) (out : Nat) (write : Bool) (rs : List LaneReq) : State :=
  match rs with
  | [] => s
  | _ =>
    match (s.waves[i]?).bind fun w => (w.ls.park? d).filter fun k => k.out == out with
    | some k =>
      let all := byLane (k.reqs ++ rs)
      let k1 : Park := { k with reqs := all, first := ((all.head?).map LaneReq.addr).getD k.first }
      (s.modWave i fun w => { w with ls := w.ls.setPark d (some k1) }).modOut i out fun o =>
        { o with parked := o.parked ||| reqMask rs }
    | none => s.parkLane i d pc ins out write (rs.map fun r => (r, ⟨0, xFabric⟩))

/-- One lane's answer: its request, its place, its bytes and their poison. -/
structure LaneAns where
  req : LaneReq
  place : Loc
  bytes : List Byte
  bad : Bool

/-- The atomics of an instruction whose bytes came from away, performed on this core in lane order: their old values. -/
def State.atomsHere (s : State) (i : Nat) (op : AtomOp) : List LaneAns → State × List (LaneReq × List Byte)
  | [] => (s, [])
  | e :: rest =>
    let (s1, old) := s.atomHere i op e.req e.place e.bytes
    let (s2, vs) := State.atomsHere s1 i op rest
    (s2, (e.req, old) :: vs)

/-- The answers of an atomic: performed here on bytes that were read, or performed at its home already. A poisoned location changes
no byte (R228). -/
def State.atomAnswers (s : State) (i : Nat) (w : Wave) (a : Atomic) (got : List LaneAns) : State × List (LaneReq × List Byte) :=
  if s.atomLocal i a then
    let (s1, vs) := s.atomsHere i a.op (got.filter fun e => !w.poisonOf e.req.addr (AtomOp.bytes a.op) e.bad)
    (s1.signAtoms i (AtomOp.bytes a.op) (vs.map fun e => e.1), vs)
  else (s, got.map fun e => (e.req, e.bytes))

/-- Values reach the registers of an L-op, with the outcome of poisoned ones (R222, R228, R417): whether the wave goes on. -/
def State.takeAnswers (s : State) (i out pc : Nat) (w : Wave) (n : Nat) (ret : Bool) (f : List Byte → Nat → Word) (got : List LaneAns)
    (vals : List (LaneReq × List Byte)) : State × Bool :=
  let bad := (got.filter fun e => w.poisonOf e.req.addr n e.bad).map fun e => e.req
  let (s1, on) := if !bad.isEmpty && ret then s.consume i (lowestAddr bad) pc true else (s, true)
  if !on then (s1, false)
  else
    let sub := substBytes (s.ctxOf w) n
    let full := if ret then (vals.filter fun e => !bad.contains e.1) ++ bad.map fun r => (r, sub) else vals
    (s1.modOut i out fun o => o.fillIn f full, true)

/-- What an L-op does with the data of its lanes. -/
def State.answerLanes (s : State) (i out : Nat) (w : Wave) (pc : Nat) (ins : Instr) (got : List LaneAns) : State × Bool :=
  let words (bs : List Byte) (k : Nat) : Word := BitVec.ofNat 32 (numLE bs / 2 ^ (32 * k))
  let atomic (a : Atomic) : State × Bool :=
    let (s1, vs) := s.atomAnswers i w a got
    let bad := (got.filter fun e => w.poisonOf e.req.addr (AtomOp.bytes a.op) e.bad).map fun e => e.req
    let s2 := if a.ret || bad.isEmpty || !s.atomLocal i a then s1 else s1.report (some i) ⟨0x0A, 0, w.site, lowestAddr bad, pc, 0⟩
    s2.takeAnswers i out pc w (AtomOp.bytes a.op) a.ret words got (if a.ret then vs else [])
  match ins with
  | .ld _ sz _ _ dst _ _ =>
    s.takeAnswers i out pc w (MSize.bytes sz) dst.isV (loadWord sz) got (got.map fun e => (e.req, s.mergeFar w e.req.addr e.bytes))
  | .atom _ op ordm ann dst _ _ _ _ => atomic ⟨op, ann, ordm, dst.isV, false⟩
  | .red _ op ordm ann _ _ _ => atomic ⟨op, ann, ordm, false, true⟩
  | _ => (s, true)

/-- Bytes of one lane's access. -/
def laneWidth : Instr → Nat
  | .ld _ sz _ _ _ _ _ => MSize.bytes sz
  | .atom _ op _ _ _ _ _ _ _ => AtomOp.bytes op
  | .red _ op _ _ _ _ _ => AtomOp.bytes op
  | _ => 0

/-- Replies reach an outstanding L-op: data, acknowledgements, and refusals, which park their lanes. -/
def State.settleOut (s : State) (i out : Nat) : State :=
  match s.waves[i]? with
  | none => s
  | some w =>
    match w.ls.outs[out]?, s.answered i out with
    | some o, r :: rs =>
      match o.src with
      | none => s
      | some (pc, ins, reqs) =>
        let all := r :: rs
        let s1 := (all.foldl (fun (z : State) (q : Remote) => z.dropRemote q.tag) s).modOut i out fun y =>
          { y with remote := y.remote - all.length }
        let mine (q : Remote) : List LaneReq := reqs.filter fun e => q.lanes.contains e.lane
        let got := all.flatMap fun q =>
          match q.reply with
          | some (.data bs bad) => (mine q).map fun e => (⟨e, q.place e.addr, q.bytesOf e (laneWidth ins) bs, bad⟩ : LaneAns)
          | _ => []
        let refused := (all.filter fun q => q.reply == some .refused).flatMap mine
        let write := all.any fun q => match q.op with
          | .read _ => false
          | _ => true
        -- a refusal waits for the record of the side, where an earlier access holds it
        if !refused.isEmpty && (w.ls.park? o.side).any (fun k => k.out != out) then s
        else
        let (s2, on) := s1.answerLanes i out w pc ins got
        if on then s2.parkMore i o.side pc ins out write (byLane refused) else s2
    | _, _ => s

end Sys2Proof.Machine
end

