-- ==== Sys2Proof/Machine/Handler.lean ====
section
/-!
DEFINITION. The end of a trap handler (spec/16 R354): RETRY, NEXT, KILL and KILLLANES, chosen by the value that SWRX writes
into sys.hact. Taking a trap stands in Machine/Ops.lean (Wave.enter, State.take).
-/

namespace Sys2Proof.Machine

/-- The wave leaves handler level; its S-stream goes on at an address. -/
def Wave.leaveHandler (w : Wave) (pc : Nat) : Wave :=
  { w with ss := { w.ss with pc := pc, waitS := none, parkS := none }, priv := { w.priv with handler := false, ctx := none } }

/-- Allow the next store of a stream without watchpoint checks (R471). -/
def Wave.passWatch (w : Wave) (strm : Strm) : Wave :=
  { w with ss := { w.ss with unwatched := if w.ss.unwatched.contains strm then w.ss.unwatched else strm :: w.ss.unwatched } }

/-- What the trap that the handler answers was: its cause code, and whether an L-op raised it. -/
def Wave.trapCode (w : Wave) : Nat := field w.priv.cause.toNat 0 16

/-- PAGE_FAULT or ALIAS. -/
def Wave.trapParked (w : Wave) : Bool := w.trapCode == Cause.pageFault.code || w.trapCode == Cause.alias_.code

/-- A record that a code fetch left names no instruction: the fetch is made again. -/
def Park.again (k : Park) : Option Park := if k.instr.isNone then none else some { k with resolved := true, fatal := false }

/-- RETRY: the trapping instruction issues again; parked lanes are replayed (R354, R357, R358). -/
def Wave.retry (w : Wave) (c : TrapCtx) : Wave :=
  let w1 := w.leaveHandler c.pc
  if c.imprecise then w1
  else
    let w2 := if w.trapCode == Cause.watch.code then w1.passWatch c.strm else w1
    match c.strm with
    | .s => { w2 with ss := { w2.ss with parkS := none } }
    | .l d =>
      if c.lhdr then { w2 with ls := ({ w2.ls with blk := Blk.none }.setPark d none) }
      else if w.trapParked then { w2 with ls := w2.ls.setPark d ((w2.ls.park? d).bind Park.again) }
      else w2

/-- The lanes that a park of a side still owes are given up. -/
def LStream.forgo (x : LStream) (k : Option Park) : LStream :=
  match k with
  | none => x
  | some k => { x with outs := modAt x.outs k.out fun o => { o with parked := 0 } }

/-- NEXT: the trapping S-op group, or L-op, is skipped (R354). -/
def Wave.skip (w : Wave) (c : TrapCtx) : Wave :=
  if c.imprecise then w.leaveHandler c.pc
  else
    match c.strm with
    | .s =>
      let w1 := w.leaveHandler c.nextPc
      let w2 := { w1 with ss := { w1.ss with parkS := none } }
      match c.sysc with
      | none => w2
      | some d => w2.writeS d w.priv.hret
    | .l d =>
      let w1 := w.leaveHandler c.pc
      if c.lhdr then { w1 with ls := (w1.ls.setPark d none).endBlock }
      else
        let k := if w.trapParked then w1.ls.park? d else none
        let y := if (k.bind Park.instr).isSome then w1.ls.forgo k else w1.ls
        { w1 with ls := if k.isSome then y.unpark d c.nextPc else y.goTo d c.nextPc }

/-- KILLLANES: the lanes of sys.lanemask leave the live mask, and the L-op completes for them having done nothing (R354). -/
def Wave.dropLanes (w : Wave) (c : TrapCtx) : Wave :=
  let w1 := w.skip c
  { w1 with ls := w1.ls.drop w.priv.lanemask }

/-- The actions of sys.hact (R354), and the kill of any other value. -/
def State.endHandler (s : State) (w : Wave) (v : Nat) : State :=
  let i := s.cur.1
  match w.priv.ctx with
  | none => s.kill i .handlerFault 0 0
  | some c =>
    match v with
    | 0 => (s.setWave (w.retry c)).countIssue w.team
    | 1 => (s.setWave (w.skip c)).countIssue w.team
    | 2 => s.kill i (Cause.ofCode w.trapCode) w.priv.trapva.toNat w.priv.trapaux.toNat
    | 3 =>
      match c.strm with
      | .l _ =>
        if w.trapParked && !c.imprecise then
          let w1 := w.dropLanes c
          (if w1.ls.blk.phase == .ready then s.settleSides i w1 else s.setWave w1).countIssue w.team
        else s.kill i .handlerFault 0 0
      | .s => s.kill i .handlerFault 0 0
    | _ => s.kill i .handlerFault 0 0

/-- A handler action (R354). sys.hact is a system register: at user level the write raises PRIVILEGE (R176). -/
def State.hact (s : State) (v : Nat) : State :=
  match s.wave? with
  | none => s
  | some w => if w.priv.handler then s.endHandler w v else s.trapS w (.at .privilege 0x105)

/-- HACT_RETRY (R354). -/
def execHactRetry (s : State) : Result := .next (s.hact 0)

/-- HACT_NEXT (R354). -/
def execHactNext (s : State) : Result := .next (s.hact 1)

/-- HACT_KILL (R354). -/
def execHactKill (s : State) : Result := .next (s.hact 2)

/-- HACT_KILLLANES (R354). -/
def execHactKilllanes (s : State) : Result := .next (s.hact 3)

end Sys2Proof.Machine
end

