-- ==== Sys2Proof/Machine/ScalarAlu.lean ====
section
/-!
DEFINITION. Scalar integer arithmetic, compare, select and constants (spec/07 R157 to R160).
-/

namespace Sys2Proof.Machine

/-- An S-op acts on the wave that issues it. -/
def State.sOp (s : State) (f : Wave → State) : State :=
  match s.wave? with
  | none => s
  | some w => f w

/-- A scalar result of a and b (R157): sD := f(a, b). -/
def State.alu (s : State) (d a : SReg) (b : SrcB) (f : DWord → DWord → DWord) : State :=
  s.sOp fun w => s.done (w.writeS d (f (w.readS a) (s.opB w b)))

/-- The shift amount b[5:0]. -/
def amount (b : DWord) : Nat := b.toNat % 64

/-- The high half of the product (R157). -/
def mulHigh (signed : Bool) (a b : DWord) : DWord :=
  if signed then BitVec.ofInt 64 (a.toInt * b.toInt / ((2 ^ 64 : Nat) : Int)) else BitVec.ofNat 64 (a.toNat * b.toNat / 2 ^ 64)

/-- Quotient and remainder: division never traps (R158). -/
def quotS (a b : DWord) : DWord := if b = 0 then BitVec.allOnes 64 else BitVec.ofInt 64 (a.toInt.tdiv b.toInt)
def quotU (a b : DWord) : DWord := if b = 0 then BitVec.allOnes 64 else BitVec.ofNat 64 (a.toNat / b.toNat)
def remS (a b : DWord) : DWord := if b = 0 then a else BitVec.ofInt 64 (a.toInt - a.toInt.tdiv b.toInt * b.toInt)
def remU (a b : DWord) : DWord := if b = 0 then a else BitVec.ofNat 64 (a.toNat % b.toNat)

/-- SADD (R157). -/
def execSadd (d a : SReg) (b : SrcB) (s : State) : Result := .next (s.alu d a b fun x y => x + y)

/-- SSUB (R157). -/
def execSsub (d a : SReg) (b : SrcB) (s : State) : Result := .next (s.alu d a b fun x y => x - y)

/-- SAND (R157). -/
def execSand (d a : SReg) (b : SrcB) (s : State) : Result := .next (s.alu d a b fun x y => x &&& y)

/-- SOR (R157). -/
def execSor (d a : SReg) (b : SrcB) (s : State) : Result := .next (s.alu d a b fun x y => x ||| y)

/-- SXOR (R157). -/
def execSxor (d a : SReg) (b : SrcB) (s : State) : Result := .next (s.alu d a b fun x y => x ^^^ y)

/-- SSHL (R157: bits b[63:6] are ignored). -/
def execSshl (d a : SReg) (b : SrcB) (s : State) : Result := .next (s.alu d a b fun x y => x <<< amount y)

/-- SSHR (R157). -/
def execSshr (d a : SReg) (b : SrcB) (s : State) : Result := .next (s.alu d a b fun x y => x >>> amount y)

/-- SSAR (R157). -/
def execSsar (d a : SReg) (b : SrcB) (s : State) : Result := .next (s.alu d a b fun x y => x.sshiftRight (amount y))

/-- SMUL (R157). -/
def execSmul (d a : SReg) (b : SrcB) (s : State) : Result := .next (s.alu d a b fun x y => x * y)

/-- SMULH (R157). -/
def execSmulh (d a : SReg) (b : SrcB) (s : State) : Result := .next (s.alu d a b (mulHigh true))

/-- SMULH.u (R157). -/
def execSmulhU (d a : SReg) (b : SrcB) (s : State) : Result := .next (s.alu d a b (mulHigh false))

/-- SDIV (R157, R158). -/
def execSdiv (d a : SReg) (b : SrcB) (s : State) : Result := .next (s.alu d a b quotS)

/-- SDIV.u (R157, R158). -/
def execSdivU (d a : SReg) (b : SrcB) (s : State) : Result := .next (s.alu d a b quotU)

/-- SREM (R157, R158). -/
def execSrem (d a : SReg) (b : SrcB) (s : State) : Result := .next (s.alu d a b remS)

/-- SREM.u (R157, R158). -/
def execSremU (d a : SReg) (b : SrcB) (s : State) : Result := .next (s.alu d a b remU)

/-- SMIN (R157). -/
def execSmin (d a : SReg) (b : SrcB) (s : State) : Result := .next (s.alu d a b fun x y => if y.slt x then y else x)

/-- SMAX (R157). -/
def execSmax (d a : SReg) (b : SrcB) (s : State) : Result := .next (s.alu d a b fun x y => if x.slt y then y else x)

/-- SMIN.u (R157). -/
def execSminU (d a : SReg) (b : SrcB) (s : State) : Result := .next (s.alu d a b fun x y => if y.ult x then y else x)

/-- SMAX.u (R157). -/
def execSmaxU (d a : SReg) (b : SrcB) (s : State) : Result := .next (s.alu d a b fun x y => if x.ult y then y else x)

/-- SCMP (R159): 1 when the condition holds, else 0. -/
def execScmp (c : Cond) (d a : SReg) (b : SrcB) (s : State) : Result :=
  .next (s.alu d a b fun x y => if Cond.holds c x y then 1 else 0)

/-- SSEL.nz: sD is read as the condition before it is written (R159). -/
def execSselNz (d a : SReg) (b : SrcB) (s : State) : Result :=
  .next (s.sOp fun w => s.done (w.writeS d (if w.readS d != 0 then w.readS a else s.opB w b)))

/-- SSEL.z (R159). -/
def execSselZ (d a : SReg) (b : SrcB) (s : State) : Result :=
  .next (s.sOp fun w => s.done (w.writeS d (if w.readS d == 0 then w.readS a else s.opB w b)))

/-- SLI: the sign-extended immediate (R160). -/
def execSli (d : SReg) (imm : BitVec 20) (s : State) : Result :=
  .next (s.sOp fun w => s.done (w.writeS d (s.pfx.imm 20 imm.toNat)))

/-- SLUI: the immediate in the high half, the low half kept (R160). -/
def execSlui (d : SReg) (imm : BitVec 20) (s : State) : Result :=
  .next (s.sOp fun w => s.done (w.writeS d ((s.pfx.imm 20 imm.toNat <<< 32) ||| ((w.readS d).setWidth 32).setWidth 64)))

end Sys2Proof.Machine
end

