-- ==== Sys2Proof/Machine/ScalarCtl.lean ====
section
/-!
DEFINITION. Scalar control flow (spec/07 R161, R162).
-/

namespace Sys2Proof.Machine

/-- A taken branch: a target outside the scalar section raises CODE_RANGE at the S-op (R137, R162). -/
def State.branch (s : State) (w : Wave) (w' : Wave) (t : DWord) : State :=
  if inSection (s.scalarSection w) t.toNat && decide (t.toNat < 2 ^ 56) then s.doneAt w' t.toNat
  else s.trapS w (.at .codeRange t.toNat)

/-- SBR (R161): a branch that is not taken does not check its target. -/
def execSbr (c : Cond) (a b : SReg) (off : BitVec 11) (s : State) : Result :=
  .next (s.sOp fun w => if Cond.holds c (w.readS a) (w.readS b) then s.branch w w (s.target w 11 off.toNat) else s.done w)

/-- SJMP (R161). -/
def execSjmp (off : BitVec 20) (s : State) : Result :=
  .next (s.sOp fun w => s.branch w w (s.target w 20 off.toNat))

/-- SCALL: sD takes the address after the S-op (R161). -/
def execScall (d : SReg) (off : BitVec 20) (s : State) : Result :=
  .next (s.sOp fun w => s.branch w (w.writeS d (BitVec.ofNat 64 (s.opAddr w + 4))) (s.target w 20 off.toNat))

/-- SRET: CODE_RANGE before MISALIGNED (R161, R162). -/
def execSret (a : SReg) (s : State) : Result :=
  .next (s.sOp fun w =>
    let t := w.readS a
    if !inSection (s.scalarSection w) (t.toNat / 4 * 4) || decide (2 ^ 56 ≤ t.toNat) then s.trapS w (.at .codeRange t.toNat)
    else if t.toNat % 4 != 0 then s.trapS w (.at .misaligned t.toNat)
    else s.doneAt w t.toNat)

/-- SLOOP (R161). -/
def execSloop (d : SReg) (off : BitVec 20) (s : State) : Result :=
  .next (s.sOp fun w =>
    if (1#64).ult (w.readS d) then s.branch w (w.writeS d (w.readS d - 1)) (s.target w 20 off.toNat)
    else s.done (w.writeS d 0))

end Sys2Proof.Machine
end

