-- ==== Sys2Proof/Machine/ScalarMem.lean ====
section
/-!
DEFINITION. Scalar memory access: SLD, SST, SATOM and SLDK (spec/07 R163 to R165).
-/

namespace Sys2Proof.Machine

/-- The effective address: s[ra] + off x w (R163). -/
def State.scalarAddr (s : State) (w : Wave) (a : SReg) (off : BitVec 6) (n : Nat) : Nat :=
  (w.readS a + s.pfx.imm 6 off.toNat * BitVec.ofNat 64 n).toNat

/-- ADDR_RANGE, then MISALIGNED (R104, R163). -/
def scalarTrap (va n : Nat) : Option Trap :=
  if addrBad va then some (.at .addrRange va) else if alignBad va n then some (.at .misaligned va) else none

/-- The hint of the group's XHNT (R139). -/
def Pfx.retention (p : Pfx) : LHint :=
  match p.hint with
  | some (.nt, _) => .nt
  | some (.keep, _) => .keep
  | some (.nol1, _) => .nol1
  | _ => LHint.none

/-- The count of the group's .rcN hint (R139). -/
def Pfx.rcCount (p : Pfx) : Option Nat :=
  match p.hint with
  | some (.rc, n) => some n.toNat
  | _ => Option.none

/-- A loaded value as a scalar register takes it (R163). -/
def scalarValue (n : Nat) (sx : Bool) (bs : List Byte) : DWord :=
  if sx then BitVec.ofInt 64 (sfield (numLE bs) 0 (8 * n)) else BitVec.ofNat 64 (numLE bs)

/-- The request of the S-op that is under way to the host or another device, by the address that it carries. -/
def State.scalarRemote (s : State) (i va : Nat) : Option Remote :=
  s.sys.links.remotes.find? fun r => r.wave == i && r.strm == .s && r.va == va && r.lanes.isEmpty && r.job.isNone && r.ray.isNone &&
    match r.op with
    | .write _ => false
    | _ => true

/-- The S-stream parks at its S-op on a fault (R164). -/
def State.parkScalar (s : State) (w : Wave) (ins : Instr) (write : Bool) (r : LaneReq) (f : XFault) : State :=
  s.park s.cur.1 .s w.ss.pc (some ins) (s.opAddr w + 4) write false [(r, f)]

/-- A request of the S-op that is answered away from this device: it waits for the reply (R449, R453). -/
def State.awaitReply (s : State) (w : Wave) (ins : Instr) (r : LaneReq) (va : Nat) (p : Loc) (op : FabOp) (write : Bool)
    (k : List Byte → Bool → State → State) : State :=
  match s.scalarRemote s.cur.1 va with
  | none => (s.ask s.cur.1 .s 0 [] va p op).waitS w .other
  | some m =>
    match m.reply with
    | none => s.waitS w .other
    | some (.data bs bad) => k (bs.drop (r.addr - va)) bad (s.dropRemote m.tag)
    | some .done => k (List.replicate 8 0) false (s.dropRemote m.tag)
    | some .refused => (s.dropRemote m.tag).parkScalar w ins write r ⟨0, xFabric⟩

/-- The sector that a scalar access lies in, read from away (R16, R450). -/
def State.awaitSector (s : State) (w : Wave) (ins : Instr) (r : LaneReq) (p : Loc) (write : Bool)
    (k : List Byte → Bool → State → State) : State :=
  let va := r.addr / 64 * 64
  s.awaitReply w ins r va (p.line.add (va % 256)) (.read 64) write k

/-- A scalar store to another device waits for its acknowledgement (R454); a refused one parks (R453). -/
def State.awaitWrite (s : State) (w : Wave) (ins : Instr) (r : LaneReq) (f : FarWrite) (k : State → State) : State :=
  let mine (m : Remote) : Bool := m.wave == s.cur.1 && m.strm == .s && m.lanes == [0] && m.va == r.addr / 64 * 64 && m.job.isNone
  match s.sys.links.remotes.find? mine with
  | none => (s.sendOut s.cur.1 .s 0 [0] f.home f.ov []).waitS w .other
  | some m =>
    match m.reply with
    | none => s.waitS w .other
    | some .refused => (s.dropRemote m.tag).parkScalar w ins true r ⟨0, xFabric⟩
    | some _ => k (s.dropRemote m.tag)

/-- A value that a scalar register takes, with the outcome of poison (R164, R417). -/
def State.scalarTake (s : State) (w : Wave) (n va : Nat) (bs : List Byte) (bad : Bool) (k : List Byte → State → State) : State :=
  if !bad then k bs s
  else
    let (s1, on) := s.consume s.cur.1 va w.ss.pc true
    if on then k (substBytes (s.ctxOf w) n) s1 else s1

/-- A scalar load: the read of its bytes, with parking, poison and the trip to another device (R163, R164, R412). -/
def State.scalarLoad (s : State) (w : Wave) (ins : Instr) (d : SReg) (n : Nat) (sx : Bool) (ann : Ann) (va : Nat) : State :=
  let r : LaneReq := ⟨0, va, [], 0⟩
  match s.greenStruck s.cur.1 w w.ss.pc [r] with
  | some z => z
  | none =>
    let g := s.readAll s.cur.1 w n ann s.pfx.retention [r]
    let finish (bs : List Byte) (z : State) : State := z.sOp fun y => z.done (y.writeS d (scalarValue n sx bs))
    match g.bad, g.away, g.vals with
    | (q, f) :: _, _, _ => g.s.parkScalar w ins false q f
    | [], (q, p) :: _, _ => g.s.awaitSector w ins q p false fun bs bad z =>
        z.scalarTake w n va (z.mergeFar w va (bs.take n)) (w.poisonOf va n bad) finish
    | [], [], (_, bs) :: _ => g.s.scalarTake w n va bs (!g.poisoned.isEmpty) finish
    | [], [], [] => s

/-- SLD (R163, R164). -/
def execSld (d a : SReg) (ann : Ann) (sz : SSize) (sx : Bool) (off : BitVec 6) (s : State) : Result :=
  .next (s.sOp fun w =>
    let n := SSize.bytes sz
    let va := s.scalarAddr w a off n
    match scalarTrap va n with
    | some t => s.trapS w t
    | none => s.scalarLoad w (.sld d a ann sz sx off) d n sx ann va)

/-- SLDK: the scalar constant path; the model reads what memory holds now (R129, R163). -/
def execSldk (d a : SReg) (sz : SSize) (sx : Bool) (off : BitVec 6) (s : State) : Result :=
  .next (s.sOp fun w =>
    let n := SSize.bytes sz
    let va := s.scalarAddr w a off n
    match scalarTrap va n with
    | some t => s.trapS w t
    | none => s.scalarLoad w (.sldk d a sz sx off) d n sx ⟨.rlx, .d⟩ va)

/-- A .rel or .ar S-op waits for earlier tickets (R42), and at scope .p for its writes to other devices (R128). -/
def State.relWaits (s : State) (w : Wave) (ann : Ann) : Bool :=
  annRel ann && (!w.joined || (ann.scope == .p && s.unacknowledged s.cur.1))

/-- Why such an S-op waits: for tickets as a join point does (R40, R42), or for replies. -/
def Wave.relWait (w : Wave) : Wait := if w.joined then .other else .join

/-- What a wave's write to global memory checks after its address: REGION_ILLEGAL, TWIN_ILLEGAL, WATCH. -/
def State.scalarWriteTrap (s : State) (w : Wave) (atomic : Bool) (ann : Ann) (va n : Nat) : Option Trap :=
  if regionIllegal w atomic ann then some (.of .regionIllegal)
  else if s.twinIllegal w then some (.of .twinIllegal)
  else (s.watchHit w .s [(0, va, n)]).map fun t => { t with mask := 0 }

/-- SST (R163). -/
def execSst (d a : SReg) (ann : Ann) (sz : SSize) (off : BitVec 6) (s : State) : Result :=
  .next (s.sOp fun w =>
    let n := SSize.bytes sz
    let va := s.scalarAddr w a off n
    match (scalarTrap va n).or (s.scalarWriteTrap w false ann va n) with
    | some t => s.trapS w t
    | none =>
      if s.relWaits w ann then s.waitS w w.relWait
      else
        let s1 := if annRel ann then s.release w.core (s.scopeOf w ann.scope) else s
        let p := s1.writeAll s.cur.1 w .s s.pfx.rcCount s.pfx.retention [⟨0, va, bytesLE n (w.readS d).toNat, 0⟩]
        if p.full then s.trapS w (.at .regionOverflow va)
        else
          match p.bad with
          | (q, f) :: _ => p.s.parkScalar w (.sst d a ann sz off) true q f
          | [] =>
            match p.far with
            | [] => p.s.sOp fun y => p.s.done (y.rewatch .s)
            | f :: _ => p.s.awaitWrite w (.sst d a ann sz off) ⟨0, va, bytesLE n (w.readS d).toNat, 0⟩ f fun z =>
                z.sOp fun y => z.done (y.rewatch .s))

/-- The operation of SATOM with its width (R165). -/
def satomOp (op : SAtomOp) (wide : Bool) : AtomOp :=
  match op with
  | .add => .add wide | .and => .and wide | .or => .or wide | .xor => .xor wide | .min => .min wide | .max => .max wide
  | .minu => .minu wide | .maxu => .maxu wide | .swap => .swap wide | .cas => .cas wide | .fadd => .fadd wide

/-- The atomic of an S-op: performed on this core or at its home, here or on another device (R119, R164, R165, R228). `k` takes
the old bytes. -/
def State.scalarAtomic (s : State) (w : Wave) (ins : Instr) (a : Atomic) (r : LaneReq) (k : List Byte → State → State) : State :=
  let i := s.cur.1
  let n := AtomOp.bytes a.op
  -- a poisoned location changes no byte: the old value consumes poison, and without one the event is logged
  let poisoned (z : State) : State :=
    if a.ret then z.scalarTake w n r.addr [] true k else k [] (z.report (some i) ⟨0x0A, 0, w.site, r.addr, w.ss.pc, 0⟩)
  match s.greenStruck i w w.ss.pc [r] with
  | some z => z
  | none =>
    let s1 := if annRel a.ann then s.release w.core (s.scopeOf w a.ann.scope) else s
    let (s2, ok, bad) := State.reach (s.viaOf w) (writing.hinted s.pfx.retention) s1 [r]
    match bad, ok with
    | (q, f) :: _, _ => s2.parkScalar w ins true q f
    | [], (q, p) :: _ =>
      if p.near || s2.heldHere i a q then
        match s2.atomOne i a q p with
        | (s3, some old) =>
          k old (if s2.atomLocal i a then (s3.signAtoms i n [q]).countReads i (if p.near then [(q.addr, p)] else []) else s3)
        | (s3, none) => poisoned s3
      else if s2.atomLocal i a then
        s2.awaitSector w ins q p true fun bs bad z =>
          if w.poisonOf q.addr n bad then poisoned z
          else
            let (z1, old) := z.atomHere i a.op q p (bs.take n)
            k old (z1.signAtoms i n [q])
      else
        s2.awaitReply w ins q q.addr p (.atomic a.op (BitVec.ofNat 64 (numLE q.data)) q.swap a.ret) true fun bs bad z =>
          -- without a returned value the home device has logged the event, or the device is lost (R455)
          if bad && a.ret then poisoned z else k bs z
    | [], [] => s

/-- SATOM (R165). -/
def execSatom (d a : SReg) (op : SAtomOp) (wide nr ordm : Bool) (ann : Ann) (s : State) : Result :=
  .next (s.sOp fun w =>
    let n := if wide then 8 else 4
    let va := (w.readS a).toNat
    let at_ : Atomic := ⟨satomOp op wide, ann, ordm, !nr, false⟩
    match (scalarTrap va n).or (s.scalarWriteTrap w true ann va n) with
    | some t => s.trapS w t
    | none =>
      if s.relWaits w ann then s.waitS w w.relWait
      else
        let swap := if h : d.val + 1 < 64 then w.readS ⟨d.val + 1, h⟩ else 0
        let r : LaneReq := ⟨0, va, bytesLE n (w.readS d).toNat, BitVec.ofNat 64 (swap.toNat % 2 ^ (8 * n))⟩
        if w.isGreen && s.greenFull w (w.green.write (overlayOf [r]) []) then s.trapS w (.at .regionOverflow va)
        else s.scalarAtomic w (.satom d a op wide nr ordm ann) at_ r fun bs z =>
          z.sOp fun y => z.done ((if nr then y else y.writeS d (BitVec.ofNat 64 (numLE bs))).rewatch .s))

end Sys2Proof.Machine
end

