-- ==== Sys2Proof/Machine/ScalarSys.lean ====
section
/-!
DEFINITION. Scalar instructions that steer the wave: lane dispatch and results (spec/07 R166 to R168), register blocks (R169,
spec/03 R62), bonds (R172), barriers (R173, R174), traps and system calls (R175), special registers (R176, spec/16 R345),
NOP, YIELD, EXIT and RSEED (R178 to R180), and the prefixes (spec/06 R139).
-/

namespace Sys2Proof.Machine

/-- An S-op that kills its wave at handler level (R344). -/
def State.userOp (s : State) (f : Wave → State) : State :=
  s.sOp fun w => if w.priv.handler then s.kill s.cur.1 .handlerFault 0 0 else f w

/-- A join point: it waits until every earlier ticket is complete (R39). -/
def State.joinPoint (s : State) (w : Wave) (f : State) : State := if w.joined then f else s.waitS w .join

/-- The number that an immediate field of ten bits names, with an XIM above it. -/
def State.number (s : State) (n : BitVec 10) : Int := (s.pfx.imm 10 n.toNat).toInt

/-! ## Lane dispatch (R35, R166 to R168) -/

/-- The block address of LRUN: the offset is zero-extended without an XIM and sign-extended with one (R135, R166). -/
def State.blockAddr (s : State) (w : Wave) (off : BitVec 17) : DWord :=
  let o := match s.pfx.xim with
    | none => BitVec.ofNat 64 off.toNat
    | some _ => s.pfx.imm 17 off.toNat
  BitVec.ofNat 64 (s.laneSection w).1 + 4 * o

/-- The snapshots of a ticket: s[ra + i] for i < n, else 0 (R35). -/
def Wave.snaps (w : Wave) (a : SReg) (n : Nat) : Vector DWord 4 :=
  let one (i : Nat) : DWord := if i < n then (if h : a.val + i < 64 then w.readS ⟨a.val + i, h⟩ else 0) else 0
  #v[one 0, one 1, one 2, one 3]

/-- LRUN (R35, R63, R166, R167). -/
def execLrun (a : SReg) (cnt : BitVec 3) (off : BitVec 17) (s : State) : Result :=
  .next (s.userOp fun w =>
    let l := s.blockAddr w off
    if !inSection (s.laneSection w) l.toNat || decide (2 ^ 56 ≤ l.toNat) then s.trapS w (.at .codeRange l.toNat)
    else if 8 ≤ w.ls.tickets.length then s.waitS w .ticket
    else
      let t : Ticket := ⟨l.toNat, w.soft.ext, w.snaps a cnt.toNat, w.soft.bond, w.soft.seed, w.soft.epoch⟩
      s.done { w with ls := { w.ls with tickets := w.ls.tickets ++ [t] } })

/-- SPOP (R38, R168). -/
def execSpop (d : SReg) (s : State) : Result :=
  .next (s.userOp fun w =>
    match w.ls.results with
    | [] => s.waitS w .entry
    | e :: es => s.done ({ w with ls := { w.ls with results := es } }.writeS d e))

/-- LDRAIN (R39, R168). -/
def execLdrain (s : State) : Result := .next (s.userOp fun w => s.joinPoint w (s.done w))

/-- WCNT: the four wait counters, six bits each (R168). -/
def execWcnt (d : SReg) (s : State) : Result :=
  .next (s.sOp fun w =>
    let ctr := w.ls.w
    s.done (w.writeS d (BitVec.ofNat 64
      (ctr[(0 : Fin 4)].toNat + ctr[(1 : Fin 4)].toNat * 2 ^ 6 + ctr[(2 : Fin 4)].toNat * 2 ^ 12 + ctr[(3 : Fin 4)].toNat * 2 ^ 18))))

/-! ## Register blocks (R61, R62, R169, R376) -/

/-- A team has its place on its cores: it is resident, or it is a twin copy that is held there while its primary copy runs (R475). -/
def Team.placed (t : Team) : Bool := t.st == .resident || (t.st == .waitingReplay && t.twin)

def State.placedWave (s : State) (w : Wave) : Bool := w.st == .resident && ((s.teamOf w).map Team.placed).getD false

/-- Blocks of a core's pool that are not free. -/
def State.blocksUsed (s : State) (core : Nat) : Nat :=
  s.waves.foldl (fun n w =>
    if w.core == core && s.placedWave w then n + (if s.reserves w then (s.launchOf w).regs - 1 else w.ss.blocks) else n) 0

/-- The pool of 512 blocks covers a request, and the wave's own releases have returned (R62, R169); its own reservation always does
(R376). -/
def State.covers (s : State) (w : Wave) (k : Nat) : Bool :=
  s.reserves w || (w.ss.release.isEmpty && decide (s.blocksUsed w.core + (k - w.ss.blocks) ≤ 512))

/-- The requests of a core, oldest first (R62). -/
def State.grantsOf (s : State) (core : Nat) : List Nat := ((s.cores[core]?).map Core.grants).getD []

/-- REGX.acq (R62, R169): granted at once, or in the core's order. -/
def execRegxAcq (k : BitVec 10) (s : State) : Result :=
  .next (s.userOp fun w =>
    let n := s.number k
    let k := n.toNat
    if n < 0 || 7 < n then s.trapS w (.of .illegalOperand)
    else if (s.launchOf w).regs < k + 1 then s.trapS w (.aux_ .regLimit k)
    else if k ≤ w.soft.ext then s.done w
    else if w.ss.acquire.isSome then s.waitS w .other
    else if (s.reserves w || (s.grantsOf w.core).isEmpty) && s.covers w k then s.done (w.grant k)
    else
      (s.setWave { w with ss := { w.ss with acquire := some k, waitS := some .other } }).modCore w.core fun c =>
        { c with grants := c.grants ++ [s.cur.1] })

/-- REGX.rel (R62): the blocks return when every earlier ticket is complete. -/
def execRegxRel (k : BitVec 10) (s : State) : Result :=
  .next (s.userOp fun w =>
    let n := s.number k
    let k := n.toNat
    if n < 0 || 7 < n then s.trapS w (.of .illegalOperand)
    else if w.soft.ext ≤ k then s.done w
    else
      let w1 := { w with soft := { w.soft with ext := k } }
      s.done (if w.joined then { w1 with ss := { w1.ss with blocks := k } }
        else { w1 with ss := { w1.ss with release := w1.ss.release ++ [(w.ls.tickets.length, k)] } }))

/-! ## Bonds (R172, R243) -/

/-- Member k of a bond value. -/
def bondMember (v : DWord) (k : Nat) : Nat := field v.toNat (6 * k) 6

/-- Members of a bond value: none for the solo bond. -/
def bondMembers (v : DWord) : List Nat := (List.range (field v.toNat 36 3)).map (bondMember v)

/-- The layout of R243. -/
def bondValid (v : DWord) (waves num : Nat) : Bool :=
  let cnt := field v.toNat 36 3
  if v = 0 then true
  else
    decide (2 ≤ cnt) && decide (cnt ≤ 6) && field v.toNat 39 25 == 0 &&
    (List.range 6).all (fun k => decide (k < cnt) || bondMember v k == 0) &&
    (List.range (cnt - 1)).all (fun k => decide (bondMember v k < bondMember v (k + 1))) &&
    (bondMembers v).all (fun m => decide (m < waves)) && (bondMembers v).contains num

/-- BOND (R172). -/
def execBond (a : SReg) (s : State) : Result :=
  .next (s.userOp fun w =>
    let v := w.readS a
    if bondValid v (s.launchOf w).waves w.num then s.done { w with soft := { w.soft with bond := v } }
    else s.trapS w (.aux_ .bondInvalid w.soft.bond.toNat))

/-! ## Barriers (R173, R174) -/

/-- A wait for a phase (R174). -/
def State.await (s : State) (w : Wave) (d : SReg) (b : BarSt) (clear : Wave → Wave) : State :=
  match b with
  | .idle => s.trapS w (.of .barSequence)
  | .arrived => s.waitS w .other
  | .ended ab => s.done ((clear w).writeS d (if ab then 1 else 0))

/-- BAR.arr (R174). -/
def execBarArr (id : BitVec 10) (s : State) : Result :=
  .next (s.userOp fun w =>
    let n := s.number id
    if h : 0 ≤ n ∧ n.toNat < 16 then
      let b : Fin 16 := ⟨n.toNat, h.2⟩
      if w.inRegion then s.trapS w (.of .regionIllegal)
      else if w.ss.bars[b] != .idle then s.trapS w (.of .barSequence)
      else s.joinPoint w
        ((((s.release w.core (s.scopeOf w .t)).done { w with ss := { w.ss with bars := w.ss.bars.set b .arrived } })).settleBar w.team b)
    else s.trapS w (.of .illegalOperand))

/-- BAR.wait (R174). -/
def execBarWait (d : SReg) (id : BitVec 10) (s : State) : Result :=
  .next (s.userOp fun w =>
    let n := s.number id
    if h : 0 ≤ n ∧ n.toNat < 16 then
      let b : Fin 16 := ⟨n.toNat, h.2⟩
      s.await w d w.ss.bars[b] fun y => { y with ss := { y.ss with bars := y.ss.bars.set b .idle } }
    else s.trapS w (.of .illegalOperand))

/-- CBAR.arr (R174). -/
def execCbarArr (id : BitVec 10) (s : State) : Result :=
  .next (s.userOp fun w =>
    let n := s.number id
    if h : 0 ≤ n ∧ n.toNat < 4 then
      let b : Fin 4 := ⟨n.toNat, h.2⟩
      if w.inRegion then s.trapS w (.of .regionIllegal)
      else if w.ss.cbars[b] != .idle then s.trapS w (.of .barSequence)
      else s.joinPoint w
        ((((s.release w.core .b).done { w with ss := { w.ss with cbars := w.ss.cbars.set b .arrived } })).settleCbar w.team b)
    else s.trapS w (.of .illegalOperand))

/-- CBAR.wait (R174). -/
def execCbarWait (d : SReg) (id : BitVec 10) (s : State) : Result :=
  .next (s.userOp fun w =>
    let n := s.number id
    if h : 0 ≤ n ∧ n.toNat < 4 then
      let b : Fin 4 := ⟨n.toNat, h.2⟩
      s.await w d w.ss.cbars[b] fun y => { y with ss := { y.ss with cbars := y.ss.cbars.set b .idle } }
    else s.trapS w (.of .illegalOperand))

/-! ## Traps and system calls (R175) -/

/-- TRAP (R175). -/
def execTrap (n : BitVec 10) (s : State) : Result :=
  .next (s.userOp fun w =>
    let k := s.number n
    if k < 0 || 65535 < k then s.trapS w (.of .illegalOperand) else s.trapS w (.aux_ .userTrap k.toNat))

/-- SYSC (R175). -/
def execSysc (d a : SReg) (n : BitVec 10) (s : State) : Result :=
  .next (s.userOp fun w =>
    let k := s.number n
    if k < 0 || 65535 < k then s.trapS w (.of .illegalOperand)
    else s.trapSysc w ⟨.syscall, (w.readS a).toNat, k.toNat, 0⟩ d)

/-! ## Special registers (R176, R177, R345) -/

/-- sys.place (R345). -/
def State.place (s : State) (w : Wave) : DWord :=
  let twin := ((s.teamOf w).map Team.twin).getD false
  BitVec.ofNat 64 ((if twin then 2 ^ 15 else 0) + w.core % 64 * 2 ^ 8 + w.quarter % 4 * 2 ^ 4 + w.core / 8 % 8)

/-- The base of the team image that a team's save slot holds (R360, R369). -/
def State.imageBase (s : State) (t : Nat) : Nat :=
  match s.teams[t]? with
  | none => 0
  | some x =>
    let c := s.context (((s.grids[x.grid]?).map Grid.ctx).getD 0)
    c.savebase + 4096 * c.slotsize * x.slot

/-- A special register that SRDX reads: of user code, then of the handler (R176, R345). -/
def State.special (s : State) (w : Wave) (n : Nat) : Option DWord :=
  let c := s.ctxOf w
  match n with
  | 0x000 => some (w.soft.fflags.setWidth 64)
  | 0x001 => some w.soft.bond
  | 0x002 => some (BitVec.ofNat 64 (((s.cores[w.core]?).map Core.cycles).getD 0))
  | 0x003 => some w.soft.seed
  | 0x004 => some (BitVec.ofNat 64 w.soft.ext)
  | 0x005 => some (BitVec.ofNat 64 w.ls.tickets.length)
  | 0x006 => some (BitVec.ofNat 64 w.ls.results.length)
  | 0x100 => some w.priv.cause
  | 0x101 => some w.priv.trappc
  | 0x102 => some w.priv.trapva
  | 0x103 => some w.priv.trapaux
  | 0x104 => some (w.priv.lanemask.setWidth 64)
  -- a write-only field reads zero (R6)
  | 0x105 => some 0
  | 0x106 => some w.priv.hret
  | 0x107 => some c.ctxctl
  | 0x108 => some c.subst
  | 0x109 => some c.tring
  | 0x10A => some (BitVec.ofNat 64 c.tidx)
  | 0x10B => some (BitVec.ofNat 64 (s.imageBase w.team))
  | 0x10C => some ((s.ctxIdOf w).setWidth 64)
  | 0x10D => some (s.place w)
  | _ =>
    if 0x200 ≤ n && n < 0x240 then
      some (if n = 0x200 then 0 else if h : n - 0x200 < 64 then w.ss.s[(⟨n - 0x200, h⟩ : SReg)] else 0)
    else none

/-- The outcome of a number that R176 or R345 refuses; none where the access goes on. -/
def specialTrap (w : Wave) (n : Int) : Option Trap :=
  if n < 0 || 0x3FF < n then some (.of .illegalOperand)
  else if 0x100 ≤ n && !w.priv.handler then some (.at .privilege n.toNat)
  else none

/-- SRDX (R176, R177, R345). -/
def execSrdx (d : SReg) (n : BitVec 10) (s : State) : Result :=
  .next (s.sOp fun w =>
    let k := s.number n
    match specialTrap w k with
    | some t => s.trapS w t
    | none =>
      match s.special w k.toNat with
      | some x => s.done (w.writeS d x)
      | none => s.trapS w (.of .illegalOperand))

/-- SWRX (R176, R177, R345, R354). -/
def execSwrx (a : SReg) (n : BitVec 10) (s : State) : Result :=
  .next (s.sOp fun w =>
    let k := s.number n
    let x := w.readS a
    match specialTrap w k with
    | some t => s.trapS w t
    | none =>
      match k.toNat with
      | 0x000 => s.done { w with soft := { w.soft with fflags := x.setWidth 5 } }
      | 0x105 => s.endHandler w x.toNat
      | 0x106 => s.done { w with priv := { w.priv with hret := x } }
      | m =>
        if h : 0x200 ≤ m ∧ m < 0x240 then
          if m = 0x200 then s.done w
          else s.done { w with ss := { w.ss with s := w.ss.s.set (m - 0x200) x (by omega) } }
        else s.trapS w (.of .illegalOperand))

/-! ## NOP, YIELD, EXIT, RSEED (R178 to R180) -/

/-- NOP (R178). -/
def execNop (s : State) : Result := .next (s.sOp fun w => s.done w)

/-- YIELD (R178). -/
def execYield (n : BitVec 10) (s : State) : Result :=
  .next (s.userOp fun w =>
    let k := s.number n
    if k < 0 || 1023 < k then s.trapS w (.of .illegalOperand)
    else s.done { w with ss := { w.ss with yieldN := k.toNat, yieldAt := s.cyclesOf w.core } })

/-- EXIT (R33, R39, R179). -/
def execExit (s : State) : Result :=
  .next (s.userOp fun w =>
    if w.inRegion then s.trapS w (.of .regionIllegal)
    else s.joinPoint w ((s.done w).retireWave s.cur.1))

/-- RSEED (R180). -/
def execRseed (a : SReg) (s : State) : Result :=
  .next (s.userOp fun w => s.done { w with soft := { w.soft with seed := w.readS a, epoch := w.soft.epoch + 1 } })

/-! ## Prefixes (R139) -/

/-- XIM: its payload extends the immediate of the group's S-op. -/
def execXim (payload : BitVec 26) (s : State) : Result :=
  .next { s with pfx := { s.pfx with xim := some payload, words := s.pfx.words + 1 } }

/-- XHNT: its hint acts on the group's S-op. -/
def execXhnt (kind : HintKind) (n : BitVec 8) (s : State) : Result :=
  .next { s with pfx := { s.pfx with hint := some (kind, n), words := s.pfx.words + 1 } }

end Sys2Proof.Machine
end

