-- ==== Sys2Proof/Machine/Job.lean ====
section
/-!
DEFINITION. Engine jobs: the lines that an engine reaches, its reads and writes (spec/05 R111, R115, R130; spec/12 R323),
conflicts of footprints (R307, spec/10 R240), the completion of a job with its tag, chunks and flags (spec/12 R305, R314,
R327), and the 64-byte record that copy and matrix jobs share (spec/10 R252).
-/

namespace Sys2Proof.Machine

/-! ## Lines that an engine reaches -/

/-- A line that an engine reaches: its number, its place, and for a line away from this device the bytes of the reply. -/
structure EngLine where
  line : Nat
  home : Loc
  data : Option (List Byte × Bool)

/-- What reaching gave: lines, a fault with its address, or requests that are not answered. -/
structure Eng where
  s : State
  lines : List EngLine
  fault : Option (Nat × XFault)
  waiting : Bool

/-- The request of a job for a line. -/
def State.jobRemote (s : State) (j : Nat) (va : Nat) : Option Remote :=
  s.sys.links.remotes.find? fun r => r.job == some j && r.va == va &&
    match r.op with
    | .read _ => true
    | _ => false

/-- The requests that a state has sent since another belong to a job. -/
def State.sentBy (s z : State) (j : Nat) : State :=
  let n := s.sys.links.remotes.length
  let k := z.sys.links
  { z with sys := { z.sys with links := { k with
      remotes := mapIx (fun i (r : Remote) => if n ≤ i then { r with job := some j } else r) 0 k.remotes } } }

/-- Sectors of a line that a mask spans: the first, and how many from it on. -/
def secSpan (secs : BitVec 4) : Nat × Nat :=
  let on := (List.range 4).filter fun k => secs.getLsbD k
  let lo := on.head?.getD 0
  (lo, on.getLast?.getD 0 + 1 - lo)

/-- Translate one address in each line and bring the sectors that the job reads there (R16); a read of a line that lies elsewhere
asks for it and waits (R449, R453). -/
def State.engineReach (j : Nat) (v : Via) (k : Kindly) : State → List (Nat × BitVec 4) → Eng
  | s, [] => ⟨s, [], none, false⟩
  | s, (va, secs) :: vs =>
    match s.requestLine v.part v.asid va k secs with
    | .error f => ⟨s, [], some (va, f), false⟩
    | .ok (p, s1) =>
      let add (z : State) (d : Option (List Byte × Bool)) (wait : Bool) : Eng :=
        let e := State.engineReach j v k z vs
        { e with lines := ⟨va / 256, p.line, d⟩ :: e.lines, waiting := e.waiting || wait }
      if p.near then add (s1.recallGathers p) none false
      else if k.write then add s1 none false
      else
        let (lo, n) := secSpan secs
        let from_ := va / 256 * 256 + 64 * lo
        match s1.jobRemote j from_ with
        | none =>
          let wave := (s1.jobs[j]?.map Job.wave).getD 0
          add (s1.sentBy (s1.ask wave .s 0 [] from_ (p.line.add (64 * lo)) (.read (64 * n))) j) none true
        | some r =>
          match r.reply with
          | none => add s1 none true
          | some (.data bs bad) => add s1 (some (List.replicate (64 * lo) 0 ++ bs, bad)) false
          | some .done => add s1 (some ([], true)) false
          | some .refused => ⟨s1, [], some (va, ⟨0, xFabric⟩), false⟩

/-- A job that waits for replies has sent its requests and done nothing else. -/
def State.keepAsking (s z : State) : State := { s with sys := { s.sys with links := z.sys.links } }

/-- Forget the requests of a job. -/
def State.dropJobRemotes (s : State) (j : Nat) : State :=
  { s with sys := { s.sys with links := { s.sys.links with remotes := s.sys.links.remotes.filter fun r => r.job != some j } } }

/-- A request that reads. -/
def Remote.reads (r : Remote) : Bool :=
  match r.op with
  | .read _ => true
  | _ => false

/-- Forget the reads of a job: their replies are used. -/
def State.dropJobReads (s : State) (j : Nat) : State :=
  { s with sys := { s.sys with links := { s.sys.links with
    remotes := s.sys.links.remotes.filter fun r => !(r.job == some j && r.reads) } } }

/-- A job's write of one line that lies away: posted to the host, or sent to another device, whose acknowledgement the job awaits
(R414, R454). -/
def State.jobSend (s : State) (jn wave : Nat) (home : Loc) (ov : Overlay) (poison : List Nat) : State :=
  s.sentBy (s.sendOut wave .s 0 [] home ov poison) jn

/-- A job's addition to an element that lies away (R265, R311). -/
def State.jobAdd (s : State) (jn wave va : Nat) (p : Loc) (op : FabOp) (poison : Bool) : State :=
  s.sentBy (s.askFor wave .s 0 [] va p op poison) jn

def lineOf (ls : List EngLine) (va : Nat) : Option EngLine := ls.find? fun l => l.line == va / 256

/-- A job reads its wave's green bytes merged over memory when it was issued inside a checked region (R323). -/
def Job.green (j : Job) : Bool := j.region && !j.unchecked

/-- A byte as a job reads it. -/
def State.engineByte (s : State) (g : Option Green) (ls : List EngLine) (va : Nat) : Byte :=
  match g.bind fun x => ovGet x.glob va with
  | some b => b
  | none =>
    match lineOf ls va with
    | none => 0
    | some l =>
      match l.data with
      | some (bs, _) => (bs[va % 256]?).getD 0
      | none => s.mem.byte (l.home.add (va % 256))

/-- The sector of an address is poisoned, as a job reads it. -/
def State.enginePoison (s : State) (g : Option Green) (ls : List EngLine) (va : Nat) : Bool :=
  match g.filter fun x => x.glob.any fun e => e.1 / 64 == va / 64 with
  | some x => x.poison.contains (va / 64)
  | none =>
    match lineOf ls va with
    | none => false
    | some l =>
      match l.data with
      | some (_, bad) => bad
      | none => s.mem.poisoned (l.home.add (va % 256))

/-- The green writes that a job of a wave reads. -/
def State.greenFor (s : State) (j : Job) : Option Green := if j.green then (s.waves[j.wave]?).map Wave.green else none

/-! ## Watched engine writes (R469, R472) -/

/-- Watchpoints of a core with ENG set that a write of an engine matches, once for each watchpoint. -/
def State.engineHits (s : State) (j : Job) (v : Via) (ov : Overlay) (engine : Nat) : List WatchHit :=
  match s.cores[v.core]? with
  | none => []
  | some c =>
    (mapIx (fun k wp => (k, wp)) 0 c.watch.toList).filterMap fun e =>
      if bitOf e.2.2.toNat 62 then
        (least (ov.filterMap fun b => watchByte e.2 v.part v.asid b.1 1)).map fun b =>
          (⟨some j.wave, (s.waves[j.wave]?.map s.ctxIdOf).getD 0, e.1, b, v.core, engine, c.cycles⟩ : WatchHit)
      else none

/-- Hits that are to be reported. -/
def State.noteHits (s : State) (hits : List WatchHit) : State :=
  { s with sys := { s.sys with watchHits := s.sys.watchHits ++ hits } }

/-! ## Writes of a job -/

/-- Write bytes at the home slices for a job, each sector with its poison; a job of a checked region writes green (R323). -/
def State.engineWrite (s : State) (jn : Nat) (j : Job) (v : Via) (ls : List EngLine) (ov : Overlay) (bad : List Nat) (engine : Nat) :
    State :=
  match s.waves[j.wave]? with
  | none => s
  | some w =>
    if j.green then
      let full := fullSectors ov
      let g := s.greenFor j
      let old := (dedup (ov.map fun e => e.1 / 64)).filter fun k => !full.contains k && s.enginePoison g ls (k * 64)
      let new := w.green.write ov (bad ++ old)
      if s.greenFull w new then s.overflow j.wave ((ov.head?.map fun e => e.1).getD 0) 0
      else s.modWave j.wave fun y => s.signed { y with green := { new with hits := new.hits ++ s.engineHits j v ov engine } } ov 0
    else
      let s1 := (ovLines ov).foldl (fun z k =>
        let part := ovLine ov k
        match lineOf ls (k * 256) with
        | none => z
        | some l => if l.home.near then z.homeWrite v l.home part bad else z.jobSend jn j.wave l.home part bad) s
      (s1.noteHits (s1.engineHits j v ov engine)).dropJobReads jn

/-! ## Footprints (R307, R240) -/

/-- Two ranges touch: lines of 256 bytes in global memory and scratchpad, bytes in the engine's own memories. -/
def Foot.meets (a b : Foot) : Bool :=
  let g := match a.space with
    | .glob => 256
    | .scr _ _ => 256
    | _ => 1
  a.space == b.space && a.len != 0 && b.len != 0 &&
    decide (a.lo / g ≤ (b.lo + b.len - 1) / g) && decide (b.lo / g ≤ (a.lo + a.len - 1) / g)

def meetsAny (xs ys : List Foot) : Bool := xs.any fun a => ys.any a.meets

/-- An edge from an earlier job: RAW, WAR or WAW (R130). -/
def Job.before (e j : Job) : Bool := meetsAny e.writes (j.reads ++ j.writes) || meetsAny e.reads j.writes

def JobKind.matrix : JobKind → Bool
  | .mldw | .mma | .mzero | .mdrain _ | .fence => true
  | _ => false

def JobKind.drain : JobKind → Bool
  | .mdrain _ | .fence => true
  | _ => false

/-- A job waits for an earlier accepted job of its bay or core; a drain waits for every earlier matrix job of its team, and a
fence for the same (R130, R240, R265). -/
def State.jobBlocked (s : State) (jn : Nat) (j : Job) : Bool :=
  (s.jobs.take jn).any fun e =>
    !e.complete && ((e.bay == j.bay && e.before j) || (j.kind.drain && e.kind.matrix && e.team == j.team))

/-! ## Completion (R305, R314, R327) -/

/-- Flags of a job merge into the place that the wave's state gives (R327). -/
def State.mergeFlags (s : State) (i : Nat) (fl : Flags) : State :=
  match s.waves[i]? with
  | none => s
  | some w =>
    if w.gone then s.modTeam w.team fun t => { t with flags := t.flags ||| fl }
    else s.modWave i fun y => { y with soft := { y.soft with fflags := y.soft.fflags ||| fl } }

/-- The half of its team's memory in which a wave runs. -/
def State.oddOf (s : State) (i : Nat) : Bool := ((s.waves[i]?).map Wave.odd).getD false

/-- Set the completion bits of chunks that a job still owns (R314). -/
def State.landChunks (s : State) (team : Nat) (odd : Bool) (jn : Nat) (p : Nat → Bool) : State :=
  s.modTeam team fun t =>
    let h := t.half odd
    t.setHalf odd { h with pending := h.pending.filter fun e => !(e.2 == jn && p e.1) }

/-- The tag of a job takes its status, where the tag still names it (R305). -/
def Wave.endTag (w : Wave) (jn : Nat) (tag : BitVec 6) (status : BitVec 4) : Wave :=
  let k : Fin 64 := ⟨tag.toNat, tag.isLt⟩
  if w.soft.tags[k].job == some jn then
    { w with soft := { w.soft with tags := w.soft.tags.set k { w.soft.tags[k] with complete := true, status := status } } }
  else w

/-- A job completes: its tag, the chunks it owns, its flags, and the retirement of its team that may wait for it (R34). -/
def State.finishJob (s : State) (jn : Nat) (status : BitVec 4) (fl : Flags) : State :=
  match s.jobs[jn]? with
  | none => s
  | some j =>
    if j.complete then s
    else
      let s1 := s.modJob jn fun y => { y with complete := true, status := status, flags := fl, held := none }
      let s2 := match j.tag with
        | none => s1
        | some t => s1.modWave j.wave fun w => w.endTag jn t status
      let s3 := s2.landChunks j.team (s.oddOf j.wave) jn fun _ => true
      let s4 := if fl = 0 then s3 else j.members.foldl (fun z i => z.mergeFlags i fl) s3
      (s4.dropJobRemotes jn).retireTeam j.team

def stDone : BitVec 4 := 0
def stBadRecord : BitVec 4 := 1
def stFault : BitVec 4 := 2
def stPoisoned : BitVec 4 := 3
def stEscape : BitVec 4 := 4

/-- A job meets a fault: it is held until Dorzin answers, and a fault that is fatal at once ends it, with the flags of what it has
moved (R98, R266, R401). -/
def State.jobFault (s : State) (jn : Nat) (j : Job) (v : Via) (va : Nat) (f : XFault) (write : Bool) : State :=
  if f.fatal then s.finishJob jn stFault j.flags
  else
    let ctx := (s.waves[j.wave]?.map s.ctxIdOf).getD 0
    let (s1, id, _) := s.faultRecord v.part v.asid ctx (.job jn) f va write false
    s1.modJob jn fun y => { y with held := some id }

/-- Requests of a job that other devices have still to perform. -/
def State.jobWrites (s : State) (jn : Nat) : List Remote := s.sys.links.remotes.filter fun r => r.job == some jn && !r.reads

/-- A job that has made its writes: it completes when every device has acknowledged its own. One that writes to a lost device
completes FAULT (R455); a refused request holds it (R453). Its flags count however it ends (R98, R327). -/
def State.settleJob (s : State) (jn : Nat) (v : Via) (status : BitVec 4) (fl : Flags) : State :=
  match s.jobs[jn]? with
  | none => s
  | some j =>
    let ws := s.jobWrites jn
    if ws.any fun r => (r.dev.map fun d => s.sys.links.lost.contains d).getD false then s.finishJob jn stFault fl
    else
      match ws.find? fun r => r.reply == some .refused with
      | some r =>
        (s.modJob jn fun y => { y with ending := some (status, fl), flags := fl }).jobFault jn j v r.va ⟨0, xFabric⟩ true
      | none =>
        if ws.any fun r => r.reply.isNone then s.modJob jn fun y => { y with ending := some (status, fl) }
        else s.finishJob jn status fl

/-- The via of a job: partition and address space of its wave's context, on its own core. -/
def State.viaJob (s : State) (j : Job) : Via :=
  match s.waves[j.wave]? with
  | none => ⟨0, 0, j.core⟩
  | some w => { s.viaOf w with core := j.core }

/-- A range of bytes lies in the union of ranges: from its lowest byte on, with fuel. -/
def coveredBy (rs : List Range) : Nat → Nat → Nat → Bool
  | 0, lo, hi => decide (hi ≤ lo)
  | n + 1, lo, hi =>
    decide (hi ≤ lo) ||
      match rs.find? fun r => decide (r.lo ≤ lo) && decide (lo < r.lo + r.len) with
      | none => false
      | some r => coveredBy rs n (r.lo + r.len) hi

/-- The global part of a footprint lies in ranges (R323). -/
def insideRanges (rs : List Range) (f : Foot) : Bool :=
  f.space != .glob || coveredBy rs (rs.length + 1) f.lo (f.lo + f.len)

/-- FOOTPRINT_ESCAPE: reads outside the region's inputs and outputs, or writes outside its outputs (R323). -/
def State.escapes (s : State) (j : Job) : Bool :=
  j.region &&
    match (s.waves[j.wave]?).bind Wave.region with
    | none => false
    | some g => !(j.reads.all (insideRanges (g.ins ++ g.outs)) && j.writes.all (insideRanges g.outs))

/-! ## Tensor shape records (R252) -/

/-- The fields of a record. -/
structure Rec where
  base : Nat
  scale : Nat
  dims : List Nat
  strides : List Nat
  boxes : List Nat
  fmt : Nat
  flags : Nat
  reserved : Bool
  deriving DecidableEq, Repr

/-- The record that 64 bytes hold. -/
def Rec.ofBytes (bs : List Byte) : Rec :=
  let n := numLE bs
  { base := field n 0 56, scale := field n 64 56, dims := (List.range 5).map fun d => field n (128 + 32 * d) 32,
    strides := (List.range 4).map fun d => field n (288 + 32 * d) 32, boxes := (List.range 5).map fun d => field n (416 + 16 * d) 16,
    fmt := field n 496 5, flags := field n 504 8,
    reserved := field n 56 8 != 0 || field n 120 8 != 0 || field n 501 3 != 0 || field n 506 6 != 0 }

def Rec.clip (r : Rec) : Bool := bitOf r.flags 0
def Rec.zeroFill (r : Rec) : Bool := bitOf r.flags 1
def Rec.kind (r : Rec) : Option Kind := Kind.ofCode r.fmt
def Rec.dim (r : Rec) (d : Nat) : Nat := (r.dims[d]?).getD 0
def Rec.box (r : Rec) (d : Nat) : Nat := (r.boxes[d]?).getD 0
/-- Stride of dimension d, from 1, in bytes. -/
def Rec.stride (r : Rec) (d : Nat) : Nat := (r.strides[d - 1]?).getD 0 * 16

/-- Address in bits of the element at coordinates (R311). -/
def Rec.bitAddr (r : Rec) (e : Nat) (ix : List Nat) : Nat :=
  8 * r.base + (ix[0]?).getD 0 * e +
    8 * (List.range 4).foldl (fun n d => n + (ix[d + 1]?).getD 0 * r.stride (d + 1)) 0

/-- Coordinates inside the tensor. -/
def Rec.inside (r : Rec) (ix : List Nat) : Bool :=
  (mapIx (fun d (i : Nat) => decide (i < r.dim d)) 0 ix).all id

/-! ## Bit fields of bytes -/

/-- n bits at a bit offset, of bytes given by a reading function: elements of whole bytes, or half a byte. -/
def readBits (f : Nat → Byte) (at_ n : Nat) : Nat :=
  if n = 4 then field (f (at_ / 8)).toNat (at_ % 8) 4 else numLE ((List.range (n / 8)).map fun i => f (at_ / 8 + i))

/-- Put n bits at a bit offset into an overlay; half a byte keeps the other half. -/
def putBits (ov : Overlay) (f : Nat → Byte) (at_ n x : Nat) : Overlay :=
  if n = 4 then
    let old := ((ovGet ov (at_ / 8)).getD (f (at_ / 8))).toNat
    let new := if at_ % 8 = 0 then old / 16 * 16 + x % 16 else old % 16 + x % 16 * 16
    ovPut ov (at_ / 8) (BitVec.ofNat 8 new)
  else ovWrite ov (at_ / 8) (bytesLE (n / 8) x)

/-- Bytes of an element at a bit offset. -/
def spanBits (at_ n : Nat) : List Nat := if n = 4 then [at_ / 8] else (List.range (n / 8)).map (at_ / 8 + ·)

/-- The range from the lowest to the highest byte, or nothing (R312). -/
def hull (space : Space) (bytes : List Nat) : List Foot :=
  match least bytes with
  | none => []
  | some lo => [⟨space, lo, bytes.foldl max lo + 1 - lo⟩]

/-- One address in each line that bytes touch, with the sectors of the line that they touch. -/
def lineHeads (bytes : List Nat) : List (Nat × BitVec 4) :=
  (dedup (bytes.map (· / 256))).filterMap fun l =>
    let mine := bytes.filter fun b => b / 256 == l
    mine.head?.map fun b => (b, mine.foldl (fun m x => m ||| secAt x) 0)

/-- The near lines of a job that reads elements where they lie are read there (R411). -/
def State.fetchLines (s : State) (ls : List EngLine) (needs : List (Nat × BitVec 4)) : State :=
  needs.foldl (fun z e =>
    match lineOf ls e.1 with
    | some l => if l.home.near then z.fetchSectors l.home e.2 else z
    | none => z) s

end Sys2Proof.Machine
end

