-- ==== Sys2Proof/Machine/CopyJob.lean ====
section
/-!
DEFINITION. Copy jobs (spec/12 R308 to R314): the descriptor, the elements of a box, the checks of the record, footprints, and
what a job moves.
-/

namespace Sys2Proof.Machine

/-- The tile descriptor (R308). -/
structure Tile where
  tag : BitVec 6
  tkind : Nat
  rnd : Nat
  sat : Bool
  side : Bool
  reserved : Bool
  pitch : Nat
  off : Nat
  deriving DecidableEq, Repr

def Tile.ofWord (d : DWord) : Tile :=
  let n := d.toNat
  { tag := BitVec.ofNat 6 (field n 58 6), tkind := field n 53 5, rnd := field n 50 3, sat := bitOf n 49, side := bitOf n 48,
    reserved := field n 37 11 != 0, pitch := field n 21 16 * 16, off := field n 0 21 }

/-- Box indices (R308). -/
def originOf (b : DWord) (d : Nat) : Nat := field b.toNat (12 * d) 12

/-- One element of the box: its number in row order, whether it lies inside the tensor, and its places in bits in the tensor
and in the tile (R311). -/
structure Elem where
  n : Nat
  inside : Bool
  glob : Nat
  tile : Nat

/-- The chunk of scratchpad that holds an element of the tile (R314). -/
def Elem.chunk (x : Elem) : Nat := x.tile / 4096

/-- Rows of a box: indices along dimensions 1 to 4, dimension 1 fastest (R311). -/
def Rec.rows (r : Rec) : List (List Nat) :=
  (List.range (r.box 4)).flatMap fun d => (List.range (r.box 3)).flatMap fun c => (List.range (r.box 2)).flatMap fun b =>
    (List.range (r.box 1)).map fun a => [a, b, c, d]

/-- Coordinates of an element (R311). -/
def Rec.coords (r : Rec) (o : DWord) (col : Nat) (row : List Nat) : List Nat :=
  mapIx (fun d (b : Nat) => originOf o d * r.box d + b) 0 (col :: row)

/-- The elements of a copy job, in row order. -/
def copyElems (r : Rec) (t : Tile) (o : DWord) (e et : Nat) : List Elem :=
  (mapIx (fun k row => (List.range (r.box 0)).map fun c =>
    let ix := r.coords o c row
    (⟨k * r.box 0 + c, r.inside ix, r.bitAddr e ix, 8 * (t.off + k * t.pitch) + c * et⟩ : Elem)) 0 r.rows).flatten

/-- Number of rows R. -/
def Rec.rowCount (r : Rec) : Nat := r.box 1 * r.box 2 * r.box 3 * r.box 4

/-- Where the row-validity sidecar lies (R311). -/
def sidecarAt (r : Rec) (t : Tile) : Nat := (t.off + r.rowCount * t.pitch + 31) / 32 * 32

/-- The sidecar's bytes: bit r says whether coordinates 1 to 4 of row r lie inside (R311). -/
def sidecar (r : Rec) (o : DWord) : List Byte :=
  let bits := r.rows.map fun row => r.inside (0 :: (r.coords o 0 row).drop 1)
  (List.range 32).map fun i => BitVec.ofNat 8 ((List.range 8).foldl (fun n b => n + (if (bits[8 * i + b]?).getD false then 2 ^ b else 0)) 0)

/-- The kinds of a copy: of the tensor and of the tile. -/
def copyKinds (r : Rec) (t : Tile) : Option (Kind × Kind) :=
  match r.kind, Kind.ofCode t.tkind with
  | some k, some tk => some (k, tk)
  | _, _ => none

/-- Kinds that .add accepts (R310). -/
def addKind (k : Kind) : Bool := k == .fmt .fp64 || k == .fmt .fp32 || k == .fmt .bf16 || k == .fmt .fp16 || k == .i32

/-- A record on which the job ends BAD_RECORD (R310). `size` is the declared scratchpad size S. -/
def copyBad (kind : JobKind) (r : Rec) (t : Tile) (o : DWord) (size : Nat) : Bool :=
  match copyKinds r t with
  | none => true
  | some (k, tk) =>
    let e := kindElem k
    let et := kindElem tk
    let five := List.range 5
    r.reserved || five.any (fun d => r.dim d == 0 || r.box d == 0) ||
    decide (8 * r.stride 1 < r.dim 0 * e) || (List.range 3).any (fun d => decide (r.stride (d + 2) < r.stride (d + 1) * r.dim (d + 1))) ||
    ((k.four || tk.four) && (k != tk || r.box 0 % 2 == 1)) ||
    decide (8 * t.pitch < r.box 0 * et) ||
    decide (size < t.off + (r.rowCount - 1) * t.pitch + (r.box 0 * et + 7) / 8) ||
    (t.side && (decide (size < sidecarAt r t + 32) || decide (256 < r.rowCount) || kind != .load)) ||
    (kind == .add && (!addKind k || k != tk)) ||
    (let es := copyElems r t o e et
     (!r.clip && es.any fun x => !x.inside) || es.any fun x => x.inside && decide (2 ^ 56 < x.glob / 8 + (e + 7) / 8))

/-- Bytes of a copy: of the tensor, and of the tile with its sidecar (R312). -/
def copyBytes (kind : JobKind) (r : Rec) (t : Tile) (o : DWord) : List Nat × List Nat :=
  match copyKinds r t with
  | none => ([], [])
  | some (k, tk) =>
    let es := copyElems r t o (kindElem k) (kindElem tk)
    let ins := es.filter Elem.inside
    let put := if kind == .load && r.zeroFill then es else ins
    (ins.flatMap fun x => spanBits x.glob (kindElem k),
     (put.flatMap fun x => spanBits x.tile (kindElem tk)) ++
       (if t.side then (List.range 32).map (sidecarAt r t + ·) else []))

/-- Footprints of a copy job, formed from its record (R312, R473), and the chunks that a load will write (R314). -/
def copyFoot (j : Job) (recAddr size : Nat) (odd unreadable : Bool) : Job × List Nat :=
  let r := Rec.ofBytes j.record
  let t := Tile.ofWord j.a
  let recF : Foot := ⟨.glob, recAddr, 64⟩
  if unreadable || copyBad j.kind r t j.b size then ({ j with reads := [recF], writes := [] }, [])
  else
    let (g, l) := copyBytes j.kind r t j.b
    let gf := hull .glob g
    let lf := hull (.scr j.team odd) l
    if j.kind == .load then ({ j with reads := recF :: gf, writes := lf }, dedup (l.map (· / 512)))
    else ({ j with reads := recF :: lf, writes := gf }, [])

/-! ## The move itself -/

/-- A converted element: bit for bit between equal kinds and four-bit kinds, else rounded once (R311, R313). -/
def copyConvert (j : Job) (src dst : Kind) (t : Tile) (n code : Nat) : Nat × Flags :=
  if src == dst then (code, 0)
  else
    let rnd := (Rnd.ofCode t.rnd).getD .rne
    kindConvert dst rnd t.sat (if rnd == Rnd.sr then drawV (copyKey j.seed n) j.ctr else 0) (kindDecode src code)

/-- The green writes that a job reads in scratchpad: its wave's, and for a joint MMA those of every member, the leader's first
(notes/assumptions/18.md; R241, R323). -/
def State.greensFor (s : State) (j : Job) : List Green :=
  if j.green then j.members.filterMap fun i => (s.waves[i]?).map Wave.green else []

/-- A byte of scratchpad as a job reads it: green bytes merged inside a checked region (R323). -/
def State.jobScratch (s : State) (j : Job) (odd : Bool) (off : Nat) : Byte :=
  match (s.greensFor j).findSome? fun g => ovGet g.scr (Spot.key ⟨j.team, odd, off⟩) with
  | some b => b
  | none => ((s.teams[j.team]?).map fun t => cellGet (t.half odd).scratch off).getD 0

def State.jobScratchPoison (s : State) (j : Job) (odd : Bool) (off : Nat) : Bool :=
  let key := Spot.key ⟨j.team, odd, off⟩ / 64
  match (s.greensFor j).find? fun g => g.scr.any fun e => e.1 / 64 == key with
  | some g => g.scrPoison.contains key
  | none => ((s.teams[j.team]?).map fun t => (t.half odd).scratchPoison.contains (off / 64)).getD false

/-- Write bytes of a job into scratchpad, each 64-byte unit with its poison (R414, R415). -/
def State.scratchPut (s : State) (team : Nat) (odd : Bool) (ov : Overlay) (bad : List Nat) : State :=
  (dedup (ov.map fun e => e.1 / 64)).foldl (fun z u => z.scratchWrite team odd (ov.filter fun e => e.1 / 64 == u) (bad.contains u)) s

/-- What a load writes in the chunks that a test selects: bytes of scratchpad, poisoned units, flags. -/
def State.loadMove (s : State) (j : Job) (odd : Bool) (ls : List EngLine) (r : Rec) (t : Tile) (k tk : Kind) (sel : Nat → Bool) :
    Overlay × List Nat × Flags :=
  let g := s.greenFor j
  let e := kindElem k
  let et := kindElem tk
  let es := (copyElems r t j.b e et).filter fun x => sel x.chunk
  let res := es.foldl (fun (acc : Overlay × List Nat × Flags) x =>
    if x.inside then
      let (c, fl) := copyConvert j k tk t x.n (readBits (s.engineByte g ls) x.glob e)
      let bad := (spanBits x.glob e).any (s.enginePoison g ls)
      (putBits acc.1 (s.jobScratch j odd) x.tile et c,
       if bad then acc.2.1 ++ (spanBits x.tile et).map (· / 64) else acc.2.1, acc.2.2 ||| fl)
    else if r.zeroFill then (putBits acc.1 (s.jobScratch j odd) x.tile et 0, acc.2)
    else acc) ([], [], (0 : Flags))
  let side := if t.side then (ovWrite [] (sidecarAt r t) (sidecar r j.b)).filter fun b => sel (b.1 / 512) else []
  (side.foldl (fun y b => ovPut y b.1 b.2) res.1, dedup res.2.1, res.2.2)

/-- What a store writes: bytes of global memory, poisoned sectors, flags. -/
def State.storeMove (s : State) (j : Job) (odd : Bool) (ls : List EngLine) (r : Rec) (t : Tile) (k tk : Kind) :
    Overlay × List Nat × Flags :=
  let g := s.greenFor j
  let e := kindElem k
  let et := kindElem tk
  let res := ((copyElems r t j.b e et).filter Elem.inside).foldl (fun (acc : Overlay × List Nat × Flags) x =>
    let (c, fl) := copyConvert j tk k t x.n (readBits (s.jobScratch j odd) x.tile et)
    let bad := (spanBits x.tile et).any (s.jobScratchPoison j odd)
    (putBits acc.1 (s.engineByte g ls) x.glob e c,
     if bad then acc.2.1 ++ (spanBits x.glob e).map (· / 64) else acc.2.1, acc.2.2 ||| fl)) ([], [], (0 : Flags))
  (res.1, dedup res.2.1, res.2.2)

/-- The atomic of another device that adds an element of a kind (R450). -/
def addAtomic : Kind → AtomOp
  | .fmt .fp64 => .fadd true
  | .fmt .fp32 => .fadd false
  | .fmt .bf16 => .faddBf16
  | .fmt .fp16 => .faddF16
  | _ => .add false

/-- Additions of elements at their home slices: what is written, poisoned sectors written, and addresses whose sector is
poisoned and keeps its value (R228, R311). Elements of other devices are sent there, with the poison of their sources. -/
def State.addMove (s : State) (jn : Nat) (j : Job) (ls : List EngLine) (k : Kind) (xs : List (Nat × Nat × Bool)) :
    State × Overlay × List Nat × List Nat :=
  let e := kindElem k
  xs.foldl (fun (acc : State × Overlay × List Nat × List Nat) x =>
    match lineOf ls (x.1 / 8) with
    | none => acc
    | some l =>
      let va := x.1 / 8
      if !l.home.near then
        (acc.1.jobAdd jn j.wave va (l.home.add (va % 256)) (.atomic (addAtomic k) (BitVec.ofNat 64 x.2.1) 0 false) x.2.2,
         acc.2.1, if x.2.2 then (va / 64) :: acc.2.2.1 else acc.2.2.1, acc.2.2.2)
      else if (spanBits x.1 e).any (s.enginePoison none ls) then (acc.1, acc.2.1, acc.2.2.1, va :: acc.2.2.2)
      else
        (acc.1, putBits acc.2.1 (s.engineByte none ls) x.1 e (addInto k k (readBits (s.engineByte none ls) x.1 e) x.2.1),
         if x.2.2 then (va / 64) :: acc.2.2.1 else acc.2.2.1, acc.2.2.2)) (s, [], [], [])

/-- Log the locations whose poison an addition met (R228, R311). -/
def State.reportKept (s : State) (j : Job) (vas : List Nat) : State :=
  vas.foldl (fun z va => z.report (some j.wave) ⟨0x0A, 0, ((s.waves[j.wave]?).map Wave.site).getD 0, va, 0, 0⟩) s

/-- Run a load: the elements of one chunk, or all that is left with its completion. A line with a reader count is counted once for
the job, when its last element is read (R115, R314). -/
def State.runLoad (s : State) (jn : Nat) (j : Job) (v : Via) (odd : Bool) (r : Rec) (t : Tile) (k tk : Kind) (chunk : Option Nat) :
    State :=
  let sel (c : Nat) : Bool := !j.landed.contains c && (chunk.map fun x => x == c).getD true
  let later (c : Nat) : Bool := !j.landed.contains c && !sel c
  let bytes (p : Nat → Bool) : List Nat :=
    ((copyElems r t j.b (kindElem k) (kindElem tk)).filter fun x => x.inside && p x.chunk).flatMap fun x => spanBits x.glob (kindElem k)
  let e := State.engineReach jn v reading s (lineHeads (bytes sel))
  match e.fault with
  | some (va, f) => e.s.jobFault jn j v va f false
  | none =>
    if e.waiting then s.keepAsking e.s
    else
      let (ov, bad, fl) := e.s.loadMove j odd e.lines r t k tk sel
      let again := (bytes later).map fun b => b / 256
      let last := e.lines.filter fun l => l.home.near && !again.contains l.line
      let s1 := (e.s.scratchPut j.team odd ov bad).countReads j.wave (last.map fun l => (l.line * 256, l.home))
      let status := if bad.isEmpty then j.status else stPoisoned
      match chunk with
      | some c =>
        if ov.isEmpty then s
        else
          (s1.landChunks j.team odd jn fun x => x == c).modJob jn fun y =>
            { y with landed := c :: y.landed, flags := y.flags ||| fl, status := status }
      | none => s1.finishJob jn status (j.flags ||| fl)

/-- Run a copy job: one chunk of a load, or all that is left with its completion (R311, R312, R314). -/
def State.runCopy (s : State) (jn : Nat) (chunk : Option Nat) : State :=
  match s.jobs[jn]? with
  | none => s
  | some j =>
    let copies := j.kind == .load || j.kind == .store || j.kind == .add
    if !copies || j.complete || j.held.isSome || s.jobBlocked jn j then s
    else
      let odd := s.oddOf j.wave
      let r := Rec.ofBytes j.record
      let t := Tile.ofWord j.a
      let size := ((s.waves[j.wave]?).map s.scratchSize).getD 0
      let v := s.viaJob j
      if j.fatal then (if chunk.isNone then s.finishJob jn stFault j.flags else s)
      else if let some (st, fl) := j.ending then (if chunk.isNone then s.settleJob jn v st fl else s)
      else if j.recPoisoned || copyBad j.kind r t j.b size then (if chunk.isNone then s.finishJob jn stBadRecord 0 else s)
      else if s.escapes j then (if chunk.isNone then s.finishJob jn stEscape 0 else s)
      else
        match copyKinds r t with
        | none => s
        | some (k, tk) =>
          if j.kind == .load then s.runLoad jn j v odd r t k tk chunk
          else if chunk.isSome then s
          else
            let needs := lineHeads (copyBytes j.kind r t j.b).1
            let e := State.engineReach jn v writing s needs
            match e.fault with
            | some (va, f) => e.s.jobFault jn j v va f true
            | none =>
              if j.kind == .store then
                let (ov, bad, fl) := e.s.storeMove j odd e.lines r t k tk
                (e.s.engineWrite jn j v e.lines ov bad 1).settleJob jn v (if bad.isEmpty then stDone else stPoisoned) fl
              else
                let s1 := e.s.fetchLines e.lines needs
                let xs := ((copyElems r t j.b (kindElem k) (kindElem tk)).filter Elem.inside).map fun x =>
                  (x.glob, readBits (s1.jobScratch j odd) x.tile (kindElem tk),
                   (spanBits x.tile (kindElem tk)).any (s1.jobScratchPoison j odd))
                let (s2, ov, bad, kept) := s1.addMove jn j e.lines k xs
                ((s2.engineWrite jn j v e.lines ov bad 1).reportKept j kept).settleJob jn v
                  (if bad.isEmpty && kept.isEmpty then stDone else stPoisoned) 0

end Sys2Proof.Machine
end

