-- ==== Sys2Proof/Machine/MatrixJob.lean ====
section
/-!
DEFINITION. Jobs of the matrix engine (spec/10): the format word (R99, R100, R247), descriptors (R259, R261, R263, R264), the
weight image and its expansion (R254, R255), the joint operation (R248, R249, R256 to R258, R262), drains (R265), and the
shadow recompute (R267, R268).
-/

namespace Sys2Proof.Machine

/-! ## The format word (R99, R100, R247) -/

structure FmtW where
  a : Nat
  b : Nat
  acc : Nat
  ascl : Bool
  bscl : Bool
  rnd : Nat
  sat : Bool
  reserved : Bool
  deriving DecidableEq, Repr

def FmtW.ofWord (w : Word) : FmtW :=
  let n := w.toNat
  { a := field n 0 4, b := field n 4 4, acc := field n 8 2, ascl := bitOf n 10, bscl := bitOf n 11, rnd := field n 12 3,
    sat := bitOf n 15, reserved := field n 16 16 != 0 }

def FmtW.mode (f : FmtW) : Rnd := (Rnd.ofCode f.rnd).getD .rne
def FmtW.afmt (f : FmtW) : Kind := ((Fmt.ofCode f.a).map Kind.fmt).getD .i32
def FmtW.bfmt (f : FmtW) : Kind := ((Fmt.ofCode f.b).map Kind.fmt).getD .i32

/-- The reserved bits, the rounding mode and the accumulation format are legal: what a drain checks (R264). -/
def FmtW.drainOk (f : FmtW) : Bool := !f.reserved && decide (f.rnd ≤ 4) && decide (f.acc ≤ 2)

/-- The row of R247 that the word names: its K step and K max. -/
def FmtW.row (f : FmtW) : Option (Nat × Nat) :=
  let plain := !f.ascl && !f.bscl
  let both (p : Nat → Bool) : Bool := p f.a && p f.b
  if f.a = 0 && f.b = 0 then (if f.acc = 1 && plain then some (8, 256) else none)
  else if f.a = 1 && f.b = 1 then (if f.acc ≤ 1 && plain then some (8, 256) else none)
  else if f.a = 2 && f.b = 2 then (if f.acc = 0 && plain then some (16, 512) else none)
  else if f.a = 11 && f.b = 11 then (if f.acc = 2 && plain then some (16, 512) else none)
  else if both (fun x => x == 3 || x == 4) then (if f.acc = 0 && plain then some (32, 512) else none)
  else if both (fun x => decide (5 ≤ x) && decide (x ≤ 8)) then (if f.acc = 0 then some (64, 512) else none)
  else if both (fun x => x == 9 || x == 10) then (if f.acc = 2 && plain then some (64, 512) else none)
  else if both (fun x => decide (12 ≤ x)) then (if f.acc = 0 && f.ascl && f.bscl then some (64, 512) else none)
  else none

/-- The word is valid (R100). -/
def FmtW.valid (f : FmtW) : Bool := f.drainOk && f.row.isSome

/-- The accumulation format as a kind, and its size in bytes (R256). -/
def accKind (acc : Nat) : Kind := if acc = 1 then .fmt .fp64 else if acc = 2 then .i32 else .fmt .fp32
def accSize (acc : Nat) : Nat := if acc = 1 then 8 else 4

/-! ## Descriptors -/

/-- The weight descriptor (R259). -/
structure WDesc where
  reserved : Bool
  pair : Bool
  k : Nat
  n : Nat
  form : Nat
  off : Nat
  deriving DecidableEq, Repr

def WDesc.ofWord (x : DWord) : WDesc :=
  let v := x.toNat
  { reserved := field v 33 31 != 0, pair := bitOf v 32, k := 8 * (field v 24 8 + 1), n := 32 * (field v 21 3 + 1),
    form := field v 19 2, off := field v 0 19 }

/-- The A descriptor (R261). -/
structure ADesc where
  asc : Nat
  k : Nat
  reserved : Bool
  pitch : Nat
  off : Nat
  deriving DecidableEq, Repr

def ADesc.ofWord (x : DWord) : ADesc :=
  let v := x.toNat
  { asc := field v 48 16 * 32, k := 8 * (field v 40 8 + 1), reserved := field v 37 3 != 0, pitch := field v 21 16 * 16,
    off := field v 0 21 }

/-- The D descriptor (R261). -/
structure DDesc where
  reserved : Bool
  form : Nat
  woff : Nat
  pair : Bool
  m : Nat
  n : Nat
  doff : Nat
  deriving DecidableEq, Repr

def DDesc.ofWord (x : DWord) : DDesc :=
  let v := x.toNat
  { reserved := field v 46 18 != 0, form := field v 44 2, woff := field v 25 19, pair := bitOf v 24,
    m := 32 * (field v 21 3 + 1), n := 32 * (field v 18 3 + 1), doff := field v 0 18 }

/-- The MZERO descriptor (R263). -/
structure ZDesc where
  reserved : Bool
  pair : Bool
  len : Nat
  off : Nat
  deriving DecidableEq, Repr

def ZDesc.ofWord (x : DWord) : ZDesc :=
  let v := x.toNat
  { reserved := field v 37 27 != 0, pair := bitOf v 36, len := 256 * field v 18 18, off := field v 0 18 }

/-- The drain descriptor (R264). -/
structure NDesc where
  reserved : Bool
  col : Nat
  row : Nat
  pair : Bool
  m : Nat
  n : Nat
  doff : Nat
  deriving DecidableEq, Repr

def NDesc.ofWord (x : DWord) : NDesc :=
  let v := x.toNat
  { reserved := bitOf v 63, col := 32 * field v 44 19, row := 32 * field v 25 19, pair := bitOf v 24,
    m := 32 * (field v 21 3 + 1), n := 32 * (field v 18 3 + 1), doff := field v 0 18 }

/-! ## The weight image (R254, R255) -/

def align (n x : Nat) : Nat := (x + n - 1) / n * n

/-- K blocks of 32 along a column. -/
def kBlocks (k : Nat) : Nat := (k + 31) / 32

/-- Offsets of the parts of an image of K x N elements of e bits: values (or, for the zero-block form, stored blocks), metadata
or bitmap, scales; and the end of an image with `stored` blocks (R254). -/
structure Image where
  vals : Nat
  meta_ : Nat
  scales : Nat
  end_ : Nat
  deriving DecidableEq, Repr

def imageOf (form k n e off : Nat) (scaled : Bool) (stored : Nat) : Image :=
  let sc := if scaled then n * kBlocks k else 0
  match form with
  | 0 =>
    let scales := off + align 64 (n * k * e / 8)
    ⟨off, off, scales, if scaled then scales + sc else off + n * k * e / 8⟩
  | 1 =>
    let m := off + align 64 (n * (k / 2) * e / 8)
    let scales := off + align 64 (m - off + n * (k / 8))
    ⟨off, m, scales, if scaled then scales + sc else m + n * (k / 8)⟩
  | 2 =>
    let m := off + align 64 (n * (k / 2) * e / 8)
    let scales := off + align 64 (m - off + n * (k / 8) * 2)
    ⟨off, m, scales, if scaled then scales + sc else m + n * (k / 8) * 2⟩
  | _ =>
    let bm := (n / 32 * kBlocks k + 7) / 8
    let scales := off + align 64 bm
    let vals := if scaled then off + align 64 (scales - off + sc) else scales
    ⟨vals, off, scales, vals + stored * (1024 * e / 8)⟩

/-- Number of the bit of the block that holds element (k, j) (R254). -/
def blockBit (k j kk : Nat) : Nat := j / 32 * kBlocks kk + k / 32

/-- The place in bits of the value that expands to B[k][j], or nothing where the element is zero (R255). `f` reads bytes of the
weight buffer. -/
def valueBit (f : Nat → Byte) (im : Image) (form kk e k j : Nat) : Option Nat :=
  match form with
  | 0 => some (8 * im.vals + (j * kk + k) * e)
  | 1 =>
    let g := k / 4
    let nib := field (f (im.meta_ + j * (kk / 8) + g / 2)).toNat (4 * (g % 2)) 4
    let at_ (v : Nat) : Option Nat := some (8 * im.vals + (j * (kk / 2) + v) * e)
    if nib / 4 = k % 4 then at_ (2 * g + 1) else if nib % 4 = k % 4 then at_ (2 * g) else none
  | 2 =>
    let g := k / 8
    let a := im.meta_ + j * (kk / 8) * 2 + 2 * g
    let x := (f a).toNat + 256 * (f (a + 1)).toNat
    (([3, 2, 1, 0] : List Nat).find? fun q => field x (3 * q) 3 == k % 8).map fun q =>
      8 * im.vals + (j * (kk / 2) + 4 * g + q) * e
  | _ =>
    let bit (b : Nat) : Bool := bitOf (f (im.meta_ + b / 8)).toNat (b % 8)
    let b := blockBit k j kk
    if bit b then
      let before := ((List.range b).filter bit).length
      some (8 * im.vals + (before * 1024 + (j % 32 * 32 + k % 32)) * e)
    else none

/-! ## A team's engine memories -/

/-- Bytes of accumulator and weight-buffer allocation on each core (R239, R373). -/
def State.accBytes (s : State) (w : Wave) : Nat := 4096 * (s.launchOf w).acc
def State.wbufBytes (s : State) (w : Wave) : Nat := 4096 * (s.launchOf w).wbuf

def State.half? (s : State) (team : Nat) (odd : Bool) : Option Half := (s.teams[team]?).map fun t => t.half odd

def State.modHalf (s : State) (team : Nat) (odd : Bool) (f : Half → Half) : State :=
  s.modTeam team fun t => t.setHalf odd (f (t.half odd))

/-- Bytes written into a store with its poisoned units: a unit of which one write enables all 64 bytes is clean unless the write
carries poison (R415). -/
def unitWrite (c : Cells) (poison : List Nat) (ov : Overlay) (bad : List Nat) : Cells × List Nat :=
  let full := fullSectors ov
  (ov.foldl (fun y e => cellPut y e.1 e.2) c,
   (dedup (ov.map fun e => e.1 / 64)).foldl (fun y k => putIn y k (bad.contains k || (!full.contains k && poison.contains k))) poison)

def Half.putAcc (h : Half) (ov : Overlay) (bad : List Nat) : Half :=
  let (c, p) := unitWrite h.acc h.accPoison ov bad
  { h with acc := c, accPoison := p }

def Half.putWbuf (h : Half) (ov : Overlay) (bad : List Nat) : Half :=
  let (c, p) := unitWrite h.wbuf h.wbufPoison ov bad
  { h with wbuf := c, wbufPoison := p }

/-- The halves that a job uses: both of a pair, or that of its wave's core: a joint operation without PAIR runs on the core of its lowest
member, wherever the others lie (notes/assumptions/18.md). -/
def State.halvesOf (s : State) (j : Job) : List Bool := if j.pair then [false, true] else [s.oddOf j.wave]

/-! ## MLDW (R259, R260) -/

/-- Elements along dimension 0 of a column's values. -/
def weightRow (d : WDesc) : Nat := if d.form = 1 || d.form = 2 then d.k / 2 else d.k

/-- Metadata or bitmap bytes read from the metadata address. -/
def metaBytes (d : WDesc) : Nat :=
  if d.form = 1 then d.n * (d.k / 8) else if d.form = 2 then d.n * (d.k / 8) * 2
  else if d.form = 3 then (d.n / 32 * kBlocks d.k + 7) / 8 else 0

/-- A record with scales: a four-bit kind always, a byte kind when SCALE is given (R253). -/
def Rec.scaled (r : Rec) : Bool :=
  match r.kind with
  | none => false
  | some k => k.four || (k.scalable && r.scale != 0)

/-- Address of the scale byte of element (i1, i0) (R253). -/
def Rec.scaleAddr (r : Rec) (i1 i0 : Nat) : Nat := r.scale + i1 * ((r.dim 0 + 31) / 32) + i0 / 32

/-- What R253 asks of a record of a matrix job. -/
def Rec.matrixBad (r : Rec) : Bool :=
  match r.kind with
  | none => true
  | some k =>
    r.reserved || r.dim 0 == 0 || r.dim 1 == 0 || r.dim 2 != 1 || r.dim 3 != 1 || r.dim 4 != 1 ||
    decide (8 * r.stride 1 < r.dim 0 * kindElem k) || (k.four && r.scale == 0)

/-- Tensor elements of a weight tile: (column, position along dimension 0), inside or not. -/
def weightElems (r : Rec) (d : WDesc) : List (Nat × Nat × Bool) :=
  (List.range d.n).flatMap fun j => (List.range (weightRow d)).map fun i => (j, i, r.inside [i, j, 0, 0, 0])

/-- The K blocks whose scale byte an image holds: (column, block, first element along dimension 0). A K block of a sparse form takes
the scale byte of its first value: two blocks share one (notes/assumptions/18.md). -/
def weightScales (d : WDesc) : List (Nat × Nat × Nat) :=
  (List.range d.n).flatMap fun j => (List.range (kBlocks d.k)).map fun kb =>
    (j, kb, if d.form = 1 || d.form = 2 then 16 * kb else 32 * kb)

/-- A tensor element of a weight tile is read: it lies inside the tensor and, for the zero-block form, in a stored block (R260). -/
def weightRead (d : WDesc) (stored : Nat → Bool) (x : Nat × Nat × Bool) : Bool :=
  x.2.2 && (d.form != 3 || stored (blockBit x.2.1 x.1 d.k))

/-- Global bytes of a weight job whose stored blocks a test gives: values, metadata, scales (R260). A metadata byte counts as a byte
that the job reads, as element and scale bytes do (notes/assumptions/18.md). -/
def weightBytes (r : Rec) (d : WDesc) (metaAddr : Nat) (stored : Nat → Bool) : List (List Nat) :=
  match r.kind with
  | none => []
  | some k =>
    let e := kindElem k
    [((weightElems r d).filter (weightRead d stored)).flatMap fun x => spanBits (r.bitAddr e [x.2.1, x.1, 0, 0, 0]) e,
     (List.range (metaBytes d)).map (metaAddr + ·),
     if r.scaled then ((weightScales d).filter fun x => r.inside [x.2.2, x.1, 0, 0, 0]).map fun x => r.scaleAddr x.1 x.2.2 else []]

/-- BAD_RECORD of a weight job, but for the size of a zero-block image, which its bitmap decides (R253, R260); metadata at or above 2^56
is one too (notes/assumptions/18.md). -/
def weightBad (r : Rec) (d : WDesc) (metaAddr wbuf : Nat) : Bool :=
  match r.kind with
  | none => true
  | some k =>
    r.matrixBad || (r.scaled && d.k % 32 != 0) ||
    decide (wbuf < (imageOf d.form d.k d.n (kindElem k) d.off r.scaled 0).end_) ||
    (!r.clip && (weightElems r d).any fun x => !x.2.2) ||
    (weightBytes r d metaAddr fun _ => true).any fun l => l.any fun b => decide (2 ^ 56 ≤ b)

/-- The image that a weight job writes, with its poisoned units; nothing where it exceeds the allocation (R254, R260). -/
def State.weightImage (s : State) (j : Job) (ls : List EngLine) (r : Rec) (d : WDesc) (k : Kind) (wbuf : Nat) :
    Option (Overlay × List Nat) :=
  let e := kindElem k
  let g := s.greenFor j
  let f := s.engineByte g ls
  let bad (b : Nat) : Bool := s.enginePoison g ls b
  let mt := (List.range (metaBytes d)).map fun i => f (j.c.toNat + i)
  let bit (b : Nat) : Bool := bitOf ((mt[b / 8]?).getD 0).toNat (b % 8)
  let stored := if d.form = 3 then ((List.range (d.n / 32 * kBlocks d.k)).filter bit).length else 0
  let im := imageOf d.form d.k d.n e d.off r.scaled stored
  if wbuf < im.end_ then none
  else
    let ov0 := ovWrite [] im.meta_ mt
    let bad0 := ((List.range (metaBytes d)).filter fun i => bad (j.c.toNat + i)).map fun i => (im.meta_ + i) / 64
    let one (acc : Overlay × List Nat) (x : Nat × Nat × Bool) : Overlay × List Nat :=
      let place : Option Nat :=
        if d.form = 3 then
          let b := blockBit x.2.1 x.1 d.k
          if bit b then some (8 * im.vals + (((List.range b).filter bit).length * 1024 + (x.1 % 32 * 32 + x.2.1 % 32)) * e) else none
        else some (8 * im.vals + (x.1 * weightRow d + x.2.1) * e)
      match place with
      | none => acc
      | some p =>
        let src := r.bitAddr e [x.2.1, x.1, 0, 0, 0]
        (putBits acc.1 (fun _ => 0) p e (if x.2.2 then readBits f src e else 0),
         if x.2.2 && (spanBits src e).any bad then acc.2 ++ (spanBits p e).map (· / 64) else acc.2)
    -- elements of blocks that are not stored have no place
    let (ov1, bad1) := (weightElems r d).foldl one (ov0, bad0)
    let (ov2, bad2) := if r.scaled then
        (weightScales d).foldl (fun (acc : Overlay × List Nat) x =>
          let p := im.scales + x.1 * kBlocks d.k + x.2.1
          let a := r.scaleAddr x.1 x.2.2
          let ins := r.inside [x.2.2, x.1, 0, 0, 0]
          (ovPut acc.1 p (if ins then f a else 0), if ins && bad a then (p / 64) :: acc.2 else acc.2)) (ov1, bad1)
      else (ov1, bad1)
    some (ov2, dedup bad2)

/-! ## The joint operation (R248, R249, R255 to R258, R262) -/

/-- Shape checks of a joint operation (R262): true where one fails. -/
def mmaDescBad (f : FmtW) (a : ADesc) (d : DDesc) (rowp acca paired : Bool) (scratch acc wbuf : Nat) : Bool :=
  match f.row with
  | none => true
  | some (step, kmax) =>
    let ea := if acca then 8 * accSize f.acc else kindElem f.afmt
    let m := if d.pair then d.m / 2 else d.m
    let aEnd := a.off + (m - 1) * a.pitch + (a.k * ea + 7) / 8
    let im := imageOf d.form a.k d.n (kindElem f.bfmt) d.woff f.bscl 0
    -- the values, which come first, or for the zero-block form the bitmap and the scales
    let need := if d.form = 3 then im.vals else im.vals + d.n * (if d.form = 0 then a.k else a.k / 2) * kindElem f.bfmt / 8
    a.reserved || d.reserved || a.k % step != 0 || decide (kmax < a.k) || decide (8 * a.pitch < a.k * ea) || a.off % 16 != 0 ||
    decide ((if acca then acc else scratch) < aEnd) ||
    (f.ascl && !acca && decide (scratch < a.asc + m * kBlocks a.k)) ||
    (rowp && decide (scratch < align 32 (a.off + m * a.pitch) + 32)) ||
    decide (acc < d.doff + m * d.n * accSize f.acc) || d.doff % 256 != 0 || d.woff % 64 != 0 || decide (wbuf < need) ||
    (d.pair && (!paired || decide (d.m < 64)))

/-- The exact sum of terms, with what makes it a NaN (R249). -/
def sumTerms (mode : Rnd) (ts : List (Val × Val)) (old : Option Val) : Val × Flags :=
  let vals := ts.flatMap (fun t => [t.1, t.2]) ++ old.toList
  let zero (x : Val) : Bool := match x with
    | .fin y => y.m == 0
    | _ => false
  let inf (x : Val) : Bool := match x with
    | .inf _ => true
    | _ => false
  let bad := ts.any fun t => (inf t.1 && zero t.2) || (zero t.1 && inf t.2)
  let infs := (ts.filterMap fun t => if inf t.1 || inf t.2 then some (t.1.sign != t.2.sign) else none) ++
    (match old with
     | some (.inf n) => [n]
     | _ => [])
  let clash := infs.contains true && infs.contains false
  let nv := flagIf (vals.any Val.isSignalling || bad || clash) fNV
  if vals.any Val.isNan || bad || clash then (.nan false, nv)
  else if !infs.isEmpty then (.inf (infs.contains true), nv)
  else
    let prods := ts.filterMap fun t => match t with
      | (.fin x, .fin y) => some (x.mul y)
      | _ => none
    let all := prods ++ (match old with
      | some (.fin x) => [x]
      | _ => [])
    match all with
    | [] => (.fin ⟨false, 0, 0, false⟩, nv)
    | x :: xs => (.fin (xs.foldl (fun a b => a.add mode b) x), nv)

/-- A finite integer value. -/
def Val.toInt : Val → Int
  | .fin x => let n : Int := ((x.m * 2 ^ x.e.toNat : Nat) : Int); if x.neg then -n else n
  | _ => 0

/-- One element of D: encoding and flags (R249, R250). -/
def mmaElem (f : FmtW) (v : Nat) (ts : List (Val × Val)) (old : Option Val) : Nat × Flags :=
  if f.acc = 2 then
    let s := ts.foldl (fun n t => n + t.1.toInt * t.2.toInt) ((old.map Val.toInt).getD 0)
    (if f.sat then intBits 32 (max (intLo true 32) (min (intHi true 32) s)) else intBits 32 s, 0)
  else
    let F := if f.acc = 1 then fp64 else fp32
    let (x, nv) := sumTerms f.mode ts old
    match x with
    | .nan _ => (F.nan, nv)
    | y => let (r, fl) := F.convert f.mode f.sat v y; (r, fl ||| nv)

/-- The memories that a core's part of a joint operation reads. -/
structure MmaMem where
  scr : Nat → Byte
  acc : Nat → Byte
  wbuf : Nat → Byte
  /-- poisoned units that read as +0 (R251) -/
  accBad : Nat → Bool
  wbufBad : Nat → Bool

/-- Row i of A (local), as values, with the flags of a conversion from accumulator memory (R248, R262). -/
def mmaRowA (f : FmtW) (a : ADesc) (x : MmaMem) (acca : Bool) (seed : DWord) (ctr : Word) (i gi : Nat) : List Val × Flags :=
  let k := f.afmt
  let e := kindElem k
  if acca then
    let sz := accSize f.acc
    let raw := (List.range a.k).map fun c =>
      let at_ := a.off + i * a.pitch + c * sz
      if x.accBad (at_ / 64) then kindDecode (accKind f.acc) 0
      else kindDecode (accKind f.acc) (numLE ((List.range sz).map fun b => x.acc (at_ + b)))
    let v (c : Nat) : Nat := if f.mode == Rnd.sr then drawV (matrixKey seed 1 gi c) ctr else 0
    let res := mapIx (fun c y =>
      if f.ascl then
        let off := blockOff k ((raw.drop (c / 32 * 32)).take 32)
        let (code, fl) := kindConvertScaled k f.mode (v c) off y
        (kindDecodeScaled k code (scaleByte k off), fl)
      else
        let (code, fl) := kindConvert k f.mode f.sat (v c) y
        (kindDecode k code, fl)) 0 raw
    (res.map (·.1), flagsOr (res.map (·.2)))
  else
    ((List.range a.k).map fun c =>
      let code := readBits x.scr (8 * (a.off + i * a.pitch) + c * e) e
      if f.ascl then kindDecodeScaled k code (x.scr (a.asc + i * kBlocks a.k + c / 32)).toNat else kindDecode k code, 0)

/-- The bytes of metadata that decide where element (k, j) stands; for the zero-block form, its bit and those that count the blocks
before it (R254). -/
def metaOf (im : Image) (form kk k j : Nat) : List Nat :=
  match form with
  | 0 => []
  | 1 => [im.meta_ + j * (kk / 8) + k / 8]
  | 2 => [im.meta_ + j * (kk / 8) * 2 + k / 8 * 2, im.meta_ + j * (kk / 8) * 2 + k / 8 * 2 + 1]
  | _ => (List.range (blockBit k j kk / 8 + 1)).map (im.meta_ + ·)

/-- Column j of B as values (R254, R255). An element that poison of the weight buffer affects, in its value, its scale byte or the
metadata that places it, is +0 (R251). Elements of a stored block beyond the allocation are zero, one by one where the block reaches
across its end (notes/assumptions/18.md). -/
def mmaColB (f : FmtW) (d : DDesc) (kk wbufLen : Nat) (x : MmaMem) (j : Nat) : List Val :=
  let k := f.bfmt
  let e := kindElem k
  let im := imageOf d.form kk d.n e d.woff f.bscl 0
  let bad (bytes : List Nat) : Bool := bytes.any fun b => x.wbufBad (b / 64)
  (List.range kk).map fun c =>
    let scale := im.scales + j * kBlocks kk + c / 32
    let place := valueBit x.wbuf im d.form kk e c j
    if bad (metaOf im d.form kk c j) || (f.bscl && bad [scale]) || bad ((place.map fun p => spanBits p e).getD []) then kindDecode k 0
    else
      let code := match place with
        | none => 0
        | some p => if d.form = 3 && decide (8 * wbufLen < p + e) then 0 else readBits x.wbuf p e
      if f.bscl then kindDecodeScaled k code (x.wbuf scale).toNat else kindDecode k code

/-- A local row is selected by the sidecar (R258). -/
def rowSelected (a : ADesc) (m : Nat) (x : MmaMem) (rowp : Bool) (i : Nat) : Bool :=
  !rowp || bitOf (x.scr (align 32 (a.off + m * a.pitch) + i / 8)).toNat (i % 8)

/-- The part of a joint operation on one core: elements (local row, column, encoding, old value, terms) and flags. -/
structure MmaOut where
  elems : List (Nat × Nat × Nat × Option Val × List (Val × Val))
  flags : Flags

def mmaHalf (f : FmtW) (a : ADesc) (d : DDesc) (ovw rowp acca : Bool) (seed : DWord) (ctr : Word) (wbufLen : Nat) (odd : Bool)
    (x : MmaMem) : MmaOut :=
  let m := if d.pair then d.m / 2 else d.m
  let sz := accSize f.acc
  let cols := (List.range d.n).map fun j => mmaColB f d a.k wbufLen x j
  (List.range m).foldl (fun (o : MmaOut) i =>
    if !rowSelected a m x rowp i then o
    else
      let gi := if odd && d.pair then i + m else i
      let (row, fa) := mmaRowA f a x acca seed ctr i gi
      let es := mapIx (fun j col =>
        let at_ := d.doff + (i * d.n + j) * sz
        let old := if ovw then none
          else some (if x.accBad (at_ / 64) then kindDecode (accKind f.acc) 0
            else kindDecode (accKind f.acc) (numLE ((List.range sz).map fun b => x.acc (at_ + b))))
        let ts := row.zip col
        let v := if f.mode == Rnd.sr then drawV (matrixKey seed 0 gi j) ctr else 0
        let (r, fl) := mmaElem f v ts old
        ((i, j, r, old, ts), fl)) 0 cols
      { elems := o.elems ++ es.map (·.1), flags := o.flags ||| fa ||| flagsOr (es.map (·.2)) }) ⟨[], 0⟩

/-! ## Shadow recompute (R267, R268) -/

/-- Formats whose joint operations are counted: not FP64, FR19 or an integer format. -/
def shadowed (f : FmtW) : Bool := f.acc != 2 && f.a != 0 && f.a != 2

/-- The shadow of an element: fused multiply-adds in ascending k order under RNE. -/
def shadowElem (f : FmtW) (old : Option Val) (ts : List (Val × Val)) : Val :=
  let F := if f.a = 1 then fp64 else fp32
  F.decode (ts.foldl (fun acc t => (F.fma .rne 0 t.1 t.2 (F.decode acc)).1) ((old.map fun x => (F.convert .rne false 0 x).1).getD 0))

/-- A deviation: a fraction, or plus infinity. -/
inductive Dev where
  | frac (num den : Nat)
  | inf
  deriving DecidableEq, Repr

def Dev.lt : Dev → Dev → Bool
  | .frac a b, .frac c d => decide (a * d < c * b)
  | .frac _ _, .inf => true
  | .inf, _ => false

/-- |D - S| / max(|S|, 2^-126) (R267). -/
def devOf (d s : Val) : Dev :=
  match d, s with
  | .fin x, .fin y =>
    let diff := x.add .rne { y with neg := !y.neg }
    let floor : Ex := ⟨false, 1, -126, false⟩
    let mag : Ex := { y with neg := false }
    let den := if Ex.cmp mag floor == .lt then floor else mag
    let sh := diff.e - den.e
    if 0 ≤ sh then .frac (diff.m * 2 ^ sh.toNat) den.m else .frac diff.m (den.m * 2 ^ (-sh).toNat)
  | .nan _, .nan _ => .frac 0 1
  | .inf a, .inf b => if a == b then .frac 0 1 else .inf
  | _, _ => .inf

/-- A deviation as FP32, by RUP. -/
def Dev.fp32 : Dev → Nat
  | .inf => 0x7F800000
  | .frac n d => (Machine.fp32.round .rup false 0 (Ex.div ⟨false, n, 0, false⟩ ⟨false, d, 0, false⟩)).1

/-- The largest deviation, and the index of the first element that has it. -/
def maxDev : List (Nat × Dev) → Nat × Dev
  | [] => (0, .frac 0 1)
  | x :: xs => let y := maxDev xs; if Dev.lt x.2 y.2 then y else x

/-- Write bytes of the device itself into a context's memory, where they are translated, with their poison. A sector that faults
waits in a fault record until it is answered (R401, R402). -/
def State.deviceWrite (s : State) (part asid : Nat) (ctx : BitVec 16) (va : Nat) (bs : List Byte) (poison : Bool := false) : State :=
  (sectors va bs.length).foldl (fun z k =>
    let lo := max va (64 * k)
    let part_ := (bs.drop (lo - va)).take (64 * k + 64 - lo)
    match z.translate part asid lo ⟨true, false, true, 1⟩ with
    | .error f => if f.fatal then z else (z.faultRecord part asid ctx (.device asid lo part_ poison) f lo true false).1
    | .ok p => z.sentVia ((z.recall p.line).home p.line (ovWrite [] lo part_) (if poison then [k] else [])) part asid) s

/-- Append an entry to a context's telemetry ring (R267, R268, R345). -/
def State.telemetry (s : State) (ctx : BitVec 16) (core leader : Nat) (fmt : Word) (dd : DWord) (ix : Nat) (dev : Dev) : State :=
  let c := s.context ctx
  let v := c.tring.toNat
  let at_ := field v 0 56 + 32 * (c.tidx % 2 ^ field v 59 5)
  let cyc := ((s.cores[core]?).map Core.cycles).getD 0
  let bs := bytesLE 8 cyc ++ bytesLE 4 fmt.toNat ++ bytesLE 4 (core % 64 * 2 ^ 8 + leader % 64 * 2 ^ 16) ++ bytesLE 8 dd.toNat ++
    bytesLE 4 dev.fp32 ++ bytesLE 4 ix
  (s.deviceWrite c.part c.asid ctx at_ bs).modContext ctx fun y => { y with tidx := y.tidx + 1 }

/-- Count a joint operation of a context on a core; answers the count (R267). -/
def State.countShadow (s : State) (ctx : BitVec 16) (core : Nat) : State × Nat :=
  let n := (((s.context ctx).shadow.find? fun e => e.1 == core).map (·.2)).getD 0 + 1
  (s.modContext ctx fun y => { y with shadow := (core, n) :: y.shadow.filter fun e => e.1 != core }, n)

/-! ## Running matrix jobs -/

/-- A detected error of every member of a joint operation, each set rolled back once (R251). -/
def State.detectAll (s : State) (members : List Nat) (c : Cause) (va aux : Nat) (r : Report) : State :=
  (members.foldl (fun (acc : State × List Nat) i =>
    if acc.2.contains i then acc
    else
      let set := if ((acc.1.waves[i]?).map fun w => w.region.isSome).getD false then acc.1.portSet i else [i]
      let site := ((acc.1.waves[i]?).map Wave.site).getD 0
      (acc.1.detected i c va aux { r with site := site + r.site }, acc.2 ++ set)) (s, [])).1

/-- What a half reads for a joint operation: the green bytes merged are those of every member (notes/assumptions/18.md). Bytes of an image beyond the weight-buffer allocation, which R262 lets its metadata and
scales reach, have no value in the spec: each is free (notes/assumptions/18.md). -/
def State.mmaMem (s : State) (j : Job) (wbufLen : Nat) (odd : Bool) : MmaMem :=
  let h := (s.half? j.team odd).getD ⟨[], [], [], [], [], [], []⟩
  { scr := s.jobScratch j odd, acc := cellGet h.acc,
    wbuf := fun a => if a < wbufLen then cellGet h.wbuf a else Config.freeByte (s.free + a),
    accBad := h.accPoison.contains, wbufBad := h.wbufPoison.contains }

/-- The parts of an image that a joint operation reads, within the allocation: values, or the stored blocks that the bitmap counts;
metadata or bitmap; scales (R254, R255). -/
def imageReads (f : FmtW) (d : DDesc) (k wbuf : Nat) (x : Nat → Byte) : List (Nat × Nat) :=
  let e := kindElem f.bfmt
  let im := imageOf d.form k d.n e d.woff f.bscl 0
  let bits := d.n / 32 * kBlocks k
  let stored := ((List.range bits).filter fun b => bitOf (x (d.woff + b / 8)).toNat (b % 8)).length
  let vals := match d.form with
    | 0 => d.n * k * e / 8
    | 1 => d.n * (k / 2) * e / 8
    | 2 => d.n * (k / 2) * e / 8
    | _ => stored * (1024 * e / 8)
  let meta_ := match d.form with
    | 0 => 0
    | 1 => d.n * (k / 8)
    | 2 => d.n * (k / 8) * 2
    | _ => (bits + 7) / 8
  ([(im.vals, vals), (im.meta_, meta_), (im.scales, if f.bscl then d.n * kBlocks k else 0)] : List (Nat × Nat)).map fun q =>
    (q.1, min q.2 (wbuf - q.1))

/-- What a joint operation reads on one half: selected rows of A with their scales, the sidecar, old elements of D, and the image (R248,
R249, R254, R258). -/
def mmaReads (j : Job) (f : FmtW) (a : ADesc) (d : DDesc) (wbuf : Nat) (odd : Bool) (x : MmaMem) : List Foot :=
  let m := if d.pair then d.m / 2 else d.m
  let sz := accSize f.acc
  let rows := (List.range m).filter (rowSelected a m x j.rowp)
  let each (sp : Space) (at_ : Nat → Nat) (len : Nat) : List Foot := rows.map fun i => ⟨sp, at_ i, len⟩
  let scr : Space := .scr j.team odd
  let acc : Space := .acc j.team odd
  (if j.acca then each acc (fun i => a.off + i * a.pitch) (a.k * sz)
   else each scr (fun i => a.off + i * a.pitch) ((a.k * kindElem f.afmt + 7) / 8) ++
     (if f.ascl then each scr (fun i => a.asc + i * kBlocks a.k) (kBlocks a.k) else [])) ++
  (if j.rowp then [⟨scr, align 32 (a.off + m * a.pitch), 32⟩] else []) ++
  (if j.ovw then [] else each acc (fun i => d.doff + i * d.n * sz) (d.n * sz)) ++
  (imageReads f d a.k wbuf x.wbuf).map fun q => ⟨.wbuf j.team odd, q.1, q.2⟩

/-- The core on which a half of a job runs (R256). -/
def Job.coreOf (j : Job) (odd : Bool) : Nat := if j.pair then j.core / 2 * 2 + (if odd then 1 else 0) else j.core

/-- The errors that wait in the units that a job reads on a core are met (R412). -/
def State.unitsMet (s : State) (i core : Nat) (fs : List Foot) : State :=
  s.unitsHit (some i) core fun q => fs.any fun f => f.space == q.1 && (sectors f.lo f.len).contains q.2

/-- The lowest address of a poisoned unit that a job reads on one half: in scratchpad, and in the engine's own memories (R251,
R416). -/
def State.poisonRead (s : State) (j : Job) (odd : Bool) (fs : List Foot) : Option Nat × Option Nat :=
  let h := (s.half? j.team odd).getD ⟨[], [], [], [], [], [], []⟩
  let bad (f : Foot) (u : Nat) : Bool := match f.space with
    | .scr _ _ => s.jobScratchPoison j odd (64 * u)
    | .acc _ _ => h.accPoison.contains u
    | .wbuf _ _ => h.wbufPoison.contains u
    | .glob => false
  let units (scr : Bool) : List Nat := (fs.filter fun f => (f.space == .scr j.team odd) == scr).flatMap fun f =>
    ((sectors f.lo f.len).filter (bad f)).map fun u => max f.lo (64 * u)
  (least (units true), least (units false))

/-- Count a joint operation on each of its cores, and shadow it there where the count asks for it (R267). -/
def State.shadowAll (s : State) (j : Job) (f : FmtW) (d : DDesc) (w : Wave) (outs : List (Bool × MmaOut)) : State :=
  let ctx := s.ctxIdOf w
  let sh := (s.ctxOf w).shlog
  outs.foldl (fun (z : State) p =>
    let core := j.coreOf p.1
    let (z1, n) := z.countShadow ctx core
    if sh != 0 && n % 2 ^ sh == 0 then
      let devs := p.2.elems.map fun e =>
        let gi := if p.1 && d.pair then e.1 + d.m / 2 else e.1
        (gi * 256 + e.2.1, devOf (kindDecode (accKind f.acc) e.2.2.1) (shadowElem f e.2.2.2.1 e.2.2.2.2))
      let (ix, dev) := maxDev devs
      z1.telemetry ctx core w.num j.fmt j.c ix dev
    else z1) s

/-- The elements of a joint operation are written on each of its cores (R249). -/
def State.putTile (s : State) (jn : Nat) (j : Job) (f : FmtW) (d : DDesc) (outs : List (Bool × MmaOut)) : State :=
  let sz := accSize f.acc
  let row (p : Bool × MmaOut) (i : Nat) : Foot := ⟨.acc j.team p.1, d.doff + i * d.n * sz, d.n * sz⟩
  let s1 := outs.foldl (fun (z : State) p =>
    let ov := p.2.elems.foldl (fun y e => ovWrite y (d.doff + (e.1 * d.n + e.2.1) * sz) (bytesLE sz e.2.2.1)) []
    z.modHalf j.team p.1 fun h => h.putAcc ov []) s
  s1.modJob jn fun y => { y with wrote := outs.flatMap fun p => (dedup (p.2.elems.map fun e => e.1)).map (row p) }

/-- Run an MMA job (R249, R251, R267). -/
def State.runMma (s : State) (jn : Nat) (j : Job) : State :=
  match s.waves[j.wave]? with
  | none => s.finishJob jn stDone 0
  | some w =>
    let f := FmtW.ofWord j.fmt
    let a := ADesc.ofWord j.b
    let d := DDesc.ofWord j.c
    let wb := s.wbufBytes w
    let hs := s.halvesOf j
    let reads := hs.map fun o => (o, mmaReads j f a d wb o (s.mmaMem j wb o))
    let s1 := reads.foldl (fun (z : State) q => z.unitsMet j.wave (j.coreOf q.1) q.2) { s with free := s.free + 2 ^ 21 }
    let poison := reads.map fun q => s1.poisonRead j q.1 q.2
    let inScr := least (poison.filterMap fun q => q.1)
    let inOwn := least (poison.filterMap fun q => q.2)
    let kills := match inScr, inOwn with
      | some a, _ => some a
      | none, some a => if (s.ctxOf w).pacc then none else some a
      | none, none => none
    -- a residue difference of the engine: quarter 4 of a core stands for it
    let mine (e : Nat × Nat × Nat × Nat) : Bool := e.2.1 == 4 && hs.any fun o => e.1 == j.coreOf o
    match kills with
    | some va => (s1.finishJob jn stDone 0).detectAll j.members .poisonConsumed va 0 ⟨8, 0, 0, va, 0, 0⟩
    | none =>
      let strike := s1.sys.phys.residue.find? mine
      let s2 := s1.modPhys fun p => { p with residue := p.residue.eraseP mine }
      match strike.filter fun e => decide (2 ≤ e.2.2.2) with
      | some e => (s2.finishJob jn stDone 0).detectAll j.members .residueFail 0 e.2.2.1 ⟨4, 0, e.2.2.1 * 2 ^ 8, 0, 0, 0⟩
      | none =>
        let s3 := match strike with
          | none => s2
          | some e => s2.report (some j.wave) ⟨3, 1, e.1 + e.2.2.1 * 2 ^ 8, 0, 0, 0⟩
        let s4 := match inOwn with
          | some va => s3.acceptPoison j.wave va
          | none => s3
        let outs := hs.map fun o => (o, mmaHalf f a d j.ovw j.rowp j.acca j.seed j.ctr wb o ({ s1 with free := s.free }.mmaMem j wb o))
        let s5 := s4.putTile jn j f d outs
        let s6 := if shadowed f then s5.shadowAll j f d w outs else s5
        s6.finishJob jn stDone (flagsOr (outs.map fun p => p.2.flags))

/-- Run an MZERO job (R263). -/
def State.runMzero (s : State) (jn : Nat) (j : Job) : State :=
  let d := ZDesc.ofWord j.a
  let s1 := (s.halvesOf j).foldl (fun z o => z.modHalf j.team o fun h =>
    { h with acc := cellZero h.acc d.off d.len,
             accPoison := h.accPoison.filter fun u => !(sectors d.off d.len).contains u }) s
  (s1.modJob jn fun y => { y with wrote := (s.halvesOf j).map fun o => ⟨.acc j.team o, d.off, d.len⟩ }).finishJob jn stDone 0

/-- The image is in the weight buffer of each half of a job. -/
def State.putImageW (s : State) (jn : Nat) (j : Job) (ov : Overlay) (bad : List Nat) : State :=
  let s1 := (s.halvesOf j).foldl (fun z o => z.modHalf j.team o fun h => h.putWbuf ov bad) s
  s1.modJob jn fun y => { y with wrote := (s.halvesOf j).flatMap fun o => (runs ov).map fun q => ⟨.wbuf j.team o, q.1, q.2.length⟩ }

/-- Lines that an engine reaches for a list of bytes, beside those that it has reached. -/
def Eng.more (e : Eng) (jn : Nat) (v : Via) (bytes : List Nat) : Eng :=
  let y := State.engineReach jn v reading e.s (lineHeads (bytes.filter fun b => (lineOf e.lines b).isNone))
  { y with lines := e.lines ++ y.lines }

/-- Run an MLDW job (R260): of the zero-block form the bitmap is read first, and then only the blocks that it stores. -/
def State.runMldw (s : State) (jn : Nat) (j : Job) : State :=
  match s.waves[j.wave]? with
  | none => s.finishJob jn stDone 0
  | some w =>
    let r := Rec.ofBytes j.record
    let d := WDesc.ofWord j.b
    let wb := s.wbufBytes w
    let v := s.viaJob j
    let mt := j.c.toNat
    if j.fatal then s.finishJob jn stFault j.flags
    else if j.recPoisoned || weightBad r d mt wb then s.finishJob jn stBadRecord 0
    else if s.escapes j then s.finishJob jn stEscape 0
    else
      match r.kind with
      | none => s
      | some k =>
        let first := State.engineReach jn v reading s (lineHeads (if d.form = 3 then (List.range (metaBytes d)).map (mt + ·) else []))
        match first.fault with
        | some (va, f) => first.s.jobFault jn j v va f false
        | none =>
          if first.waiting then s.keepAsking first.s
          else
            let f := first.s.engineByte (first.s.greenFor j) first.lines
            let e := first.more jn v (weightBytes r d mt fun b => bitOf (f (mt + b / 8)).toNat (b % 8)).flatten
            match e.fault with
            | some (va, f) => e.s.jobFault jn j v va f false
            | none =>
              if e.waiting then s.keepAsking e.s
              else
                match e.s.weightImage j e.lines r d k wb with
                | none => e.s.finishJob jn stBadRecord 0
                | some (ov, bad) =>
                  ((e.s.putImageW jn j ov bad).countReads j.wave ((e.lines.filter fun l => l.home.near).map fun l => (l.line * 256, l.home))
                    ).finishJob jn (if bad.isEmpty then stDone else stPoisoned) 0

/-- Elements of a drain: row, column and whether they lie inside the tensor (R265). -/
def drainElems (r : Rec) (d : NDesc) : List (Nat × Nat × Bool) :=
  (List.range d.m).flatMap fun i => (List.range d.n).map fun c => (i, c, r.inside [d.col + c, d.row + i, 0, 0, 0])

/-- Address in bits of a drained element. -/
def drainAddr (r : Rec) (d : NDesc) (e i c : Nat) : Nat := r.bitAddr e [d.col + c, d.row + i, 0, 0, 0]

/-- Bytes that a drain writes: elements and scale bytes (R265). -/
def drainBytes (r : Rec) (d : NDesc) : List Nat :=
  match r.kind with
  | none => []
  | some k =>
    let e := kindElem k
    let ins := (drainElems r d).filter fun x => x.2.2
    (ins.flatMap fun x => spanBits (drainAddr r d e x.1 x.2.1) e) ++
      (if r.scaled then ins.map fun x => r.scaleAddr (d.row + x.1) (d.col + x.2.1) else [])

/-- BAD_RECORD of a drain (R253, R265). -/
def drainBad (r : Rec) (d : NDesc) (f : FmtW) (add : Bool) : Bool :=
  match r.kind with
  | none => true
  | some k =>
    r.matrixBad || (!r.clip && (drainElems r d).any fun x => !x.2.2) ||
    (add && !(if f.acc = 2 then k == .i32 else k == .fmt .fp64 || k == .fmt .fp32 || k == .fmt .bf16 || k == .fmt .fp16)) ||
    (drainBytes r d).any fun b => decide (2 ^ 56 ≤ b)

/-- The half and the local row of a tile row (R256). -/
def drainRow (s : State) (j : Job) (d : NDesc) (i : Nat) : Bool × Nat :=
  if d.pair then (decide (d.m / 2 ≤ i), if d.m / 2 ≤ i then i - d.m / 2 else i) else (s.oddOf j.wave, i)

/-- A drained datum: its offset, its value, and whether its unit is poisoned. -/
def State.drainDatum (s : State) (j : Job) (d : NDesc) (f : FmtW) (i c : Nat) : Nat × Bool :=
  let (odd, li) := drainRow s j d i
  let sz := accSize f.acc
  let at_ := d.doff + (li * d.n + c) * sz
  match s.half? j.team odd with
  | none => (0, false)
  | some h => (numLE ((List.range sz).map fun b => cellGet h.acc (at_ + b)), h.accPoison.contains (at_ / 64))

/-- What a drain without .add writes: bytes, poisoned sectors, flags (R265). -/
def State.drainMove (s : State) (j : Job) (ls : List EngLine) (r : Rec) (d : NDesc) (f : FmtW) (k : Kind) :
    Overlay × List Nat × Flags :=
  let e := kindElem k
  let g := s.greenFor j
  let val (i c : Nat) : Val := kindDecode (accKind f.acc) (s.drainDatum j d f i c).1
  let res := ((drainElems r d).filter fun x => x.2.2).foldl (fun (acc : Overlay × List Nat × Flags) x =>
    let (i, c, _) := x
    let v := if f.mode == Rnd.sr then drawV (matrixKey j.seed 2 i c) j.ctr else 0
    let at_ := drainAddr r d e i c
    let bad := (s.drainDatum j d f i c).2
    let secs := (spanBits at_ e).map (· / 64)
    if r.scaled then
      let block := ((List.range 32).map fun q => c / 32 * 32 + q).filter fun q => r.inside [d.col + q, d.row + i, 0, 0, 0]
      let off := blockOff k (block.map (val i))
      let (code, fl) := kindConvertScaled k f.mode v off (val i c)
      let sa := r.scaleAddr (d.row + i) (d.col + c)
      (ovPut (putBits acc.1 (s.engineByte g ls) at_ e code) sa (BitVec.ofNat 8 (scaleByte k off)),
       if bad then acc.2.1 ++ (sa / 64 :: secs) else acc.2.1, acc.2.2 ||| fl)
    else
      let (code, fl) := kindConvert k f.mode f.sat v (val i c)
      (putBits acc.1 (s.engineByte g ls) at_ e code, if bad then acc.2.1 ++ secs else acc.2.1, acc.2.2 ||| fl))
    ([], [], (0 : Flags))
  (res.1, dedup res.2.1, res.2.2)

/-- What an adding drain writes at the home slices: the sum of the element and D, rounded once to the tensor's format; poisoned
sectors keep their elements (R265). -/
def State.drainAdd (s : State) (jn : Nat) (j : Job) (ls : List EngLine) (r : Rec) (d : NDesc) (f : FmtW) (k : Kind) :
    State × Overlay × List Nat × List Nat :=
  let e := kindElem k
  ((drainElems r d).filter fun x => x.2.2).foldl (fun (acc : State × Overlay × List Nat × List Nat) x =>
    let (i, c, _) := x
    let at_ := drainAddr r d e i c
    let va := at_ / 8
    let (datum, bad) := s.drainDatum j d f i c
    match lineOf ls va with
    | none => acc
    | some l =>
      if !l.home.near then
        -- the sum is rounded once, where the element lies (notes/assumptions/18.md)
        (acc.1.jobAdd jn j.wave va (l.home.add (va % 256)) (.addTo k (accKind f.acc) (BitVec.ofNat 64 datum)) bad,
         acc.2.1, if bad then (va / 64) :: acc.2.2.1 else acc.2.2.1, acc.2.2.2)
      else if (spanBits at_ e).any (s.enginePoison none ls) then (acc.1, acc.2.1, acc.2.2.1, va :: acc.2.2.2)
      else
        let new := addInto k (accKind f.acc) (readBits (s.engineByte none ls) at_ e) datum
        (acc.1, putBits acc.2.1 (s.engineByte none ls) at_ e new, if bad then (va / 64) :: acc.2.2.1 else acc.2.2.1, acc.2.2.2))
    (s, [], [], [])

/-- What a drain reads on the halves of its job: the rows of its tile. -/
def drainReads (j : Job) (d : NDesc) (f : FmtW) (odd : Bool) : List Foot :=
  [⟨.acc j.team odd, d.doff, (if d.pair then d.m / 2 else d.m) * d.n * accSize f.acc⟩]

/-- Run an MDRAIN job (R265). -/
def State.runMdrain (s : State) (jn : Nat) (j : Job) (add : Bool) : State :=
  let r := Rec.ofBytes j.record
  let d := NDesc.ofWord j.c
  let f := FmtW.ofWord j.fmt
  let v := s.viaJob j
  if j.fatal then s.finishJob jn stFault j.flags
  else if let some (st, fl) := j.ending then s.settleJob jn v st fl
  else if j.recPoisoned || drainBad r d f add then s.finishJob jn stBadRecord 0
  else if s.escapes j then s.finishJob jn stEscape 0
  else
    match r.kind with
    | none => s
    | some k =>
      let needs := lineHeads (drainBytes r d)
      let e := State.engineReach jn v writing s needs
      match e.fault with
      | some (va, x) => e.s.jobFault jn j v va x true
      | none =>
        let s1 := (s.halvesOf j).foldl (fun (z : State) o => z.unitsMet j.wave (j.coreOf o) (drainReads j d f o)) e.s
        if add then
          let (s2, ov, bad, kept) := (s1.fetchLines e.lines needs).drainAdd jn j e.lines r d f k
          ((s2.engineWrite jn j v e.lines ov bad 2).reportKept j kept).settleJob jn v
            (if bad.isEmpty && kept.isEmpty then stDone else stPoisoned) 0
        else
          let (ov, bad, fl) := s1.drainMove j e.lines r d f k
          (s1.engineWrite jn j v e.lines ov bad 2).settleJob jn v (if bad.isEmpty then stDone else stPoisoned) fl

/-- Run a matrix job that no earlier job binds (R240). -/
def State.runMatrix (s : State) (jn : Nat) : State :=
  match s.jobs[jn]? with
  | none => s
  | some j =>
    if j.complete || j.held.isSome || s.jobBlocked jn j then s
    else
      match j.kind with
      | .mma => s.runMma jn j
      | .mzero => s.runMzero jn j
      | .mldw => s.runMldw jn j
      | .mdrain add => s.runMdrain jn j add
      | .fence => s.finishJob jn stDone 0
      | _ => s

end Sys2Proof.Machine
end

