-- ==== Sys2Proof/Machine/Accept.lean ====
section
/-!
DEFINITION. Acceptance of engine jobs (spec/12 R305, R307, R473; spec/10 R240): an instruction offers a job; the device reads
its record, forms its footprints and takes a tracker entry and, for a matrix job, an entry of the engine's queue.
-/

namespace Sys2Proof.Machine

/-- A job of a wave, before its operands and its record are given. -/
def Wave.newJob (w : Wave) (i : Nat) (kind : JobKind) (tag : Option (BitVec 6)) (seed : DWord) : Job :=
  { kind := kind, wave := i, team := w.team, members := [i], bay := w.core / 8, core := w.core, tag := tag, record := [],
    recPoisoned := false, reads := [], writes := [], wrote := [], a := 0, b := 0, c := 0, fmt := 0, ovw := false, rowp := false,
    acca := false, pair := false, seed := seed, ctr := w.soft.mctr, region := w.inRegion,
    unchecked := (w.region.map Region.unchecked).getD false, landed := [], held := none, fatal := false, complete := false,
    status := 0, flags := 0, cancelled := false, ending := none }

/-! ## Tags (R305, R316) -/

/-- A tag as it stands: a tag whose job has completed meanwhile is complete. -/
def State.tagNow (s : State) (w : Wave) (k : BitVec 6) : Tag :=
  let t := w.soft.tags[(⟨k.toNat, k.isLt⟩ : Fin 64)]
  match t.job.bind fun j => s.jobs[j]? with
  | some j => if j.complete && t.valid && !t.complete then { t with complete := true, status := j.status } else t
  | none => t

/-- The tag's job is complete; a tag that was never used counts as complete (R305). -/
def State.tagDone (s : State) (w : Wave) (k : BitVec 6) : Bool := let t := s.tagNow w k; t.complete || !t.valid

/-! ## Room (R240, R307) -/

/-- The tracker of the bay has 512 entries. -/
def State.trackerFull (s : State) (bay : Nat) : Bool :=
  decide (512 ≤ (s.jobs.filter fun j => j.bay == bay && !j.complete && !(j.kind == .mma || j.kind == .mzero)).length)

/-- The cores whose engine a job uses: both of a pair. -/
def Job.cores (j : Job) : List Nat := if j.pair then [j.core / 2 * 2, j.core / 2 * 2 + 1] else [j.core]

/-- The queue of an engine has 32 entries. -/
def State.queueFull (s : State) (core : Nat) : Bool :=
  decide (32 ≤ (s.jobs.filter fun j => j.kind.matrix && !j.complete && j.cores.contains core).length)

/-- A job finds the entries that it needs. -/
def State.room (s : State) (j : Job) : Bool :=
  ((j.kind == .mma || j.kind == .mzero) || !s.trackerFull j.bay) && (!j.kind.matrix || j.cores.all fun c => !s.queueFull c)

/-! ## Footprints of matrix jobs (R240, R256, R260, R265) -/

/-- A range of the weight buffers or accumulators of the halves that a job uses. -/
def State.ranges (s : State) (j : Job) (sp : Bool → Space) (lo len : Nat) : List Foot :=
  (s.halvesOf j).map fun o => ⟨sp o, lo, len⟩

/-- The footprints of MLDW: the record, values, metadata and scales; the image. Of the zero-block form every block may be read: the
bitmap is no part of the record from which the footprints are formed (R473). -/
def State.mldwFoot (s : State) (j : Job) (recAddr wbuf : Nat) (unreadable : Bool) : Job :=
  let r := Rec.ofBytes j.record
  let d := WDesc.ofWord j.b
  let recF : Foot := ⟨.glob, recAddr, 64⟩
  if unreadable || weightBad r d j.c.toNat wbuf then { j with reads := [recF], writes := [] }
  else
    let e := (r.kind.map kindElem).getD 0
    let end_ := if d.form = 3 then wbuf else (imageOf d.form d.k d.n e d.off r.scaled 0).end_
    { j with reads := recF :: (weightBytes r d j.c.toNat fun _ => true).flatMap (hull .glob),
             writes := s.ranges j (.wbuf j.team) d.off (end_ - d.off) }

/-- The footprints of MDRAIN: the record and the tile; elements and scale bytes, from the lowest to the highest. -/
def State.mdrainFoot (s : State) (j : Job) (recAddr : Nat) (add unreadable : Bool) : Job :=
  let r := Rec.ofBytes j.record
  let d := NDesc.ofWord j.c
  let f := FmtW.ofWord j.fmt
  let recF : Foot := ⟨.glob, recAddr, 64⟩
  if unreadable || drainBad r d f add then { j with reads := [recF], writes := [] }
  else
    let m := if d.pair then d.m / 2 else d.m
    { j with reads := recF :: s.ranges j (.acc j.team) d.doff (m * d.n * accSize f.acc),
             writes := hull .glob (drainBytes r d) }

/-- The footprints of a joint operation within the engine's own memories (R240). -/
def State.mmaFoot (s : State) (j : Job) (wbuf : Nat) : Job :=
  let f := FmtW.ofWord j.fmt
  let a := ADesc.ofWord j.b
  let d := DDesc.ofWord j.c
  let m := if d.pair then d.m / 2 else d.m
  let tile := s.ranges j (.acc j.team) d.doff (m * d.n * accSize f.acc)
  let end_ := if d.form = 3 then wbuf else (imageOf d.form a.k d.n (kindElem f.bfmt) d.woff f.bscl 0).end_
  let own := if j.acca then s.ranges j (.acc j.team) a.off ((m - 1) * a.pitch + a.k * accSize f.acc) else []
  { j with reads := (if j.ovw then [] else tile) ++ own ++ s.ranges j (.wbuf j.team) d.woff (end_ - d.woff), writes := tile }

/-! ## Acceptance -/

/-- The rounding of a job takes the wave's mctr, which then rises by 1 (R250, R313). -/
def Job.draws (j : Job) : Bool :=
  match j.kind with
  | .load | .store | .add => (Tile.ofWord j.a).rnd == 4
  | .mma => (FmtW.ofWord j.fmt).rnd == 4
  | .mdrain _ => (FmtW.ofWord j.fmt).rnd == 4
  | _ => false

/-- The job takes its entries: its tag names it, and its chunks are owned by it (R305, R314). -/
def State.enterJob (s : State) (j : Job) (chunks : List Nat) : State :=
  let jn := s.jobs.length
  let odd := s.oddOf j.wave
  let s1 := { s with jobs := s.jobs ++ [j] }
  let s2 := s1.modTeam j.team fun t =>
    let h := t.half odd
    t.setHalf odd { h with pending := (h.pending.filter fun e => !chunks.contains e.1) ++ chunks.map fun k => (k, jn) }
  s2.modWave j.wave fun w =>
    let w1 := match j.tag with
      | none => w
      | some k => { w with soft := { w.soft with tags := w.soft.tags.set k.toNat ⟨true, false, 0, some jn⟩ } }
    if j.draws then { w1 with soft := { w1.soft with mctr := w1.soft.mctr + 1 } } else w1

/-- The record was read, or cannot be: footprints are formed and the job enters (R473). -/
def State.acceptAs (s : State) (o : Offer) (bytes : List Byte) (poisoned fatal : Bool) : State :=
  match s.waves[o.job.wave]? with
  | none => s
  | some w =>
    let j := { o.job with record := bytes, recPoisoned := poisoned, fatal := fatal, ctr := w.soft.mctr }
    let bad := poisoned || fatal
    let (j1, chunks) := match j.kind with
      | .mldw => (s.mldwFoot j o.recAddr (s.wbufBytes w) bad, [])
      | .mdrain add => (s.mdrainFoot j o.recAddr add bad, [])
      | .fence | .mma | .mzero => (j, [])
      | .load | .store | .add => copyFoot j o.recAddr (s.scratchSize w) w.odd bad
    let s1 := s.enterJob j1 chunks
    { s1 with offers := s1.offers.map fun x =>
        if x.job.wave == o.job.wave && x.strm == o.strm then { x with accepted := true, held := none } else x }

/-- The offer of a stream. -/
def State.offerOf (s : State) (i : Nat) (strm : Strm) : Option Offer := s.offers.find? fun o => o.job.wave == i && o.strm == strm

def State.modOffer (s : State) (i : Nat) (strm : Strm) (f : Offer → Offer) : State :=
  { s with offers := s.offers.map fun o => if o.job.wave == i && o.strm == strm then f o else o }

def State.dropOffer (s : State) (i : Nat) (strm : Strm) : State :=
  { s with offers := s.offers.filter fun o => !(o.job.wave == i && o.strm == strm) }

/-- The read of a record that lies away from this device. -/
def State.recordRemote (s : State) (i : Nat) (strm : Strm) (va : Nat) : Option Remote :=
  s.sys.links.remotes.find? fun r => r.wave == i && r.strm == strm && r.lanes.isEmpty && r.job.isNone && r.ray.isNone && r.va == va &&
    match r.op with
    | .read _ => true
    | _ => false

/-- An earlier accepted job of the bay has still to write a line that holds the record: the record is read as the job's own reads are
(R130, R473). -/
def State.recordBlocked (s : State) (o : Offer) : Bool :=
  s.jobs.any fun e => !e.complete && e.bay == o.job.bay && meetsAny e.writes [⟨.glob, o.recAddr, 64⟩]

/-- Try to accept the job that a stream offers (R307, R473). -/
def State.tryAccept (s : State) (i : Nat) (strm : Strm) : State :=
  match s.offerOf i strm with
  | none => s
  | some o =>
    if o.accepted || o.held.isSome || !s.room o.job then s
    else if o.job.kind == .fence then s.acceptAs o [] false false
    else if o.fatal then s.acceptAs o [] false true
    else if s.recordBlocked o then s
    else
      let v := s.viaJob o.job
      match s.request v.part v.asid o.recAddr reading with
      | .error f =>
        if f.fatal then s.acceptAs o [] false true
        else
          let ctx := ((s.waves[i]?).map s.ctxIdOf).getD 0
          let (s1, id, _) := s.faultRecord v.part v.asid ctx (.offer i) f o.recAddr false false
          s1.modOffer i strm fun x => { x with held := some id }
      | .ok (p, s1) =>
        let green := s.greenFor o.job
        -- the record is one sector, read in one access; its line's count falls when its bytes are taken (R115)
        let read (z : State) (data : Option (List Byte × Bool)) (counts : List (Nat × Loc)) : State :=
          let ls : List EngLine := [⟨o.recAddr / 256, p.line, data⟩]
          let bytes := (List.range 64).map fun k => z.engineByte green ls (o.recAddr + k)
          (z.countReads i counts).acceptAs o bytes (z.enginePoison green ls o.recAddr) false
        if p.near then read (s1.recallGathers p) none [(o.recAddr, p)]
        else
          match s1.recordRemote i strm o.recAddr with
          | none => s.keepAsking (s1.ask i strm 0 [] o.recAddr p (.read 64))
          | some r =>
            match r.reply with
            | none => s
            | some (.data bs bad) => read (s1.dropRemote r.tag) (some (List.replicate (o.recAddr % 256) 0 ++ bs, bad)) []
            | some .done => s1
            | some .refused =>
              let ctx := ((s.waves[i]?).map s.ctxIdOf).getD 0
              let (s2, id, _) := (s1.dropRemote r.tag).faultRecord v.part v.asid ctx (.offer i) ⟨0, xFabric⟩ o.recAddr false false
              s2.modOffer i strm fun x => { x with held := some id }

/-- Offer a job for a stream, unless the stream offers one already, and try to have it accepted. The second component says
whether it was accepted; the offer then goes. -/
def State.offer (s : State) (i : Nat) (strm : Strm) (j : Job) (recAddr : Nat) : State × Bool :=
  let s1 := if (s.offerOf i strm).isSome then s
    else { s with offers := s.offers ++ [⟨strm, j, recAddr, none, false, false⟩] }
  let s2 := s1.tryAccept i strm
  if ((s2.offerOf i strm).map Offer.accepted).getD false then (s2.dropOffer i strm, true) else (s2, false)

/-- Why a stream waits whose job is not accepted: a fault of its record counts as a tag wait does (R473). -/
def State.offerWait (s : State) (i : Nat) (strm : Strm) : Wait :=
  if ((s.offerOf i strm).map fun o => o.held.isSome).getD false then .job else .other

end Sys2Proof.Machine
end

