-- ==== Sys2Proof/Machine/Copy.lean ====
section
/-!
DEFINITION. JCOPY, JSTAT, CWAIT and CTEST (spec/12 R308, R309, R313, R315 to R318).
-/

namespace Sys2Proof.Machine

/-! ## JCOPY (R308, R309) -/

/-- A descriptor or an origin that R309 refuses. -/
def tileBad (d o : DWord) : Bool :=
  let t := Tile.ofWord d
  t.reserved || field o.toNat 60 4 != 0 || decide (0x13 < t.tkind) || decide (4 < t.rnd) || t.off % 512 != 0 || t.pitch == 0

/-- The checks of JCOPY in their order (R309). -/
def State.copyTrap (s : State) (w : Wave) (kind : JobKind) (va : Nat) (d o : DWord) : Option Trap :=
  let off := (Tile.ofWord d).off
  match scalarTrap va 64 with
  | some t => some t
  | none =>
    if tileBad d o then some (.aux_ .descInvalid w.soft.bond.toNat)
    else if s.scratchSize w ≤ off then some (.at .scratchRange off)
    else if kind == .add && w.inRegion then some (.of .regionIllegal)
    else if kind != .load && s.twinIllegal w then some (.of .twinIllegal)
    else none

/-- The descriptor pair of JCOPY: s[rb] and s[rb + 1]. -/
def Wave.pairOf (w : Wave) (b : SReg) : DWord × DWord :=
  (w.readS b, if h : b.val + 1 < 64 then w.readS ⟨b.val + 1, h⟩ else 0)

/-- A copy job (R309): its checks, the wait of .rel (R42, R131), the wait for its tag and for its entry. -/
def State.copyJob (s : State) (kind : JobKind) (a b : SReg) (rel : Bool) : State :=
  s.userOp fun w =>
    let va := (w.readS a).toNat
    let (d, o) := w.pairOf b
    match s.copyTrap w kind va d o with
    | some t => s.trapS w t
    | none =>
      if rel && !w.joined then s.waitS w .join
      else
        let tag := (Tile.ofWord d).tag
        if (s.offerOf s.cur.1 .s).isNone && !s.tagDone w tag then s.waitS w .job
        else
          let s1 := if rel then s.release w.core .d else s
          let (s2, on) := s1.offer s.cur.1 .s { w.newJob s.cur.1 kind (some tag) w.soft.seed with a := d, b := o } va
          s2.sOp fun y => if on then s2.done y else s2.waitS y (s2.offerWait s.cur.1 .s)

/-- JCOPY.load (R309). -/
def execJcopyLoad (a b : SReg) (rel : Bool) (s : State) : Result := .next (s.copyJob .load a b rel)

/-- JCOPY.store (R309). -/
def execJcopyStore (a b : SReg) (rel : Bool) (s : State) : Result := .next (s.copyJob .store a b rel)

/-- JCOPY.add (R309). -/
def execJcopyAdd (a b : SReg) (rel : Bool) (s : State) : Result := .next (s.copyJob .add a b rel)

/-! ## JSTAT (R316, R317) -/

/-- The word of JSTAT. -/
def statWord (t : Tag) : DWord :=
  BitVec.ofNat 64 ((if t.valid then 2 ^ 7 else 0) + (if t.complete || !t.valid then 2 ^ 6 else 0) +
    (if t.complete && t.valid then t.status.toNat else 0))

/-- JSTAT. -/
def execJstat (d : SReg) (tag : BitVec 10) (s : State) : Result :=
  .next (s.sOp fun w =>
    let n := s.number tag
    if n < 0 || 63 < n then s.trapS w (.of .illegalOperand)
    else s.done (w.writeS d (statWord (s.tagNow w (BitVec.ofNat 6 n.toNat)))))

/-! ## CWAIT and CTEST (R316 to R318) -/

/-- The completion bit of a chunk (R314, R316). -/
def State.chunkDone (s : State) (w : Wave) (k : Nat) : Bool :=
  decide (s.scratchSize w ≤ 512 * k) ||
    match s.teamOf w with
    | none => true
    | some t => !((t.half w.odd).pending.any fun e => e.1 == k)

/-- The bits that a wait or a test looks at. -/
def State.doneBits (s : State) (w : Wave) (tags : Bool) (first : DWord) : DWord :=
  BitVec.ofNat 64 ((List.range 64).foldl (fun n j =>
    n + (if (if tags then s.tagDone w (BitVec.ofNat 6 j) else s.chunkDone w (first.toNat + j)) then 2 ^ j else 0)) 0)

/-- The condition of CWAIT. -/
def State.cwaitHolds (s : State) (w : Wave) (tags any : Bool) (first mask : DWord) : Bool :=
  let m := s.doneBits w tags first &&& mask
  if any then mask == 0 || m != 0 else m == mask

/-- SCRATCH_RANGE of a chunk form (R317). -/
def State.chunkTrap (s : State) (w : Wave) (tags : Bool) (first : DWord) : Option Trap :=
  if !tags && decide (s.scratchSize w ≤ 512 * first.toNat) then some (.at .scratchRange (512 * first.toNat % 2 ^ 64)) else none

/-- CWAIT: with .y the wave yields and goes on at the continuation (R316, R318). -/
def execCwait (a b : SReg) (tags y any : Bool) (off : BitVec 11) (s : State) : Result :=
  .next (s.userOp fun w =>
    let first := w.readS a
    let mask := w.readS b
    let target := s.target w 11 off.toNat
    match s.chunkTrap w tags first with
    | some t => s.trapS w t
    | none =>
      if y && (!inSection (s.scalarSection w) target.toNat || decide (2 ^ 56 ≤ target.toNat)) then s.trapS w (.at .codeRange target.toNat)
      else if s.cwaitHolds w tags any first mask then s.done w
      else if y then
        s.waitS { w with ss := { w.ss with yielded := some ⟨tags, any, first, mask, target.toNat, s.opAddr w + 4⟩ } } .cwait
      else s.waitS w .cwait)

/-- CTEST. -/
def execCtest (d a b : SReg) (tags : Bool) (s : State) : Result :=
  .next (s.sOp fun w =>
    let first := w.readS a
    match s.chunkTrap w tags first with
    | some t => s.trapS w t
    | none => s.done (w.writeS d (s.doneBits w tags first &&& w.readS b)))

end Sys2Proof.Machine
end

