-- ==== Sys2Proof/Machine/Ports.lean ====
section
/-!
DEFINITION. Neighbour ports: PUSH, POP, PEEK and PSTAT (spec/09 R229 to R238; spec/02 R51), with parity of queue entries
(spec/19 R419).
-/

namespace Sys2Proof.Machine

/-- The place of a port's receive queue in a lane's queues. -/
def Port.ix : Port → Fin 5
  | .xe => 0 | .xw => 1 | .xn => 2 | .xs => 3 | .xf => 4

/-- The far end of a lane's port: the wave and lane that a push reaches, and the depth of the queue there (R229). -/
structure FarEnd where
  wave : Nat
  lane : Lane
  depth : Nat
  deriving DecidableEq, Repr

/-- The far ends that the port map gives a wave (R230). -/
def State.mapped (s : State) (w : Wave) : List (Port × Int × Nat) :=
  edgeEnds (s.launchOf w).edges w.num (((s.teamOf w).map Team.idx).getD 0)

/-- The wave at the far end of a mapped port. -/
def State.farWave (s : State) (w : Wave) (e : Port × Int × Nat) : Option Nat :=
  if e.2.1 < 0 then none else s.waveAt w.grid e.2.1.toNat (((s.teamOf w).map Team.twin).getD false) e.2.2

/-- Lane l + n, modulo 32. -/
def laneAt (l : Lane) (n : Nat) : Lane := ⟨(l.val + n) % 32, Nat.mod_lt _ (by decide)⟩

/-- The ring neighbour of a lane on an unmapped port: none for xf (R229). -/
def ringLane (p : Port) (l : Lane) : Option Lane :=
  match p with
  | .xe => some (laneAt l 1)
  | .xw => some (laneAt l 31)
  | .xn => some (laneAt l 24)
  | .xs => some (laneAt l 8)
  | .xf => none

/-- The far end of a lane's port, or nothing where the port is broken (R229, R234); a lane that is padding breaks it as a killed
one does (notes/assumptions/38.md). -/
def State.farEnd (s : State) (i : Nat) (w : Wave) (p : Port) (l : Lane) : Option FarEnd :=
  let es := s.mapped w
  match es.find? fun e => e.1 == p with
  | some e =>
    (s.farWave w e).bind fun k =>
      (s.waves[k]?).bind fun y => if y.gone || !inMask y.ls.live l then none else some ⟨k, l, 8⟩
  | none =>
    if es.any fun e => e.1 == Port.opp p then none
    else (ringLane p l).bind fun m => if inMask w.ls.live m then some ⟨i, m, 4⟩ else none

/-- The receive queue of a port of a lane. -/
def Wave.queue (w : Wave) (p : Port) (l : Lane) : List DWord := w.soft.rx[l][Port.ix p]

def Wave.setQueue (w : Wave) (p : Port) (l : Lane) (q : List DWord) : Wave :=
  { w with soft := { w.soft with rx := w.soft.rx.set l (w.soft.rx[l].set (Port.ix p) q) } }

/-- Entries free at a far end. -/
def State.freeAt (s : State) (p : Port) (e : FarEnd) : Nat :=
  e.depth - (((s.waves[e.wave]?).map fun y => (y.queue (Port.opp p) e.lane).length).getD e.depth)

/-- Set a status predicate in the lanes of a set (R233). -/
def Wave.setStatus (w : Wave) (st : Option PReg) (act ok : Mask) : Wave :=
  match st with
  | none => w
  | some p => if p.val = 7 then w else { w with ls := { w.ls with p := w.ls.p.set p ((w.ls.p[p] &&& ~~~act) ||| (ok &&& act)) } }

/-- The smallest scope that holds a wave and its partner on a port (R118, R237). -/
def State.portScope (s : State) (i : Nat) (w : Wave) (p : Port) : Scope :=
  match ((s.mapped w).find? fun e => e.1 == p).bind (s.farWave w) with
  | none => .w
  | some k =>
    match s.waves[k]? with
    | none => .w
    | some y => if k == i then .w else if y.team == w.team then .t else if y.core / 8 == w.core / 8 then .b else .d

/-- PUSH (R232 to R234, R237). -/
def execPush (c : LCtl) (w64 rel : Bool) (port : Port) (b : Opnd) (st : Option PReg) (s : State) : Result :=
  let n := if w64 then 64 else 32
  let u : LUse := ⟨[(.zero, 1, false), (b, regsOf n, c.lub)], [], false, []⟩
  .next (match s.lStart c u with
    | .error t => t
    | .ok x =>
      let far := (lanesIn x.act).filterMap fun l => (x.s.farEnd x.i x.w port l).map fun e => (l, e)
      if far.any fun e => x.s.freeAt port e.2 == 0 then x.s.waitL x.w x.d .port
      else
        let s1 := if rel then x.s.release x.w.core (x.s.scopeOf x.w (x.s.portScope x.i x.w port)) else x.s
        let ok := maskOf fun l => far.any fun e => e.1 == l
        let s2 := ({ x with s := s1 }).done c u 0 [] fun w => w.setStatus st x.act ok
        far.foldl (fun z e => z.modWave e.2.wave fun y =>
          y.setQueue (Port.opp port) e.2.lane (y.queue (Port.opp port) e.2.lane ++ [BitVec.ofNat 64 (x.read 1 b n e.1)])) s2)

/-- A parity error in the head of a queue that the L-op reads (R419). -/
def State.queueHit (s : State) (i : Nat) (p : Port) (ls : List Lane) : Option Lane :=
  ls.find? fun l => s.sys.phys.queues.any fun e => e.1 == i && e.2.1 == (Port.ix p).val && e.2.2 == l

/-- POP and PEEK (R233). -/
def takeOp (remove : Bool) (c : LCtl) (w64 : Bool) (d : Dst) (port : Port) (st : Option PReg) (s : State) : State :=
  let n := if w64 then 64 else 32
  let u : LUse := ⟨[], [(d, regsOf n)], c.lud, []⟩
  match s.lStart c u with
  | .error t => t
  | .ok x =>
    let full (l : Lane) : Bool := !(x.w.queue port l).isEmpty
    let ls := lanesIn x.act
    if ls.any fun l => !full l && (x.s.farEnd x.i x.w port l).isSome then x.s.waitL x.w x.d .port
    else
      let from_ := ls.filter full
      match x.s.queueHit x.i port from_ with
      | some l =>
        (x.s.modPhys fun q => { q with queues := q.queues.filter fun e => e != (x.i, (Port.ix port).val, l) }).detected x.i .rfParity 0 ((Port.ix port).val + l.val * 2 ^ 8)
          ⟨7, 0, x.w.site + x.s.physLane x.w l * 2 ^ 8, 0, x.p.pc, 0⟩
      | none =>
        let ok := maskOf fun l => inMask x.act l && full l
        let head (l : Lane) : DWord := ((x.w.queue port l).head?).getD 0
        ({ x with act := ok }).done c u 1 (destRegs d n head) fun w =>
          let w1 := w.setStatus st x.act ok
          if remove then from_.foldl (fun y l => y.setQueue port l (y.queue port l).tail) w1 else w1

/-- POP (R232 to R234). -/
def execPop (c : LCtl) (w64 _acq : Bool) (d : Dst) (port : Port) (st : Option PReg) (s : State) : Result :=
  .next (takeOp true c w64 d port st s)

/-- PEEK: POP without the removal (R233). -/
def execPeek (c : LCtl) (w64 _acq : Bool) (d : Dst) (port : Port) (st : Option PReg) (s : State) : Result :=
  .next (takeOp false c w64 d port st s)

/-- PSTAT (R235). -/
def execPstat (c : LCtl) (d : Dst) (port : Port) (s : State) : Result :=
  .next (s.laneOp c ⟨[], [(d, 1)], c.lud, []⟩ 1 d 32 fun x l =>
    let far := x.s.farEnd x.i x.w port l
    (if (x.s.mapped x.w).any fun e => e.1 == port then 2 ^ 11 else 0) + (if far.isNone then 2 ^ 10 else 0) +
      ((far.map (x.s.freeAt port)).getD 0) % 16 * 2 ^ 4 + (x.w.queue port l).length % 16)

end Sys2Proof.Machine
end

