-- ==== Sys2Proof/Machine/Rsv.lean ====
section
/-!
DEFINITION. Reservoir instructions (spec/11 R269 to R277), with their hazards (spec/03 R74, R75).
-/

namespace Sys2Proof.Machine

/-! ## Reading and writing reservoirs -/

/-- The value of a reservoir at an operand position: the committed one, or, where R75 lets an L-op read what stood there
before, that one (a free choice). -/
def LIss.rsvAt (x : LIss) (pos : Nat) (n : ZReg) : Lanes Rsv :=
  let ps := x.w.ls.prods.filter fun p => p.open_ x.d && p.inFlight && p.zs.any fun e => e.1 == n.val
  match ps with
  | [] => x.w.soft.z[n]
  | p :: _ =>
    if Config.freeBit (x.s.free - 512 + 300 + pos) then ((p.zs.find? fun e => e.1 == n.val).map fun e => e.2).getD x.w.soft.z[n]
    else x.w.soft.z[n]

/-- New results that the side's stall counts must cover: reservoirs that an RSV L-op names (R273). -/
def Wave.rsvResult (w : Wave) (d : Side) (lat stall : Nat) (ns : List ZReg) : Wave :=
  if stall + 1 < lat then
    { w with ls := { w.ls with prods := w.ls.prods ++ [⟨d, lat, stall + 1, [], ns.map fun n => (n.val, w.soft.z[n]), true⟩] } }
  else w

/-- The RSV L-op is done: reservoirs of the active lanes are written, flags are raised. -/
def LIss.doneRsv (x : LIss) (c : LCtl) (u : LUse) (lat : Nat) (res : List (Nat × Lanes Word)) (new : List (ZReg × Lanes Rsv))
    (fl : Flags) : State :=
  let old := x.w.soft.z
  let s1 := x.done c u lat res fun w =>
    { w with soft := { w.soft with fflags := w.soft.fflags ||| fl,
                                   z := new.foldl (fun z e => z.set e.1 (blend x.act e.2 z[e.1])) w.soft.z } }
  s1.modWave x.i fun w =>
    let y := { w with soft := { w.soft with z := old } }.rsvResult x.d lat c.stall.toNat u.zs
    { w with ls := y.ls }

/-! ## Arithmetic (R274 to R276) -/

/-- A value is a NaN, an infinity, or below zero. -/
def rsvBad : Val → Bool
  | .nan _ => true
  | .inf _ => true
  | .fin x => x.neg && x.m != 0

/-- A legal FP32 operand as an exact value that is not below zero. -/
def exOf : Val → Ex
  | .fin x => { x with neg := false }
  | _ => ⟨false, 0, 0, false⟩

/-- |x| of an FP32 encoding. -/
def fp32Abs (x : Nat) : Word := BitVec.ofNat 32 (x % 2 ^ 31)

/-- Offer a candidate of weight num / den: the draw u, the new weight sum, and whether the candidate is chosen (R274, R275). -/
def rsvOffer (wsum : Word) (u : Nat) (num den : Ex) : Nat × Flags × Bool :=
  let old := exOf (fp32.decode wsum.toNat)
  let (ws, fl) := fp32.round .rne true 0 (((old.mul den).add .rne num).div den)
  let lhs := ((⟨false, u, 0, false⟩ : Ex).mul (exOf (fp32.decode ws))).mul den
  (ws, fl, lhs.cmp (num.scale 24) == .lt)

def satCount (a b : Nat) : Word := BitVec.ofNat 32 (min (a + b) (2 ^ 32 - 1))

/-- 24 bits of a reservoir's draw (R270, R274). -/
def rsvDraw (seed : DWord) (l : Lane) (n : ZReg) (ctr : Word) : Nat := field (draw (rsvKey seed l.val n.val) ctr).toNat 40 24

def one : Ex := ⟨false, 1, 0, false⟩
def zeroEx : Ex := ⟨false, 0, 0, false⟩

/-- RSV.upd in one lane (R274). -/
def rsvUpd (seed : DWord) (l : Lane) (n : ZReg) (r : Rsv) (y b c : Nat) : Rsv × Flags :=
  let w := fp32.decode b
  let ph := fp32.decode c
  let bad := rsvBad w || rsvBad ph
  let (ws, fl, take) := rsvOffer r.wsum (rsvDraw seed l n r.ctr) (if bad then zeroEx else exOf w) one
  let r1 := { r with ctr := r.ctr + 1, m := satCount r.m.toNat 1, wsum := BitVec.ofNat 32 ws }
  (if take then { r1 with y := BitVec.ofNat 64 y, phat := fp32Abs c } else r1, fl ||| flagIf bad fNV)

/-- RSV.mrg in one lane (R275). -/
def rsvMrg (seed : DWord) (l : Lane) (n : ZReg) (r q : Rsv) (b cap : Nat) : Rsv × Flags :=
  let m := if cap = 0 then q.m.toNat else min q.m.toNat cap
  let ph := fp32.decode b
  let bad := rsvBad ph
  let none_ := q.m == 0 || (exOf (fp32.decode q.phat.toNat)).m == 0
  let num := if none_ || bad then zeroEx else
    ((exOf ph).mul (exOf (fp32.decode q.wsum.toNat))).mul ⟨false, m, 0, false⟩
  let den := if none_ then one else (exOf (fp32.decode q.phat.toNat)).mul ⟨false, q.m.toNat, 0, false⟩
  let (ws, fl, take) := rsvOffer r.wsum (rsvDraw seed l n r.ctr) num den
  let r1 := { r with ctr := r.ctr + 1, m := satCount r.m.toNat m, wsum := BitVec.ofNat 32 ws }
  (if take then { r1 with y := q.y, phat := fp32Abs b } else r1, fl ||| flagIf bad fNV)

/-- RSV.fin in one lane (R276). -/
def rsvFin (r : Rsv) : Nat × Flags :=
  let ph := exOf (fp32.decode r.phat.toNat)
  if r.m == 0 || ph.m == 0 then (0, 0)
  else fp32.round .rne true 0 ((exOf (fp32.decode r.wsum.toNat)).div (ph.mul ⟨false, r.m.toNat, 0, false⟩))

/-! ## The instructions -/

/-- RSV.upd (R274). -/
def execRsvUpd (c : LCtl) (n : ZReg) (a b x : Opnd) (s : State) : Result :=
  let u : LUse := ⟨[(a, 2, c.lua), (b, 1, c.lub), (x, 1, c.luc)], [], false, [n]⟩
  .next (match s.lStart c u with
    | .error t => t
    | .ok y =>
      let z := y.rsvAt 0 n
      let r (l : Lane) : Rsv × Flags := rsvUpd y.tk.seed l n z[l] (y.read 0 a 64 l) (y.read 1 b 32 l) (y.read 2 x 32 l)
      y.doneRsv c u 4 [] [(n, lanes fun l => (r l).1)] (activeFlags y.act fun l => (r l).2))

/-- RSV.mrg (R275). -/
def execRsvMrg (c : LCtl) (n q : ZReg) (b : Opnd) (cap : BitVec 23) (s : State) : Result :=
  let u : LUse := ⟨[(.zero, 1, false), (b, 1, c.lub)], [], false, [n, q]⟩
  .next (match s.lStart c u with
    | .error t => t
    | .ok y =>
      let z := y.rsvAt 0 n
      let zs := y.rsvAt 1 q
      let r (l : Lane) : Rsv × Flags := rsvMrg y.tk.seed l n z[l] zs[l] (y.read 1 b 32 l) cap.toNat
      y.doneRsv c u 6 [] [(n, lanes fun l => (r l).1)] (activeFlags y.act fun l => (r l).2))

/-- RSV.fin (R276). -/
def execRsvFin (c : LCtl) (n : ZReg) (d : Dst) (s : State) : Result :=
  let u : LUse := ⟨[], [(d, 1)], c.lud, [n]⟩
  .next (match s.lStart c u with
    | .error t => t
    | .ok y =>
      let z := y.rsvAt 0 n
      y.doneRsv c u 12 (destRegs d 32 fun l => BitVec.ofNat 64 (rsvFin z[l]).1) [] (activeFlags y.act fun l => (rsvFin z[l]).2))

/-- A value as RSV.set stores it in .wsum or .phat (R277). -/
def rsvWeight (x : Nat) : Word × Flags :=
  let v := fp32.decode x
  if rsvBad v then (0, fNV) else if (exOf v).m == 0 then (0, 0) else (BitVec.ofNat 32 x, 0)

/-- A reservoir with one field replaced (R277). -/
def Rsv.put (r : Rsv) (f : ZField) (x : Nat) : Rsv × Flags :=
  match f with
  | .y => ({ r with y := BitVec.ofNat 64 x }, 0)
  | .m => ({ r with m := BitVec.ofNat 32 x }, 0)
  | .ctr => ({ r with ctr := BitVec.ofNat 32 x }, 0)
  | .wsum => ({ r with wsum := (rsvWeight x).1 }, (rsvWeight x).2)
  | .phat => ({ r with phat := (rsvWeight x).1 }, (rsvWeight x).2)

def Rsv.get (r : Rsv) (f : ZField) : DWord :=
  match f with
  | .y => r.y
  | .m => r.m.setWidth 64
  | .ctr => r.ctr.setWidth 64
  | .wsum => r.wsum.setWidth 64
  | .phat => r.phat.setWidth 64

def ZField.bits : ZField → Nat
  | .y => 64
  | _ => 32

/-- RSV.set (R277). -/
def execRsvSet (c : LCtl) (n : ZReg) (f : ZField) (a : Opnd) (s : State) : Result :=
  let u : LUse := ⟨[(a, regsOf (ZField.bits f), c.lua)], [], false, [n]⟩
  .next (match s.lStart c u with
    | .error t => t
    | .ok y =>
      let z := y.rsvAt 0 n
      let r (l : Lane) : Rsv × Flags := z[l].put f (y.read 0 a (ZField.bits f) l)
      y.doneRsv c u 1 [] [(n, lanes fun l => (r l).1)] (activeFlags y.act fun l => (r l).2))

/-- RSV.get (R277). -/
def execRsvGet (c : LCtl) (n : ZReg) (f : ZField) (d : Dst) (s : State) : Result :=
  let u : LUse := ⟨[], [(d, regsOf (ZField.bits f))], c.lud, [n]⟩
  .next (match s.lStart c u with
    | .error t => t
    | .ok y =>
      let z := y.rsvAt 0 n
      y.doneRsv c u 1 (destRegs d (ZField.bits f) fun l => z[l].get f) [] 0)

def Rsv.zero : Rsv := ⟨0, 0, 0, 0, 0⟩

/-- The reservoirs of a mask. -/
def rsvMask (mask : BitVec 8) : List ZReg := (List.finRange 8).filter fun n => mask.getLsbD n.val

/-- RSV.clr (R277): it reads no reservoir. -/
def execRsvClr (c : LCtl) (mask : BitVec 8) (s : State) : Result :=
  let ns := rsvMask mask
  let u : LUse := ⟨[], [], false, ns⟩
  let ph := s.sys.phys
  let s0 := { s with sys := { s.sys with phys := { ph with parity := ph.parity.filter fun e =>
    !(e.1 == s.cur.1 && ns.any fun n => e.2.1 == 512 + n.val) } } }
  .next (match s0.lStart c u with
    | .error t => t
    | .ok y => y.doneRsv c u 1 [] (ns.map fun n => (n, Vector.replicate 32 Rsv.zero)) 0)

end Sys2Proof.Machine
end

