-- ==== Sys2Proof/Machine/Matrix.lean ====
section
/-!
DEFINITION. Matrix L-ops (spec/10): MLDW, MMA with its rendezvous (R243 to R246), MZERO, MDRAIN and the fence.
-/

namespace Sys2Proof.Machine

/-! ## L-ops that offer a job -/

/-- The L-op of a side as it stands in the machine after other steps. -/
def LIss.refresh (x : LIss) (s : State) : LIss :=
  match s.waves[x.i]? with
  | none => { x with s := s }
  | some w => { x with s := s, w := w }

/-- Offer a job for the side: it waits for its tag (R305) and for its entries (R240, R307). -/
def LIss.offerJob (x : LIss) (c : LCtl) (u : LUse) (tag : BitVec 6) (j : Job) (recAddr : Nat) : State :=
  let strm := Strm.l x.d
  if (x.s.offerOf x.i strm).isNone && !x.s.tagDone x.w tag then x.s.waitL x.w x.d .job
  else
    let (s1, on) := x.s.offer x.i strm j recAddr
    let y := x.refresh s1
    if on then y.done c u 0 [] id else s1.waitL y.w x.d (s1.offerWait x.i strm)

/-- DESC_INVALID of an L-op: the report is the bond value in use (R351). -/
def LIss.descInvalid (x : LIss) : State := x.trap (.aux_ .descInvalid x.tk.bond.toNat)

/-! ## MLDW (R259, R260) -/

/-- MLDW. -/
def execMldw (c : LCtl) (a b x : Opnd) (tag : BitVec 6) (s : State) : Result :=
  let u : LUse := ⟨[(a, 2, c.lua), (b, 2, c.lub), (x, 2, c.luc)], [], false, []⟩
  .next (match s.lStart c u with
    | .error t => t
    | .ok y =>
      match lowest y.act with
      | none => y.done c u 0 [] id
      | some l =>
        let va := y.read 0 a 64 l
        let dw := BitVec.ofNat 64 (y.read 1 b 64 l)
        let d := WDesc.ofWord dw
        if d.reserved || d.off % 64 != 0 || (d.pair && !y.s.paired y.w) then y.descInvalid
        else
          match scalarTrap va 64 with
          | some t => y.trap { t with mask := maskOf fun k => k == l }
          | none =>
            let j := { y.w.newJob y.i .mldw (some tag) y.tk.seed with
              b := dw, c := BitVec.ofNat 64 (y.read 2 x 64 l), pair := d.pair }
            ({ y with s := y.s.release y.w.core .d }.refresh (y.s.release y.w.core .d)).offerJob c u tag j va)

/-! ## MMA (R243 to R246) -/

/-- The waves that a bond value names in a wave's team: the wave itself under the solo bond. -/
def State.bonded (s : State) (i : Nat) (w : Wave) (v : DWord) : List (Option Nat) :=
  if v = 0 then [some i]
  else
    match s.teamOf w with
    | none => []
    | some t => (bondMembers v).map fun m => s.waveAt w.grid t.idx t.twin m

/-- A member has retired or been killed (R245). -/
def State.bondGone (s : State) (ms : List (Option Nat)) : Bool :=
  ms.any fun m => ((m.bind fun k => s.waves[k]?).map Wave.gone).getD true

/-- The arrivals under a bond value, when every member has one. -/
def State.arrivals (s : State) (ms : List (Option Nat)) (v : DWord) : Option (List (Nat × Arrival)) :=
  ms.foldr (fun m acc =>
    match acc, m with
    | some l, some k =>
      match (s.waves[k]?).bind Wave.arrival with
      | some a => if a.bond == v then some ((k, a) :: l) else none
      | none => none
    | _, _ => none) (some [])

/-- What an MMA names. -/
def mmaUse (c : LCtl) (a b x : Opnd) : LUse := ⟨[(a, 1, c.lua), (b, 2, c.lub), (x, 2, c.luc)], [], false, []⟩

/-- A member's MMA completes. -/
def State.completeMma (s : State) (k : Nat) (a : Arrival) : State :=
  match s.waves[k]? with
  | none => s
  | some w =>
    match w.ls.side? a.side with
    | none => s
    | some p =>
      ({ s := s, i := k, w := w, d := a.side, p := p, act := w.active p a.ctl, tk := w.ls.ticket, old := [] } : LIss).done a.ctl
        (mmaUse a.ctl a.a a.b a.c) 0 [] fun y => { y with arrival := none }

/-- A check that fails raises its trap at the MMA of every member (R246). -/
def State.trapMembers (s : State) (ms : List (Nat × Arrival)) (t : Trap) : State :=
  ms.foldl (fun z m =>
    let pc := (((s.waves[m.1]?).bind fun w => w.ls.side? m.2.side).map PcSide.pc).getD 0
    (z.modWave m.1 fun y => { y with arrival := none }).trapL m.1 m.2.side t pc false) s

/-- Two values of a list differ. -/
def differ {α : Type} [BEq α] : List α → Bool
  | [] => false
  | x :: xs => xs.any (· != x)

/-- The job of a joint operation. -/
def State.mmaJob (s : State) (lead : Nat) (w : Wave) (a : Arrival) (ms : List Nat) (fmt : Word) (b c : DWord) : Job :=
  s.mmaFoot { w.newJob lead .mma none a.seed with
    members := ms, fmt := fmt, b := b, c := c, ovw := a.ovw, rowp := a.rowp, acca := a.acca, pair := (DDesc.ofWord c).pair }
    (s.wbufBytes w)

/-- The joint operation of arrivals, in member order (R246): its checks, then its acceptance. Where the engine's queue has no
entry, the arrivals wait (R240). -/
def State.fire (s : State) (ms : List (Nat × Arrival)) (v : DWord) : State :=
  match ms with
  | [] => s
  | (lead, a) :: _ =>
    match s.waves[lead]? with
    | none => s
    | some w =>
      let fmts := ms.flatMap fun m => m.2.fmts
      let bcs := ms.filterMap fun m => m.2.bc
      let trap (c : Cause) : State := s.trapMembers ms (.aux_ c v.toNat)
      match fmts, bcs with
      | fmt :: _, (b, c) :: _ =>
        let f := FmtW.ofWord fmt
        if differ fmts then trap .formatDiverge
        else if differ bcs then trap .operandDiverge
        else if !f.valid then trap .formatInvalid
        else if mmaDescBad f (ADesc.ofWord b) (DDesc.ofWord c) a.rowp a.acca (s.paired w) (s.scratchSize w) (s.accBytes w) (s.wbufBytes w)
        then trap .descInvalid
        else
          let j := s.mmaJob lead w a (ms.map fun m => m.1) fmt b c
          if s.room j then ms.foldl (fun z m => z.completeMma m.1 m.2) (s.enterJob j [])
          else
            match s.waves[s.cur.1]? with
            | none => s
            | some y => s.waitL y s.cur.2 .other
      | _, _ => ms.foldl (fun z m => z.completeMma m.1 m.2) s

/-- MMA. -/
def execMma (c : LCtl) (ovw rowp acca : Bool) (a b x : Opnd) (s : State) : Result :=
  let u := mmaUse c a b x
  .next (match s.lStart c u with
    | .error t => t
    | .ok y =>
      let v := y.tk.bond
      let ms := y.s.bonded y.i y.w v
      if v != 0 && y.s.bondGone ms then
        let s1 := y.s.modWave y.i fun w => { w with arrival := none }
        s1.trapL y.i y.d (.aux_ .bondBroken v.toNat) y.p.pc false
      else if (y.w.arrival.map fun r => r.side != y.d).getD false then y.s.waitL y.w y.d .other
      else
        let r : Arrival :=
          { side := y.d, bond := v, fmts := (lanesIn y.act).map fun l => BitVec.ofNat 32 (y.read 0 a 32 l),
            bc := (lowest y.act).map fun l => (BitVec.ofNat 64 (y.read 1 b 64 l), BitVec.ofNat 64 (y.read 2 x 64 l)),
            seed := y.tk.seed, ovw := ovw, rowp := rowp, acca := acca, ctl := c, a := a, b := b, c := x }
        let w1 := { y.w with arrival := some r }
        let s1 := y.s.putWave y.i w1
        match s1.arrivals ms v with
        | none => s1.waitL w1 y.d .bond
        | some l => s1.fire l v)

/-! ## MZERO (R263) -/

/-- MZERO. -/
def execMzero (c : LCtl) (a : Opnd) (s : State) : Result :=
  let u : LUse := ⟨[(a, 2, c.lua)], [], false, []⟩
  .next (match s.lStart c u with
    | .error t => t
    | .ok y =>
      match lowest y.act with
      | none => y.done c u 0 [] id
      | some l =>
        let dw := BitVec.ofNat 64 (y.read 0 a 64 l)
        let d := ZDesc.ofWord dw
        if d.reserved || d.off % 256 != 0 || (d.pair && !y.s.paired y.w) || decide (y.s.accBytes y.w < d.off + d.len) then y.descInvalid
        else if d.len = 0 then y.done c u 0 [] id
        else
          let j := { y.w.newJob y.i .mzero none y.tk.seed with a := dw, pair := d.pair }
          let j1 := { j with writes := y.s.ranges j (.acc j.team) d.off d.len }
          if y.s.room j1 then (y.refresh (y.s.enterJob j1 [])).done c u 0 [] id else y.s.waitL y.w y.d .other)

/-! ## MDRAIN (R264, R265) -/

/-- DESC_INVALID of a drain (R264): the format word, the reserved bit, the tile (R256). -/
def drainDescBad (f : FmtW) (d : NDesc) (paired : Bool) (acc : Nat) : Bool :=
  let m := if d.pair then d.m / 2 else d.m
  !f.drainOk || d.reserved || d.doff % 256 != 0 || (d.pair && (!paired || decide (d.m < 64))) ||
  decide (acc < d.doff + m * d.n * accSize f.acc)

/-- MDRAIN. -/
def execMdrain (c : LCtl) (add : Bool) (a b x : Opnd) (tag : BitVec 6) (s : State) : Result :=
  let u : LUse := ⟨[(a, 2, c.lua), (b, 1, c.lub), (x, 2, c.luc)], [], false, []⟩
  .next (match s.lStart c u with
    | .error t => t
    | .ok y =>
      let stand : Option Trap :=
        if add && y.w.inRegion then some (.of .regionIllegal)
        else if y.s.twinIllegal y.w then some (.of .twinIllegal) else none
      match lowest y.act with
      | none =>
        match stand with
        | some t => y.trap t
        | none => y.done c u 0 [] id
      | some l =>
        let va := y.read 0 a 64 l
        let fmt := BitVec.ofNat 32 (y.read 1 b 32 l)
        let dw := BitVec.ofNat 64 (y.read 2 x 64 l)
        let d := NDesc.ofWord dw
        match scalarTrap va 64 with
        | some t => y.trap { t with mask := maskOf fun k => k == l }
        | none =>
          if drainDescBad (FmtW.ofWord fmt) d (y.s.paired y.w) (y.s.accBytes y.w) then y.descInvalid
          else
            match stand with
            | some t => y.trap t
            | none =>
              let j := { y.w.newJob y.i (.mdrain add) (some tag) y.tk.seed with c := dw, fmt := fmt, pair := d.pair }
              y.offerJob c u tag j va)

/-- MDRAIN.fence (R265). -/
def execMdrainFence (c : LCtl) (tag : BitVec 6) (s : State) : Result :=
  .next (match s.lStart c use0 with
    | .error t => t
    | .ok y =>
      if y.act = 0 then y.done c use0 0 [] id
      else y.offerJob c use0 tag (y.w.newJob y.i .fence (some tag) y.tk.seed) 0)

end Sys2Proof.Machine
end

