-- ==== Sys2Proof/Machine/Image.lean ====
section
/-!
DEFINITION. The team image of a save slot (spec/16 R360 to R364): header, wave images with their checkpoints, on-core memory
and green sectors. The device writes an image where system software reserved it; what it needs again at a restore it keeps in
the wave itself (notes/assumptions/20.md).
-/

namespace Sys2Proof.Machine

/-- A field of an image: its offset, its bytes, its value. -/
abbrev ImgW := Nat × Nat × Nat

/-! ## Wave images (R361, R362, R364) -/

def SideSt.code : SideSt → Nat
  | .running => 0
  | .arrived => 1
  | .atLend => 2

/-- A divergence stack entry or a side record (R364). -/
def sideWords (at_ : Nat) (p : PcSide) (slot : Side) : List ImgW :=
  [(at_, 7, p.pc), (at_ + 8, 4, p.mask.toNat), (at_ + 16, 7, p.join.getD 0),
   (at_ + 24, 1, (if slot == .b then 1 else 0) + 2 * SideSt.code p.st)]

/-- The n-th element of a list, with its position. -/
def indexed {α : Type} (l : List α) : List (Nat × α) := mapIx (fun i x => (i, x)) 0 l

/-- A ticket: 64 bytes (R361). -/
def ticketWords (at_ : Nat) (t : Ticket) : List ImgW :=
  [(at_, 8, t.addr % 2 ^ 56 + t.extent % 8 * 2 ^ 56)] ++
  (indexed t.snaps.toList).map (fun e => (at_ + 8 + 8 * e.1, 8, e.2.toNat)) ++
  [(at_ + 40, 8, t.bond.toNat), (at_ + 48, 8, t.seed.toNat), (at_ + 56, 4, t.epoch.toNat)]

/-- A parking record: 0x440 bytes (R361). -/
def parkWords (at_ : Nat) (k : Park) : List ImgW :=
  [(at_, 7, k.pc), (at_ + 8, 4, (reqMask k.reqs).toNat), (at_ + 16, 8, k.first)] ++
  k.reqs.flatMap fun r =>
    [(at_ + 0x40 + 0x20 * r.lane.val, 8, r.addr), (at_ + 0x48 + 0x20 * r.lane.val, 16, numLE r.data),
     (at_ + 0x58 + 0x20 * r.lane.val, 8, r.swap.toNat)]

/-- A reservoir as R271 lays it out. -/
def Rsv.num (r : Rsv) : Nat :=
  r.y.toNat + r.wsum.toNat * 2 ^ 64 + r.phat.toNat * 2 ^ 96 + r.m.toNat * 2 ^ 128 + r.ctr.toNat * 2 ^ 160

/-- The home image of the reservoirs (R70, R361). -/
def Soft.zWords (x : Soft) : List ImgW :=
  (List.finRange 8).flatMap fun n => allLanes.map fun l => (0x6800 + 0x400 * n.val + 0x20 * l.val, 32, (x.z[n][l]).num)

/-- Fields of the layout that a region checkpoint holds too: what R319 restores. The bits of a tag word above the JSTAT word are
the device's own (R361); the model puts 0 there for a tag without a job and a free value otherwise. -/
def State.softWords (s : State) (pc : Nat) (regs : Vector DWord 64) (x : Soft) : List ImgW :=
  [(0, 7, pc), (0x0C, 4, x.lastEpoch.toNat), (0x58, 2, x.fflags.toNat + x.ext % 8 * 2 ^ 8), (0x60, 8, x.bond.toNat),
   (0x68, 8, x.seed.toNat), (0x70, 4, x.epoch.toNat), (0x74, 4, x.mctr.toNat)] ++
  (indexed regs.toList).map (fun e => (0x100 + 8 * e.1, 8, e.2.toNat)) ++
  (indexed x.tags.toList).map (fun e =>
    (0x600 + 8 * e.1, 8, (statWord e.2).toNat +
      (if e.2.job.isSome then (Config.freeWord (s.free + e.1)).toNat / 2 ^ 8 * 2 ^ 8 else 0))) ++
  allLanes.flatMap (fun l =>
    let at_ := 0x800 + 0x40 * l.val
    [(at_, 4, x.rndctr[l].toNat), (at_ + 8, 8, x.log[l].base.toNat), (at_ + 0x10, 4, x.log[l].slice.toNat),
     (at_ + 0x14, 4, x.log[l].cur.toNat),
     (at_ + 0x18, 4, (List.finRange 5).foldl (fun n p => n + x.rx[l][p].length % 16 * 2 ^ (4 * p.val)) 0)] ++
    (List.finRange 5).flatMap fun p => (indexed (x.rx[l][p].take 8)).map fun e =>
      (0x2000 + 0x140 * l.val + 0x40 * p.val + 8 * e.1, 8, e.2.toNat)) ++
  x.zWords

/-- sys.cause of a trap that is raised and not yet delivered (R348, R362): of a fault that was answered FATAL at one of the wave's
records, and else of the oldest imprecise trap that it holds. -/
def Wave.dueCause (w : Wave) : DWord :=
  let of (strm : Strm) (k : Option Park) : Option DWord := (k.filter Park.fatal).map fun k =>
    causeWord k.cause false (strm != .s) (strm == .l .b) w.region.isSome
  let imp := (w.priv.held.head?).map fun h => causeWord h.cause true false false w.region.isSome
  (((of .s w.ss.parkS).or (of (.l .a) w.ls.parkA)).or ((of (.l .b) w.ls.parkB).or imp)).getD 0

/-- The other fields of a wave image. -/
def Wave.liveWords (w : Wave) : List ImgW :=
  let x := w.ls
  let parked : Mask := (([x.parkA, x.parkB].filterMap id).map fun k => reqMask k.reqs).foldl (· ||| ·) 0
  let preds (l : Lane) : Nat := (List.finRange 7).foldl (fun n p =>
    n + (if inMask (x.p[(⟨p.val, by omega⟩ : Fin 8)]) l then 2 ^ (2 + p.val) else 0)) 0
  [(7, 1, (if w.priv.handler then 1 else 0) + (if w.ss.yielded.isSome then 2 else 0) + (if w.imagePoisoned then 4 else 0) +
      (if w.st == .killed then 8 else 0)),
   (8, 4, w.dueCause.toNat % 2 ^ 20),
   (0x50, 4, x.blk.entry.toNat), (0x54, 2, x.stack.length),
   (0x58, 6, w.soft.fflags.toNat + w.soft.ext % 8 * 2 ^ 8 + x.tickets.length % 16 * 2 ^ 16 + x.results.length % 16 * 2 ^ 20 +
      (x.w[(0 : Fin 4)].toNat + x.w[(1 : Fin 4)].toNat * 2 ^ 6 + x.w[(2 : Fin 4)].toNat * 2 ^ 12 + x.w[(3 : Fin 4)].toNat * 2 ^ 18) * 2 ^ 24),
   (0x78, 8, ((w.region.map Region.sig).getD 0).toNat)] ++
  (indexed w.priv.bank.toList).map (fun e => (0x80 + 8 * e.1, 8, e.2.toNat)) ++
  ((x.sideA.map fun p => sideWords 0x10 p .a).getD []) ++ ((x.sideB.map fun p => sideWords 0x30 p .b).getD []) ++
  (indexed x.tickets).flatMap (fun e => ticketWords (0x300 + 64 * e.1) e.2) ++
  (indexed x.results).map (fun e => (0x500 + 8 * e.1, 8, e.2.toNat)) ++
  allLanes.map (fun l => (0x804 + 0x40 * l.val, 2, (if inMask x.live l then 1 else 0) + (if inMask parked l then 2 else 0) + preds l)) ++
  ((w.ss.parkS.map fun k => parkWords 0x1000 k).getD []) ++ ((x.parkA.map fun k => parkWords 0x1440 k).getD []) ++
  ((x.parkB.map fun k => parkWords 0x1880 k).getD []) ++
  (indexed w.green.dec).map (fun e => (0x1D00 + 8 * e.1, 8, e.2)) ++
  (indexed x.stack.reverse).flatMap (fun e => sideWords (0x4800 + 32 * e.1) e.2.side e.2.slot) ++
  (List.range (32 * (w.soft.ext + 1))).flatMap (fun n =>
    if h : n < 256 then allLanes.map fun l => (0x8800 + 0x80 * n + 4 * l.val, 4, (x.v[n])[l].toNat) else [])


/-- The wave image with the checkpoint of an open region. -/
def State.waveWords (s : State) (w : Wave) : List ImgW :=
  s.softWords w.ss.pc w.ss.s w.soft ++ w.liveWords ++
    ((w.region.map fun g => (s.softWords g.ck.pc g.ck.s g.ck.soft).map fun e => (e.1 + 0x10800, e.2)).getD [])

/-! ## Writing an image -/

/-- Put the bytes of fields into an overlay. -/
def imageBytes (ws : List ImgW) : Overlay := ws.foldl (fun y e => ovWrite y e.1 (bytesLE e.2.1 e.2.2)) []

/-- Where the device's own access to a context's memory leads. -/
def State.systemAt (s : State) (c : Context) (va : Nat) (write : Bool) : Except XFault Loc :=
  s.translate c.part c.asid va ⟨write, false, true, 1⟩

/-- Some byte of a range of a context's memory cannot be written: pages of 4 KiB are tried (R368). -/
def State.imageFault (s : State) (c : Context) (va len : Nat) : Bool :=
  (List.range ((len + 4095) / 4096)).any fun k =>
    match s.systemAt c (va + 4096 * k) true with
    | .ok p => !p.near
    | .error _ => true

/-- Zero a range of physical storage, clean. -/
def Mem.zeroAt (m : Mem) (p : Loc) (len : Nat) : Mem :=
  match p with
  | .hbm a => { m with hbm := cellZero m.hbm a len, hbmPoison := m.hbmPoison.filter fun u => decide (64 * u < a) || decide (a + len ≤ 64 * u) }
  | .carved a =>
    { m with carved := cellZero m.carved a len, carvedPoison := m.carvedPoison.filter fun u => decide (64 * u < a) || decide (a + len ≤ 64 * u) }
  | _ => m

/-- Write a part of an image: the range is cleared, then its bytes are written. A byte of 0 needs no writing. -/
def State.putPart (s : State) (c : Context) (va len : Nat) (ov : Overlay) (bad : List Nat) : State :=
  let clear := (List.range ((len + 4095) / 4096)).foldl (fun z k =>
    match z.systemAt c (va + 4096 * k) true with
    | .ok p =>
      if p.near then
        let z1 := z.recall p
        { z1 with mem := ((List.range 16).foldl (fun m q => m.uncount (p.add (256 * q))) z1.mem).zeroAt p (min 4096 (len - 4096 * k)) }
      else z
    | .error _ => z) s
  let bytes := (ov.filter fun e => e.2 != 0).foldl (fun z e =>
    match z.systemAt c (va + e.1) true with
    | .ok p => if p.near then { z with mem := z.mem.putByte p e.2 } else z
    | .error _ => z) clear
  bad.foldl (fun z u =>
    match z.systemAt c (va + 64 * u) true with
    | .ok p => { z with mem := z.mem.setPoison p true }
    | .error _ => z) bytes

/-- Offset of the image of wave w (R360). -/
def waveImageAt (num : Nat) : Nat := 0x20000 * (num + 1)

/-- RGN.beg writes the checkpoint into the wave's image (R361). -/
def State.putCheckpoint (s : State) (i : Nat) : State :=
  match s.waves[i]? with
  | none => s
  | some w =>
    match w.region with
    | none => s
    | some g =>
      let c := s.ctxOf w
      let s1 := s.putPart c (s.imageBase w.team + waveImageAt w.num + 0x10800) 0x8800 (imageBytes (s.softWords g.ck.pc g.ck.s g.ck.soft)) []
      { s1 with free := s1.free + 64 }

/-! ## The team header (R363) -/

/-- Arrival mask of a team barrier. -/
def State.arrived (s : State) (t : Nat) (b : Fin 16) : Nat :=
  (s.members t).foldl (fun n i => n + (((s.waves[i]?).filter fun w => w.ss.bars[b] == .arrived).map fun w => 2 ^ w.num).getD 0) 0

/-- Arrival mask of a cluster barrier. -/
def State.cArrived (s : State) (t : Nat) (b : Fin 4) : Nat :=
  (s.clusterOf t).foldl (fun n k =>
    let rank := ((s.teams[k]?).map Team.rank).getD 0
    (s.members k).foldl (fun m i =>
      m + (((s.waves[i]?).filter fun w => w.ss.cbars[b] == .arrived).map fun w => 2 ^ (64 * rank + w.num)).getD 0) n) 0

/-- The fields of the team header. In the state word the slot stands in [15:0], the wave count in [23:16], the pair attribute in
[24]. -/
def State.headerWords (s : State) (t : Nat) (x : Team) : List ImgW :=
  let g := ((s.grids[x.grid]?).map Grid.launch).getD Launch.empty
  let bar (b : Bar) : Nat := b.phase % 2 ^ 32 + (if b.abandoned then 2 ^ 32 else 0)
  [(0, 8, x.slot % 2 ^ 16 + g.waves % 2 ^ 8 * 2 ^ 16 + (if g.pair then 2 ^ 24 else 0) + (if x.lost then 2 ^ 63 else 0)),
   (0x180, 1, x.flags.toNat)] ++
  (List.finRange 16).flatMap (fun b => [(0x40 + 16 * b.val, 8, bar x.bars[b]), (0x48 + 16 * b.val, 8, s.arrived t b)]) ++
  (if x.rank = 0 then (List.finRange 4).flatMap fun b =>
    [(0x200 + 0x60 * b.val, 8, bar x.cbars[b]), (0x210 + 0x60 * b.val, 64, s.cArrived t b)] else [])

/-! ## The parts after the wave images (R360) -/

/-- A part of an image: its offset, its size, its bytes and its poisoned units. -/
structure Part where
  at_ : Nat
  len : Nat
  bytes : Overlay
  bad : List Nat

/-- Lay parts out one after the other, each at the next multiple of 4,096. -/
def layParts : Nat → List (Nat × Overlay × List Nat) → List Part
  | _, [] => []
  | a, (len, ov, bad) :: rest => ⟨a, len, ov, bad⟩ :: layParts ((a + len + 4095) / 4096 * 4096) rest

/-- One green sector: address, byte mask and space, then its data (R360). -/
def greenWords (k space addr : Nat) (bytes : Overlay) : List ImgW :=
  [(128 * k, 8, addr), (128 * k + 8, 8, bytes.foldl (fun n e => n + 2 ^ (e.1 % 64)) 0), (128 * k + 16, 1, space)] ++
  bytes.map fun e => (128 * k + 64 + e.1 % 64, 1, e.2.toNat)

/-- The green sectors of a team's waves, each with its space, its address and its bytes: space 0 is global memory, 1 the wave's own
scratchpad by its offset, 2 remote scratchpad by the remote address, with half and rank (R106, R326). -/
def State.greenPart (s : State) (t : Nat) : Nat × Overlay :=
  let secs := (s.members t).flatMap fun i =>
    match s.waves[i]? with
    | none => []
    | some w =>
      let of (ov : Overlay) (u : Nat) : Overlay := ov.filter fun e => e.1 / 64 == u
      (dedup (w.green.glob.map fun e => e.1 / 64)).map (fun u => (0, 64 * u, of w.green.glob u)) ++
      (dedup (w.green.scr.map fun e => e.1 / 64)).map fun u =>
        let remote := u * 64 / 2 ^ 21 != 2 * t + (if w.odd then 1 else 0)
        (if remote then 2 else 1, s.scrAddress remote (64 * u), of w.green.scr u)
  (128 * secs.length, imageBytes ((indexed secs).flatMap fun e => greenWords e.1 e.2.1 e.2.2.1 e.2.2.2))

/-- Live rays of a team, by their places: those of its waves that have not left. A ray of a retired wave runs on (R304). -/
def State.rayIds (s : State) (t : Nat) : List Nat :=
  positions (fun (r : Ray) => r.team == t && !r.freed && ((r.wave.bind fun i => s.waves[i]?).map fun w => !w.gone).getD false) 0 s.rays

def State.raysOf (s : State) (t : Nat) : Nat := (s.rayIds t).length

/-- The parts of a team after its wave images. The content of ray slots is not architected: free bytes. -/
def State.tailParts (s : State) (t : Nat) (x : Team) : List Part :=
  let g := ((s.grids[x.grid]?).map Grid.launch).getD Launch.empty
  let pair := g.pair || decide (32 < g.waves)
  let size := g.scratch * 512
  let acc := 4096 * g.acc
  let wbuf := 4096 * g.wbuf
  let shift (c : Cells) : Overlay := c.map fun e => (e.1 + size, e.2)
  let scr : Nat × Overlay × List Nat := if pair then
      (2 * size, x.lo.scratch ++ shift x.hi.scratch, x.lo.scratchPoison ++ x.hi.scratchPoison.map (· + size / 64))
    else (size, x.lo.scratch, x.lo.scratchPoison)
  let rays := 256 * s.raysOf t
  let ray : Nat × Overlay × List Nat := (rays, (List.range rays).map fun k => (k, Config.freeByte (s.free + k)), [])
  let green := s.greenPart t
  layParts 0x820000 ([scr, (acc, x.lo.acc, x.lo.accPoison), (wbuf, x.lo.wbuf, x.lo.wbufPoison)] ++
    (if pair then [(acc, x.hi.acc, x.hi.accPoison), (wbuf, x.hi.wbuf, x.hi.wbufPoison)] else []) ++
    [ray, (green.1, green.2, [])])

/-- Ranges of a team's image that a save writes. -/
def State.imageRanges (s : State) (t : Nat) (x : Team) : List (Nat × Nat) :=
  (0, 4096) :: (s.members t).filterMap (fun i => (s.waves[i]?).map fun w => (waveImageAt w.num, 0x20000)) ++
  (s.tailParts t x).map fun p => (p.at_, p.len)

/-- Write the whole image of a team. -/
def State.putImage (s : State) (t : Nat) : State :=
  match s.teams[t]? with
  | none => s
  | some x =>
    let c := s.context (((s.grids[x.grid]?).map Grid.ctx).getD 0)
    let base := s.imageBase t
    let s1 := s.putPart c base 4096 (imageBytes (s.headerWords t x)) []
    let s2 := (s.members t).foldl (fun z i =>
      match s.waves[i]? with
      | none => z
      | some w => z.putPart c (base + waveImageAt w.num) 0x20000 (imageBytes (s.waveWords w)) []) s1
    let s3 := (s.tailParts t x).foldl (fun z p => z.putPart c (base + p.at_) p.len p.bytes p.bad) s2
    { s3 with free := s3.free + 256 * s.raysOf t + 64 }

end Sys2Proof.Machine
end

