-- ==== Sys2Proof/Machine/Region.lean ====
section
/-!
DEFINITION. Regions: RGN.beg, RGN.end, RGN.in and RGN.out (spec/07 R170, R171; spec/02 R52, R53), the cure (spec/12 R321, spec/05
R111, R116), and the comparison of twins (R325, R326, R475; spec/19 R423, R424).
-/

namespace Sys2Proof.Machine

/-! ## RGN.in and RGN.out (R171) -/

/-- Append a range to a pending list. -/
def State.addRange (s : State) (a b : SReg) (get : SStream → List Range) (put : SStream → List Range → SStream) : State :=
  s.userOp fun w =>
    let lo := (w.readS a).toNat
    let len := (w.readS b).toNat
    if w.inRegion then s.trapS w (.of .regionIllegal)
    else if len = 0 then s.done w
    else if 2 ^ 56 < lo + len then s.trapS w (.at .addrRange lo)
    else if 8 ≤ (get w.ss).length then s.trapS w (.of .footprintFull)
    else s.done { w with ss := put w.ss (get w.ss ++ [⟨lo, len⟩]) }

/-- RGN.in (R171). -/
def execRgnIn (a b : SReg) (s : State) : Result := .next (s.addRange a b SStream.ins fun x l => { x with ins := l })

/-- RGN.out (R171). -/
def execRgnOut (a b : SReg) (s : State) : Result := .next (s.addRange a b SStream.outs fun x l => { x with outs := l })

/-! ## Prefetches of a region's inputs (R324) -/

/-- A line is brought into the LLC where it is not there: a prefetch meets no count, consumes no poison and reports no fault. -/
def State.prefetchLine (s : State) (v : Via) (line : Nat) : State :=
  match s.translate v.part v.asid (256 * line) reading with
  | .error _ => s
  | .ok p =>
    if (s.mem.line? p).isSome then s
    else
      match (s.keepLeaf v.part v.asid (256 * line)).fill v.part v.asid (256 * line) p reading 15 with
      | .error _ => s
      | .ok z => z

/-- Lines of ranges, in order. -/
def rangeLines (rs : List Range) : List Nat :=
  rs.flatMap fun r => if r.len = 0 then [] else (List.range ((r.lo + r.len - 1) / 256 - r.lo / 256 + 1)).map (r.lo / 256 + ·)

/-- The task scheduler prefetches the input ranges of a region into the LLC, up to 4 MiB (R324). What an L1 holds clean changes no
value and is no state of the model (notes/assumptions/16.md). -/
def State.prefetch (s : State) (v : Via) (ins : List Range) : State :=
  ((rangeLines ins).take 16384).foldl (fun z l => z.prefetchLine v l) s

/-- Before a replay restarts its region, the inputs of a wave's region are prefetched again. -/
def State.prefetchFor (s : State) (i : Nat) : State :=
  match s.waves[i]? with
  | none => s
  | some w => ((w.region.map fun g => s.prefetch (s.viaOf w) g.ins)).getD s

/-! ## RGN.beg (R170, R53, R319) -/

/-- The wave has left, or has issued its RGN.beg (R53). -/
def State.hasBegun (s : State) (i : Nat) : Bool := ((s.waves[i]?).map fun w => w.gone || w.ss.begun.isSome).getD true

/-- A wave enters its region: its checkpoint is taken and written (R319, R361). -/
def State.openOne (s : State) (i : Nat) : State :=
  match s.waves[i]? with
  | none => s
  | some w =>
    match w.ss.begun with
    | none => s
    | some g =>
      let w1 := { w with region := some { g with ck := ⟨g.ck.pc, w.ss.s, w.soft⟩ }, green := Green.empty,
                         ss := { w.ss with begun := none, pc := g.ck.pc, waitS := none, ins := [], outs := [] } }
      ((s.putWave i w1).putCheckpoint i).countIssue w.team

/-- The region opens when every wave of the set has issued RGN.beg or has left (R53). -/
def State.tryOpen (s : State) (i : Nat) : State :=
  let set := s.portSet i
  if set.all s.hasBegun then set.foldl State.openOne s else s

/-- The words that RGN.beg reads, one for each declared range. -/
def Wave.rangeReqs (w : Wave) (e : RegEnt) : List LaneReq :=
  e.ranges.map fun r => ⟨0, (w.readS 1 + BitVec.ofNat 64 r.1).toNat, [], 0⟩

/-- The request of RGN.beg for the sector of an address that lies away. -/
def State.replyOf (s : State) (va : Nat) : Option Remote := s.scalarRemote s.cur.1 (va / 64 * 64)

/-- The region that RGN.beg opens, from the base words. -/
def Region.of (id endPc : Nat) (e : RegEnt) (bases : List Nat) (w : Wave) (next now : Nat) : Region :=
  let rs := (e.ranges.zip bases).map fun r => (r.1.2.1, (⟨r.2, r.1.2.2⟩ : Range))
  { id := id, endPc := endPc, ins := ((rs.filter fun r => !r.1).map fun r => r.2) ++ w.ss.ins,
    outs := ((rs.filter fun r => r.1).map fun r => r.2) ++ w.ss.outs, rollbacks := 0, errors := 0, mismatches := 0,
    unchecked := false, ended := none, ck := ⟨next, w.ss.s, w.soft⟩, sig := 0, since := now, bays := [w.core / 8] }

/-- The base words are read: ADDR_RANGE, or the wave has begun. -/
def State.begin (s : State) (id : Nat) (e : RegEnt) (endPc : Nat) (bases : List Nat) : State :=
  s.sOp fun w =>
    match (e.ranges.zip bases).find? fun r => decide (2 ^ 56 < r.2 + r.1.2.2) with
    | some r => s.trapS w (.at .addrRange r.2)
    | none =>
      let g := Region.of id endPc e bases w (s.opAddr w + 4) (((s.teamOf w).map Team.cycles).getD 0)
      ((s.setWave { w with ss := { w.ss with begun := some g, waitS := some .other } }).prefetch (s.viaOf w) g.ins).tryOpen s.cur.1

/-- Read the base words of the declared ranges, as SLD.b64 would (R170). -/
def State.readBases (s : State) (w : Wave) (ins : Instr) (rs : List LaneReq) (k : List Nat → State → State) : State :=
  match rs.findSome? fun r => scalarTrap r.addr 8 with
  | some t => s.trapS w t
  | none =>
    let g := s.readAll s.cur.1 w 8 ⟨.rlx, .d⟩ LHint.none rs
    match g.bad with
    | (q, f) :: _ => g.s.parkScalar w ins false q f
    | [] =>
      let refused := g.away.find? fun e => ((s.replyOf e.1.addr).bind Remote.reply) == some Reply.refused
      if g.away.any fun e => (s.replyOf e.1.addr).isNone then
        (g.away.foldl (fun z e =>
          let va := e.1.addr / 64 * 64
          if (z.replyOf va).isSome then z else z.ask s.cur.1 .s 0 [] va (e.2.line.add (va % 256)) (.read 64)) s).waitS w .other
      else if g.away.any fun e => ((s.replyOf e.1.addr).bind Remote.reply).isNone then s.waitS w .other
      else
        let drop (z : State) : State := g.away.foldl (fun y e =>
          match s.replyOf e.1.addr with
          | none => y
          | some r => y.dropRemote r.tag) z
        match refused with
        | some (q, _) => (drop s).parkScalar w ins false q ⟨0, xFabric⟩
        | none =>
          let far (va : Nat) : Option (List Byte × Bool) :=
            match (s.replyOf va).bind Remote.reply with
            | some (.data bs bad) => some (s.mergeFar w va ((bs.drop (va % 64)).take 8), w.poisonOf va 8 bad)
            | _ => none
          let val (r : LaneReq) : Nat × Bool :=
            match far r.addr with
            | some (bs, bad) => (numLE bs, bad)
            | none => (numLE (((g.vals.find? fun e => e.1.addr == r.addr).map fun e => e.2).getD []), g.poisoned.any fun e => e.addr == r.addr)
          let vals := rs.map val
          let s1 := drop g.s
          match (rs.zip vals).find? fun e => e.2.2 with
          | none => k (vals.map fun v => v.1) s1
          | some (q, _) =>
            let (s2, on) := s1.consume s.cur.1 q.addr w.ss.pc true
            let sub := (s.ctxOf w).subst.toNat
            if on then k (vals.map fun v => if v.2 then sub else v.1) s2 else s2

/-- RGN.beg (R170). -/
def execRgnBeg (id : BitVec 10) (s : State) : Result :=
  .next (s.userOp fun w =>
    let n := s.number id
    let l := s.launchOf w
    if n < 0 || 255 < n then s.trapS w (.of .illegalOperand)
    else if w.inRegion then s.trapS w (.of .regionNest)
    else
      match l.regions[n.toNat]? with
      | none => s.trapS w (.of .regionIllegal)
      | some e =>
        if l.sbase + e.beg != s.opAddr w then s.trapS w (.of .regionIllegal)
        else if w.ss.begun.isSome then s.tryOpen s.cur.1
        else s.joinPoint w (s.readBases w (.rgnBeg id) (w.rangeReqs e) fun bases z => z.begin n.toNat e (l.sbase + e.end_) bases))

/-! ## Cure (R321, R111, R116) -/

/-- Perform one green sector with its poison: it becomes dirty in the core's L1, allocates its counted line, or is sent to its place.
Where its page has lost its translation, its bytes wait in a fault record until it is answered (R401, R402). -/
def State.cureSector (s : State) (i : Nat) (v : Via) (g : Green) (k : Nat) : State :=
  let part := g.glob.filter fun e => e.1 / 64 == k
  let va := ((part.head?).map fun e => e.1).getD (64 * k)
  let poison := g.poison.filter fun q => q == k
  match s.translate v.part v.asid va writing with
  | .error f =>
    let ctx := ((s.waves[i]?).map s.ctxIdOf).getD 0
    if f.fatal then s
    else (runs part).foldl (fun z r =>
      (z.faultRecord v.part v.asid ctx (.device v.asid r.1 r.2 (!poison.isEmpty)) f r.1 true false).1) s
  | .ok p =>
    if p.near then
      match g.rc.reverse.find? fun e => e.1 == k / 4 with
      | some (_, n) => s.countedWrite v p.line part n poison
      | none => s.l1Write v p.line part (!poison.isEmpty)
    else s.sendOut i .s 0 [] p.line part poison

/-- Perform the green scratchpad bytes of one unit. -/
def State.cureUnit (s : State) (g : Green) (u : Nat) : State :=
  let part := (g.scr.filter fun e => e.1 / 64 == u).map fun e => (e.1 % 2 ^ 21, e.2)
  let half := 64 * u / 2 ^ 21
  s.scratchWrite (half / 2) (half % 2 == 1) part (g.scrPoison.contains u)

/-- Apply a wave's green writes, its counted lines among them, and then its list of decrements (notes/assumptions/16.md); the cure is a
release of scope .d. -/
def State.applyGreen (s : State) (i : Nat) : State :=
  match s.waves[i]? with
  | none => s
  | some w =>
    let v := s.viaOf w
    let s1 := (dedup (w.green.glob.map fun e => e.1 / 64)).foldl (fun z k => z.cureSector i v w.green k) s
    let s2 := (dedup (w.green.scr.map fun e => e.1 / 64)).foldl (fun z u => z.cureUnit w.green u) s1
    let s3 := w.green.dec.foldl (fun z a => z.readCount (.hbm a)) s2
    (s3.noteHits (w.green.hits.map fun h => { h with since := s.cyclesOf w.core })).release w.core .d

/-- The rollbacks that a wave's region instance underwent in either copy, those of both copies at once counted once (R334, R475). -/
def State.rollCount (s : State) (i : Nat) : Nat :=
  let reg (k : Nat) : Option Region := (s.waves[k]?).bind Wave.region
  match reg i with
  | none => 0
  | some g =>
    match (s.twinOf i).bind reg with
    | none => g.rollbacks
    | some h => g.rollbacks + (h.rollbacks - h.mismatches - (if h.unchecked then 1 else 0))

/-- RGN.end completes (R170): the number of rollbacks, saturating at 255. -/
def State.closeOne (s : State) (e : Nat × Nat) : State :=
  let i := e.1
  match s.waves[i]? with
  | none => s
  | some w =>
    match w.region.bind fun g => g.ended.map fun e => (g, e) with
    | none => s
    | some (_, d, next) =>
      let w1 := { w with region := none, green := Green.empty }.writeS d (BitVec.ofNat 64 (min e.2 255))
      let s1 := (s.putWave i (w1.goTo next)).countIssue w.team
      -- what the region issued is no longer undone by a rollback
      { s1 with
        jobs := s1.jobs.map fun (j : Job) =>
          if j.wave == i then { j with region := false } else { j with members := j.members.filter fun k => !(j.region && k == i) },
        rays := s1.rays.map fun (r : Ray) => if r.wave == some i then { r with inRegion := false } else r }

/-- A wave's part of the cure conditions: it has left, or it has issued RGN.end and its jobs are complete (R321, R423). -/
def State.readyToCure (s : State) (i : Nat) : Bool :=
  match s.waves[i]? with
  | none => true
  | some w =>
    w.gone || (((w.region.bind Region.ended).isSome) && s.jobs.all fun j => !j.inRegionOf i || j.complete)

/-- The signature of a wave: none when it has left (R326, R423). -/
def State.signature (s : State) (i : Nat) : Option DWord :=
  match s.waves[i]? with
  | none => none
  | some w => if w.gone then none else w.region.map Region.sig

/-! ## What a save withdraws (R365), and the twin copy after an unchecked run (R475) -/

/-- The job that a stream offers is accepted: its instruction is to complete, not to be withdrawn. -/
def State.owed (s : State) (i : Nat) (strm : Strm) : Bool := ((s.offerOf i strm).map Offer.accepted).getD false

/-- What a save withdraws of a wave: its waiting instructions stand at their PC again. A yielded wave keeps its mark, and a request
for blocks that a rollback made stays. -/
def Wave.withdraw (w : Wave) : Wave :=
  { w with
    ss := { w.ss with begun := none, waitS := none, acquire := if w.ss.waitS.isSome then none else w.ss.acquire },
    ls := { w.ls with waitA := none, waitB := none }, arrival := none, region := w.region.map fun g => { g with ended := none } }

/-- Withdraw what a wave waits for; a job that is accepted already is not withdrawn. -/
def State.hold (s : State) (i : Nat) : State :=
  match s.waves[i]? with
  | none => s
  | some w =>
    if w.gone then s
    else
      let s1 := if s.owed i .s then s.putWave i { w.withdraw with ss := w.ss } else (s.putWave i w.withdraw).withdraw i w.core
      { s1 with offers := s1.offers.filter fun o => o.job.wave != i || o.accepted }

/-- Registers and window of a wave that leaves its core: the window drains, staged registers go home, a slot is given up, and a
block that runs stages again (R69, R70, R73). -/
def LStream.park_ (x : LStream) : LStream :=
  let y := (x.drain true).unstage
  { y with blk := { y.blk with phase := if y.blk.phase == .ready then .staging else y.blk.phase }, slot := false }

/-- Cycles of a wave's YIELD that are left, at a count of its core (R178). -/
def Wave.yieldLeft (w : Wave) (now : Nat) : Nat := w.ss.yieldN - (now - w.ss.yieldAt)

/-- A wave goes on where its image leaves it, at a count of its core: it counts as newly resident (R379), what is left of a YIELD
goes on, and a wave that has yielded at a CWAIT waits there (R318, R367). -/
def Wave.revive (w : Wave) (left now : Nat) : Wave :=
  { w with
    ss := { w.ss with yieldN := left, yieldAt := now, sinceS := now, issuedS := now,
                      waitS := if w.ss.yielded.isSome then some .cwait else w.ss.waitS },
    ls := { w.ls with issuedL := now, usedZ := now } }

/-- The twin copy of a team. -/
def State.twinTeam (s : State) (t : Nat) : Option Nat :=
  (s.teams[t]?).bind fun x => s.teams.findIdx? fun y => y.grid == x.grid && y.idx == x.idx && y.twin != x.twin

/-- Green scratchpad bytes of one copy, in the memory of the other. -/
def State.twinScr (s : State) (key : Nat) : Nat :=
  let place := key / 2 ^ 21
  ((s.twinTeam (place / 2)).map fun t => (2 * t + place % 2) * 2 ^ 21 + key % 2 ^ 21).getD key

/-- A wave as its image brings it to the place of its twin. -/
def State.asTwin (s : State) (w y : Wave) : Wave :=
  { w with grid := y.grid, team := y.team, core := y.core, quarter := y.quarter, pos := y.pos,
           green := { w.green with scr := w.green.scr.foldl (fun o e => ovPut o (s.twinScr e.1) e.2) [],
                                   scrPoison := w.green.scrPoison.map fun u => s.twinScr (64 * u) / 64 } }

/-- The rays of a wave as its image brings them to its twin, whose own are gone. -/
def State.mirrorRays (s : State) (i k : Nat) (y : Wave) : State :=
  let mine := s.rays.filter fun r => r.wave == some i && !r.freed
  let s1 := { s with rays := s.rays.map fun (r : Ray) => if r.wave == some k then { r with st := .dropped, freed := true, owes := [] } else r }
  { s1 with rays := s1.rays ++ mine.map fun (r : Ray) =>
      { r with wave := some k, core := y.core, team := y.team, owes := r.owes.map fun o => (k, o.2) } }

/-- The group of the primary copy is saved, goes on, and its image replaces the held image of the twin copy's team (R475). Places
stay. -/
def State.mirrorTeam (s : State) (t : Nat) : State :=
  match s.teams[t]?, s.twinTeam t with
  | some x, some t' =>
    let s1 := (s.modTeam t' fun y =>
      { y with st := if y.st == .waitingReplay then .resident else y.st, lo := x.lo, hi := x.hi, bars := x.bars, cbars := x.cbars,
               flags := x.flags, killed := x.killed, firstKill := x.firstKill, killedAt := x.killedAt }).modTeam t fun y => { y with mirror := false }
    (s.members t).foldl (fun z i =>
      match s.waves[i]? with
      | none => z
      | some w =>
        match z.waves.findIdx? fun y => y.team == t' && y.num == w.num with
        | none => z
        | some k =>
          let left := w.yieldLeft (z.cyclesOf w.core)
          let z1 := (z.modWave k fun y => (z.asTwin w y).revive left (z.cyclesOf y.core)).mirrorRays i k ((z.waves[k]?).getD w)
          z1.modWave i fun y => if y.gone then y else y.revive left (z.cyclesOf y.core)) s1
  | _, _ => s.modTeam t fun y => { y with mirror := false }

/-- A twin mismatch (R424). -/
def State.twinMismatch (s : State) (i : Nat) (set : List Nat) : State :=
  match s.waves[i]? with
  | none => s
  | some w =>
    let both := set ++ set.filterMap s.twinOf
    let had := both.foldl (fun n k => max n ((((s.waves[k]?).bind Wave.region).map Region.mismatches).getD 0)) 0
    if had = 0 then
      let s1 := s.rollSet both fun h => { h with mismatches := h.mismatches + 1 }
      s1.reportReplay i ⟨0x0C, 4, w.site, 0, 0, set.length⟩
    else
      let s1 := s.report (some i) ⟨0x0D, 6, w.site, 0, 0, set.length⟩
      let s2 := s1.modGrid w.grid fun g => { g with status := 4, ending := true }
      (positions (fun (y : Wave) => y.grid == w.grid) 0 s2.waves).foldl (fun z k => z.kill k .systemKill 0 0) s2

/-- The wave's team is the primary copy of a twin grid. -/
def State.primary (s : State) (w : Wave) : Bool := !((s.teamOf w).map Team.twin).getD false

/-- Cure the set of a wave when every condition holds (R321, R326). -/
def State.tryCure (s : State) (i : Nat) : State :=
  match s.waves[i]? with
  | none => s
  | some w =>
    match w.region with
    | none => s
    | some g =>
      let set := s.portSet i
      if g.ended.isNone || !(set.all s.readyToCure) then s
      else
        let close (z : State) (l : List Nat) : State := (l.map fun k => (k, s.rollCount k)).foldl State.closeOne z
        if !(s.launchOf w).twin then close (set.foldl State.applyGreen s) set
        else if g.unchecked then
          if s.primary w then
            let s1 := close (set.foldl State.applyGreen s) set
            let ts := dedup ((set.filterMap fun k => (s1.waves[k]?).map Wave.team).flatMap s1.groupOf)
            -- the group is saved, for the twin copy's (R475)
            (ts.flatMap s1.members).foldl State.hold (ts.foldl (fun z t => z.modTeam t fun x => { x with mirror := true }) s1)
          else s
        else
          let other := set.filterMap s.twinOf
          if !(other.all s.readyToCure) then s
          else if set.any fun k => s.signature k != (s.twinOf k).bind s.signature then s.twinMismatch i set
          else
            let prim := if s.primary w then set else other
            close (prim.foldl State.applyGreen s) (set ++ other)

/-- RGN.end (R170). -/
def execRgnEnd (d : SReg) (s : State) : Result :=
  .next (s.userOp fun w =>
    match w.region with
    | none => s.trapS w (.of .regionIllegal)
    | some g =>
      if g.endPc != s.opAddr w then s.trapS w (.of .regionIllegal)
      else s.joinPoint w
        ((s.setWave { w with region := some { g with ended := some (d, s.opAddr w + 4) },
                             ss := { w.ss with waitS := some .other } }).tryCure s.cur.1))

end Sys2Proof.Machine
end

