-- ==== Sys2Proof/Machine/Fetch.lean ====
section
/-!
DEFINITION. Fetching instruction words and checking a scalar group (spec/06 R137, R139; spec/18 R402; spec/19 R416).
-/

namespace Sys2Proof.Machine

/-- Where a stream of a wave fetches: its section, and the address of the group or L-op that it fetches. -/
structure Fetch where
  i : Nat
  strm : Strm
  sec : Nat × Nat
  first : Nat
  /-- the header of a block -/
  lhdr : Bool
  deriving DecidableEq, Repr

/-- A precise trap of the group or L-op that is fetched; a group ends at an address. -/
def State.trapFetch (s : State) (f : Fetch) (t : Trap) (out : Nat) : State :=
  match f.strm with
  | .s => s.take f.i .s t f.first
      { strm := .s, imprecise := false, nextPc := out, sysc := none, lhdr := false, pc := f.first }
  | .l d => s.trapL f.i d t f.first f.lhdr

/-- The reply to a fetch from the host or from another device. -/
def State.fetchRemote (s : State) (f : Fetch) (a : Nat) : Option Remote :=
  s.sys.links.remotes.find? fun r => r.wave == f.i && r.strm == f.strm && r.job.isNone && r.ray.isNone && r.lanes.isEmpty && r.va == a &&
    r.op == .read 4

/-- A parity error that waits in a word of the core's instruction cache: the word is fetched again, and the event logged (R419). -/
def State.wordStruck (s : State) (f : Fetch) (w : Wave) (a : Nat) : State :=
  let e := (w.core, f.strm != .s, a)
  if s.sys.phys.icache.contains e then
    (s.modPhys fun p => { p with icache := p.icache.filter fun q => q != e }).report (some f.i) ⟨2, 1, w.site, a, f.first, 0⟩
  else s

/-- A fetch faults: its stream is parked at it. Where the slot's record is a spilled side's, the fetch is made again when it is free
(notes/assumptions/39.md). -/
def State.parkFetch (s : State) (f : Fetch) (w : Wave) (a : Nat) (x : XFault) : State :=
  match f.strm with
  | .l d => if (w.ls.park? d).isSome then s else s.park f.i f.strm f.first none (a + 4) false true [(⟨0, a, [], 0⟩, x)]
  | .s => s.park f.i f.strm f.first none (a + 4) false true [(⟨0, a, [], 0⟩, x)]

/-- Fetch one word: the state and the word, or what happens instead. -/
def State.fetchWord (s : State) (f : Fetch) (a : Nat) : Except State (State × Nat) :=
  if !inSection f.sec a || addrBad a then .error (s.trapFetch f (.at .codeRange a) (a + 4))
  else
    match s.waves[f.i]? with
    | none => .error s
    | some w =>
      let v := s.viaOf w
      match (s.wordStruck f w a).request v.part v.asid a fetching with
      | .error x => .error (s.parkFetch f w a x)
      | .ok (p, s1) =>
        if p.near then
          if s1.mem.poisoned p then .error (s1.consume f.i a f.first false).1
          else .ok (s1, numLE ((List.range 4).map fun k => s1.mem.byte (p.add k)))
        else
          match s1.fetchRemote f a with
          | none => .error (s1.ask f.i f.strm 0 [] a p (.read 4))
          | some r =>
            match r.reply with
            | none => .error s1
            | some (.data bs false) => .ok (s1, numLE bs)
            | some (.data _ true) => .error ((s1.dropRemote r.tag).consume f.i a f.first false).1
            | some .done => .error (s1.dropRemote r.tag)
            | some .refused => .error ((s1.dropRemote r.tag).parkFetch f w a ⟨0, xFabric⟩)

/-- Fetch words from an address on. -/
def State.fetchWords (f : Fetch) : Nat → State → Nat → Except State (State × List Nat)
  | 0, s, _ => .ok (s, [])
  | n + 1, s, a =>
    match s.fetchWord f a with
    | .error t => .error t
    | .ok (s1, w) =>
      match State.fetchWords f n s1 (a + 4) with
      | .error t => .error t
      | .ok (s2, ws) => .ok (s2, w :: ws)

/-- A group or L-op is fetched: the replies to its fetches are used. -/
def State.fetched (s : State) (f : Fetch) : State :=
  let used (r : Remote) : Bool := r.wave == f.i && r.strm == f.strm && r.job.isNone && r.ray.isNone && r.lanes.isEmpty && r.op == .read 4 &&
    decide (f.first ≤ r.va) && decide (r.va < f.first + 12)
  if s.sys.links.remotes.any used then
    { s with sys := { s.sys with links := { s.sys.links with remotes := s.sys.links.remotes.filter fun r => !used r } } }
  else s

/-- A prefix word: XIM or XHNT. -/
def isXim (w : Nat) : Bool := bits w 26 6 == 0x3C
def isXhnt (w : Nat) : Bool := bits w 26 6 == 0x3D

/-- Fetch a scalar group: up to two prefix words and the word after them (R139). -/
def State.fetchGroup (f : Fetch) : Nat → State → Nat → Except State (State × List Nat)
  | 0, s, a => State.fetchWords f 1 s a
  | n + 1, s, a =>
    match s.fetchWord f a with
    | .error t => .error t
    | .ok (s1, w) =>
      if isXim w || isXhnt w then
        match State.fetchGroup f n s1 (a + 4) with
        | .error t => .error t
        | .ok (s2, ws) => .ok (s2, w :: ws)
      else .ok (s1, [w])

/-- The prefixes of a group stand in their order, and fit its last word (R139 step 3). -/
def prefixesFit : List Nat → Bool
  | [w] => !isXim w && !isXhnt w
  | [p, w] => !isXim w && !isXhnt w && (if isXim p then ximFits w else xhntFits (bits p 0 4) w)
  | [p, q, w] => !isXim w && !isXhnt w && isXim p && isXhnt q && ximFits w && xhntFits (bits q 0 4) w
  | _ => false

/-- Decode every word of a group. -/
def decodeAll : List Nat → Option (List Instr)
  | [] => some []
  | w :: ws =>
    match decodeS w, decodeAll ws with
    | .ok i, some is => some (i :: is)
    | _, _ => none

/-- Steps 2 to 4 of R139. -/
def checkGroup (ws : List Nat) : Except Cause (List Instr) :=
  if ws.any fun w => !(srOpcode (bits w 26 6) || otherOpcode (bits w 26 6)) then .error .illegalOpcode
  else if !prefixesFit ws then .error .prefixMisuse
  else
    match decodeAll ws with
    | some is => .ok is
    | none => .error .illegalOperand

/-- The cause of a word that does not decode. -/
def DecodeErr.cause : DecodeErr → Cause
  | .illegalOpcode => .illegalOpcode
  | .illegalOperand => .illegalOperand

/-- The S-stream's group: its instructions, prefixes first. -/
def State.sGroup (s : State) (i : Nat) (w : Wave) : Except State (State × List Instr) :=
  let f : Fetch := ⟨i, .s, s.scalarSection w, w.ss.pc, false⟩
  match State.fetchGroup f 2 s w.ss.pc with
  | .error t => .error t
  | .ok (s1, ws) =>
    match checkGroup ws with
    | .ok is => .ok (s1.fetched f, is)
    | .error c => .error (s1.trapFetch f (.of c) (f.first + 4 * ws.length))

/-- An L-op at an address; a header stands only at the first place of a block (R66). -/
def State.lOp (s : State) (i : Nat) (w : Wave) (d : Side) (a : Nat) (header : Bool) : Except State (State × Instr) :=
  let f : Fetch := ⟨i, .l d, s.laneSection w, a, header⟩
  match State.fetchWords f 3 s a with
  | .error t => .error t
  | .ok (s1, ws) =>
    match decode ws with
    | .error e => .error (s1.trapFetch f (.of (DecodeErr.cause e)) (a + 12))
    | .ok ins =>
      let isHeader := match ins with
        | .lhdr _ _ => true
        | _ => false
      if isHeader == header then .ok (s1.fetched f, ins) else .error (s1.trapFetch f (.of .illegalOperand) (a + 12))

end Sys2Proof.Machine
end

