-- ==== Sys2Proof/Machine/Ray.lean ====
section
/-!
DEFINITION. The traversal unit (spec/11 R278 to R297, R304): boxes, primitives, the walk, results, logs, and hods (spec/17
R380, R381).
-/

namespace Sys2Proof.Machine

/-! ## FP64 arithmetic of the unit: one rounding of an exact value (R284) -/

/-- A finite FP64 encoding as an exact value. -/
def fin64 (c : DWord) : Option Ex :=
  match fp64.decode c.toNat with
  | .fin x => some x
  | _ => none

/-- The encoding of an exact value rounded once by RNE; an exact zero is +0. -/
def code64 (x : Ex) : DWord :=
  BitVec.ofNat 64 (fp64.round .rne false 0 (if x.isZero then { x with neg := false } else x)).1

/-- round(x, FP64, RNE), or nothing where it is not finite. -/
def rnd (x : Ex) : Option Ex := fin64 (code64 x)

/-- The encoding of a value that is rounded already: a negative one that has rounded to zero is −0 (R93). -/
def codeOf (x : Ex) : DWord := BitVec.ofNat 64 (fp64.round .rne false 0 x).1

def Ex.plus (x y : Ex) : Ex := Ex.add .rne x y
def Ex.minus (x y : Ex) : Ex := Ex.add .rne x y.negate
def exNat (n : Nat) : Ex := ⟨false, n, 0, false⟩
/-- The sum of exact values. -/
def exSum (l : List Ex) : Ex := l.foldl Ex.plus zeroEx
def at3 (l : List Ex) (i : Nat) : Ex := (l[i]?).getD zeroEx

/-- -1, 0 or 1. -/
def Ex.sgn (x : Ex) : Int := if x.m = 0 then 0 else if x.neg then -1 else 1

/-- Every element, if none is missing. -/
def allSome {α : Type} : List (Option α) → Option (List α)
  | [] => some []
  | none :: _ => none
  | some x :: xs => (allSome xs).map (x :: ·)

/-! ## Child boxes (R279) -/

abbrev Box := List (DWord × Int × Nat × Nat)

/-- A bound of a box on an axis: O + q x 2^E. -/
def boxBound (o : DWord) (e : Int) (q : Nat) : Ex := ((fin64 o).getD zeroEx).plus ⟨false, q, e, false⟩

def maxVal (a b : DWord) : DWord := if (fp64.decode a.toNat).cmp (fp64.decode b.toNat) == .lt then b else a
def minVal (a b : DWord) : DWord := if (fp64.decode b.toNat).cmp (fp64.decode a.toNat) == .lt then b else a

/-- a <= b of FP64 encodings: false for a NaN. -/
def leVal (a b : DWord) : Bool :=
  let x := fp64.decode a.toNat
  let y := fp64.decode b.toNat
  !x.isNan && !y.isNan && x.cmp y != .gt

def ltVal (a b : DWord) : Bool :=
  let x := fp64.decode a.toNat
  let y := fp64.decode b.toNat
  !x.isNan && !y.isNan && x.cmp y == .lt

/-- Entry and exit of one axis, or a miss. -/
def axisSpan (o d : Ex) (b : DWord × Int × Nat × Nat) : Option (DWord × DWord) :=
  let lo := boxBound b.1 b.2.1 b.2.2.1
  let hi := boxBound b.1 b.2.1 b.2.2.2
  if d.m = 0 then (if lo.cmp o != .gt && o.cmp hi != .gt then some (0xFFF0000000000000#64, noHitT) else none)
  else
    let n1 := lo.minus o
    let n2 := hi.minus o
    let swap := (n1.cmp n2 == .gt) != d.neg
    let (a, b) := if swap then (n2, n1) else (n1, n2)
    some (BitVec.ofNat 64 (fp64.round .rdn false 0 (a.div d)).1, BitVec.ofNat 64 (fp64.round .rup false 0 (b.div d)).1)

/-- The box test: the entry value of a child that is hit. -/
def boxHit (o d : List Ex) (tmin tb : DWord) (box : Box) : Option DWord :=
  (allSome (mapIx (fun a b => axisSpan (at3 o a) (at3 d a) b) 0 box)).bind fun sp =>
    let e := sp.foldl (fun x y => maxVal x y.1) tmin
    let x := sp.foldl (fun x y => minVal x y.2) tb
    if leVal e x then some e else none

/-- A point lies inside the exact box. -/
def boxHolds (p : List Ex) (box : Box) : Bool :=
  (mapIx (fun a (b : DWord × Int × Nat × Nat) =>
    (boxBound b.1 b.2.1 b.2.2.1).cmp (at3 p a) != .gt && (at3 p a).cmp (boxBound b.1 b.2.1 b.2.2.2) != .gt) 0 box).all id

/-! ## Nodes (R278, R280) -/

/-- A child of a node: visibility mask, box, and the entry it pushes but for its entry value. -/
structure Child where
  cmask : Nat
  leaf : Bool
  addr : Nat
  count : Nat
  box : Box
  deriving DecidableEq, Repr

def nodeGen (n : Nat) : BitVec 16 := BitVec.ofNat 16 (field n 224 16)

/-- The valid children of a node, in ascending order. -/
def nodeKids (n : Nat) : List Child :=
  (List.range 8).filterMap fun i =>
    if bitOf n (216 + i) then
      let meta_ := field n (384 + 16 * i) 16
      let leaf := bitOf meta_ 15
      let box := (List.range 3).map fun a =>
        (BitVec.ofNat 64 (field n (64 * a) 64), sfield n (192 + 8 * a) 8, field n (512 + 48 * i + 8 * a) 8,
          field n (512 + 48 * i + 24 + 8 * a) 8)
      some ⟨field n (896 + 8 * i) 8, leaf,
        if leaf then field n 320 56 + 128 * field meta_ 0 11 else field n 256 56 + 128 * field meta_ 0 15,
        if leaf then field meta_ 11 4 + 1 else 1, box⟩
    else none

/-- BADNODE of a node (R278). -/
def nodeBad (n : Nat) : Bool :=
  field n 960 64 != 0 || field n 376 8 != 0 || field n 312 8 != 0 || field n 240 16 != 0 ||
  field n 320 56 % 128 != 0 || field n 256 56 % 128 != 0 ||
  (List.range 3).any (fun a => (fin64 (BitVec.ofNat 64 (field n (64 * a) 64))).isNone) ||
  (nodeKids n).any fun c => decide (2 ^ 56 ≤ c.addr + 128 * (c.count - 1))

/-- A generation is newer than another (R280). -/
def newer (gen g0 : BitVec 16) : Bool := let k := (gen - g0).toNat; decide (1 ≤ k) && decide (k ≤ 32767)

/-! ## Primitives (R283 to R289) -/

/-- What the test of a record gave: candidates with their t, U and V and the Newton steps, a suspension, or a bad record. -/
inductive Tested where
  | cands (l : List (DWord × DWord × DWord)) (steps : Nat)
  | suspend (status : BitVec 4) (steps : Nat)
  | bad
  deriving DecidableEq, Repr

/-- The axis of the largest |d|, the lowest on ties. -/
def mainAxis (d : List Ex) : Nat :=
  let big (i j : Nat) : Bool := ({ at3 d i with neg := false } : Ex).cmp { at3 d j with neg := false } != .lt
  if big 0 1 && big 0 2 then 0 else if big 1 2 then 1 else 2

/-- A vertex in sheared coordinates. -/
def shear (kx ky kz : Nat) (o : List Ex) (sx sy sz : Ex) (p : List Ex) : Option (Ex × Ex × Ex) := do
  let q ← allSome (mapIx (fun i x => rnd (Ex.minus x (at3 o i))) 0 p)
  let x ← rnd ((at3 q kx).plus (sx.mul (at3 q kz)))
  let y ← rnd ((at3 q ky).plus (sy.mul (at3 q kz)))
  let z ← rnd (sz.mul (at3 q kz))
  return (x, y, z)

/-- An edge function passes: not of the sign opposite to det, and where it is zero its direction is upward, or level and to the
right. `s` and `e` are the edge's start and end. -/
def edgePasses (f det : Ex) (s e : Ex × Ex × Ex) : Bool :=
  if f.m = 0 then
    let ex := (e.1.minus s.1).sgn
    let ey := (e.2.1.minus s.2.1).sgn
    decide (0 < ey) || (ey == 0 && decide (0 < ex))
  else f.sgn == det.sgn

/-- The candidate of a triangle (R285). -/
def triangle (o d : List Ex) (va vb vc : List Ex) : Option (DWord × DWord × DWord) := do
  let kz := mainAxis d
  let (kx, ky) := if (at3 d kz).neg then ((kz + 2) % 3, (kz + 1) % 3) else ((kz + 1) % 3, (kz + 2) % 3)
  let sx ← rnd ((at3 d kx).negate.div (at3 d kz))
  let sy ← rnd ((at3 d ky).negate.div (at3 d kz))
  let sz ← rnd (one.div (at3 d kz))
  let a ← shear kx ky kz o sx sy sz va
  let b ← shear kx ky kz o sx sy sz vb
  let c ← shear kx ky kz o sx sy sz vc
  let u := (c.1.mul b.2.1).minus (c.2.1.mul b.1)
  let v := (a.1.mul c.2.1).minus (a.2.1.mul c.1)
  let w := (b.1.mul a.2.1).minus (b.2.1.mul a.1)
  let det := (u.plus v).plus w
  if det.m = 0 || !edgePasses u det b c || !edgePasses v det c a || !edgePasses w det a b then none
  else do
    let t ← rnd ((exSum [u.mul a.2.2, v.mul b.2.2, w.mul c.2.2]).div det)
    let p ← rnd (v.div det)
    let q ← rnd (w.div det)
    return (codeOf t, code64 p, code64 q)

/-- The roots of A t^2 + B t + C as exact values, or values known to lie between neighbours, in ascending order (R287). -/
def roots (a b c : Ex) : List Ex :=
  if a.m = 0 then (if b.m = 0 then [] else [c.negate.div b])
  else
    let e := min a.e (min b.e c.e)
    let x := a.num e
    let y := b.num e
    let z := c.num e
    let disc := y * y - 4 * x * z
    if disc < 0 then []
    else
      let n := disc.toNat
      let r := isqrt (Nat.log2 n + 2) n 0
      let quot (p : Int) : Ex :=
        (⟨decide (p < 0), p.natAbs, 0, false⟩ : Ex).div ⟨decide (x < 0), 2 * x.natAbs, 0, false⟩
      let sorted (m p : Ex) : List Ex := if x < 0 then [p, m] else [m, p]
      if r * r = n then (if n = 0 then [quot (-y)] else sorted (quot (-y - (r : Int))) (quot (-y + (r : Int))))
      else
        -- irrational roots: the square root to k places more than any boundary of FP64 needs
        let k := 2300 + Nat.log2 n
        let s : Int := ((isqrt (Nat.log2 n + 2 * k + 2) (n * 4 ^ k) 0 : Nat) : Int)
        let place (lo : Int) : Ex :=
          let neg := decide (lo < 0)
          let m := if lo < 0 then (-lo - 1).toNat else lo.toNat
          ⟨neg != decide (x < 0), m / (2 * x.natAbs), -(k : Int), true⟩
        let base := -y * ((2 ^ k : Nat) : Int)
        sorted (place (base - s - 1)) (place (base + s))

/-- The candidates of a quadric (R287). -/
def quadric (o d : List Ex) (q : List Ex) (box : Box) : List (DWord × DWord × DWord) :=
  let c (i : Nat) : Ex := (q[i]?).getD zeroEx
  let ox := at3 o 0
  let oy := at3 o 1
  let oz := at3 o 2
  let dx := at3 d 0
  let dy := at3 d 1
  let dz := at3 d 2
  let two (x : Ex) : Ex := x.scale 1
  let qa := rnd (exSum [(c 0).mul (dx.mul dx), (c 1).mul (dy.mul dy), (c 2).mul (dz.mul dz), (c 3).mul (dx.mul dy),
    (c 4).mul (dy.mul dz), (c 5).mul (dz.mul dx)])
  let qb := rnd (exSum [two ((c 0).mul (ox.mul dx)), two ((c 1).mul (oy.mul dy)), two ((c 2).mul (oz.mul dz)),
    (c 3).mul ((ox.mul dy).plus (oy.mul dx)), (c 4).mul ((oy.mul dz).plus (oz.mul dy)), (c 5).mul ((oz.mul dx).plus (ox.mul dz)),
    (c 6).mul dx, (c 7).mul dy, (c 8).mul dz])
  let qc := rnd (exSum [(c 0).mul (ox.mul ox), (c 1).mul (oy.mul oy), (c 2).mul (oz.mul oz), (c 3).mul (ox.mul oy),
    (c 4).mul (oy.mul oz), (c 5).mul (oz.mul ox), (c 6).mul ox, (c 7).mul oy, (c 8).mul oz, c 9])
  match qa, qb, qc with
  | some qa, some qb, some qc =>
    match allSome ((roots qa qb qc).map rnd) with
    | none => []
    | some ts => ts.filterMap fun t =>
        match allSome ((List.range 3).map fun i => rnd ((at3 o i).plus (t.mul (at3 d i)))) with
        | none => none
        | some p => if boxHolds p box then some (codeOf t, 0, 0) else none
  | _, _, _ => []

/-- What one Newton step gives: nothing (NOCONV), the next t, or the converged t with its s. -/
inductive Newton where
  | noconv
  | next (t : Ex)
  | done (t s : Ex)

/-- One Newton step of an asphere (R288): `as` are A4 to A20. -/
def newtonStep (qx qy qz dx dy dz c k : Ex) (as : List Ex) (t : Ex) : Newton :=
  let r : Option Newton := do
    let px ← rnd (qx.plus (t.mul dx))
    let py ← rnd (qy.plus (t.mul dy))
    let pz ← rnd (qz.plus (t.mul dz))
    let s ← rnd ((px.mul px).plus (py.mul py))
    let g ← rnd (one.minus (((one.plus k).mul (c.mul c)).mul s))
    if g.sgn ≤ 0 then none
    else do
      let h ← fin64 (BitVec.ofNat 64 (fp64.sqrt .rne 0 (.fin g)).1)
      let p ← (as.dropLast.reverse).foldl (fun (acc : Option Ex) a => acc.bind fun y => rnd ((y.mul s).plus a)) as.getLast?
      let h1 := one.plus h
      let sag ← rnd (((c.mul s).plus (((p.mul s).mul s).mul h1)).div h1)
      let f ← rnd (pz.minus sag)
      let pows := (mapIx (fun j a => (j + 2, a)) 0 as).foldl (fun (acc : Ex × Ex) x =>
        (acc.1.plus (((exNat x.1).mul x.2).mul acc.2), acc.2.mul s)) (zeroEx, s)
      let h2 := h.scale 1
      let dot := ((px.mul dx).plus (py.mul dy)).scale 1
      let fp ← rnd (((dz.mul h2).minus (((c.plus (h2.mul pows.1))).mul dot)).div h2)
      if fp.m = 0 then none
      else do
        let t1 ← rnd (((t.mul fp).minus f).div fp)
        let diff : Ex := { t1.minus t with neg := false }
        let lim : Ex := ({ t1 with neg := false } : Ex).scale (-44)
        return if diff.cmp lim != .gt then .done t1 s else .next t1
  r.getD .noconv

/-- Steps n to 8 from t. -/
def newtonRun (f : Ex → Newton) : Nat → Nat → Ex → Option (Ex × Ex × Nat) × Nat
  | 0, n, _ => (none, n - 1)
  | fuel + 1, n, t =>
    match f t with
    | .noconv => (none, n)
    | .done t1 s => (some (t1, s, n), n)
    | .next t1 => newtonRun f fuel (n + 1) t1

/-- The test of an even asphere (R288). -/
def asphere (o d : List Ex) (c k : Option Ex) (as vs : List (Option Ex)) (rmax2 : DWord) : Tested :=
  match c, k, allSome as, allSome vs with
  | some c, some k, some as, some vs =>
    match allSome (mapIx (fun i v => rnd (Ex.minus (at3 o i) v)) 0 vs) with
    | none => .suspend 3 0
    | some q =>
      if (at3 d 2).m = 0 then .suspend 3 0
      else
        match rnd ((at3 q 2).negate.div (at3 d 2)) with
        | none => .suspend 3 0
        | some t =>
          match newtonRun (newtonStep (at3 q 0) (at3 q 1) (at3 q 2) (at3 d 0) (at3 d 1) (at3 d 2) c k as) 8 1 t with
          | (none, n) => .suspend 3 n
          | (some (t1, s, n), _) =>
            if ltVal rmax2 (code64 s) then .cands [] n else .cands [(codeOf t1, code64 s, code64 (exNat n))] n
  | _, _, _, _ => .suspend 3 0

/-- The test of a record of 128 bytes, given as a number (R283 to R289). -/
def testRecord (o d : List Ex) (box : Box) (n : Nat) : Tested :=
  let w (off : Nat) : DWord := BitVec.ofNat 64 (field n (8 * off) 64)
  let f (off : Nat) : Option Ex := fin64 (w off)
  let vec (off : Nat) : List (Option Ex) := [f off, f (off + 8), f (off + 16)]
  if field n 8 24 != 0 then .bad
  else
    match field n 0 8 with
    | 1 =>
      if field n 640 384 != 0 then .bad
      else
        match allSome (vec 0x08), allSome (vec 0x20), allSome (vec 0x38) with
        | some a, some b, some c => .cands (triangle o d a b c).toList 0
        | _, _, _ => .cands [] 0
    | 2 =>
      if field n 704 320 != 0 then .bad
      else
        match allSome ((List.range 10).map fun i => f (8 + 8 * i)) with
        | some q => .cands (quadric o d q box) 0
        | none => .cands [] 0
    | 3 => asphere o d (f 0x08) (f 0x10) ((List.range 9).map fun i => f (0x18 + 8 * i)) (vec 0x60) (w 0x78)
    | 0x80 => .suspend 2 0
    | _ => .bad

/-- Offer a candidate to a ray (R284). -/
def Ray.offer (r : Ray) (c : DWord × DWord × DWord) (addr : Nat) (primid : Word) : Ray × Bool :=
  if leVal r.tmin c.1 && (ltVal c.1 r.tb || (r.best.isNone && leVal c.1 r.tb)) then
    ({ r with best := some ⟨c.1, c.2.1, c.2.2, addr, primid⟩, tb := c.1 }, true)
  else (r, false)

/-! ## Records (R293) -/

/-- The ray's slot can be named: it is suspended, or it has ended and no L-op has collected it (R293). -/
def Ray.named (r : Ray) : Bool := r.st == .suspended || (r.st == .ended && r.hod.isNone && !r.freed)

/-- The status word. -/
def Ray.statusWord (r : Ray) : DWord :=
  BitVec.ofNat 64 (r.primid.toNat * 2 ^ 32 + min r.remain 65535 * 2 ^ 16 + (if r.named then r.handle % 2 ^ 11 * 2 ^ 5 else 0) +
    (if r.logFull then 2 ^ 4 else 0) + r.status.toNat)

/-- The record's words: T, U, V, ADDR, the status word and TAG. -/
def Ray.record (r : Ray) : List DWord :=
  match r.best with
  | some h => [h.t, h.u, h.v, BitVec.ofNat 64 r.addr, r.statusWord, r.tag]
  | none => [noHitT, 0, 0, BitVec.ofNat 64 r.addr, r.statusWord, r.tag]

/-! ## Reads and writes of the unit (R282, R291, R295, R380) -/

/-- Why the unit does not go on: a fault at an address, a lost device (R455), or a reply, a slot or a turn that it waits for. -/
inductive UnitStop where
  | fault (va : Nat) (f : XFault) (write : Bool)
  | lost (va : Nat)
  | later

/-- What the unit does: a result, or why it stops, with the state that it leaves. -/
abbrev UnitRes (α : Type) := Except (State × UnitStop) α

/-- Who asks on behalf of the unit: a ray, a lane of TRES.q, or the unit itself. -/
structure Asker where
  ray : Option Nat
  wave : Nat
  strm : Strm
  out : Nat
  lanes : List Lane

/-- The place in `out` of requests for hods, which belong to no outstanding L-op. -/
def hodOut : Nat := 2 ^ 32

/-- A request of an asker. -/
def Asker.owns (k : Asker) (r : Remote) : Bool :=
  r.job.isNone && r.ray == k.ray && r.wave == k.wave && r.strm == k.strm && r.out == k.out && r.lanes == k.lanes

/-- The requests that a state has sent since another belong to an asker. -/
def State.sentAs (s z : State) (k : Asker) : State :=
  let n := s.sys.links.remotes.length
  let l := z.sys.links
  { z with sys := { z.sys with links := { l with
      remotes := mapIx (fun i (r : Remote) => if n ≤ i then { r with ray := k.ray } else r) 0 l.remotes } } }

/-- The answers that an asker has used, and its reads that wait, are forgotten; its writes on the way are not. -/
def State.dropAsked (s : State) (k : Asker) : State :=
  let gone (r : Remote) : Bool := k.owns r && !(!r.reads && r.reply.isNone)
  { s with sys := { s.sys with links := { s.sys.links with remotes := s.sys.links.remotes.filter fun r => !gone r } } }

/-- Writes of an asker that other devices have still to perform (R303). -/
def State.unperformed (s : State) (k : Asker) : Bool :=
  s.sys.links.remotes.any fun r => k.owns r && !r.reads && r.reply.isNone

/-- A place lies on a lost device. -/
def Links.lostAt (k : Links) : Loc → Bool
  | .fabric d _ _ => k.lost.contains d
  | _ => false

/-- A request of an asker that is answered from away: it is sent, awaited, and its answer kept until it is forgotten. -/
def State.farOp (s : State) (k : Asker) (va : Nat) (p : Loc) (op : FabOp) : UnitRes (State × List Byte × Bool) :=
  if s.sys.links.lostAt p then .error (s, .lost va)
  else
    match s.sys.links.remotes.find? fun r => k.owns r && r.va == va && r.op == op with
    | none => .error (s.sentAs (s.ask k.wave k.strm k.out k.lanes va p op) k, .later)
    | some r =>
      match r.reply with
      | none => .error (s, .later)
      | some (.data bs bad) => .ok (s, bs, bad)
      | some .done => .ok (s, [], false)
      | some .refused => .error (s.dropRemote r.tag, .fault va ⟨0, xFabric⟩ (!r.reads))

/-- The sectors of a line that n bytes touch. -/
def secsAt (va n : Nat) : BitVec 4 := (sectors va n).foldl (fun m k => m ||| secAt (64 * k)) 0

/-- Bytes of a hod read at their home slice (R380). -/
def State.hodRead (s : State) (k : Asker) (v : Via) (va n : Nat) : UnitRes (State × List Byte × Bool) :=
  match s.requestLine v.part v.asid va reading (secsAt va n) with
  | .error f => .error (s, .fault va f false)
  | .ok (p, s1) =>
    if p.near then
      let s2 := (s1.flush v.core fun x => x.part == v.part && x.asid == v.asid && x.line == va / 256).recallGathers p
      .ok (s2.readCount p, (List.range n).map fun i => s2.mem.byte (p.add i),
        (sectors va n).any fun q => s2.mem.poisoned (p.add (max va (64 * q) - va)))
    else s1.farOp k va p (.read n)

/-- A 64-bit word of a hod. -/
def State.hodWord (s : State) (k : Asker) (v : Via) (va : Nat) : UnitRes (State × Nat) :=
  (s.hodRead k v va 8).map fun e => (e.1, numLE e.2.1)

/-- An atomic operation on a word of a hod, at scope .d: the old value (R380). -/
def State.hodAtomic (s : State) (k : Asker) (v : Via) (va : Nat) (op : AtomOp) (x swap : DWord) : UnitRes (State × Nat) :=
  match s.request v.part v.asid va writing with
  | .error f => .error (s, .fault va f true)
  | .ok (p, s1) =>
    if p.near then
      let s2 := (s1.flush v.core fun y => y.part == v.part && y.asid == v.asid && y.line == va / 256).recallGathers p
      let old := numLE ((List.range 8).map fun i => s2.mem.byte (p.add i))
      .ok (s2.homeWrite v p.line (ovWrite [] va (bytesLE 8 (atomNew op old x.toNat swap.toNat))) [], old)
    else (s1.farOp k va p (.atomic op x swap true)).map fun e => (e.1, numLE e.2.1)

/-- Bytes written to a hod at their home slice. -/
def State.hodWrite (s : State) (k : Asker) (v : Via) (va : Nat) (bs : List Byte) : UnitRes State :=
  match s.request v.part v.asid va writing with
  | .error f => .error (s, .fault va f true)
  | .ok (p, s1) =>
    let ov := ovWrite [] va bs
    if p.near then .ok (s1.homeWrite v p.line ov [])
    else if s1.sys.links.lostAt p then .error (s, .lost va)
    else .ok (s1.sentAs (s1.sendOut k.wave k.strm k.out k.lanes p.line ov []) k)

/-! ## Hods (R380) -/

def hodSize (h : Hod) : Nat := if h.output then 64 else 128

/-- Address of record n of a hod. -/
def hodSlot (h : Hod) (n : Nat) : Nat := h.base + 0x1000 + hodSize h * (n % 2 ^ h.log2cap)

/-- A producer reserves a slot: one is added to TAIL. -/
def State.hodReserve (s : State) (k : Asker) (v : Via) (h : Hod) : UnitRes (State × Nat) :=
  (s.hodAtomic k v h.base (.add true) 1 0).map fun e => (e.1.dropAsked k, e.2)

/-- It writes its record to slot n once the slot is free. -/
def State.hodFill (s : State) (k : Asker) (v : Via) (h : Hod) (n : Nat) (bs : List Byte) : UnitRes State := do
  let (s1, head) ← s.hodWord k v (h.base + 0x80)
  if 2 ^ h.log2cap ≤ (n + 2 ^ 64 - head) % 2 ^ 64 then .error (s1.dropAsked k, .later)
  else (s1.dropAsked k).hodWrite k v (hodSlot h n) bs

/-- It publishes slot n once every slot before it is published and its own writes are performed. -/
def State.hodCommit (s : State) (k : Asker) (v : Via) (h : Hod) (n : Nat) : UnitRes State := do
  if s.unperformed k then .error (s, .later)
  else
    let (s1, commit) ← s.hodWord k v (h.base + 0x40)
    if commit ≠ n then .error (s1.dropAsked k, .later)
    else (s1.dropAsked k).hodWrite k v (h.base + 0x40) (bytesLE 8 (n + 1))

/-- A consumer takes the oldest record: its address, its bytes and whether they are poisoned, or none where no slot is available (R380). The
record is read before HEAD moves: its producer's successor cannot write the slot until then. -/
def State.hodTake (s : State) (k : Asker) (v : Via) (h : Hod) : UnitRes (State × Option (Nat × List Byte × Bool)) := do
  let (s1, head) ← s.hodWord k v (h.base + 0x80)
  let (s2, commit) ← s1.hodWord k v (h.base + 0x40)
  if commit ≤ head then .ok (s2.dropAsked k, none)
  else
    let (s3, bs, bad) ← s2.hodRead k v (hodSlot h head) (hodSize h)
    let (s4, old) ← s3.hodAtomic k v (h.base + 0x80) (.cas true) (BitVec.ofNat 64 head) (BitVec.ofNat 64 (head + 1))
    if old = head then .ok (s4.dropAsked k, some (hodSlot h head, bs, bad))
    else
      -- another consumer has taken it: HEAD is asked for again
      let (s5, _) ← (s4.dropAsked k).hodWord k v (h.base + 0x80)
      .error (s5, .later)

/-- The hod table entry that a number names for a grid. -/
def State.hodOf (s : State) (g n : Nat) : Option Hod := (s.grids[g]?).bind fun x => x.launch.hods[n]?

/-! ## Reads and writes of a ray -/

def State.viaRay (s : State) (r : Ray) : Via := let c := s.context r.ctx; ⟨c.part, c.asid, r.core⟩

/-- The wave of a ray, while it has not left. -/
def State.rayWave (s : State) (r : Ray) : Option (Nat × Wave) :=
  r.wave.bind fun i => ((s.waves[i]?).filter fun w => !w.gone).map fun w => (i, w)

/-- A ray as it asks for lines. -/
def Ray.asker (r : Ray) (rn : Nat) : Asker := ⟨some rn, r.wave.getD noWave, .s, 0, []⟩

/-- A unit of 128 bytes as a ray reads it: its bytes, and whether they are poisoned (R278, R283, R291). An error in a green sector
that it reads rolls the region back, and the ray with it (R304, R412). -/
def State.rayRead (s : State) (rn : Nat) (r : Ray) (va : Nat) : UnitRes (State × Nat × Bool) :=
  let v := s.viaRay r
  let reqs : List LaneReq := [⟨0, va, [], 0⟩, ⟨0, va + 64, [], 0⟩]
  match (s.rayWave r).bind fun e => s.greenStruck e.1 e.2 0 reqs with
  | some z => .error (z, .later)
  | none =>
    let s0 := s.l1Struck (r.wave.getD noWave) v reqs
    match s0.requestLine v.part v.asid va reading (secsAt va 128) with
    | .error f => .error (s0, .fault va f false)
    | .ok (p, s1) =>
      let green : Green := ((s1.rayWave r).map fun e => e.2.green).getD Green.empty
      if p.near then
        let s2 := (s1.flush v.core fun x => x.home == p.line && x.gather.isSome).recallGathers p
        let bytes := (List.range 128).map fun k => (ovGet green.glob (va + k)).getD (s2.byteAt v (va + k) (p.add k))
        let bad := (List.range 2).any fun k =>
          if green.glob.any fun e => e.1 / 64 == va / 64 + k then green.poison.contains (va / 64 + k)
          else s2.poisonAt v (va + 64 * k) (p.add (64 * k))
        let s3 := match s2.rayWave r with
          | some (i, _) => s2.countReads i [(va, p)]
          | none => s2.readCount p
        .ok (s3, numLE bytes, bad)
      else
        match s1.farOp (r.asker rn) va p (.read 128) with
        | .error e => .error e
        | .ok (s2, bs, bad) =>
          let s3 := s2.dropAsked (r.asker rn)
          match s3.rayWave r with
          | some (_, w) => .ok (s3, numLE (s3.mergeFar w va bs), w.poisonOf va 128 bad)
          | none => .ok (s3, numLE bs, bad)

/-- A ray's log writes are green: it was started in the region that its wave is still in (R304). -/
def State.greenRay (s : State) (r : Ray) : Option (Nat × Wave) :=
  (s.rayWave r).filter fun e => r.inRegion && (e.2.region.any fun g => !g.unchecked)

/-- A write of a ray's log. -/
def State.rayWrite (s : State) (rn : Nat) (r : Ray) (va : Nat) (bs : List Byte) : UnitRes State :=
  let v := s.viaRay r
  match s.request v.part v.asid va writing with
  | .error f => .error (s, .fault va f true)
  | .ok (p, s1) =>
    let ov := ovWrite [] va bs
    match s1.greenRay r with
    | some (i, w) =>
      let bad := (sectors va bs.length).filter fun k => s1.poisonFor w (max va (64 * k)) 1 (p.add (max va (64 * k) - va))
      let g := w.green.write ov bad
      if s1.greenFull w g then .error (s1.overflow i va 0, .later)
      else .ok (s1.modWave i fun y => s1.signed { y with green := g } ov 0)
    | none =>
      if p.near then .ok (s1.l1Write v p.line ov false)
      else .ok (s1.sentAs (s1.sendOut (r.wave.getD noWave) .s 0 [] p.line ov []) (r.asker rn))

/-! ## Logs (R294, R295) -/

/-- A slice that cannot be written: of length 0, or past the end of the address space. -/
def sliceBad (slice len : Nat) : Bool := len == 0 || decide (2 ^ 56 < slice + len)

/-- The slice can be written. -/
def Ray.logs (r : Ray) : Bool := r.logging && !r.logDead && !sliceBad r.slice r.sliceLen

/-- The ray's entries are written from now on with one more. -/
def Ray.note (r : Ray) (e : DWord) : Ray := if r.logging then { r with logBuf := r.logBuf ++ [e] } else r

/-- Write the entries that wait, in walk order, each once; one that does not fit is dropped and sets LOGFULL. -/
def State.flushLog (rn : Nat) : State → List DWord → UnitRes State
  | s, [] => .ok s
  | s, e :: es =>
    match s.rays[rn]? with
    | none => .ok s
    | some r =>
      if !r.logs || decide (r.sliceLen < 32 + 8 * (r.logCount + 1)) then
        State.flushLog rn (s.modRay rn fun x => { x with logFull := true, logBuf := es }) es
      else
        match s.rayWrite rn r (r.slice + 32 + 8 * r.logCount) (bytesLE 8 e.toNat) with
        | .error x => .error x
        | .ok s1 => State.flushLog rn (s1.modRay rn fun x => { x with logCount := x.logCount + 1, logBuf := es }) es

/-- Write the header. -/
def State.logHeader (s : State) (rn : Nat) (r : Ray) : UnitRes State :=
  if !r.logs then .ok s
  else
    let tuv := (r.record.take 3).flatMap fun x => bytesLE 8 x.toNat
    s.rayWrite rn r r.slice (tuv ++ bytesLE 4 r.logCount ++ bytesLE 2 ((r.g0.map BitVec.toNat).getD 0) ++
      bytesLE 1 (r.status.toNat + if r.logFull then 16 else 0) ++ [0])

def nodeEntry (a : Nat) : DWord := BitVec.ofNat 64 (a % 2 ^ 56)
def primEntry (a steps : Nat) (accepted : Bool) : DWord :=
  BitVec.ofNat 64 (a % 2 ^ 56 + steps % 16 * 2 ^ 56 + (if accepted then 2 ^ 60 else 0) + 2 ^ 61)
def suspendEntry (st : BitVec 4) : DWord := BitVec.ofNat 64 (st.toNat + 2 ^ 62)
def resumeEntry (action : Nat) : DWord := BitVec.ofNat 64 (action % 4 + 3 * 2 ^ 61)

/-! ## Suspension and end (R292, R297, R303) -/

/-- The grid of a ray's team. -/
def State.rayGrid (s : State) (r : Ray) : Nat := ((s.teams[r.team]?).map Team.grid).getD 0

/-- A ray comes to a suspension or to its end: what it has still to write is due. -/
def Ray.come (r : Ray) (st : RaySt) (status : BitVec 4) (addr : Nat) (primid : Word) : Ray :=
  let x := { r with due := some (st, false), status := status, addr := addr, primid := primid, node := none,
                    leaf := if st == .suspended then r.leaf else [] }
  if st == .suspended then x.note (suspendEntry status) else x

/-- A ray that can write no record any more: its slot frees, and an L-op whose counter covers the record is complete. -/
def State.loseRay (s : State) (rn : Nat) (r : Ray) : State :=
  r.owes.foldl (fun z o => z.deliver (bareRecord 0xB) o)
    (s.modRay rn fun x => { x with st := .dropped, freed := true, owes := [], due := none, held := none })

/-- The record reaches its output hod: a slot is reserved, filled once it is free, and published in its turn (R380). -/
def State.publishRay (s : State) (rn : Nat) (r : Ray) (h : Hod) (words : List DWord) : UnitRes State := do
  let k := r.asker rn
  let v := s.viaRay r
  let (s1, n) ← match r.hodSlot with
    | some e => .ok (s, e.1)
    | none => (s.hodReserve k v h).map fun e => (e.1.modRay rn fun x => { x with hodSlot := some (e.2, false) }, e.2)
  let s2 ← if (r.hodSlot.map fun e => e.2).getD false then .ok s1
    else (s1.hodFill k v h n (words.flatMap (fun x => bytesLE 8 x.toNat) ++ List.replicate 16 0)).map fun z =>
      z.modRay rn fun x => { x with hodSlot := some (n, true) }
  (s2.hodCommit k v h n).map fun z => z.modRay rn fun x => { x with hodSlot := none }

/-- The record of a ray that has come to a suspension or to its end is delivered: to the L-ops that wait for it, or to its output
hod. An end whose record something takes frees the slot. -/
def State.deliverRay (s : State) (rn : Nat) (r : Ray) (st : RaySt) : UnitRes State :=
  match r.hod with
  | some h =>
    match s.hodOf (s.rayGrid r) h with
    | none => .ok (s.loseRay rn r)
    | some hod =>
      -- the counter of TRAV.q covers the ray's first record (R76, R303)
      (s.publishRay rn r hod ({ r with st := st }).record).map fun z =>
        r.owes.foldl (fun y o => y.deliver [] o) (z.modRay rn fun x => { x with st := st, due := none, owes := [], freed := st == .ended })
  | none =>
    let x := { r with st := st, due := none, owes := [], freed := st == .ended && !r.owes.isEmpty }
    .ok (r.owes.foldl (fun z o => z.deliver x.record o) (s.modRay rn fun _ => x))

/-- What a suspension or an end has still to write: entries, the header, and, when the device's own log writes elsewhere are
performed, the record (R295, R303). -/
def State.settleRay (s : State) (rn : Nat) : UnitRes State := do
  match s.rays[rn]? with
  | none => .ok s
  | some r =>
    match r.due with
    | none => .ok s
    | some (st, headed) =>
      let s1 ← if headed then .ok s
        else (s.logHeader rn r).map fun z => z.modRay rn fun x => { x with due := some (st, true) }
      if r.hodSlot.isNone && s1.unperformed (r.asker rn) then .error (s1, .later)
      else s1.deliverRay rn ((s1.rays[rn]?).getD r) st

/-! ## The walk (R290) -/

/-- A ray that is BADRAY (R292). -/
def Ray.bad (r : Ray) : Bool :=
  (r.o.toList ++ r.d.toList).any (fun c => (fin64 c).isNone) ||
  r.d.toList.all (fun c => ((fin64 c).map fun x => x.m == 0).getD false) ||
  !leVal r.tmin r.tmax || r.root % 128 != 0 || decide (2 ^ 56 ≤ r.root) || r.reserved

def Ray.origin (r : Ray) : List Ex := r.o.toList.map fun c => (fin64 c).getD zeroEx
def Ray.dir (r : Ray) : List Ex := r.d.toList.map fun c => (fin64 c).getD zeroEx

/-- Insert an entry by its entry value, after those that are not above it. -/
def insertEnt (x : RayEnt) : List RayEnt → List RayEnt
  | [] => [x]
  | y :: ys => if ltVal x.entry y.entry then x :: y :: ys else y :: insertEnt x ys

/-- The entries that a node's hit children push, the nearest first. -/
def Ray.pushes (r : Ray) (n : Nat) : List RayEnt :=
  ((nodeKids n).filterMap fun c =>
    if c.cmask &&& r.mask.toNat = 0 then none
    else (boxHit r.origin r.dir r.tmin r.tb c.box).map fun e => (⟨c.addr, c.leaf, c.count, e, false, c.box⟩ : RayEnt)).foldl
      (fun l x => insertEnt x l) []

/-- Entries beyond the bound are pruned. -/
def prune (tb : DWord) : List RayEnt → List RayEnt
  | [] => []
  | x :: xs => if ltVal tb x.entry then prune tb xs else x :: xs

/-- A ray ends with what it has. -/
def Ray.endWalk (r : Ray) : Ray :=
  match r.best with
  | some h => r.come .ended 0 h.addr h.primid
  | none => r.come .ended 1 0 0

/-- A record that a ray has read is tested: the ray after it. -/
def Ray.tested (r : Ray) (a n : Nat) (rest : List Nat) : Ray :=
  let primid := BitVec.ofNat 32 (field n 32 32)
  match testRecord r.origin r.dir r.box n with
  | .bad => r.come .ended 8 a primid
  | .suspend status steps => ({ r with leaf := rest, at_ := some (a, primid, steps) }).come .suspended status a primid
  | .cands l steps =>
    let (r1, took) := l.foldl (fun (acc : Ray × Bool) c => let (y, b) := acc.1.offer c a primid; (y, acc.2 || b)) (r, false)
    let r2 := { r1 with leaf := rest }.note (primEntry a steps took)
    if took && r.anyhit then r2.endWalk else r2

/-- Test the records of the current leaf, in ascending order, until one suspends or ends the ray. What earlier ones gave stays where
a read stops the ray. -/
def State.testLeaf (rn : Nat) : State → List Nat → UnitRes State
  | s, [] => .ok s
  | s, a :: rest =>
    match s.rays[rn]? with
    | none => .ok s
    | some r =>
      match s.rayRead rn r a with
      | .error x => .error x
      | .ok (s1, _, true) => .ok (s1.modRay rn fun x => x.come .ended 6 a 0)
      | .ok (s1, n, false) =>
        let r1 := r.tested a n rest
        let s2 := s1.modRay rn fun _ => r1
        if r1.due.isSome then .ok s2 else State.testLeaf rn s2 rest

/-- An internal node that a ray has read: the ray after it. -/
def Ray.visited (r : Ray) (x : RayEnt) (n : Nat) : Ray :=
  if nodeBad n then r.come .ended 8 x.addr 0
  else
    let r1 := { r with node := none }.note (nodeEntry x.addr)
    if (r.g0.map fun g => !x.root && newer (nodeGen n) g).getD false then r1.come .ended 5 x.addr 0
    else
      let st := r.pushes n ++ r.stack
      if 256 < st.length then r1.come .ended 8 x.addr 0
      else { r1 with stack := st, g0 := if x.root then some (nodeGen n) else r1.g0 }

/-- Read the node of a visit that has begun. -/
def State.visitNode (s : State) (rn : Nat) (r : Ray) (x : RayEnt) : UnitRes State :=
  match s.rayRead rn r x.addr with
  | .error e => .error e
  | .ok (s1, n, bad) =>
    .ok (s1.modRay rn fun _ => if bad then r.come .ended 6 x.addr 0 else r.visited x n)

/-- A ray stands at a visit boundary: nothing of a visit is open, and nothing waits to be written (R304). -/
def Ray.between (r : Ray) : Bool := r.node.isNone && r.leaf.isEmpty && r.due.isNone && r.logBuf.isEmpty

/-- A running ray goes on by one visit, once its log entries are written: what it has begun first (R290). -/
def State.walk_ (s : State) (rn : Nat) (r : Ray) : UnitRes State :=
  if r.due.isSome then s.settleRay rn
  else if r.bad then .ok (s.modRay rn fun x => x.come .ended 9 0 0)
  else if r.anyhit && r.best.isSome then .ok (s.modRay rn Ray.endWalk)
  else
    match r.node with
    | some x => s.visitNode rn r x
    | none =>
      if !r.leaf.isEmpty then s.testLeaf rn r.leaf
      else
        match prune r.tb r.stack with
        | [] => .ok (s.modRay rn Ray.endWalk)
        | x :: rest =>
          if r.remain = 0 then .ok (s.modRay rn fun y => { y with stack := x :: rest }.come .suspended 4 0 0)
          else
            let r1 := { r with remain := r.remain - 1, stack := rest }
            if x.leaf then
              let recs := (List.range x.count).map fun j => x.addr + 128 * j
              (s.modRay rn fun _ => { r1 with leaf := recs, box := x.box }).testLeaf rn recs
            else
              let r2 := { r1 with node := some x }
              (s.modRay rn fun _ => r2).visitNode rn r2 x

/-- One step of a running ray: its entries that wait are written, and it goes on. -/
def State.visit (s : State) (rn : Nat) (r : Ray) : UnitRes State := do
  let s1 ← State.flushLog rn s r.logBuf
  match s1.rays[rn]? with
  | none => .ok s1
  | some r1 => s1.walk_ rn r1

/-- A fault that cannot be resolved ends a ray that reads with FAULT, and the logging of one that writes its log (R291, R295): its
entries are dropped. A ray whose record cannot be written is lost (notes/assumptions/17.md). -/
def State.rayFatal (s : State) (rn : Nat) (va : Nat) (write : Bool) : State :=
  match s.rays[rn]? with
  | none => s
  | some r =>
    let x := { r with held := none }
    if write && r.logging && decide (r.slice ≤ va) && decide (va < r.slice + r.sliceLen) then
      s.modRay rn fun _ => { x with logDead := true, logFull := true, logBuf := [] }
    else if write || r.due.isSome then s.loseRay rn r
    else s.modRay rn fun _ => x.come .ended 7 va 0

/-- A ray that stops keeps what it has done; a fault holds it. -/
def State.stopRay (rn : Nat) (e : State × UnitStop) : State :=
  match e.2 with
  | .later => e.1
  | .lost va => e.1.rayFatal rn va false
  | .fault va f write =>
    match e.1.rays[rn]? with
    | none => e.1
    | some r =>
      if f.fatal then e.1.rayFatal rn va write
      else
        let v := e.1.viaRay r
        let (s1, id, _) := e.1.faultRecord v.part v.asid r.ctx (.ray rn) f va write false
        s1.modRay rn fun x => { x with held := some id }

/-- A running ray advances by one step of its walk. -/
def State.stepRay (s : State) (rn : Nat) : State :=
  match s.rays[rn]? with
  | none => s
  | some r =>
    if r.st != .running || r.freed || r.held.isSome then s
    else
      match s.visit rn r with
      | .ok s1 => s1
      | .error e => State.stopRay rn e

end Sys2Proof.Machine
end

