-- ==== Sys2Proof/Machine/Trav.lean ====
section
/-!
DEFINITION. Traversal L-ops: TRAV, TRES, TRESUME and TLOG (spec/11 R298 to R302).
-/

namespace Sys2Proof.Machine

/-! ## Operands and slots -/

/-- Word k of a range of 64-bit words at an operand position. -/
def LIss.wide (x : LIss) (pos : Nat) (o : Opnd) (k : Nat) (l : Lane) : DWord :=
  match o with
  | .v r => (x.lane pos (r.val + 2 * k + 1) l) ++ (x.lane pos (r.val + 2 * k) l)
  | _ => BitVec.ofNat 64 (x.read pos o 64 l)

/-- The unit of a core as it asks for records of a grid's input hod. -/
def unitAsker (core g : Nat) : Asker := ⟨none, noWave, .s, hodOut + 1 + core + 64 * g, []⟩

/-- The unit of a core is taking an input record of a hod that lies away. -/
def State.taking (s : State) (core : Nat) : Bool :=
  s.sys.links.remotes.any fun r => r.wave == noWave && decide (hodOut < r.out) && decide (r.out < 2 * hodOut) &&
    (r.out - hodOut - 1) % 64 == core && !r.reads

/-- Ray slots in use on a core, with one kept for an input record that is being taken. -/
def State.slotsUsed (s : State) (core : Nat) : Nat :=
  (s.rays.filter fun r => r.core == core && !r.freed).length + (if s.taking core then 1 else 0)

/-- The handle of a slot in use. -/
def State.handleUsed (s : State) (core h : Nat) : Bool := s.rays.any fun r => r.core == core && !r.freed && r.handle == h

/-- A free handle of 1 to 2,047, looked for from a place on, with fuel. -/
def State.handleFrom (s : State) (core : Nat) : Nat → Nat → Nat
  | 0, h => h % 2047 + 1
  | n + 1, h => if s.handleUsed core (h % 2047 + 1) then State.handleFrom s core n (h + 1) else h % 2047 + 1

/-- A hod number that R381 refuses for a traversal L-op. -/
def State.hodBad (s : State) (g n : Nat) : Bool := ((s.hodOf g n).map fun h => !h.output).getD true

/-- What a ray starts with (R290, R293). -/
def Ray.start (core : Nat) (ctx : BitVec 16) (wave : Option Nat) (lane : Lane) (team handle : Nat) (f : Nat → DWord) (root : Nat)
    (ctl : Word) (tag : DWord) : Ray :=
  { core := core, ctx := ctx, wave := wave, lane := lane, team := team, handle := handle, o := #v[f 0, f 1, f 2],
    d := #v[f 3, f 4, f 5], tmin := f 6, tmax := f 7, mask := BitVec.ofNat 8 (field ctl.toNat 16 8), anyhit := bitOf ctl.toNat 24,
    reserved := field ctl.toNat 25 7 != 0, tag := tag, root := root, g0 := none, stack := [⟨root, false, 1, f 6, true, []⟩],
    best := none, tb := f 7, remain := if field ctl.toNat 0 16 = 0 then 65536 else field ctl.toNat 0 16, node := none, leaf := [],
    box := [], at_ := none, st := .running, status := 0, addr := 0, primid := 0, hod := none, hodSlot := none, owes := [],
    logging := false, slice := 0, sliceLen := 0, logCount := 0, logFull := false, logDead := false, logBuf := [], due := none,
    held := none, inRegion := false, freed := false }

/-- The ray logs to a slice; LOGFULL is set where the slice cannot be written (R294, R295). -/
def Ray.logTo (r : Ray) (log : Bool) (slice len : Nat) : Ray :=
  { r with logging := log, slice := slice, sliceLen := len, logFull := log && sliceBad slice len }

/-! ## TRAV (R299) -/

/-- Start the ray of one lane; `out` is the outstanding L-op that takes its first record, or whose counter covers it (R76). -/
def State.startRay (s : State) (x : LIss) (log : Bool) (hod : Option Nat) (out : Nat) (a b y : Opnd) (l : Lane) : State :=
  let handle := s.handleFrom x.w.core 2047 (Config.freeWord s.free).toNat
  let lg := x.w.soft.log[l]
  let r := Ray.start x.w.core (x.s.ctxIdOf x.w) (some x.i) l x.w.team handle (fun k => x.wide 0 a k l) (x.read 1 b 64 l)
    (BitVec.ofNat 32 (x.read 2 y 32 l)) (if hod.isSome then x.wide 0 a 8 l else 0)
  let r1 := { r.logTo log (lg.base.toNat + lg.slice.toNat * lg.cur.toNat) lg.slice.toNat with
                hod := hod, owes := [(x.i, out, l)], inRegion := x.w.inRegion }
  { s with rays := s.rays ++ [r1], free := s.free + 1 }

/-- A TRAV.log takes its slice in the lanes of a set (R294). -/
def Wave.takeSlices (w : Wave) (m : Mask) : Wave :=
  let next (g : LogSt) : LogSt := { g with cur := g.cur + 1 }
  let log := lanes fun l => if inMask m l then next w.soft.log[l] else w.soft.log[l]
  { w with soft := { w.soft with log := log } }

/-- TRAV. -/
def execTrav (c : LCtl) (log q : Bool) (d : Dst) (a b x : Opnd) (hod : BitVec 6) (s : State) : Result :=
  let u : LUse := ⟨[(a, if q then 18 else 16, c.lua), (b, 2, c.lub), (x, 1, c.luc)], [(d, 10)], c.lud, []⟩
  .next (match s.lStart c u with
    | .error t => t
    | .ok y =>
      if q && y.s.hodBad y.w.grid hod.toNat then y.descInvalid
      else if q && y.w.inRegion then y.trap (.of .regionIllegal)
      else if log && y.s.twinIllegal y.w then y.trap (.of .twinIllegal)
      else if 2047 < y.s.slotsUsed y.w.core + (lanesIn y.act).length then y.s.waitL y.w y.d .trav
      else
        let y1 := if log then { y with w := y.w.takeSlices y.act } else y
        let s1 := (y1.issue c u true (spanD d 10)).modOut y.i y.outIx fun o =>
          { o with rays := true, inTicket := false, parked := y.act }
        (lanesIn y.act).foldl (fun z l => z.startRay y log (if q then some hod.toNat else none) y.outIx a b x l) s1)

/-! ## TRES (R300) -/

/-- The ray that a handle names for the issuing wave: of its context, on its core, its slot not freed. -/
def State.rayNamed (s : State) (w : Wave) (h : Nat) (any : Bool) : Option Nat :=
  s.rays.findIdx? fun r =>
    r.core == w.core && r.ctx == s.ctxIdOf w && r.handle == h && !r.freed && r.st != .dropped && (any || (r.hod.isNone && r.wave.isSome))

/-- One lane of TRES without .q, on the rays as they stood at issue. -/
def State.collect (s : State) (x : LIss) (out : Nat) (a : Opnd) (l : Lane) : State :=
  match x.s.rayNamed x.w (x.read 0 a 32 l) false with
  | none => s.deliver (bareRecord 0xB) (x.i, out, l)
  | some rn =>
    match x.s.rays[rn]? with
    | none => s
    | some r =>
      match r.st with
      | .suspended => s.deliver r.record (x.i, out, l)
      | .ended => (s.deliver r.record (x.i, out, l)).modRay rn fun q => { q with freed := true }
      | _ => s.modRay rn fun q => { q with owes := q.owes ++ [(x.i, out, l)] }

/-- A lane of TRES.q as it asks for records. -/
def laneAsker (i : Nat) (d : Side) (out : Nat) (l : Lane) : Asker := ⟨none, i, .l d, hodOut + out, [l]⟩

/-- The words of an output record. -/
def recordWords (bs : List Byte) : List DWord := (List.range 6).map fun k => BitVec.ofNat 64 (numLE ((bs.drop (8 * k)).take 8))

/-- A poisoned record reaches a lane: accepted, with the substitute in its place, or the outcome of a detected error (R417). -/
def State.poisonRecord (s : State) (i pc va : Nat) (isV : Bool) (o : Nat × Nat × Lane) : State × Bool :=
  let (s1, on) := if isV then s.consume i va pc true else (s, true)
  let sub := ((s.waves[i]?).map fun w => (s.ctxOf w).subst).getD 0
  if on then (s1.deliver (List.replicate 6 sub) o, true)
  else (s1.modOut i o.2.1 fun x => { x with parked := 0, remote := 0 }, false)

/-- TRES.q takes a record for each lane, in lane order (R300): the lanes whose hod faults are answered. A hod on another device is
waited for. -/
def State.tresRun (i : Nat) (d : Side) (pc out : Nat) (isV : Bool) (h : Hod) : State → List LaneReq →
    State × List (LaneReq × XFault) × Bool
  | s, [] => (s.modOut i out fun o => { o with remote := 0 }, [], false)
  | s, r :: rs =>
    match s.waves[i]? with
    | none => (s, [], false)
    | some w =>
      let o := (i, out, r.lane)
      let bad (z : State) (va : Nat) : State × List (LaneReq × XFault) × Bool :=
        let (z1, on) := z.poisonRecord i pc va isV o
        if on then State.tresRun i d pc out isV h z1 rs else (z1, [], false)
      match s.hodTake (laneAsker i d out r.lane) (s.viaOf w) h with
      | .ok (s1, none) => State.tresRun i d pc out isV h (s1.deliver (bareRecord 0xA) o) rs
      | .ok (s1, some (va, bs, poisoned)) =>
        if poisoned then bad s1 va else State.tresRun i d pc out isV h (s1.deliver (recordWords bs) o) rs
      | .error (z, .later) => (z.modOut i out fun x => { x with remote := 1 }, [], false)
      | .error (z, .lost va) => bad z va
      | .error (z, .fault va f write) =>
        (z.modOut i out fun x => { x with remote := 0 }, (r :: rs).map fun q => ({ q with addr := va }, f), write)

/-- The hod that a TRES.q names, and whether it keeps the record. -/
def State.tresHod (s : State) (i : Nat) : Instr → Option (Hod × Bool)
  | .tres _ true dst _ hod => ((s.waves[i]?).bind fun w => s.hodOf w.grid hod.toNat).map fun h => (h, dst.isV)
  | _ => none

/-- TRES.q at issue: where its hod faults, its lanes are parked (R221, R300). -/
def LIss.tresQ (x : LIss) (c : LCtl) (u : LUse) (d : Dst) (ins : Instr) : State :=
  match x.s.tresHod x.i ins with
  | none => x.descInvalid
  | some (h, isV) =>
    let reqs := (lanesIn x.act).map fun l => (⟨l, h.base, [], 0⟩ : LaneReq)
    let s1 := (x.issue c u true (spanD d 12) (some (ins, reqs))).modOut x.i x.outIx fun o => { o with parked := x.act }
    let (s2, bad, write) := State.tresRun x.i x.d x.p.pc x.outIx isV h s1 reqs
    s2.parkLane x.i x.d x.p.pc ins x.outIx write bad

/-- The parked lanes of TRES.q take their records, or are parked again (R358). -/
def State.replayTres (s : State) (i : Nat) (d : Side) (k : Park) (ins : Instr) (h : Hod) (isV : Bool) : State :=
  let at_ := if k.stacked then (s.waves[i]?).bind fun w => w.ls.spilledAt d else none
  let (s1, bad, write) := State.tresRun i d k.pc k.out isV h (s.unpark i d k) k.reqs
  s1.parkAgain i d k ins bad write at_

/-- Replay the lanes of a record. -/
def State.replay (s : State) (i : Nat) (d : Side) (k : Park) : State :=
  match k.instr.bind fun ins => (s.tresHod i ins).map fun h => (ins, h) with
  | some (ins, h, isV) => s.replayTres i d k ins h isV
  | none => s.replayLanes i d k

/-- Replies reach an outstanding L-op: a TRES.q goes on with the lanes that still wait for a record. -/
def State.settleAny (s : State) (i out : Nat) : State :=
  let o? := (s.waves[i]?).bind fun w => w.ls.outs[out]?
  match o?.bind fun o => o.src.bind fun e => (s.tresHod i e.2.1).map fun h => (o, e, h) with
  | none => s.settleOut i out
  | some (o, (pc, ins, reqs), h, isV) =>
    let answered := s.sys.links.remotes.any fun r => r.wave == i && r.out == hodOut + out && r.reply.isSome
    if !answered || ((s.waves[i]?).bind fun w => w.ls.park? o.side).isSome then s
    else
      let (s1, bad, write) := State.tresRun i o.side pc out isV h s (reqs.filter fun r => inMask o.parked r.lane)
      s1.parkLane i o.side pc ins out write bad

/-- TRES. -/
def execTres (c : LCtl) (q : Bool) (d : Dst) (a : Opnd) (hod : BitVec 6) (s : State) : Result :=
  let u : LUse := ⟨[(a, 1, c.lua)], [(d, if q then 12 else 10)], c.lud, []⟩
  .next (match s.lStart c u with
    | .error t => t
    | .ok x =>
      if q then
        if x.s.hodBad x.w.grid hod.toNat then x.descInvalid
        else if x.noRecord then x.s.waitL x.w x.d .other
        else x.tresQ c u d (.tres c true d a hod)
      else
        let s1 := (x.issue c u true (spanD d 10)).modOut x.i x.outIx fun o => { o with parked := x.act }
        (lanesIn x.act).foldl (fun z l => z.collect x x.outIx a l) s1)

/-! ## TRESUME (R301) -/

/-- The effect of a decision on a suspended ray, or none where it has no effect. -/
def Ray.decide (r : Ray) (b : Nat) (t : DWord) : Option Ray :=
  let action := field b 0 2
  let budget := field b 16 16
  let entries (l : List DWord) : List DWord := if r.logging then r.logBuf ++ l else []
  let go (x : Ray) : Ray := { x with st := .running, at_ := none }
  if r.st != .suspended || field b 2 14 != 0 || (action != 3 && budget != 0) then none
  else
    match action with
    | 2 => some { r with st := .dropped, freed := true, owes := [] }
    | 3 =>
      if r.status != 4 || budget = 0 then none
      else some { go r with remain := budget, logBuf := entries [resumeEntry 3] }
    | _ =>
      if r.status != 2 && r.status != 3 then none
      else
        let (a, primid, steps) := r.at_.getD (0, 0, 0)
        let (r1, took) := if action = 1 then r.offer (t, 0, 0) a primid else (r, false)
        some { go r1 with logBuf := entries [resumeEntry action, primEntry a steps took] }

/-- One lane of TRESUME: whether the action took effect. -/
def State.resumeLane (s : State) (x : LIss) (a b y : Opnd) (l : Lane) : State × Bool :=
  match x.s.rayNamed x.w (x.read 0 a 32 l) true with
  | none => (s, false)
  | some rn =>
    match (s.rays[rn]?).bind fun r => r.decide (x.read 1 b 32 l) (BitVec.ofNat 64 (x.read 2 y 64 l)) with
    | none => (s, false)
    | some r => (s.modRay rn fun _ => r, true)

/-- TRESUME. -/
def execTresume (c : LCtl) (a b x : Opnd) (st : Option PReg) (s : State) : Result :=
  let u : LUse := ⟨[(a, 1, c.lua), (b, 1, c.lub), (x, 2, c.luc)], [], false, []⟩
  .next (match s.lStart c u with
    | .error t => t
    | .ok y =>
      let (s1, ok) := (lanesIn y.act).foldl (fun (acc : State × List Lane) l =>
        let (z, took) := acc.1.resumeLane y a b x l
        (z, if took then l :: acc.2 else acc.2)) (y.s, [])
      (y.refresh s1).done c u 0 [] fun w => w.setStatus st y.act (maskOf fun l => ok.contains l))

/-! ## TLOG (R302) -/

/-- TLOG. -/
def execTlog (c : LCtl) (d : Dst) (a b : Opnd) (s : State) : Result :=
  let u : LUse := ⟨[(a, 2, c.lua), (b, 1, c.lub)], [(d, 1)], c.lud, []⟩
  .next (match s.lStart c u with
    | .error t => t
    | .ok x =>
      let base (l : Lane) : Nat := x.read 0 a 64 l
      let slice (l : Lane) : Nat := x.read 1 b 32 l
      match laneTrap .addrRange x.act base fun l => addrBad (base l) with
      | some t => x.trap t
      | none =>
        let bad (l : Lane) : Bool := base l % 64 != 0 || slice l % 64 != 0 || decide (65536 < slice l)
        match laneTrap .descInvalid x.act (fun _ => 0) bad with
        | some t => x.trap { t with aux := x.tk.bond.toNat }
        | none =>
          let new (l : Lane) : LogSt := ⟨BitVec.ofNat 64 (base l), BitVec.ofNat 32 (slice l), 0⟩
          x.done c u 1 (destRegs d 32 fun l => x.w.soft.log[l].cur.setWidth 64) fun w =>
            let log := lanes fun l => if inMask x.act l then new l else w.soft.log[l]
            { w with soft := { w.soft with log := log } })

end Sys2Proof.Machine
end

