-- ==== Sys2Proof/Machine/LaneEvents.lean ====
section
/-!
DEFINITION. The steps of the lane stream and of the waves that no instruction takes by itself: tickets, staging and eviction
(spec/02 R36, R37; spec/03 R66 to R71), completions of loads and stores (R76), register grants (R62), stalls (R40; spec/09 R236),
yields, and the delivery of imprecise traps (spec/16 R347, R348). A step whose condition does not hold changes nothing.
-/

namespace Sys2Proof.Machine

/-! ## Waves that may act -/

/-- The twin copy of a set that runs unchecked is held (R475). -/
def State.heldTwin (s : State) (w : Wave) : Bool :=
  (s.launchOf w).twin && !s.primary w && ((w.region.map Region.unchecked).getD false)

/-- A team is to be saved: it is chosen for a save (R386), or its image is to replace its twin copy's (R475). -/
def Team.saving (t : Team) : Bool := (t.request.isSome && !t.draining) || t.mirror

/-- A team issues: it is resident, and not to be saved. -/
def Team.issues (t : Team) : Bool := t.st == .resident && !t.saving

/-- The wave is resident, and its team issues. -/
def State.runs (s : State) (w : Wave) : Bool :=
  w.st == .resident && ((s.teamOf w).map Team.issues).getD false && !s.heldTwin w

/-- The wave, when it runs. -/
def State.runner (s : State) (i : Nat) : Option Wave := (s.waves[i]?).filter s.runs

/-- Waves of the quarter of a wave that hold something. -/
def State.onQuarter (s : State) (w : Wave) (p : Wave → Bool) : List Wave :=
  s.waves.filter fun y => y.core == w.core && y.quarter == w.quarter && y.st == .resident && p y

/-! ## Tickets (R36, R37, R66, R180) -/

/-- A block of another epoch resets the draw counters when it is taken up (R180, R250). -/
def Wave.takeEpoch (w : Wave) (t : Ticket) : Wave :=
  if t.epoch = w.soft.lastEpoch then w
  else { w with soft := { w.soft with lastEpoch := t.epoch, rndctr := Vector.replicate 32 0, mctr := 0 } }

/-- TICKET_TAKE_UP: the oldest ticket's block is taken up and its header checked. -/
def State.takeUp (s : State) (i : Nat) : State :=
  match s.runner i with
  | none => s
  | some w =>
    if w.priv.handler || w.ls.blk.phase != .none || w.ls.parkA.isSome then s
    else
      match w.ls.tickets.head? with
      | none => s
      | some t =>
        let w1 := w.takeEpoch t
        let s1 := { s.putWave i w1 with cur := (i, .a) }
        match s1.lOp i w1 .a t.addr true with
        | .error z => z
        | .ok (s2, .lhdr z ranges) => s2.takeHeader z ranges
        | .ok (s2, _) => s2

/-- TICKET_TAKE_UP (R36). -/
def execTicketTakeUp (w : Nat) (s : State) : Result := .next (s.takeUp w)

/-! ## Staging (R67, R69, R70, R71) -/

/-- Registers of a working set. -/
def Blk.regs (b : Blk) : List Nat := b.ranges.flatMap fun g => (List.range g.count).map (g.first + ·)

/-- A slot of the quarter's reservoir file can be taken: the wave holds one, or fewer than 16 are held. -/
def State.slotFree (s : State) (w : Wave) : Bool := w.ls.slot || decide ((s.onQuarter w fun y => y.ls.slot).length < 16)

/-- Fast-file slots that the quarter's waves hold. -/
def State.stagedOn (s : State) (w : Wave) : Nat := (s.onQuarter w fun _ => true).foldl (fun n y => n + y.ls.staged.length) 0

/-- The working set is copied into the fast file; the first time, the block begins at the L-op after its header. -/
def LStream.stage (x : LStream) : LStream :=
  let copies := x.blk.regs.filterMap fun r => if h : r < 256 then some (⟨r, x.v[r], false⟩ : Staged) else none
  let y := { x with staged := copies, slot := x.slot || x.blk.z }
  if x.sideA.isSome || x.sideB.isSome then { y with blk := { y.blk with phase := .ready } }
  else
    { y with blk := { y.blk with phase := .ready, entry := x.live }, sideA := some ⟨x.ticket.addr + 12, x.live, none, .running⟩,
             sideB := none, stack := [], waitA := none, waitB := none, prods := [] }

/-- STAGING_COMPLETE (R67, R71). -/
def execStagingComplete (w : Nat) (s : State) : Result :=
  .next (match s.runner w with
    | none => s
    | some x =>
      if x.ls.blk.phase != .staging || (x.ls.blk.z && !s.slotFree x) || decide (512 < s.stagedOn x + x.ls.blk.regs.length) then s
      else if x.ls.live = 0 && x.ls.sideA.isNone && x.ls.sideB.isNone then s.putWave w { x with ls := x.ls.endBlock }
      else s.putWave w { x with ls := x.ls.stage })

/-- Cycles since a wave last issued an L-op. -/
def State.idle (s : State) (w : Wave) : Nat := s.cyclesOf w.core - w.ls.issuedL

/-- A block runs: it has been staged, and its ticket is not complete. -/
def Blk.runs (b : Blk) : Bool := b.phase == .ready || b.phase == .ended

/-- Some block of the quarter waits for fast-file space that is not free (R69). -/
def State.spaceWanted (s : State) (w : Wave) : Bool :=
  !(s.onQuarter w fun y => y.ls.blk.phase == .staging && decide (512 < s.stagedOn w + y.ls.blk.regs.length)).isEmpty

/-- The window drains and the staged registers go back to the main file: a block that runs stages again before its next L-op
(R69, R71). -/
def LStream.evict (x : LStream) : LStream :=
  let y := (x.drain true).unstage
  { y with blk := { y.blk with phase := if y.blk.phase == .ready then .staging else y.blk.phase } }

/-- FAST_FILE_EVICTION: the staged registers of a wave go back to the main file, for another wave's block that lacks space. Its own
block has issued no L-op for 256 cycles, or it has yielded (R69, R318). -/
def execFastFileEviction (w : Nat) (s : State) : Result :=
  .next (match s.runner w with
    | none => s
    | some x =>
      if !x.ls.blk.runs || x.ls.staged.isEmpty || !s.spaceWanted x || (x.ss.yielded.isNone && decide (s.idle x < 256)) then s
      else s.putWave w { x with ls := x.ls.evict })

/-- The wave runs a block with Z set. -/
def Wave.runsZ (w : Wave) : Bool := w.ls.blk.z && w.ls.blk.phase != .none

/-- The wave of a list whose number is least, the lowest in the wave table among equals. -/
def oldestBy (f : Wave → Nat) : List (Nat × Wave) → Option (Nat × Wave)
  | [] => none
  | e :: es =>
    match oldestBy f es with
    | none => some e
    | some q => if f e.2 < f q.2 || (f e.2 = f q.2 && e.2.pos ≤ q.2.pos) then some e else some q

/-- The wave of a quarter that gives up its reservoir slot (R71): the least recently used holder that runs no block with Z, or the
longest idle of the others, when it has issued no L-op for 256 cycles. -/
def State.slotVictim (s : State) (w : Wave) : Option (Nat × Wave) :=
  let holders := (indexed s.waves).filter fun e => e.2.core == w.core && e.2.quarter == w.quarter && e.2.st == .resident && e.2.ls.slot
  match oldestBy (fun y => y.ls.usedZ) (holders.filter fun e => !e.2.runsZ) with
  | some e => some e
  | none => oldestBy (fun y => y.ls.issuedL) (holders.filter fun e => decide (256 ≤ s.idle e.2))

/-- RESERVOIR_SLOT_EVICTION: a wave's slot is taken for another wave's block, after its image is written back; a block that
needs it restages (R70, R71). -/
def execReservoirSlotEviction (w : Nat) (s : State) : Result :=
  .next (match s.waves[w]? with
    | none => s
    | some x =>
      let wanted := !(s.onQuarter x fun y => y.ls.blk.phase == .staging && y.ls.blk.z && !y.ls.slot).isEmpty
      let mine := (s.slotVictim x).any fun e => e.1 == w
      if !x.ls.slot || x.st != .resident || !wanted || !mine || s.slotFree { x with ls := { x.ls with slot := false } } then s
      else
        let c := s.ctxOf x
        let s1 := s.putPart c (s.imageBase x.team + waveImageAt x.num + 0x6800) 0x2000
          ((imageBytes x.soft.zWords).map fun e => (e.1 - 0x6800, e.2)) []
        let y := if x.ls.blk.phase == .ready && x.ls.blk.z then x.ls.evict else x.ls
        s1.putWave w { x with ls := { y with slot := false } })

/-! ## Completions (R37, R67, R76, R78) -/

/-- A parity error in a staged register that a write-back reads (R419). -/
def State.writeBackHit (s : State) (i : Nat) (w : Wave) : Option (Nat × Lane) :=
  (s.sys.phys.parity.find? fun e => e.1 == i && w.ls.staged.any fun g => g.reg == e.2.1 && g.written).map fun e => e.2

/-- A release of blocks above an extent returns them (R62): those that were granted again from the wave's own reservation stay, and
read zero from now on (R63, R376). -/
def Wave.released (w : Wave) (e : Nat) : Wave :=
  { w with ls := w.ls.zeroBlocks e w.soft.ext, ss := { w.ss with blocks := max e w.soft.ext } }

/-- A release counts one ticket less; at none it returns its blocks (R62). -/
def Wave.ticketDone (w : Wave) : Wave :=
  let left := w.ss.release.map fun e => (e.1 - 1, e.2)
  ((left.filter fun e => e.1 == 0).map fun e => e.2).foldl Wave.released
    { w with ss := { w.ss with release := left.filter fun e => e.1 != 0 } }

/-- TICKET_COMPLETE: every access of the block is complete; registers are written back and the ticket leaves (R37, R67). -/
def execTicketComplete (w : Nat) (s : State) : Result :=
  .next (match s.waves[w]? with
    | none => s
    | some x =>
      if x.st != .resident || x.ls.blk.phase != .ended || x.ls.outs.any (fun o => o.inTicket && !o.done) then s
      else
        match s.writeBackHit w x with
        | some (r, l) =>
          (s.modPhys fun p => { p with parity := p.parity.filter fun e => e != (w, r, l) }).detected w .rfParity 0 (r % 2 ^ 8 + l.val * 2 ^ 8) ⟨7, 0, x.site + s.physLane x l * 2 ^ 8, 0, 0, 0⟩
        | none =>
          let y := (x.ls.drain false).unstage
          let outs := if y.outs.all Outst.done then [] else y.outs.map fun o => { o with age := max o.age 8 }
          s.putWave w ({ x with ls := { y with tickets := y.tickets.tail, blk := Blk.none, prods := [], outs := outs } }.ticketDone))

/-- An outstanding L-op that has nothing left to do is complete: its counter falls by 1 (R76). -/
def LStream.finish (x : LStream) (k : Nat) : LStream :=
  match x.outs[k]? with
  | none => x
  | some o =>
    if o.done || o.mask != 0 || o.parked != 0 || o.remote != 0 then x
    else
      let w := match o.cnt with
        | none => x.w
        | some c => x.w.set c (x.w[c] - 1)
      { x with outs := modAt x.outs k fun q => { q with done := true }, w := w }

/-- Lanes of registers in window results that a write completing later takes over (R78). -/
def LStream.supersede (x : LStream) (regs : List Nat) (m : Mask) (p : WinEnt → Bool) : LStream :=
  { x with win := x.win.map fun e => if regs.contains e.reg && p e then { e with mask := e.mask &&& ~~~m } else e }

/-- A load's data or a ray's record are written: they enter the window with the age of the L-op, or are committed when eight later
L-ops have issued and when the block has ended (R72, R299). They stand against an earlier result, and against the result of
any L-op that issued before they came (R78). -/
def LStream.returnData (x : LStream) (k : Nat) : LStream :=
  match x.outs[k]? with
  | none => x
  | some o =>
    let direct := decide (8 ≤ o.age) || x.blk.phase == .ended || x.blk.phase == .none
    let regs := o.regs.map fun e => e.1
    let y :=
      if o.mask = 0 then x
      else if direct then
        (if o.lud then x else o.regs.foldl (fun z e => z.commit e.1 o.mask e.2) (x.supersede regs o.mask fun _ => true))
      else
        let z := if o.lud then x else x.supersede regs o.mask fun e => e.side == o.side && decide (e.age < o.age)
        { z with win := (o.regs.map fun e => (⟨e.1, o.side, e.2, o.mask, if o.lud then o.mask else 0, o.age, 0⟩ : WinEnt)) ++ z.win }
    ({ y with outs := modAt y.outs k fun q => { q with mask := 0 } }).finish k

/-- LOAD_DATA_RETURN (R76, R78). -/
def execLoadDataReturn (w i : Nat) (s : State) : Result :=
  .next (match s.waves[w]? with
    | none => s
    | some x =>
      match x.ls.outs[i]? with
      | none => s
      | some o =>
        if x.st != .resident || !o.load || o.done then s
        else (s.settleAny w i).modWave w fun y => { y with ls := y.ls.returnData i })

/-- STORE_PERFORMED (R37, R76). -/
def execStorePerformed (w i : Nat) (s : State) : Result :=
  .next (match s.waves[w]? with
    | none => s
    | some x =>
      match x.ls.outs[i]? with
      | none => s
      | some o =>
        if x.st != .resident || o.load || o.done then s
        else (s.settleOut w i).modWave w fun y => { y with ls := y.ls.finish i })

/-! ## Register blocks (R62) -/

/-- REGX_GRANT: the oldest request of a core is granted, when the free count covers it. -/
def execRegxGrant (core : Nat) (s : State) : Result :=
  .next (match s.grantsOf core with
    | [] => s
    | i :: rest =>
      match s.waves[i]? with
      | none => s.modCore core fun c => { c with grants := rest }
      | some w =>
        match w.ss.acquire with
        | none => s.modCore core fun c => { c with grants := rest }
        | some k =>
          if s.covers w k then (s.putWave i (w.grant k)).modCore core fun c => { c with grants := rest } else s)

/-! ## Stalls (R40, R236, R245, R299, R305, R317) -/

/-- A precise trap of the S-op group that waits. -/
def State.trapWaiting (s : State) (i : Nat) (w : Wave) (t : Trap) : State :=
  (s.putWave i { w with ss := { w.ss with waitS := none } }).take i .s t w.ss.pc
    { strm := .s, imprecise := false, nextPc := w.ss.pc + 4 * w.ss.waitLen + 4, sysc := none, lhdr := false, pc := w.ss.pc }

/-- The lane stream stands at an L-op that needs an entry of a full result queue: both its sides wait (R38). -/
def LStream.full (x : LStream) : Bool := decide (8 ≤ x.results.length) && (x.waitA == some .result || x.waitB == some .result)

/-- The scalar stream waits for the lane stream: for a place in a full ticket queue, or for tickets to complete (R35, R39, R42). -/
def Wave.sWaits (w : Wave) : Bool :=
  (w.ss.waitS == some .ticket && decide (8 ≤ w.ls.tickets.length)) || (w.ss.waitS == some .join && !w.joined)

/-- STREAM_DEADLOCK: the S-stream waits for the lane stream, and the lane stream on a full result queue (R40). A full queue has an
entry for an SPOP. -/
def execStreamDeadlock (w : Nat) (s : State) : Result :=
  .next (match s.runner w with
    | none => s
    | some x =>
      if x.sWaits && x.ls.full && !x.priv.handler then s.trapWaiting w x (.of .streamDeadlock) else s)

/-- The limit of R236: 2^PSTALL cycles. -/
def State.stallLimit (s : State) (w : Wave) : Nat := 2 ^ (s.ctxOf w).pstall

/-- Cycles that a side, or the S-stream, has waited. -/
def State.waited (s : State) (w : Wave) (strm : Strm) : Nat :=
  s.cyclesOf w.core - (match strm with
    | .s => w.ss.sinceS
    | .l d => w.ls.since d)

/-- A side has waited for a reason as long as the limit allows: its trap. -/
def State.stallSide (s : State) (i : Nat) (d : Side) (why : Wait) (t : Wave → Nat → Trap) : State :=
  match s.runner i with
  | none => s
  | some w =>
    let n := s.waited w (.l d)
    if w.ls.wait? d != some why || w.priv.handler || decide (n < s.stallLimit w) then s
    else
      match w.ls.side? d with
      | none => s
      | some p =>
        (s.putWave i { w with arrival := if why == .bond then none else w.arrival }).trapL i d (t w n) p.pc false

/-- PORT_STALL (R236). -/
def execPortStall (w : Nat) (side : Side) (s : State) : Result :=
  .next (s.stallSide w side .port fun _ n => .aux_ .portStall n)

/-- BOND_STALL (R245): the report is the bond value in use. -/
def execBondStall (w : Nat) (side : Side) (s : State) : Result :=
  .next (s.stallSide w side .bond fun x _ => .aux_ .bondStall x.ls.ticket.bond.toNat)

/-- TRAV_STALL (R299). -/
def execTravStall (w : Nat) (side : Side) (s : State) : Result :=
  .next (s.stallSide w side .trav fun _ n => .aux_ .travStall n)

/-- JOB_STALL (R305, R473): the offer that no entry has taken is withdrawn. -/
def execJobStall (w : Nat) (strm : Strm) (s : State) : Result :=
  .next (match s.runner w with
    | none => s
    | some x =>
      if ((s.offerOf w strm).map Offer.accepted).getD false then s
      else
        match strm with
        | .l d =>
          if x.ls.wait? d == some .job && decide (s.stallLimit x ≤ s.waited x (.l d)) && !x.priv.handler then
            (s.dropOffer w strm).stallSide w d .job fun _ n => .aux_ .jobStall n
          else s
        | .s =>
          let n := s.waited x .s
          if x.ss.waitS != some .job || x.priv.handler || decide (n < s.stallLimit x) then s
          else (s.dropOffer w .s).trapWaiting w x (.aux_ .jobStall n))

/-- CWAIT_STALL (R317), with or without .y. -/
def execCwaitStall (w : Nat) (s : State) : Result :=
  .next (match s.runner w with
    | none => s
    | some x =>
      let n := s.waited x .s
      if x.ss.waitS != some .cwait || x.priv.handler || decide (n < s.stallLimit x) then s
      else s.trapWaiting w { x with ss := { x.ss with yielded := none } } (.aux_ .cwaitStall n))

/-! ## Yields (R178, R318) -/

/-- YIELD_EXPIRY: the cycles of a YIELD have passed (R178). -/
def execYieldExpiry (w : Nat) (s : State) : Result :=
  .next (match s.waves[w]? with
    | none => s
    | some x =>
      if s.cyclesOf x.core - x.ss.yieldAt < x.ss.yieldN then s else s.putWave w { x with ss := { x.ss with yieldN := 0 } })

/-- YIELDED_WAVE_REACTIVATE: the condition of a CWAIT .y holds; the wave goes on at the continuation (R318). -/
def execYieldedWaveReactivate (w : Nat) (s : State) : Result :=
  .next (match s.runner w with
    | none => s
    | some x =>
      match x.ss.yielded with
      | none => s
      | some y =>
        if x.priv.handler || !s.cwaitHolds x y.tags y.any y.first y.mask then s
        else (s.putWave w ({ x with ss := { x.ss with yielded := none } }.goTo y.target)).countIssue x.team)

/-! ## Imprecise traps (R347, R348, R350, R472) -/

/-- The S-op that waits is withdrawn and issues afresh (R365, R472). -/
def Wave.standBack (w : Wave) : Wave :=
  { w with ss := { w.ss with begun := none, acquire := none, yielded := none, waitS := none },
           region := w.region.map fun g => { g with ended := none } }

/-- Withdraw what a wave's waiting S-op has asked for. -/
def State.standBack (s : State) (i : Nat) (w : Wave) : State :=
  ((s.putWave i w.standBack).withdraw i w.core).dropOffer i .s

/-- The fields of a held report as it is delivered: SKID counts the cycles since the event (R472). -/
def Imp.aux_ (p : Imp) (now : Nat) : Nat :=
  if p.cause = .watchEngine then p.aux.toNat + min (2 ^ 24 - 1) (now - p.since) * 2 ^ 24 else p.aux.toNat

/-- IMPRECISE_TRAP_DELIVERY: the oldest held trap, at an S-op group boundary of user level. -/
def execImpreciseTrapDelivery (w : Nat) (s : State) : Result :=
  .next (match s.runner w with
    | none => s
    | some x =>
      match x.priv.held with
      | [] => s
      | p :: rest =>
        -- a wave rolled back that waits for its blocks has not resumed (R474)
        let busy := x.priv.handler || x.ss.parkS.isSome || (x.ss.acquire.isSome && x.ss.waitS.isNone) || ((s.offerOf w .s).map Offer.accepted).getD false
        if busy || !(s.ctxOf x).hen then s
        else
          let s1 := s.standBack w x
          match s1.waves[w]? with
          | none => s1
          | some y =>
            let t : Trap := ⟨p.cause, p.va.toNat, p.aux_ (s.cyclesOf x.core), 0⟩
            let tc : TrapCtx := { strm := .s, imprecise := true, nextPc := y.ss.pc, sysc := none, lhdr := false, pc := y.ss.pc }
            s1.putWave w (({ y with priv := { y.priv with held := rest } }).enter (s.ctxOf x) .s true t y.ss.pc tc))

/-! ## Lines of an L1 (R109, R227) -/

/-- Send one line of a core's L1 home. -/
def State.sendLine (s : State) (core k : Nat) (gathers : Bool) : State :=
  match (s.cores[core]?).bind fun c => c.l1[k]? with
  | none => s
  | some x =>
    if x.gather.isSome == gathers then s.flush core fun y => y.part == x.part && y.asid == x.asid && y.line == x.line else s

/-- NONGREEN_WRITEBACK_TIMEOUT: a line written in an L1 goes to its home slice (R109). -/
def execNongreenWritebackTimeout (core line : Nat) (s : State) : Result := .next (s.sendLine core line false)

/-- GATHER_LINE_TIMEOUT: a gathering line's partial results are applied (R227). -/
def execGatherLineTimeout (core line : Nat) (s : State) : Result := .next (s.sendLine core line true)

end Sys2Proof.Machine
end

