-- ==== Sys2Proof/Machine/EngineEvents.lean ====
section
/-!
DEFINITION. The steps of the engines: acceptance and completion of jobs (spec/12 R305, R307, R314; spec/10 R240), cures (R321),
and the walks of the traversal units with the input hods that they consume (spec/11 R290, R297; spec/17 R381).
-/

namespace Sys2Proof.Machine

/-- JOB_ACCEPT: the job that a stream offers finds its entries (R307, R473). -/
def execJobAccept (w : Nat) (strm : Strm) (s : State) : Result :=
  .next (match s.runner w with
    | none => s
    | some x => if x.priv.handler then s else s.tryAccept w strm)

/-- COPY_CHUNK_LANDED: every byte that a load writes in a chunk has been written (R314). -/
def execCopyChunkLanded (j k : Nat) (s : State) : Result := .next (s.runCopy j (some k))

/-- COPY_JOB_COMPLETE (R305, R311). -/
def execCopyJobComplete (j : Nat) (s : State) : Result := .next (s.runCopy j none)

/-- MATRIX_JOB_COMPLETE (R247 to R266). -/
def execMatrixJobComplete (j : Nat) (s : State) : Result := .next (s.runMatrix j)

/-- REGION_CURE (R321). -/
def execRegionCure (w : Nat) (s : State) : Result := .next (s.tryCure w)

/-! ## Rays (R282, R290, R304) -/

/-- A ray of a saved wave stands still, and one of a wave whose team is being saved stops at its next visit boundary (R304,
R365). -/
def State.rayRuns (s : State) (r : Ray) : Bool :=
  match r.wave.bind fun i => s.waves[i]? with
  | none => true
  | some w => w.st != .saved &&
      (w.gone || !r.between || ((s.teamOf w).map fun t => t.st == .resident && !t.saving).getD true)

/-- RAY_NODE_FETCH: a running ray makes its next visit. -/
def execRayNodeFetch (r : Nat) (s : State) : Result :=
  .next (match s.rays[r]? with
    | none => s
    | some x => if s.rayRuns x then s.stepRay r else s)

/-- The ray of an input record (R297). The length of its slice is not given: a free multiple of 64 (notes/assumptions/6.md). -/
def inputRay (core : Nat) (ctx : BitVec 16) (team handle out : Nat) (bs : List Byte) (free : Nat) : Ray :=
  let f (k : Nat) : DWord := BitVec.ofNat 64 (numLE ((bs.drop (8 * k)).take 8))
  let r := Ray.start core ctx none 0 team handle f (f 8).toNat ((f 9).setWidth 32) (f 10)
  { r.logTo (f 11 != 0) (f 11).toNat (64 * (1 + (Config.freeWord free).toNat % 1024)) with hod := some out }

/-- A fault that a ring of a partition has met waits for its answer (R402). -/
def State.ringHeld (s : State) (part base : Nat) : Bool :=
  s.mem.faults.any fun f => f.part == part && f.holder == .ring base && !f.answered

/-- A ring that a unit or an engine reads faults: Dorzin passes the fault on, and the ring waits for the answer (R401). -/
def State.ringFault (s : State) (v : Via) (ctx : BitVec 16) (base va : Nat) (f : XFault) (write : Bool) : State :=
  if f.fatal then s else (s.faultRecord v.part v.asid ctx (.ring base) f va write false).1

/-- RAY_HOD_TAKE: a traversal unit of a core that holds a team of the grid takes a record of the input hod, while it has a free
slot (R297, R381). A poisoned record gives a ray that ends with POISON. -/
def execRayHodTake (core g : Nat) (s : State) : Result :=
  .next (match s.grids[g]? with
    | none => s
    | some x =>
      let held := s.teams.findIdx? fun t => t.grid == g && t.st == .resident && (t.core == core || ((x.launch.pair || decide (32 < x.launch.waves)) && t.core + 1 == core))
      match held, x.launch.hods[x.launch.inhod]? with
      | some t, some h =>
        if !x.launch.bind || x.complete || s.ringHeld (s.context x.ctx).part h.base ||
            (!s.taking core && decide (2047 ≤ s.slotsUsed core)) then s
        else
          let c := s.context x.ctx
          let v : Via := ⟨c.part, c.asid, core⟩
          match s.hodTake (unitAsker core g) v h with
          | .ok (s1, some (_, bs, bad)) =>
            let handle := s1.handleFrom core 2047 (Config.freeWord s1.free).toNat
            let r := inputRay core x.ctx t handle x.launch.outhod bs (s1.free + 1)
            { s1 with rays := s1.rays ++ [if bad then r.come .ended 6 0 0 else r], free := s1.free + 2 }
          | .ok (s1, none) => s1
          | .error (z, .fault va f write) => z.ringFault v x.ctx h.base va f write
          | .error (z, _) => z
      | _, _ => s)

end Sys2Proof.Machine
end

