-- ==== Sys2Proof/Machine/Launch.lean ====
section
/-!
DEFINITION. Launch queues and launch records (spec/17 R370 to R375, R380, R381, R387, R390): kicks, the scan of a queue, the
checks of a record, its shape bucket, and the journal.
-/

namespace Sys2Proof.Machine

/-! ## Dorzin's own accesses -/

/-- Read bytes of a context's memory for Dorzin (R401): nothing where a byte is not translated to memory of this device or is
poisoned. -/
def State.systemRead (s : State) (c : Context) (va n : Nat) : Option (List Byte) :=
  ((sectors va n).mapM fun k =>
    let lo := max va (64 * k)
    match s.systemAt c lo false with
    | .error _ => none
    | .ok p =>
      if p.near && !s.mem.poisoned p then
        some ((List.range (min (va + n) (64 * k + 64) - lo)).map fun i => s.mem.byte (p.add i))
      else none).map List.flatten

/-- Write bytes of a context's memory for Dorzin. -/
def State.systemWrite (s : State) (c : Context) (va : Nat) (bs : List Byte) : State := s.deviceWrite c.part c.asid c.id va bs

def State.modDorzin (s : State) (f : Dorzin → Dorzin) : State := { s with sys := { s.sys with dorzin := f s.sys.dorzin } }

/-- Kinds of journal entries (R390): the spec names them and gives no codes (notes/assumptions/2.md). -/
def jAccept : Nat := 0
def jPlace : Nat := 1
def jPreempt : Nat := 2
def jResume : Nat := 3
def jDone : Nat := 4

/-- The words of an entry: sequence number; kind, queue and team index; launch sequence number; scheduler count. The place of a
PREEMPT's choice, [53:52] of the second, is the model's (notes/assumptions/29.md). -/
def JEnt.of (seq kind queue team launch count choice : Nat) : JEnt :=
  ⟨#v[BitVec.ofNat 64 seq, BitVec.ofNat 64 (kind + queue % 2 ^ 12 * 2 ^ 8 + team % 2 ^ 32 * 2 ^ 20 + choice * 2 ^ 52),
      BitVec.ofNat 64 launch, BitVec.ofNat 64 count]⟩

def JEnt.seq (e : JEnt) : Nat := e.words[0].toNat
def JEnt.kind (e : JEnt) : Nat := field e.words[1].toNat 0 8
def JEnt.queue (e : JEnt) : Nat := field e.words[1].toNat 8 12
def JEnt.team (e : JEnt) : Nat := field e.words[1].toNat 20 32
def JEnt.choice (e : JEnt) : Nat := field e.words[1].toNat 52 2
def JEnt.launch (e : JEnt) : Nat := e.words[2].toNat
def JEnt.count (e : JEnt) : Nat := e.words[3].toNat

/-- Append an entry to the journal: a ring of 65,536 entries (R390). -/
def State.journal (s : State) (kind queue team launch : Nat) (choice : Nat := 0) : State :=
  s.modDorzin fun d =>
    let seq := ((d.journal.getLast?).map fun e => e.seq + 1).getD 0
    { d with journal := ring 65536 (d.journal ++ [JEnt.of seq kind queue team launch d.count choice]) }

/-- Dorzin schedules: the active core runs, or the standby has taken over (R391). -/
def Dorzin.runs (d : Dorzin) : Bool := !d.failed || d.takenOver

/-! ## Queues (R370 to R372) -/

/-- A queue descriptor. -/
structure Queue where
  ring : Nat
  log2 : Nat
  tail : Nat
  head : Nat
  ctx : BitVec 16
  minclass : Nat
  vec : Nat
  ien : Bool
  enable : Bool
  deriving DecidableEq, Repr

/-- Physical address of a queue's descriptor. -/
def State.queueAt (s : State) (q : Nat) : Nat := s.sys.dorzin.qtab + 32 * q

def State.queue (s : State) (q : Nat) : Queue :=
  let w (o : Nat) : Nat := s.mem.word (s.queueAt q + o) 8
  let d := w 0x18
  { ring := field (w 0) 0 56, log2 := field (w 0) 56 4, tail := w 8, head := w 0x10, ctx := BitVec.ofNat 16 d,
    minclass := field d 16 2, vec := field d 18 11, ien := bitOf d 29, enable := bitOf d 63 }

/-- Dorzin writes a word of a descriptor. -/
def State.putQueue (s : State) (q o x : Nat) : State :=
  let p := Loc.hbm (s.queueAt q + o)
  let s1 := s.recall p.line
  { s1 with mem := s1.mem.putBytes p (bytesLE 8 x) }

/-- LAUNCH_KICK (R371): the reserved bits are ignored (R6), and the write itself before ROM_DONE (R464). -/
def execLaunchKick (v : Word) (s : State) : Result :=
  let q := field v.toNat 0 12
  .next (if !s.sys.rst.romDone then s else s.modDorzin fun d => { d with kicks := if d.kicks.contains q then d.kicks else d.kicks ++ [q] })

/-! ## Launch records (R373, R374) -/

/-- A field of a record: n bytes at an offset. -/
def recField (bs : List Byte) (o n : Nat) : Nat := numLE ((bs.drop o).take n)

def recZero (bs : List Byte) (o n : Nat) : Bool := ((bs.drop o).take n).all fun b => b == 0

/-- The team spans a core pair (R27). -/
def Launch.paired (l : Launch) : Bool := l.pair || decide (32 < l.waves)

/-- The fields of a launch record before its tables are read. -/
def launchFields (bs : List Byte) : Launch :=
  let w := recField bs 0 8
  let h := recField bs 0x58 8
  { Launch.empty with
    cls := field w 0 2, twin := bitOf w 2, pair := bitOf w 3, cluster := field w 4 4, resext := bitOf w 8,
    waves := field w 9 6 + 1, regs := field w 15 3 + 1, scratch := field w 18 12, acc := field w 30 7, wbuf := field w 37 8,
    argbase := recField bs 0x08 8, sbase := recField bs 0x10 8, ssize := recField bs 0x18 8, lbase := recField bs 0x20 8,
    lsize := recField bs 0x28 8, inhod := field h 8 6, outhod := field h 16 6, bind := bitOf h 24,
    comprec := recField bs 0x60 8, sigaddr := recField bs 0x68 8, expect := recField bs 0x70 8, s0 := recField bs 0x80 4 }

/-- The limits of R373 hold of the fixed fields, and every byte that is not listed is 0. -/
def launchOk (bs : List Byte) (l : Launch) : Bool :=
  let w := recField bs 0 8
  let h := recField bs 0x58 8
  let args := field w 45 9
  let small (x : Nat) : Bool := decide (x < 2 ^ 56)
  let nb := recField bs 0x78 8
  field w 54 10 == 0 && decide (l.scratch ≤ 3072) && decide (l.acc ≤ 64) && decide (l.wbuf ≤ 128) &&
  decide (1 ≤ args) && decide (args ≤ 256) && l.cluster != 1 && decide (l.cluster ≤ if l.paired then 4 else 8) &&
  small l.argbase && small l.sbase && small l.ssize && small l.lbase && small l.lsize &&
  l.argbase % 256 == 0 && l.sbase % 4096 == 0 && l.lbase % 4096 == 0 &&
  recField bs 0x30 8 % 128 == 0 && decide (recField bs 0x38 8 ≤ 256) && recField bs 0x40 8 % 8 == 0 &&
  decide (recField bs 0x48 8 ≤ 320) && recField bs 0x50 8 % 64 == 0 && decide (field h 0 7 ≤ 64) && field h 7 1 == 0 &&
  field h 14 2 == 0 && field h 22 2 == 0 && field h 25 39 == 0 && l.comprec % 64 == 0 && l.sigaddr % 8 == 0 &&
  small l.comprec && small l.sigaddr && decide (1 ≤ nb) && decide (nb ≤ 8) &&
  (List.range 4).all (fun k => recZero bs (0x84 + 8 * k) 4) && recZero bs 0xA0 0x60 &&
  (List.range nb).all (fun b => recField bs (0x120 + 64 * b) 8 % 4 == 0 && recZero bs (0x128 + 64 * b) 24) && recZero bs 0x300 0x100

/-- A region table entry (R374): the bits of its ranges that are stated zero are zero, and its limits hold. The bits beside NRANGE are
reserved, and ignored (R4). -/
def regionEntry (bs : List Byte) : Option RegEnt :=
  let n := field (recField bs 8 8) 0 4
  let rs := (List.range n).map fun k => recField bs (0x10 + 8 * k) 8
  if 14 < n then none
  else if rs.any fun r => field r 17 7 != 0 || field r 0 16 % 8 != 0 then none
  else some ⟨recField bs 0 4, recField bs 4 4, rs.map fun r => (field r 0 16, bitOf r 16, field r 24 40)⟩

/-- An edge record (R230), refused by R231. -/
def edgeEntry (waves x : Nat) : Option Edge :=
  let port : Option Port := match field x 16 3 with
    | 0 => some .xe
    | 1 => some .xw
    | 2 => some .xn
    | 3 => some .xs
    | 4 => some .xf
    | _ => none
  if field x 40 24 != 0 || field x 19 5 != 0 || field x 14 2 != 0 || field x 6 2 != 0 then none
  else if waves ≤ field x 8 6 || waves ≤ field x 0 6 then none
  else port.map fun p => ⟨field x 0 6, p, field x 8 6, sfield x 24 16⟩

/-- No port of a wave is named twice (R231). -/
def edgesOk (es : List Edge) : Bool :=
  let ends := es.flatMap fun e => [64 * e.wa + (Port.ix e.port).val, 64 * e.wb + (Port.ix (Port.opp e.port)).val]
  (dedup ends).length == ends.length

/-- A hod table entry (R380). -/
def hodEntry (bs : List Byte) : Option Hod :=
  let b := recField bs 0 8
  let w := recField bs 8 8
  if 2 ^ 56 ≤ b || b % 4096 != 0 || field w 5 3 != 0 || field w 9 55 != 0 || field w 0 5 < 4 || 16 < field w 0 5 || !recZero bs 16 48
  then none else some ⟨b, field w 0 5, bitOf w 8⟩

/-- Read a table of n entries of a context's memory. -/
def State.readTable {α : Type} (s : State) (c : Context) (at_ size n : Nat) (f : List Byte → Option α) : Option (List α) :=
  (List.range n).mapM fun k => (s.systemRead c (at_ + size * k) size).bind f

/-- The record with the tables that it names: none where a table cannot be read or breaks its rules. -/
def State.launchTables (s : State) (c : Context) (bs : List Byte) (l : Launch) : Option Launch := do
  let regions ← s.readTable c (recField bs 0x30 8) 128 (recField bs 0x38 8) regionEntry
  let edges ← s.readTable c (recField bs 0x40 8) 8 (recField bs 0x48 8) fun b => edgeEntry l.waves (numLE b)
  let hods ← s.readTable c (recField bs 0x50 8) 64 (field (recField bs 0x58 8) 0 7) hodEntry
  let kind (n : Nat) (out : Bool) : Bool := ((hods[n]?).map fun h => h.output == out).getD false
  if !edgesOk edges || (l.bind && !(kind l.inhod false && kind l.outhod true)) then none
  else some { l with regions := regions, edges := edges, hods := hods }

/-- The first bucket that the shape values match, with its entry and grid size (R375). -/
def pickBucket (bs : List Byte) (l : Launch) : Option Launch :=
  let matches_ (b : Nat) : Bool := (List.range 4).all fun k =>
    let r := recField bs (0x100 + 64 * b + 8 * k) 8
    let x := recField bs (0x80 + 8 * k) 4
    decide (field r 0 32 ≤ x) && decide (x ≤ field r 32 32)
  ((List.range (recField bs 0x78 8)).find? matches_).map fun b =>
    let hi := field (recField bs (0x100 + 64 * b) 8) 32 32
    { l with bucket := b, entry := recField bs (0x120 + 64 * b) 8, size := (hi + 32 * l.waves - 1) / (32 * l.waves) }

/-- Teams that are started: the others are of padding only, and so is their cluster (R375). -/
def Launch.started (l : Launch) : Nat :=
  let n := (l.s0 + 32 * l.waves - 1) / (32 * l.waves)
  min l.size (if l.cluster = 0 then n else (n + l.cluster - 1) / l.cluster * l.cluster)

/-- Bytes of a team image without ray slots and green sectors (R360): it lies in one save slot. -/
def Launch.imageSize (l : Launch) : Nat :=
  let up (x : Nat) : Nat := (x + 4095) / 4096 * 4096
  let k := if l.paired then 2 else 1
  0x820000 + up (k * 512 * l.scratch) + k * 4096 * (l.acc + l.wbuf)

/-- The declared save size of a team (R382). -/
def Launch.saveSize (l : Launch) : Nat :=
  4096 + l.waves * (24576 + 4096 * l.regs) + (512 * l.scratch + 4096 * (l.acc + l.wbuf)) * (if l.paired then 2 else 1)

end Sys2Proof.Machine
end

