-- ==== Sys2Proof/Machine/Placing.lean ====
section
/-!
DEFINITION. Placement (spec/17 R376 to R378; spec/02 R26 to R31): the resources of cores, the constraints of a group, the state
of a team and of a wave at its start, and TEAM_PLACEMENT.
-/

namespace Sys2Proof.Machine

/-! ## What a team asks of a core -/

/-- A team copy that looks for a place: its waves that take a slot, each with the extension blocks it holds. -/
structure Want where
  grid : Nat
  idx : Nat
  twin : Bool
  launch : Launch
  ctx : BitVec 16
  waves : List (Nat × Nat)
  deriving DecidableEq, Repr

/-- A want and the core it has been given: the even core for a pair. -/
abbrev Placed := Want × Nat

/-- A team's half on a core is the one of waves 32 and above. -/
def oddHalf (l : Launch) (at_ core : Nat) : Bool := l.paired && core != at_

/-- The cores that a team placed at a core takes (R27). -/
def coresOf (l : Launch) (at_ : Nat) : List Nat := if l.paired then [at_, at_ + 1] else [at_]

/-- The waves that a placed want has on a core. -/
def Want.on (x : Placed) (core : Nat) : List (Nat × Nat) :=
  if !(coresOf x.1.launch x.2).contains core then []
  else x.1.waves.filter fun w => !x.1.launch.paired || (decide (32 ≤ w.1) == oddHalf x.1.launch x.2 core)

/-- The quarter of a wave on a core: dealt over the quarters that are not retired (R28). -/
def State.quarterFor (s : State) (core num : Nat) : Option Nat :=
  let gone := ((s.cores[core]?).map Core.retired).getD []
  let qs := (List.finRange 4).filter fun q => !gone.contains q
  (qs[num % 32 % qs.length]?).map fun q => q.val

/-- Teams, beside a list, that have their place on a core. -/
def State.teamsOn (s : State) (out : List Nat) (core : Nat) : List Team :=
  ((indexed s.teams).filter fun e =>
    e.2.placed && !out.contains e.1 &&
      (coresOf (((s.grids[e.2.grid]?).map Grid.launch).getD Launch.empty) e.2.core).contains core).map fun e => e.2

/-- Waves, beside those of a list of teams, that have their place on a core. -/
def State.wavesOn (s : State) (out : List Nat) (core : Nat) : List Wave :=
  s.waves.filter fun w => w.core == core && s.placedWave w && !out.contains w.team

def State.launchAt (s : State) (g : Nat) : Launch := ((s.grids[g]?).map Grid.launch).getD Launch.empty

def sumOf (l : List Nat) : Nat := l.foldl (· + ·) 0

/-- A core's resources cover what stands on it and the wants placed on it (R15, R28, R62, R239, R376). -/
def State.covered (s : State) (out : List Nat) (ps : List Placed) (core : Nat) : Bool :=
  let here := ps.filter fun x => (coresOf x.1.launch x.2).contains core
  let ls := (s.teamsOn out core).map (fun t => s.launchAt t.grid) ++ here.map fun x => x.1.launch
  let new := here.flatMap fun x => Want.on x core
  let old := s.wavesOn out core
  let quarters := new.map fun w => s.quarterFor core w.1
  quarters.all Option.isSome &&
  (List.range 4).all (fun q => decide ((old.filter fun w => w.quarter == q).length + (quarters.filter (· == some q)).length ≤ 128)) &&
  decide (sumOf (ls.map Launch.scratch) ≤ 3072) && decide (sumOf (ls.map Launch.acc) ≤ 64) && decide (sumOf (ls.map Launch.wbuf) ≤ 128) &&
  decide (sumOf (old.map fun w => if s.reserves w then (s.launchOf w).regs - 1 else w.ss.blocks) + sumOf (new.map Prod.snd) ≤ 512)

/-- A context has an enabled watchpoint. -/
def Context.watched (c : Context) : Bool := c.watch.toList.any fun wp => wp.2.getLsbD 63

/-- A core may take a team of a context and class: it is of the partition, takes placements (R386, R426), holds no other
context's watchpoints (R470), and a reserved core takes small images only (R377). -/
def State.open_ (s : State) (out : List Nat) (a : Want) (core : Nat) : Bool :=
  let c := s.context a.ctx
  let p := (s.sys.parts.toList[c.part]?).getD Partition.reset
  let here := s.teamsOn out core
  decide (core < 64) && p.bays.getLsbD (core / 8) && !here.any Team.draining &&
  !(s.sys.health.laneWaits.any fun e => field e.toNat 43 9 / 4 == core) &&
  (a.launch.cls == 0 || !p.rsv.getLsbD core || decide (a.launch.saveSize ≤ 2621440)) &&
  (!c.watched || !here.any fun t =>
    let id := ((s.grids[t.grid]?).map Grid.ctx).getD 0
    id != a.ctx && (s.context id).watched)

/-- A want may stand at a core beside the wants placed before it (R27, R29, R325, R376, R377). -/
def State.fits (s : State) (out : List Nat) (ps : List Placed) (a : Want) (core : Nat) : Bool :=
  let cs := coresOf a.launch core
  let mates := ps.filter fun x => x.1.grid == a.grid && x.1.twin == a.twin && a.launch.cluster != 0 &&
    x.1.idx / a.launch.cluster == a.idx / a.launch.cluster
  let twins := ps.filter fun x => x.1.grid == a.grid && x.1.twin != a.twin && x.1.idx == a.idx
  (!a.launch.paired || core % 2 == 0) && cs.all (s.open_ out a) && cs.all (s.covered out (ps ++ [(a, core)])) &&
  mates.all (fun x => x.2 / 8 == core / 8 && (coresOf x.1.launch x.2).all fun k => !cs.contains k) && twins.all fun x => x.2 / 8 != core / 8

/-- A place for each want, if there is one: every choice is tried. -/
def findPlaces (ok : List Placed → Want → Nat → Bool) : List Want → List Placed → Option (List Placed)
  | [], ps => some ps
  | a :: as, ps => (List.range 64).findSome? fun core => if ok ps a core then findPlaces ok as (ps ++ [(a, core)]) else none

/-- Given places are a choice that findPlaces may make. -/
def placesOk (ok : List Placed → Want → Nat → Bool) : List Placed → List Placed → Bool
  | [], _ => true
  | x :: xs, ps => ok ps x.1 x.2 && placesOk ok xs (ps ++ [x])

/-! ## Groups of a launch (R377) -/

/-- Teams of a launch that are placed together with one of its teams. -/
def Launch.partners (l : Launch) (i : Nat) : List Nat :=
  ((if l.cluster = 0 then [] else (List.range l.cluster).map (i / l.cluster * l.cluster + ·)) ++
    l.edges.flatMap fun e => [((i : Int) + e.dt), ((i : Int) - e.dt)].filterMap fun j => if j < 0 then none else some j.toNat).filter
      fun j => decide (j < l.started)

def insertSorted (x : Nat) : List Nat → List Nat
  | [] => [x]
  | y :: ys => if x ≤ y then x :: y :: ys else y :: insertSorted x ys

def sorted (l : List Nat) : List Nat := l.foldr insertSorted []

/-- The group of a team in its launch, ascending. -/
def Launch.group (l : Launch) (i : Nat) : List Nat := sorted (close l.partners l.started [i])

/-- The wants of teams of a launch that start: both copies in a twin grid (R325). -/
def startWants (g : Nat) (ctx : BitVec 16) (l : Launch) (idxs : List Nat) : List Want :=
  let ws := (List.range l.waves).map fun w => (w, if l.resext then l.regs - 1 else 0)
  idxs.flatMap fun i => (if l.twin then [false, true] else [false]).map fun t => ⟨g, i, t, l, ctx, ws⟩

/-- The machine with no team in it: what "could not be placed in the empty partition" looks at. -/
def State.emptied (s : State) : State :=
  { s with teams := s.teams.map (fun t => { t with st := .stopped }), sys := { s.sys with health := { s.sys.health with laneWaits := [] } } }

/-- Every group of a launch has a place in the empty partition (R377). -/
def State.placeable (s : State) (ctx : BitVec 16) (l : Launch) : Bool :=
  let e := s.emptied
  let heads := if l.edges.any fun x => x.dt != 0 then List.range l.started else List.range (min 1 l.started)
  heads.all fun i =>
    let ws := startWants s.grids.length ctx l (l.group i)
    decide (ws.length ≤ (s.context ctx).nslot) && (findPlaces (e.fits []) ws []).isSome

/-! ## Order (R378, R421) -/

/-- A team copy of a grid exists. -/
def State.started? (s : State) (g idx : Nat) : Bool := s.teams.any fun t => t.grid == g && t.idx == idx

/-- The first team of a grid that is still to be placed. -/
def State.pending (s : State) (g : Nat) : Option Nat :=
  match s.grids[g]? with
  | none => none
  | some x => if x.ending || x.complete then none else (List.range x.launch.started).find? fun i => !s.started? g i

/-- Save slots of a context that are free (R369). -/
def State.freeSlots (s : State) (ctx : BitVec 16) : List Nat :=
  let used := s.teams.filterMap fun t =>
    if ((s.grids[t.grid]?).map Grid.ctx) == some ctx && t.st != .retired && t.st != .stopped then some t.slot else none
  (List.range (s.context ctx).nslot).filter fun k => !used.contains k

/-- The partition of a grid. -/
def State.partOf (s : State) (g : Nat) : Nat := (s.context (((s.grids[g]?).map Grid.ctx).getD 0)).part

/-- The wants of the group that a grid starts next. -/
def State.nextWants (s : State) (g : Nat) : List Want :=
  match s.grids[g]?, s.pending g with
  | some x, some i => startWants g x.ctx x.launch (x.launch.group i)
  | _, _ => []

/-- The group that a grid starts next has a place now. -/
def State.canPlace (s : State) (g : Nat) : Bool :=
  let ws := s.nextWants g
  decide (ws.length ≤ (s.freeSlots (((s.grids[g]?).map Grid.ctx).getD 0)).length) && (findPlaces (s.fits []) ws []).isSome

/-- Launch a comes before launch b: class, then sequence (R378). -/
def Grid.before (a b : Grid) : Bool := decide (a.launch.cls < b.launch.cls) || (a.launch.cls == b.launch.cls && decide (a.seq < b.seq))

/-- No launch before a grid has a pending team that could be placed, or is of class 0. -/
def State.inTurn (s : State) (g : Nat) : Bool :=
  match s.grids[g]? with
  | none => false
  | some x => (indexed s.grids).all fun e =>
      !(e.2.before x) || s.partOf e.1 != s.partOf g || (s.pending e.1).isNone || (e.2.launch.cls != 0 && !s.canPlace e.1)

/-! ## Wanting back (R367, R421) -/

/-- The want of a team that exists: its waves that have not left. -/
def State.wantOf (s : State) (t : Nat) : Option Want :=
  (s.teams[t]?).map fun x =>
    let l := s.launchAt x.grid
    let ws := (s.members t).filterMap fun i => (s.waves[i]?).bind fun w =>
      if w.gone then none else some (w.num, if l.resext then l.regs - 1 else w.ss.blocks)
    ⟨x.grid, x.idx, x.twin, l, ((s.grids[x.grid]?).map Grid.ctx).getD 0, ws⟩

/-- The teams of a group that are restored for a replay: not the other copy, and not a twin copy that is held (R421, R475). -/
def State.replayGroup (s : State) (t : Nat) : List Nat :=
  (s.groupOf t).filter fun k => ((s.teams[k]?).map fun x => x.st == .waitingReplay).getD false

/-- A twin copy is held while its primary copy runs unchecked (R475). -/
def State.heldTeam (s : State) (t : Nat) : Bool :=
  ((s.teams[t]?).map Team.twin).getD false && (s.groupOf t).any fun k => (s.members k).any fun i =>
    (((s.waves[i]?).bind Wave.region).map Region.unchecked).getD false

/-- A whole group may stand in one bay. -/
def State.bayFits (s : State) (out : List Nat) (bay : Nat) (ps : List Placed) (a : Want) (core : Nat) : Bool :=
  core / 8 == bay && s.fits out ps a core

/-- A bay can hold a waiting group at once (R421). -/
def State.bayQualifies (s : State) (ts : List Nat) (bay : Nat) : Bool :=
  (findPlaces (s.bayFits ts bay) (ts.filterMap s.wantOf) []).isSome

/-- Groups that wait for a replay in a partition, and that a bay can hold. -/
def State.replayWaits (s : State) (part : Nat) : Bool :=
  (indexed s.teams).any fun e =>
    e.2.st == .waitingReplay && s.partOf e.2.grid == part && !s.heldTeam e.1 &&
      (List.range 8).any (s.bayQualifies (s.replayGroup e.1))

/-! ## A team and its waves at their start (R26 to R31) -/

def Half.empty : Half := ⟨[], [], [], [], [], [], []⟩

def Team.start (g idx : Nat) (twin : Bool) (rank slot core : Nat) : Team :=
  { grid := g, idx := idx, twin := twin, rank := rank, slot := slot, core := core, st := .resident, lo := Half.empty,
    hi := Half.empty, bars := Vector.replicate 16 ⟨0, false⟩, cbars := Vector.replicate 4 ⟨0, false⟩, flags := 0, killed := 0,
    firstKill := 0, killedAt := 0, issued := 0, cycles := 0, request := none, draining := false, lost := false, mirror := false }

def Soft.start : Soft :=
  { fflags := 0, bond := 0, ext := 0, seed := 0, epoch := 0, lastEpoch := 0, rndctr := Vector.replicate 32 0, mctr := 0,
    z := Vector.replicate 8 (Vector.replicate 32 Rsv.zero), log := Vector.replicate 32 ⟨0, 0, 0⟩,
    tags := Vector.replicate 64 ⟨false, false, 0, none⟩, rx := Vector.replicate 32 (Vector.replicate 5 []) }

def LStream.start (live : Mask) (now : Nat) : LStream :=
  { tickets := [], results := [], blk := Blk.none, sideA := none, sideB := none, stack := [], live := live,
    v := Vector.replicate 256 (Vector.replicate 32 0), staged := [],
    -- p7 reads true in every lane (R57)
    p := (Vector.replicate 8 0).set 7 0xFFFFFFFF#32, w := Vector.replicate 4 0, win := [], prods := [], outs := [],
    parkA := none, parkB := none, waitA := none, waitB := none, sinceA := 0, sinceB := 0, slot := false,
    last := .b, issuedL := now, usedZ := now }

def SStream.start (pc : Nat) (regs : Vector DWord 64) (now : Nat) : SStream :=
  { pc := pc, s := regs, parkS := none, waitS := none, sinceS := 0, waitLen := 0, yieldN := 0, yieldAt := 0, issuedS := now,
    yielded := none, blocks := 0, release := [], acquire := none, ins := [], outs := [], begun := none, bars := Vector.replicate 16 .idle,
    cbars := Vector.replicate 4 .idle, unwatched := [] }

def Priv.start : Priv :=
  { handler := false, bank := Vector.replicate 16 0, cause := 0, trappc := 0, trapva := 0, trapaux := 0, lanemask := 0, hret := 0,
    ctx := none, held := [], discarded := 0 }

/-- The registers that a wave starts with (R31). -/
def startRegs (l : Launch) (idx num rank priv slot : Nat) : Vector DWord 64 :=
  let n (x : Nat) : DWord := BitVec.ofNat 64 x
  (((((((Vector.replicate 64 0).set 1 (n l.argbase)).set 2 (n idx)).set 3 (n num)).set 4 (n rank)).set 5 (n l.bucket)).set 6
    (n l.size)).set 7 (n (priv + 4096 * (64 * slot + num)))

/-- The launch mask (R31, R375). -/
def launchMask (l : Launch) (idx num : Nat) : Mask := maskOf fun k => decide (32 * (l.waves * idx + num) + k.val < l.s0)

/-- A wave that becomes resident on a core at a cycle of it. -/
def Wave.start (g team num core quarter pos : Nat) (live : Mask) (pc : Nat) (regs : Vector DWord 64) (now : Nat) : Wave :=
  { grid := g, team := team, num := num, core := core, quarter := quarter, pos := pos, st := .resident, killCause := 0,
    imagePoisoned := false, ss := SStream.start pc regs now, ls := LStream.start live now, soft := Soft.start, priv := Priv.start,
    region := none, green := Green.empty, arrival := none }

/-- The lowest place of a quarter's wave table that is free. -/
def State.freePos (s : State) (core quarter : Nat) : Nat :=
  let used := ((s.wavesOn [] core).filter fun w => w.quarter == quarter).map Wave.pos
  ((List.range 128).find? fun k => !used.contains k).getD 0

/-- Cores that a team takes hold its context's watchpoints (R470). -/
def State.loadWatch (s : State) (ctx : BitVec 16) (cs : List Nat) : State :=
  let c := s.context ctx
  cs.foldl (fun z k => z.modCore k fun x =>
    if c.watched || x.watchCtx == some ctx then { x with watch := c.watch, watchCtx := some ctx } else x) s

/-- The core of a wave of a team placed at a core. -/
def waveCore (l : Launch) (at_ num : Nat) : Nat := if l.paired && decide (32 ≤ num) then at_ + 1 else at_

/-- Start a team copy: its waves take their places and hold the state of R31. `slot0` is the primary copy's save slot. -/
def State.startTeam (s : State) (g : Nat) (x : Grid) (p : Placement) (slot0 : Nat) : State :=
  let l := x.launch
  let rank := if l.cluster = 0 then 0 else p.team % l.cluster
  let t := s.teams.length
  let s1 := { s with teams := s.teams ++ [Team.start g p.team p.twin rank p.slot p.core] }
  let s2 := (List.range l.waves).foldl (fun z num =>
    let core := waveCore l p.core num
    let q := (z.quarterFor core num).getD 0
    let w := Wave.start g t num core q (z.freePos core q) (launchMask l p.team num) (l.sbase + l.entry)
      (startRegs l p.team num rank (s.context x.ctx).priv slot0) (z.cyclesOf core)
    { z with waves := z.waves ++ [w] }) s1
  s2.loadWatch x.ctx (coresOf l p.core)

/-! ## TEAM_PLACEMENT -/

/-- The places of an event name each want once. -/
def matchPlaces (ws : List Want) (places : List Placement) : Option (List (Placed × Nat)) :=
  if ws.length != places.length then none
  else ws.mapM fun a => (places.find? fun p => p.team == a.idx && p.twin == a.twin).map fun p => ((a, p.core), p.slot)

/-- Slots of the starting teams are free and differ. -/
def slotsOk (free : List Nat) (slots : List Nat) : Bool := slots.all free.contains && (dedup slots).length == slots.length

/-- The distributor starts the next group of a grid at places. -/
def State.place_ (s : State) (g : Nat) (places : List Placement) : State :=
  match s.grids[g]? with
  | none => s
  | some x =>
    match matchPlaces (s.nextWants g) places with
    | none => s
    | some ps =>
      if ps.isEmpty || !s.sys.dorzin.runs || !s.inTurn g || s.replayWaits (s.partOf g) || !placesOk (s.fits []) (ps.map Prod.fst) [] ||
          !slotsOk (s.freeSlots x.ctx) (ps.map Prod.snd) then s
      else
        places.foldl (fun z p =>
          let slot0 := ((places.find? fun q => q.team == p.team && !q.twin).map Placement.slot).getD p.slot
          (z.journal jPlace x.queue p.team x.seq).startTeam g x p slot0) s

/-- TEAM_PLACEMENT (R376): the group of the grid's first pending team starts. -/
def execTeamPlacement (g : Nat) (places : List Placement) (s : State) : Result := .next (s.place_ g places)

end Sys2Proof.Machine
end

