-- ==== Sys2Proof/Machine/Choice.lean ====
section
/-!
DEFINITION. Pre-emption (spec/17 R383 to R386): groups, the cost estimator, the choice of drain, discard or save, how a group leaves
its cores (spec/16 R365), and the requests of Dorzin for a class-0 launch.
-/

namespace Sys2Proof.Machine

/-! ## Groups (R365, R384) -/

/-- The place of a team copy in the list of teams. -/
def State.teamAt (s : State) (g idx : Nat) (twin : Bool) : Option Nat :=
  s.teams.findIdx? fun t => t.grid == g && t.idx == idx && t.twin == twin

/-- The group of a request: port-connected sets and cluster, twin copies taken together. -/
def State.wholeGroup (s : State) (g idx : Nat) : List Nat :=
  dedup (([false, true].filterMap fun c => s.teamAt g idx c).flatMap s.groupOf)

/-- Teams of a group that have not retired. -/
def State.liveTeams (s : State) (ts : List Nat) : List Nat :=
  ts.filter fun t => ((s.teams[t]?).map fun x => x.st != .retired && x.st != .stopped).getD false

def State.allSt (s : State) (ts : List Nat) (st : TeamSt) : Bool := ts.all fun t => ((s.teams[t]?).map Team.st) == some st

/-- Waves of teams. -/
def State.wavesOf (s : State) (ts : List Nat) : List Nat := ts.flatMap s.members

/-! ## Costs (R382, R385) -/

def greatest (l : List Nat) : Nat := l.foldl max 0

/-- The save size of a team, with or without green image and ray slots (R365, R385). -/
def State.saveBytes (s : State) (t : Nat) (full : Bool) : Nat :=
  match s.teams[t]? with
  | none => 0
  | some x =>
    let ws := (s.members t).filterMap fun i => (s.waves[i]?).filter fun w => !w.gone
    let parts := (s.tailParts t x).map Part.len
    let n := parts.length
    4096 + sumOf (ws.map fun w => 16384 + 4096 * (w.ss.blocks + 1) + (if w.ls.slot then 8192 else 0)) +
      sumOf (if full then parts else parts.take (n - 2))

/-- Core cycles that a team needs to retire by its estimate: none where it has no bound. -/
def State.drainCost (s : State) (t : Nat) : Option Nat :=
  (s.teams[t]?).bind fun x =>
    let e := (s.launchAt x.grid).expect
    if x.issued < e && x.issued != 0 then some (((e - x.issued) * x.cycles + x.issued - 1) / x.issued) else none

/-- Cycles since the earliest RGN.beg of the open regions of waves, on the count of their team's residency. -/
def State.lostWork (s : State) (ws : List Nat) : Nat :=
  greatest (ws.filterMap fun i => (s.waves[i]?).bind fun w =>
    w.region.map fun g => ((s.teamOf w).map Team.cycles).getD 0 - g.since)

/-- What the cost estimator computes for a group, each the greatest over its teams (R385). -/
structure Costs where
  budget : Nat
  drain : Option Nat
  save : Nat
  discard : Nat
  lost : Nat
  deriving DecidableEq, Repr

def State.costs (s : State) (ts : List Nat) (deadline : Nat) : Costs :=
  let drains := ts.map s.drainCost
  { budget := (deadline - s.sys.dorzin.count) * s.sys.power.clk / 1800,
    drain := if drains.all Option.isSome then some (greatest (drains.filterMap id)) else none,
    save := greatest (ts.map fun t => (s.saveBytes t true + 511) / 512 + 2048),
    discard := greatest (ts.map fun t => (s.saveBytes t false + 511) / 512 + 512),
    lost := s.lostWork (s.wavesOf ts) }

/-! ## Leaving the cores (R365, R386) -/

/-- Roll back every open region of a group (R319). -/
def State.rollGroup (s : State) (ts : List Nat) : State := (s.wavesOf ts).foldl (fun z i => z.rollWave i id) s

/-- Change the waves of teams that have not left. -/
def State.modWaves (s : State) (ts : List Nat) (f : Wave → Wave) : State :=
  (s.wavesOf ts).foldl (fun z i => z.modWave i fun w => if w.gone then w else f w) s

/-- Windows drain, and staged registers and reservoir slots go to their home images (R365, step 5). -/
def State.parkWaves (s : State) (ts : List Nat) : State := s.modWaves ts fun w => { w with ls := w.ls.park_ }

/-- The teams' resources are free. A yielded wave stays so (R318). -/
def State.leaveCores (s : State) (ts : List Nat) : State :=
  let s1 := ts.foldl (fun z t => z.modTeam t fun x => { x with st := .saved, request := none, draining := false, mirror := false }) s
  s1.modWaves ts fun w => { w with st := .saved, ss := { w.ss with yieldN := w.ss.yieldN - (s.cyclesOf w.core - w.ss.yieldAt) } }

/-- Lines that the cores of teams hold for their context are written home. -/
def State.flushTeams (s : State) (ts : List Nat) : State :=
  ts.foldl (fun z t =>
    match s.teams[t]? with
    | none => z
    | some x =>
      let c := s.context (((s.grids[x.grid]?).map Grid.ctx).getD 0)
      (coresOf (s.launchAt x.grid) x.core).foldl (fun y k => y.flush k fun e => e.part == c.part && e.asid == c.asid) z) s

/-- Steps 5 and 6 of a save: what the cores hold goes home, the images are written, and the teams leave their cores (R365). -/
def State.storeTeams (s : State) (ts : List Nat) : State :=
  (ts.foldl State.putImage ((s.flushTeams ts).parkWaves ts)).leaveCores ts

/-- Discard (R386): regions roll back, and the state is written without waiting, with no ray and no parking record left. -/
def State.discard (s : State) (ts : List Nat) : State :=
  let s1 := (s.wavesOf ts).foldl State.hold (s.rollGroup ts)
  let s2 := (s1.wavesOf ts).foldl (fun z i =>
    match z.waves[i]? with
    | none => z
    | some w => if w.gone then z else (z.withdraw i w.core).dropRays i fun _ => true) s1
  (s2.modWaves ts fun w => { w with ss := { w.ss with parkS := none } }).storeTeams ts

/-! ## The choice (R386) -/

/-- Every wave is inside a region, or has left. A handler that a trap inside a region started runs inside it (R52). -/
def State.allInRegions (s : State) (ws : List Nat) : Bool :=
  ws.all fun i => ((s.waves[i]?).map fun w => w.gone || w.region.isSome).getD true

/-- Journal the choice for each team of a group. -/
def State.journalChoice (s : State) (ts : List Nat) (choice : Nat) : State :=
  ts.foldl (fun z t =>
    match s.teams[t]? with
    | none => z
    | some x =>
      let g := s.grids[x.grid]?
      z.journal jPreempt ((g.map Grid.queue).getD 0) x.idx ((g.map Grid.seq).getD 0) choice) s

/-- A group is to be saved: what its waves wait for is withdrawn, and issue stops (R365, R386). -/
def State.chooseSave (s : State) (ts : List Nat) : State := (s.wavesOf ts).foldl State.hold (s.journalChoice ts 3)

/-- Choose for a group (R386). -/
def State.choose (s : State) (ts : List Nat) (deadline : Nat) (drain : Bool) : State :=
  let ws := s.wavesOf ts
  let c := s.costs ts deadline
  if drain && (c.drain.map fun d => decide (d ≤ c.budget)).getD false then
    ts.foldl (fun z t => z.modTeam t fun x => { x with draining := true }) (s.journalChoice ts 1)
  else if s.allInRegions ws && decide (c.lost ≤ c.save) then (s.journalChoice ts 2).discard ts
  else s.chooseSave ts

/-- A pre-emption request for the group of a team (R384, R386): a group that is under request keeps the earlier deadline, and a cure
whose conditions all hold completes first. -/
def State.preempt (s : State) (g t : Nat) (deadline : Nat) : State :=
  let ts := s.liveTeams (s.wholeGroup g t)
  if !s.sys.dorzin.runs || ts.isEmpty || !s.allSt ts .resident then s
  else
    let had := (ts.filterMap fun k => (s.teams[k]?).bind Team.request)
    let d := had.foldl min deadline
    let s1 := ts.foldl (fun z k => z.modTeam k fun x => { x with request := some d }) s
    if !had.isEmpty then s1
    else ((s1.wavesOf ts).foldl State.tryCure s1).choose ts d true

/-- Teams of classes 1 to 3 that stand on the reserved cores of a partition. -/
def State.onReserved (s : State) (part : Nat) : List Team :=
  let rsv := ((s.sys.parts.toList[part]?).getD Partition.reset).rsv
  s.teams.filter fun t => t.st == .resident && s.partOf t.grid == part && (s.launchAt t.grid).cls != 0 &&
    (coresOf (s.launchAt t.grid) t.core).any fun k => rsv.getLsbD k

/-- For a class-0 launch that finds no place, Dorzin issues pre-emption requests to the teams on the reserved cores, class-0 teams
excepted (R383). Their deadline lies within the bound, half as many scheduler cycles as arithmetic ones, and is a free value within
it (notes/assumptions/26.md). -/
def State.makeRoom (s : State) (g : Nat) : State :=
  if (s.launchAt g).cls != 0 || (s.pending g).isNone || s.canPlace g then s
  else
    let d := s.sys.dorzin.count + (Config.freeWord s.free).toNat % 45001
    (s.onReserved (s.partOf g)).foldl (fun z t => z.preempt t.grid t.idx d) { s with free := s.free + 1 }

end Sys2Proof.Machine
end

