-- ==== Sys2Proof/Machine/Accepting.lean ====
section
/-!
DEFINITION. Acceptance and completion of launches (spec/17 R372 to R375, R387, R388), the take-over of the scheduler (R389 to
R391), contexts (R346, R369; spec/20 R436) and system software's kill (spec/02 R64).
-/

namespace Sys2Proof.Machine

/-! ## Completion records (R387) -/

def stRejected : Nat := 1
def stNoBucket : Nat := 2
def stNoFit : Nat := 3
def stTwinMismatch : Nat := 4
def stLost : Nat := 5
def stCancelled : Nat := 6

/-- Dorzin zeroes the completion record at acceptance. -/
def State.zeroRecord (s : State) (c : Context) (l : Launch) : State :=
  s.systemWrite c l.comprec (List.replicate (64 + 16 * l.size) 0)

/-! ## LAUNCH_ACCEPT -/

/-- What the checks of a record give: the launch, and the status with which it ends at once (R374, R375, R377). -/
def State.checkRecord (s : State) (c : Context) (minclass : Nat) (bs : List Byte) : Launch × Nat :=
  let l := launchFields bs
  if c.lost then (l, stLost)
  else if !launchOk bs l || l.cls < minclass || 4096 * c.slotsize < l.imageSize then (l, stRejected)
  else
    match s.launchTables c bs l with
    | none => (l, stRejected)
    | some l1 =>
      match pickBucket bs l1 with
      | none => (l1, stNoBucket)
      | some l2 =>
        if l2.size = 0 || (l2.cluster != 0 && l2.size % l2.cluster != 0) then (l2, stRejected)
        else (l2, if s.placeable c.id l2 then 0 else stNoFit)

/-- Accept the record at the head of a queue: it takes the next launch sequence number, is journalled, and HEAD advances
(R372). A record that cannot be read is rejected. For a class-0 launch room is made at once (R383). -/
def State.acceptRecord (s : State) (q : Nat) (d : Queue) (c : Context) : State :=
  let at_ := d.ring + 1024 * (d.head % 2 ^ d.log2)
  let (l, status) := match s.systemRead c at_ 1024 with
    | none => (Launch.empty, stRejected)
    | some bs => s.checkRecord c d.minclass bs
  let seq := s.sys.dorzin.launchSeq
  let g : Grid := { ctx := c.id, queue := q, seq := seq, launch := l, status := status, poisoned := false,
                    ending := status != 0, complete := false }
  let s1 := (s.journal jAccept q 0 seq).modDorzin fun x => { x with launchSeq := (seq + 1) % 2 ^ 64 }
  let s2 := { s1 with grids := s1.grids ++ [g] }
  ((s2.zeroRecord c l).putQueue q 0x10 ((d.head + 1) % 2 ^ 64)).makeRoom s1.grids.length

/-- Accept records of a queue, at most n. -/
def State.acceptSome (q : Nat) (c : Context) : Nat → State → State
  | 0, s => s
  | n + 1, s =>
    let d := s.queue q
    if d.head = d.tail then s else State.acceptSome q c n (s.acceptRecord q d c)

/-- The next kicked queue after the last one served (R372). -/
def Dorzin.nextQueue (d : Dorzin) : Option Nat :=
  match least (d.kicks.filter (d.lastServed < ·)) with
  | some q => some q
  | none => least d.kicks

/-- Serve a queue: its bit is cleared, then its records are accepted, at most eight; a queue with more left stays kicked. -/
def State.serve (s : State) (q : Nat) : State :=
  let s1 := s.modDorzin fun d => { d with kicks := d.kicks.filter (· != q), lastServed := q }
  let s2 := s1.recall (Loc.hbm (s1.queueAt q)).line
  let d := s2.queue q
  if !d.enable then s2
  else if 2 ^ d.log2 < (d.tail + 2 ^ 64 - d.head) % 2 ^ 64 then
    let w := s2.mem.word (s2.queueAt q + 0x18) 8
    -- the reserved bits [62:30] are returned as zero (R4)
    (s2.putQueue q 0x18 (w % 2 ^ 30)).logEvent 3 q 0 0
  else
    match s2.sys.contexts.find? fun c => c.id == d.ctx with
    | none => s2
    | some c =>
      let p := (s2.sys.parts.toList[c.part]?).getD Partition.reset
      if !p.enabled || p.disabling then s2
      else
        let s3 := State.acceptSome q c 8 s2
        let e := s3.queue q
        if e.head = e.tail then s3 else s3.modDorzin fun x => { x with kicks := x.kicks ++ [q] }

/-- LAUNCH_ACCEPT (R372): Dorzin serves the next kicked queue, once it accepts launches (R463, R464), and not after a slice has
stopped (R410). A descriptor outside HBM is no address of the part (R19). -/
def execLaunchAccept (s : State) : Result :=
  match s.sys.dorzin.nextQueue with
  | none => .next s
  | some q =>
    if !s.sys.rst.schedReady || s.sys.dorzin.sliceStopped || !s.sys.dorzin.runs then .next s
    else if hbmSize < s.queueAt q + 32 then .fault (.outsideHbm (s.queueAt q))
    else .next (s.serve q)

/-! ## GRID_COMPLETION (R388) -/

/-- The copies of a team of a grid. -/
def State.copies (s : State) (g idx : Nat) : List Team := s.teams.filter fun t => t.grid == g && t.idx == idx

/-- A team counts as retired: both copies have, or it was never to start (R375, R388). -/
def State.teamDone (s : State) (g : Nat) (l : Launch) (idx : Nat) : Bool :=
  decide (l.started ≤ idx) || (!(s.copies g idx).isEmpty && (s.copies g idx).all fun t => t.st == .retired)

/-- Teams of a grid that count as retired (R375, R388). -/
def State.retiredCount (s : State) (g : Nat) (l : Launch) : Nat :=
  (l.size - l.started) + ((List.range l.started).filter (s.teamDone g l)).length

/-- Every write of the grid's waves and jobs has reached its device. -/
def State.quiet (s : State) (g : Nat) : Bool :=
  (positions (fun (w : Wave) => w.grid == g) 0 s.waves).all (fun i => !s.unacknowledged i) &&
  s.jobs.all fun j => j.complete || ((s.teams[j.team]?).map Team.grid) != some g

/-- The grid may complete: every team has retired, or it ends early and nothing of it runs. -/
def State.gridDone (s : State) (g : Nat) (x : Grid) : Bool :=
  !x.complete && s.quiet g &&
  (if x.ending then (s.teams.filter fun t => t.grid == g).all fun t => t.st == .retired || t.st == .stopped
   else s.retiredCount g x.launch == x.launch.size)

/-- The cause of the first kill of a team: the earlier one of its copies (R387). -/
def firstKillOf (ts : List Team) : Nat :=
  let ks := ts.filter fun t => t.firstKill != 0
  ((ks.find? fun t => ks.all fun u => decide (t.killedAt ≤ u.killedAt)).map Team.firstKill).getD 0

/-- The entry of a team: waves killed in either copy, the first kill cause, the completion flags (R387). -/
def State.teamEntry (s : State) (g idx : Nat) : Nat × Nat × Nat :=
  let ts := s.copies g idx
  (ts.foldl (fun n t => n ||| t.killed.toNat) 0, firstKillOf ts, ts.foldl (fun n t => n ||| t.flags.toNat) 0)

/-- The signal word (R388). -/
def Grid.signal (x : Grid) : Nat := x.status * 2 ^ 56 + x.seq % 2 ^ 56

/-- Write a launch's signal word with .rel at scope .d, and raise its queue's vector (R388, R446). -/
def State.signal (s : State) (x : Grid) : State :=
  let s1 := s.systemWrite (s.context x.ctx) x.launch.sigaddr (bytesLE 8 x.signal)
  let d := s1.queue x.queue
  if d.ien && decide (16 ≤ d.vec) then s1.msix d.vec else s1

/-- The steps of R388. -/
def State.complete (s : State) (g : Nat) (x : Grid) : State :=
  let c := s.context x.ctx
  let l := x.launch
  let s1 := (List.range s.cores.length).foldl (fun z k => z.flush k fun y => y.part == c.part && y.asid == c.asid) s
  let ts := dedup ((s1.teams.filter fun t => t.grid == g).map Team.idx)
  let es := ts.map fun i => (i, s1.teamEntry g i)
  let s2 := es.foldl (fun z e =>
    z.systemWrite c (l.comprec + 64 + 16 * e.1) (bytesLE 8 e.2.1 ++ bytesLE 8 (e.2.2.1 % 2 ^ 16 + e.2.2.2 * 2 ^ 16))) s1
  let flags := es.foldl (fun n e => n ||| e.2.2.2) 0
  let killed := (es.filter fun e => e.2.1 != 0).length
  let s3 := s2.systemWrite c l.comprec
    (bytesLE 8 x.status ++ bytesLE 8 x.seq ++ bytesLE 8 (if x.status = stRejected then 0 else s.retiredCount g l) ++
      bytesLE 8 (flags + (if x.poisoned then 32 else 0) + killed * 2 ^ 32) ++ List.replicate 32 0)
  let s4 := (s3.journal jDone x.queue 0 x.seq).signal x
  s4.modGrid g fun y => { y with complete := true }

/-- GRID_COMPLETION (R388). -/
def execGridCompletion (g : Nat) (s : State) : Result :=
  .next (match s.grids[g]? with
    | none => s
    | some x => if s.sys.dorzin.runs && s.gridDone g x then s.complete g x else s)

/-! ## SCHEDULER_TAKEOVER (R389, R391) -/

/-- Queues that hold records not accepted. -/
def State.waitingQueues (s : State) : List Nat :=
  (List.range 4096).filter fun q => decide (s.queueAt q + 32 ≤ hbmSize) && (s.queue q).enable && (s.queue q).tail != (s.queue q).head

/-- The launch of the last entry of the journal, where it is a DONE entry, is signalled again (R391, step 3). -/
def State.signalAgain (s : State) : State :=
  match s.sys.dorzin.journal.getLast? with
  | none => s
  | some e =>
    if e.kind != jDone then s
    else
      match s.grids.find? fun (x : Grid) => x.seq == e.launch && x.complete with
      | some x => s.signal x
      | none => s

/-- Insert a grid by its launch sequence number. -/
def insertSeq (e : Nat × Grid) : List (Nat × Grid) → List (Nat × Grid)
  | [] => [e]
  | q :: qs => if e.2.seq ≤ q.2.seq then e :: q :: qs else q :: insertSeq e qs

/-- The standby takes over: its count follows the journal, the last launch journalled DONE is signalled again, grids that completed
meanwhile are finished in the order of their launches, and every queue with records left is kicked. What the distributor's grid
table holds is not disturbed. -/
def State.takeOver (s : State) : State :=
  let top := s.sys.dorzin.journal.foldl (fun n e => max n e.count) 0
  let s1 := (s.modDorzin fun x => { x with takenOver := true, count := top + 1 }).signalAgain
  let finished := ((indexed s1.grids).filter fun e => s1.gridDone e.1 e.2).foldr insertSeq []
  let s2 := finished.foldl (fun z e => z.complete e.1 e.2) s1
  s2.modDorzin fun x => { x with kicks := x.kicks ++ s2.waitingQueues.filter fun q => !x.kicks.contains q }

/-- SCHEDULER_TAKEOVER: the active scheduler core stops at an uncorrectable error in its instruction memory; with it stopped, the
standby takes over. The failed core stays out of service until reset (R391). -/
def execSchedulerTakeover (s : State) : Result :=
  let d := s.sys.dorzin
  .next (if !s.sys.rst.schedReady || d.takenOver then s
    else if !d.failed then s.modDorzin fun x => { x with failed := true }
    else s.takeOver)

/-! ## Contexts (R346, R369, R436) -/

/-- sys.ctxctl of a record: PSTALL left unset is 24 (R346). -/
def ctxctlOf (w : Nat) : Nat := if field w 24 6 = 0 then w + 24 * 2 ^ 24 else w

/-- The fields of sys.ctxctl; its reserved bits are ignored, and read zero (R4, R346). -/
def ctxctlMask : Nat := 7 + 63 * 2 ^ 24 + 31 * 2 ^ 32

/-- The limits of a context record (R346, R369, R345). -/
def contextOk (bs : List Byte) : Bool :=
  let ctl := recField bs 0x20 8
  let n := ctxctlOf ctl
  let shlog := field ctl 32 5
  let tring := recField bs 0x30 8
  let slots := recField bs 0x40 8
  bs.length == 128 && field (recField bs 0 8) 19 45 == 0 &&
  (shlog == 0 || (decide (4 ≤ shlog) && decide (shlog ≤ 16))) && decide (16 ≤ field n 24 6) && decide (field n 24 6 ≤ 40) &&
  decide (4 ≤ field tring 59 5) && decide (field tring 59 5 ≤ 16) && field tring 56 3 == 0 && tring % 4096 == 0 &&
  recField bs 0x38 8 % 4096 == 0 && decide (1 ≤ field slots 0 16) && decide (field slots 0 16 ≤ 4096) && field slots 48 16 == 0 &&
  recZero bs 0x50 0x30

def contextOf (id : BitVec 16) (bs : List Byte) : Context :=
  let w0 := recField bs 0 8
  let slots := recField bs 0x40 8
  { Context.empty with
    id := id, asid := field w0 0 16, part := field w0 16 3, hentry := recField bs 0x08 8, hbase := recField bs 0x10 8,
    hsize := recField bs 0x18 8, ctxctl := BitVec.ofNat 64 (ctxctlOf (recField bs 0x20 8) &&& ctxctlMask),
    subst := BitVec.ofNat 64 (recField bs 0x28 8), tring := BitVec.ofNat 64 (recField bs 0x30 8), savebase := recField bs 0x38 8,
    nslot := field slots 0 16, slotsize := field slots 16 32, priv := recField bs 0x48 8 }

/-- CONTEXT_CREATE (R369): a record that breaks a limit, or names no partition, is rejected. -/
def execContextCreate (id : BitVec 16) (record : List Byte) (s : State) : Result :=
  let c := contextOf id record
  .next (if !contextOk record || !((s.sys.parts.toList[c.part]?).map Partition.enabled).getD false ||
      s.sys.contexts.any (fun x => x.id == id) then s
    else { s with sys := { s.sys with contexts := s.sys.contexts ++ [c] } })

/-- A partition whose last context has gone and whose ENABLE := 0 waits is switched off (R436). -/
def State.settlePart (s : State) (p : Fin 8) : State :=
  let x := s.sys.parts[p]
  if x.disabling && !s.sys.contexts.any fun c => c.part == p.val then
    { s with sys := { s.sys with parts := s.sys.parts.set p { x with enabled := false, disabling := false } } }
  else s

/-- CONTEXT_DESTROY (R436): of a context with no launch in progress. Its watchpoints go with it. -/
def execContextDestroy (id : BitVec 16) (s : State) : Result :=
  .next (if s.grids.any fun g => g.ctx == id && !g.complete then s
    else
      let s1 := { s with sys := { s.sys with contexts := s.sys.contexts.filter fun c => c.id != id },
                         cores := s.cores.map fun c =>
                           if c.watchCtx == some id then { c with watchCtx := none, watch := Vector.replicate 4 (0, 0) } else c }
      (List.finRange 8).foldl State.settlePart s1)

/-! ## SYSTEM_KILL (R64, R355, R387) -/

/-- Kill every wave of a grid that a test selects. -/
def State.killWaves (s : State) (g : Nat) (p : Wave → Bool) : State :=
  (positions (fun (w : Wave) => w.grid == g && p w) 0 s.waves).foldl (fun z i => z.kill i .systemKill 0 0) s

/-- SYSTEM_KILL: system software kills a team, or ends a grid as CANCELLED. -/
def execSystemKill (g : Nat) (team : Option Nat) (s : State) : Result :=
  .next (match s.grids[g]? with
    | none => s
    | some x =>
      if x.complete then s
      else
        match team with
        | some i => s.killWaves g fun w => ((s.teamOf w).map Team.idx) == some i
        | none =>
          (s.modGrid g fun y => if y.ending then y else { y with status := stCancelled, ending := true }).killWaves g fun _ => true)

end Sys2Proof.Machine
end

