-- ==== Sys2Proof/Machine/Preempt.lean ====
section
/-!
DEFINITION. The steps of pre-emption, save and restore (spec/17 R384 to R386; spec/16 R365 to R368; spec/12 R475; spec/02 R50): the
requests, the save with its errors, and the way back to a core.
-/

namespace Sys2Proof.Machine

/-- PREEMPTION_REQUEST (R384, R386). -/
def execPreemptionRequest (g t : Nat) (deadline : Nat) (s : State) : Result := .next (s.preempt g t deadline)

/-- DRAIN_DEADLINE_EXPIRY (R386): the group is decided again, with drain excluded. -/
def execDrainDeadlineExpiry (g t : Nat) (s : State) : Result :=
  let ts := s.liveTeams (s.wholeGroup g t)
  let d := (ts.filterMap fun k => (s.teams[k]?).bind Team.request).foldl min (2 ^ 64)
  .next (if !s.sys.dorzin.runs || ts.isEmpty || !s.allSt ts .resident || !(ts.all fun k => ((s.teams[k]?).map Team.draining).getD false) ||
      decide (s.sys.dorzin.count < d) then s
    else
      let s1 := ts.foldl (fun z k => z.modTeam k fun x => { x with draining := false }) s
      ((s1.wavesOf ts).foldl State.tryCure s1).choose ts d false)

/-! ## CONTEXT_SAVE (R365, R368) -/

/-- An L-op whose accesses are performed, but for parked lanes and for rays. -/
def Outst.settled (o : Outst) : Bool := o.done || (o.mask == 0 && o.remote == 0 && (o.parked != 0 || o.rays))

/-- A job that writes a team's scratchpad, accumulator memory or weight buffer. -/
def Job.writesTeam (j : Job) (t : Nat) : Bool :=
  j.writes.any fun f => match f.space with
    | .glob => false
    | .scr k _ => k == t
    | .acc k _ => k == t
    | .wbuf k _ => k == t

/-- The save waits for accesses already issued, for rays to stop at a visit boundary, but for one that a fault holds, and for the jobs
that write the teams' memory. -/
def State.savable (s : State) (ts : List Nat) : Bool :=
  ((s.wavesOf ts).all fun i => ((s.waves[i]?).map fun w => w.gone || w.ls.outs.all Outst.settled).getD true) &&
  ts.all fun t => ((s.rayIds t).all fun k => ((s.rays[k]?).map fun r => r.st != .running || r.held.isSome || r.between).getD true) &&
    s.jobs.all fun j => j.complete || !j.writesTeam t

/-- The context is LOST (R368, R410): every team of it is stopped, and its launches end. -/
def State.loseContext (s : State) (ctx : BitVec 16) : State :=
  let mine (t : Team) : Bool := ((s.grids[t.grid]?).map Grid.ctx) == some ctx && t.st != .retired
  let hit := positions mine 0 s.teams
  let s1 := s.modContext ctx fun c => { c with lost := true }
  let s2 := { s1 with
    teams := s1.teams.map fun (t : Team) => if mine t then { t with st := .stopped, lost := true, request := none, draining := false } else t,
    grids := s1.grids.map fun (g : Grid) => if g.ctx == ctx && !g.complete && !g.ending then { g with status := stLost, ending := true } else g,
    offers := s1.offers.filter fun (o : Offer) => !(hit.contains o.job.team) }
  let s3 := (s2.wavesOf hit).foldl (fun z i =>
    match z.waves[i]? with
    | none => z
    | some w => ((z.putWave i { w with green := Green.empty, region := none }).withdraw i w.core).dropRays i fun _ => true) s2
  hit.foldl (fun z t =>
    match z.teams[t]? with
    | none => z
    | some x => z.systemWrite (z.context ctx) (z.imageBase t) (((List.range 8).map fun k => (ovGet (imageBytes ((z.headerWords t x).take 1)) k).getD 0))) s3

/-- Some image of the teams cannot be written. -/
def State.saveFaults (s : State) (ts : List Nat) : Bool :=
  ts.any fun t =>
    match s.teams[t]? with
    | none => false
    | some x =>
      let c := s.context (((s.grids[x.grid]?).map Grid.ctx).getD 0)
      (s.imageRanges t x).any fun r => s.imageFault c (s.imageBase t + r.1) r.2

/-- A parity error found while a wave's registers are read: its image is poisoned, and the error is logged (R368, R419). -/
def State.readForSave (s : State) (i : Nat) : State :=
  match s.waves[i]? with
  | none => s
  | some w =>
    if w.gone || !s.sys.phys.parity.any fun e => e.1 == i then s
    else
      let ph := s.sys.phys
      ({ s with sys := { s.sys with phys := { ph with parity := ph.parity.filter fun e => e.1 != i } },
                waves := modAt s.waves i fun y => { y with imagePoisoned := true } }).report (some i) ⟨0x11, 0, w.site, 0, 0, 0⟩

/-- An image cannot be written (R368): a group all in regions rolls back and is replayed; otherwise its context is LOST. -/
def State.saveFails (s : State) (ts : List Nat) : State :=
  let ws := s.wavesOf ts
  let ctx := ((ts.head?).bind fun t => (s.teams[t]?).bind fun x => (s.grids[x.grid]?).map Grid.ctx).getD 0
  let s1 := s.report ws.head? ⟨0x11, 0, 0, 0, 0, 0⟩
  if s.allInRegions ws then ((ws.foldl State.hold (s1.rollGroup ts)).parkWaves ts).leaveCores ts
  else s1.loseContext ctx

/-- Save a group. -/
def State.save (s : State) (ts : List Nat) : State :=
  if s.saveFaults ts then s.saveFails ts else ((s.wavesOf ts).foldl State.readForSave s).storeTeams ts

/-- The group of a primary copy is saved where it stands, its image replaces the twin copy's, and it goes on (R475). -/
def State.mirror (s : State) (ts : List Nat) : State :=
  if s.saveFaults ts then s.saveFails ts
  else ts.foldl State.mirrorTeam (ts.foldl State.putImage (((s.wavesOf ts).foldl State.readForSave (s.flushTeams ts)).parkWaves ts))

/-- CONTEXT_SAVE (R365): the group that is stopped for a save is written to its images. -/
def execContextSave (g t : Nat) (s : State) : Result :=
  let ts := s.liveTeams (s.wholeGroup g t)
  let all (ts : List Nat) (p : Team → Bool) : Bool := ts.all fun k => ((s.teams[k]?).map p).getD false
  let prim := ts.filter fun k => ((s.teams[k]?).map Team.mirror).getD false
  .next (if !prim.isEmpty then if s.savable prim then s.mirror prim else s
    else if ts.isEmpty || !all ts (fun x => x.st == .resident && x.request.isSome && !x.draining) || !s.savable ts then s
    else s.save ts)

/-! ## Back onto a core (R28, R367, R421) -/

/-- A wave takes its place on a core. -/
def State.seat (s : State) (i core : Nat) : State :=
  match s.waves[i]? with
  | none => s
  | some w =>
    let q := (s.quarterFor core w.num).getD 0
    let w1 := { w.revive w.ss.yieldN (s.cyclesOf core) with
      core := core, quarter := q, pos := s.freePos core q, st := .resident,
      region := w.region.map fun g => { g with bays := if g.bays.contains (core / 8) then g.bays else g.bays ++ [core / 8] } }
    let s1 := (s.withdraw i w.core).putWave i w1
    let s2 := { s1 with rays := s1.rays.map fun r => if r.wave == some i then { r with core := core } else r }
    if w.ss.acquire.isSome then s2.modCore core fun c => { c with grants := c.grants ++ [i] } else s2

/-- A team takes its place: its waves that have not left are seated. -/
def State.seatTeam (s : State) (t core : Nat) : State :=
  match s.teams[t]? with
  | none => s
  | some x =>
    let l := s.launchAt x.grid
    let s1 := (s.members t).foldl (fun z i => z.modWave i fun w => if w.gone then w else { w with st := .saved }) s
    let s2 := s1.modTeam t fun y => { y with st := .resident, core := core }
    let s3 := (s2.members t).foldl (fun z i =>
      match z.waves[i]? with
      | none => z
      | some w => if w.gone then z else z.seat i (waveCore l core w.num)) s2
    s3.loadWatch (((s.grids[x.grid]?).map Grid.ctx).getD 0) (coresOf l core)

/-- Poisoned 64-byte units of a range of an image. -/
def State.badUnits (s : State) (c : Context) (va len : Nat) : List Nat :=
  (List.range (len / 64)).filter fun k =>
    match s.systemAt c (va + 64 * k) false with
    | .error _ => false
    | .ok p => s.mem.poisoned p

/-- Units of a half whose image is poisoned become poisoned. -/
def Half.taint (h : Half) (scr acc wbuf : List Nat) : Half :=
  { h with scratchPoison := scr ++ h.scratchPoison.filter (fun u => !scr.contains u),
           accPoison := acc ++ h.accPoison.filter (fun u => !acc.contains u),
           wbufPoison := wbuf ++ h.wbufPoison.filter (fun u => !wbuf.contains u) }

/-- The green sectors of a team's image, in its order: wave, scratchpad or not, sector. -/
def State.greenSecs (s : State) (t : Nat) : List (Nat × Bool × Nat) :=
  (s.members t).flatMap fun i =>
    match s.waves[i]? with
    | none => []
    | some w =>
      (dedup (w.green.glob.map fun e => e.1 / 64)).map (fun u => (i, false, u)) ++
      (dedup (w.green.scr.map fun e => e.1 / 64)).map fun u => (i, true, u)

/-- Errors that a restore finds in a team's image (R368): units stay poisoned, a ray ends with POISON, a wave is lost. -/
def State.imageErrors (s : State) (t : Nat) : State :=
  match s.teams[t]? with
  | none => s
  | some x =>
    let l := s.launchAt x.grid
    let c := s.context (((s.grids[x.grid]?).map Grid.ctx).getD 0)
    let base := s.imageBase t
    let parts := s.tailParts t x
    let bad (k : Nat) : List Nat := ((parts[k]?).map fun p => s.badUnits c (base + p.at_) p.len).getD []
    let units := 8 * l.scratch
    let scr := bad 0
    let n := if l.paired then 5 else 3
    let s1 := s.modTeam t fun y =>
      { y with lo := y.lo.taint (scr.filter (· < units)) (bad 1) (bad 2),
               hi := if l.paired then y.hi.taint ((scr.filter (units ≤ ·)).map (· - units)) (bad 3) (bad 4) else y.hi }
    let rays := s.rayIds t
    let s2 := (dedup ((bad n).map (· / 4))).foldl (fun z k =>
      match rays[k]? with
      | none => z
      | some r => z.modRay r fun y => { y with st := .running, held := none }.come .ended 6 0 0) s1
    let secs := s.greenSecs t
    let s3 := (dedup ((bad (n + 1)).map (· / 2))).foldl (fun z k =>
      match secs[k]? with
      | none => z
      | some (i, inScr, u) => z.modWave i fun w =>
          { w with green := if inScr then { w.green with scrPoison := putIn w.green.scrPoison u true }
                            else { w.green with poison := putIn w.green.poison u true } }) s2
    let head := !(s.badUnits c base 4096).isEmpty
    (s.members t).foldl (fun z i =>
      match z.waves[i]? with
      | none => z
      | some w =>
        if w.gone then z
        else if head || w.imagePoisoned || !(s.badUnits c (base + waveImageAt w.num) 0x20000).isEmpty then
          (z.report (some i) ⟨0x11, 3, w.site, 0, 0, 0⟩).kill i .waveLost (base + waveImageAt w.num) 0
        else z) s3

/-- The order of restores: no saved group of an earlier launch of the partition has a place (R386). -/
def State.restoreTurn (s : State) (ts : List Nat) (g : Nat) : Bool :=
  match s.grids[g]? with
  | none => false
  | some x =>
    (indexed s.teams).all fun e =>
      match s.grids[e.2.grid]? with
      | none => true
      | some y =>
        let group := s.liveTeams (s.wholeGroup e.2.grid e.2.idx)
        e.2.st != .saved || ts.contains e.1 || !(y.before x) || s.partOf e.2.grid != s.partOf g ||
          (findPlaces (s.fits group) (group.filterMap s.wantOf) []).isNone

/-- Put a group back onto cores. -/
def State.restore (s : State) (ts : List Nat) (places : List Placed) : State :=
  let s1 := (ts.zip places).foldl (fun z e => z.seatTeam e.1 e.2.2) s
  ts.foldl State.imageErrors s1

/-- CONTEXT_RESTORE (R367): the whole group that a save or a discard took off its cores comes back, to its own save slots. -/
def execContextRestore (g t : Nat) (places : List Placement) (s : State) : Result :=
  let ts := s.liveTeams (s.wholeGroup g t)
  .next (match matchPlaces (ts.filterMap s.wantOf) places with
    | none => s
    | some ps =>
      if !s.sys.dorzin.runs || ts.isEmpty || !s.allSt ts .saved || !placesOk (s.fits ts) (ps.map Prod.fst) [] || !s.restoreTurn ts g then s
      else
        let s1 := ts.foldl (fun z k =>
          match s.teams[k]?, s.grids[g]? with
          | some x, some y => z.journal jResume y.queue x.idx y.seq
          | _, _ => z) s
        s1.restore ts (ps.map Prod.fst))

end Sys2Proof.Machine
end

