-- ==== Sys2Proof/Machine/MemEvents.lean ====
section
/-!
DEFINITION. Steps of the memory system: walks, answers to faults, replays of parked lanes, batches, invalidations and carving
(spec/18 R394 to R409; spec/16 R357, R358), and watchpoints (spec/22 R469 to R472).
-/

namespace Sys2Proof.Machine

/-! ## Walks (R397) -/

/-- TRANSLATION_WALK: a leaf that the walk finds is cached; an entry that is not valid is not. A fault of the walk reaches the
requester at its own access. -/
def execTranslationWalk (part asid va : Nat) (write fetch : Bool) (s : State) : Result :=
  .next (match s.translate part asid va ⟨write, fetch, false, 1⟩ with
    | .ok _ => s.keepLeaf part asid va
    | .error f => if f.level == 0 || f.reason == xNotMapped || f.reason == xBadEntry then s else s.keepLeaf part asid va)

/-- CONTROLLER_BATCH_OPEN (R404): the model performs every request at once, so a batch marks none that waits
(notes/assumptions/4.md). -/
def execControllerBatchOpen (_ch : Nat) (s : State) : Result := .next s

/-! ## Answers to faults (R357, R402, R403) -/

/-- The record of a fault that is not answered. -/
def State.faultRec (s : State) (id : Word) : Option FaultRec := s.mem.faults.find? fun f => f.id == id && !f.answered

/-- The record is answered. -/
def State.answer (s : State) (id : Word) : State :=
  { s with mem := { s.mem with faults := s.mem.faults.map fun f => if f.id == id then { f with answered := true } else f } }

/-- The parking record of a stream. -/
def Wave.park? (w : Wave) : Strm → Option Park
  | .s => w.ss.parkS
  | .l d => w.ls.park? d

def Wave.setPark (w : Wave) (strm : Strm) (k : Option Park) : Wave :=
  match strm with
  | .s => { w with ss := { w.ss with parkS := k } }
  | .l d => { w with ls := w.ls.setPark d k }

/-- Change a collective. -/
def State.modColl (s : State) (c : Nat) (f : Coll → Coll) : State :=
  s.modSys fun x => { x with links := { x.links with colls := modAt x.links.colls c f } }

/-- The refused requests of a job are sent again: reads when the job next asks, the others at once under new tags (R453). -/
def State.askAgain (s : State) (j : Nat) : State :=
  let k := s.sys.links
  let no (r : Remote) : Bool := r.job == some j && r.reply == some .refused
  let again := mapIx (fun n (r : Remote) => { r with reply := none, tag := k.nextTag + n }) 0 (k.remotes.filter fun r => no r && !r.reads)
  { s with sys := { s.sys with links := { k with remotes := k.remotes.filter (fun r => !no r) ++ again,
                                                 nextTag := k.nextTag + again.length } } }

/-- A refused request that nothing waits for is sent again under a new tag (R453). -/
def State.sendAgain (s : State) (tag : Nat) : State :=
  let k := s.sys.links
  { s with sys := { s.sys with links := { k with nextTag := k.nextTag + 1, remotes := k.remotes.map fun (r : Remote) =>
      if r.tag == tag then { r with tag := k.nextTag } else r } } }

/-- The holder of a fault walks afresh. A ring is read again by its own next step. -/
def State.resolve (s : State) (id : Word) (part : Nat) (ctx : BitVec 16) : Holder → State
  | .wave i strm => s.modWave i fun w =>
      w.setPark strm ((w.park? strm).map fun k => if k.id == id then { k with resolved := true } else k)
  | .job j =>
    if ((s.jobs[j]?).bind Job.held) == some id then (s.askAgain j).modJob j fun x => { x with held := none } else s
  | .offer i => { s with offers := s.offers.map fun o => if o.job.wave == i && o.held == some id then { o with held := none } else o }
  | .ray r =>
    let no (q : Remote) : Bool := q.ray == some r && q.reply == some .refused
    if ((s.rays[r]?).bind Ray.held) == some id then
      { s.modRay r fun x => { x with held := none } with
        sys := { s.sys with links := { s.sys.links with remotes := s.sys.links.remotes.filter fun q => !no q } } }
    else s
  | .coll c => s.modColl c fun y => if y.held == some id then { y with held := none } else y
  | .device asid va bs poison => s.deviceWrite part asid ctx va bs poison
  | .remote tag => s.sendAgain tag
  | .ring _ => s

/-- FAULT_ANSWER with RESOLVE (R402). -/
def execFaultAnswerResolve (id : Word) (s : State) : Result :=
  .next (match s.faultRec id with
    | none => s
    | some f => (s.answer id).resolve id f.part f.ctx f.holder)

/-- The trap of a fatal fault: PAGE_FAULT or ALIAS at the parked instruction, with the lanes still parked (R357). -/
def State.takeFatal (s : State) (i : Nat) (w : Wave) (strm : Strm) (k : Park) : State :=
  match strm with
  | .s => s.take i .s ⟨k.cause, k.first, k.report.toNat, 0⟩ k.pc
      { strm := .s, imprecise := false, nextPc := k.out, sysc := none, lhdr := false, pc := k.pc }
  | .l d => s.trapL i d ⟨k.cause, k.first, k.report.toNat, if k.instr.isNone then 0 else reqMask k.reqs⟩ k.pc (w.ls.blk.phase == .none)

/-- A stream whose record was answered FATAL may take its trap: at user level, or for an access of the handler itself. -/
def State.dueFatal (s : State) (i : Nat) (strm : Strm) : Option State :=
  match s.runner i with
  | none => none
  | some w =>
    match w.park? strm with
    | none => none
    | some k => if k.fatal && (strm == .s || !w.priv.handler) then some (s.takeFatal i w strm k) else none

/-- A record answered FATAL: the trap is taken, at once where the wave may take it (R348, R357). -/
def State.fatalPark (s : State) (i : Nat) (strm : Strm) (id : Word) : State :=
  let s1 := s.modWave i fun w =>
    let on (k : Park) : Park := if k.id == id then { k with fatal := true } else k
    w.setPark strm ((w.park? strm).map on)
  (s1.dueFatal i strm).getD s1

/-- FAULT_ANSWER with FATAL (R357, R402, R403). -/
def execFaultAnswerFatal (id : Word) (s : State) : Result :=
  .next (match s.faultRec id with
    | none => s
    | some f =>
      let s1 := s.answer id
      match f.holder with
      | .wave i strm => s1.fatalPark i strm id
      | .job j => s1.modJob j fun x => if x.held == some id then { x with held := none, fatal := true } else x
      | .offer i => { s1 with offers := s1.offers.map fun o =>
          if o.job.wave == i && o.held == some id then { o with held := none, fatal := true } else o }
      | .coll c => s1.modColl c fun y => if y.held == some id then { y with held := none, fatal := true } else y
      | .ray r =>
        if ((s1.rays[r]?).bind Ray.held) == some id then s1.rayFatal r f.va (bitOf f.report.toNat 5) else s1
      -- a write of the device is dropped; a ring is read again
      | .device _ _ _ _ => s1
      | .remote tag =>
        let z := s1.dropRemote tag
        match (s1.sys.links.remotes.find? fun q => q.tag == tag).bind Remote.ray with
        | some r => z.rayFatal r f.va true
        | none => z
      | .ring _ => s1)

/-- The S-stream's group issues again: it alone stood for the record, and its registers are those that it read (R164, R358). A store
that passed its watchpoints is not checked again (R471). -/
def Wave.reissue (w : Wave) (k : Park) : Wave :=
  let w1 := w.setPark .s none
  match k.instr with
  | some (.sst ..) => w1.passWatch .s
  | some (.satom ..) => w1.passWatch .s
  | _ => w1

/-- PARKED_LANE_REPLAY (R221, R358): a resolved record is replayed. -/
def execParkedLaneReplay (w : Nat) (strm : Strm) (s : State) : Result :=
  .next (match s.runner w with
    | none => s
    | some x =>
      match x.park? strm with
      | none => s
      | some k =>
        if !k.resolved || (strm != .s && x.priv.handler) then s
        else
          match strm with
          | .s => s.putWave w (x.reissue k)
          | .l d => ({ s with cur := (w, d) }).replay w d k)

/-! ## Invalidations (R399) -/

/-- Some byte of a block lies in a range. -/
def overlaps (a len lo hi : Nat) : Bool := decide (a < hi) && decide (lo < a + len)

/-- INVALIDATION_REQUEST. -/
def execInvalidationRequest (part asid lo hi : Nat) (s : State) : Result :=
  .next { s with mem := { s.mem with invals := s.mem.invals ++ [⟨part, asid, lo, hi⟩] } }

/-- Every unit drops its entries of a range: leaves, and the upper-level entries above them. -/
def Mem.dropEntries (m : Mem) (v : Inval) : Mem :=
  { m with
    leaves := m.leaves.filter fun x => !(x.part == v.part && x.asid == v.asid &&
      (if x.big then overlaps (x.page * 2 ^ 30) (2 ^ 30) v.lo v.hi else overlaps (x.page * 2 ^ 21) (2 ^ 21) v.lo v.hi)),
    uppers := m.uppers.filter fun x => !(x.part == v.part && x.asid == v.asid &&
      overlaps (x.page * 2 ^ (12 + 9 * x.level)) (2 ^ (12 + 9 * x.level)) v.lo v.hi) }

/-- The cached leaf of an address is the one that a fresh walk finds, in a state without the range's entries. -/
def State.leafSame (s fresh : State) (part asid va : Nat) : Bool :=
  match s.mem.cached part asid va, fresh.walk part asid va with
  | some a, .ok b => a == b
  | _, _ => false

/-- A request to the host or another device that was translated in the range still waits. One that no wave made may be of any
address space. -/
def State.rangeBusy (s : State) (v : Inval) : Bool :=
  s.sys.links.remotes.any fun r => r.reply.isNone && overlaps r.va (FabOp.width r.op) v.lo v.hi &&
    ((s.waves[r.wave]?).map fun w => let c := s.ctxOf w; c.part == v.part && c.asid == v.asid).getD true

/-- INVALIDATION_END: cached entries of the range are dropped, and copies of a leaf that has changed are written back and
invalidated. -/
def execInvalidationEnd (i : Nat) (s : State) : Result :=
  .next (match s.mem.invals[i]? with
    | none => s
    | some v =>
      if s.rangeBusy v then s
      else
        let fresh := { s with mem := s.mem.dropEntries v }
        let hit (part asid line : Nat) : Bool :=
          part == v.part && asid == v.asid && overlaps (256 * line) 256 v.lo v.hi && !s.leafSame fresh part asid (256 * line)
        let s1 := (List.range s.cores.length).foldl (fun z k => z.flush k fun x => hit x.part x.asid x.line) s
        let m := (s1.mem.llc.filter fun x => hit x.part x.asid x.line).foldl Mem.evict s1.mem
        { s1 with mem := { m.dropEntries v with invals := m.invals.eraseIdx i } })

/-! ## Watchpoints (R469, R470, R472) -/

/-- The fields that a write to a watchpoint register sets: reserved bits are ignored (R6). -/
def watchWords (waddr wctl : DWord) : DWord × DWord := (waddr &&& 0x00FFFFFFFFFFFFF0#64, wctl &&& 0xE007FFFF0000FFFF#64)

/-- A core on which a team of a context stands takes its watchpoints, unless it holds enabled ones of another context that stands
there too. -/
def State.takesWatch (s : State) (ctx : BitVec 16) (core : Nat) : Bool :=
  let here := (s.teamsOn [] core).map fun t => ((s.grids[t.grid]?).map Grid.ctx).getD 0
  here.contains ctx &&
    match (s.cores[core]?).bind Core.watchCtx with
    | none => true
    | some c => c == ctx || !here.contains c || !(s.context c).watched

/-- WATCHPOINT_LOAD: system software sets a watchpoint of a context through Dorzin. -/
def execWatchpointLoad (ctx : BitVec 16) (n : Fin 4) (waddr wctl : DWord) (s : State) : Result :=
  let s1 := s.modContext ctx fun c => { c with watch := c.watch.set n (watchWords waddr wctl) }
  .next (if s.sys.contexts.any fun c => c.id == ctx then
      (List.range s.cores.length).foldl (fun z k => if s1.takesWatch ctx k then z.loadWatch ctx [k] else z) s1
    else s)

/-- The wave that takes the report of a fabric atomic: of the lowest core that holds the watchpoint, the context's resident wave
with the lowest place. -/
def State.watchTarget (s : State) (ctx : BitVec 16) : Option Nat :=
  (List.range s.cores.length).findSome? fun k =>
    if ((s.cores[k]?).bind Core.watchCtx) != some ctx then none
    else
      let ws := (indexed s.waves).filter fun e => e.2.core == k && s.placedWave e.2 && s.ctxIdOf e.2 == ctx
      (least (ws.map fun e => 4 * e.2.pos + e.2.quarter)).bind fun p =>
        (ws.find? fun e => 4 * e.2.pos + e.2.quarter == p).map fun e => e.1

/-- WATCH_ENGINE_REPORT (R472): the report is held for its wave, which may be saved; with no wave to take it, it is logged. -/
def execWatchEngineReport (i : Nat) (s : State) : Result :=
  .next (match s.sys.watchHits[i]? with
    | none => s
    | some h =>
      let s1 := { s with sys := { s.sys with watchHits := s.sys.watchHits.eraseIdx i } }
      let target := match h.wave with
        | some w => if ((s.waves[w]?).map Wave.gone).getD true then none else some w
        | none => s.watchTarget h.ctx
      match target with
      | none => s1.logEvent 9 (h.ctx.toNat + h.wp * 2 ^ 16) (BitVec.ofNat 64 h.va) 0
      | some w => s1.holdImprecise w
          ⟨.watchEngine, BitVec.ofNat 64 h.va, BitVec.ofNat 64 (h.wp * 2 ^ 16 + h.origin * 2 ^ 4 + h.engine), h.since⟩)

/-! ## Carving (R407, R408, R409) -/

/-- The owning master, whose writes are performed (R437). -/
def State.isOwner (s : State) (m : Master) : Bool := s.sys.owner.valid && s.sys.owner.owner == m

/-- The lowest enabled partition with a valid carved range that names a frame at or beyond a number. -/
def State.carveBlocked (s : State) (frames : Nat) : Option Nat :=
  s.sys.parts.toList.findIdx? fun p => p.enabled && p.mem.toList.any fun r =>
    let v := r.toNat
    bitOf v 63 && bitOf v 62 && decide (0 < field v 32 19) && decide (frames < field v 0 19 + field v 32 19)

/-- The carved line of a byte of carved storage within its slice (R409). -/
def carvedLine (off : Nat) : Nat := 22 * (off / 2 ^ 21) + off % 2 ^ 21 / 256 / 384

/-- Ways from k on return to the cache: what they held is lost. -/
def State.uncarve (s : State) (k : Nat) : State :=
  let kept (off : Nat) : Bool := decide (carvedLine off < 512 * k)
  let cores := s.cores.map fun c => { c with l1 := c.l1.filter fun x => match x.home with
    | .carved a => kept a
    | _ => true }
  { s with cores := cores,
           mem := { s.mem with carved := s.mem.carved.filter fun e => kept e.1,
                               carvedPoison := s.mem.carvedPoison.filter fun u => kept (64 * u),
                               carveCur := k, carveK := k } }

/-- LLC_CARVE_WRITE (R407, R408). -/
def execLlcCarveWrite (m : Master) (v : DWord) (s : State) : Result :=
  let k := field v.toNat 0 4
  .next (if !s.isOwner m || 12 < k || s.mem.carveBusy then s
    else if s.mem.carveCur < k then { s with mem := { s.mem with carveBusy := true, carveK := k } }
    else if k = s.mem.carveCur then s
    else
      match s.carveBlocked (512 * k / 22) with
      | some p => s.logEvent 0x0C (k + p * 2 ^ 4) 0 0
      | none => s.uncarve k)

/-- CARVE_CONVERSION_END: the lines of the ways are gone, and the ways are carved (R408). -/
def execCarveConversionEnd (s : State) : Result :=
  .next (if !s.mem.carveBusy then s
    else
      let s1 := s.clearCarved s.mem.carveK
      { s1 with mem := { s1.mem with carveCur := s.mem.carveK, carveBusy := false } })

end Sys2Proof.Machine
end

