-- ==== Sys2Proof/Machine/Reliab.lean ====
section
/-!
DEFINITION. Recovery and retirement (spec/19 R413, R420, R421, R426, R428): the dispatch of a rolled-back group, scrubbing, and
repoint entries that take effect.
-/

namespace Sys2Proof.Machine

/-! ## REGION_REPLAY_DISPATCH (R420, R421, R424) -/

/-- Bays that a replay avoids while another one qualifies: that of the error and that of the other copy, or after a mismatch
every bay that has held a copy during the instance. -/
def State.avoided (s : State) (ts : List Nat) : List Nat :=
  let bayOf (t : Nat) : List Nat := ((s.teams[t]?).map fun x => [x.core / 8]).getD []
  let others := ts.flatMap fun t =>
    match s.teams[t]? with
    | none => []
    | some x => ((s.teamAt x.grid x.idx (!x.twin)).map fun k => [k]).getD []
  let regions := (s.wavesOf (ts ++ others)).filterMap fun i => (s.waves[i]?).bind Wave.region
  let held := if regions.any fun g => decide (0 < g.mismatches) then regions.flatMap Region.bays else []
  dedup ((ts ++ others).flatMap bayOf ++ held)

/-- Cores on which errors of a group were detected. -/
def State.errorCores (s : State) (ts : List Nat) : List Nat :=
  let ws := s.wavesOf ts
  (s.sys.health.replays.filter fun e => ws.contains e.1).map fun e => e.2.site % 64

/-- The places that R421 leaves for a group: one bay of the partition for all of it; not an avoided bay while another qualifies;
in a partition of one bay, other cores than those of the error while the group fits there. -/
def State.replayOk (s : State) (ts : List Nat) (ps : List Placed) : Bool :=
  let bay := ((ps.head?).map fun p => p.2 / 8).getD 0
  let wants := ts.filterMap s.wantOf
  let avoid := s.avoided ts
  let others := (List.range 8).filter fun b => !avoid.contains b
  let part := ((ts.head?).bind fun t => s.teams[t]?).map fun x => s.partOf x.grid
  let bays := ((part.bind fun p => s.sys.parts.toList[p]?).map Partition.bays).getD 0
  let single := ((List.range 8).filter fun b => bays.getLsbD b).length == 1
  let bad := s.errorCores ts
  let fresh (qs : List Placed) (a : Want) (core : Nat) : Bool :=
    s.bayFits ts bay qs a core && (coresOf a.launch core).all fun k => !bad.contains k
  placesOk (s.bayFits ts bay) ps [] && (!avoid.contains bay || !others.any (s.bayQualifies ts)) &&
  (!single || placesOk fresh ps [] || (findPlaces fresh wants []).isNone)

/-- Groups wait in ascending class, then sequence: none before this one has a bay (R421). -/
def State.replayTurn (s : State) (ts : List Nat) (g : Nat) : Bool :=
  match s.grids[g]? with
  | none => false
  | some x =>
    (indexed s.teams).all fun e =>
      match s.grids[e.2.grid]? with
      | none => true
      | some y =>
        e.2.st != .waitingReplay || ts.contains e.1 || s.heldTeam e.1 || !(y.before x) || s.partOf e.2.grid != s.partOf g ||
          !(List.range 8).any (s.bayQualifies (s.replayGroup e.1))

/-- The entries of a group's rolled-back sets are written, with the bay that they replay in (R420, R432). -/
def State.logReplays (s : State) (ws : List Nat) (bay : Nat) : State :=
  let h := s.sys.health
  let mine := h.replays.filter fun e => ws.contains e.1
  let s1 := { s with sys := { s.sys with health := { h with replays := h.replays.filter fun e => !ws.contains e.1 } } }
  mine.foldl (fun z e => z.logError (z.errWords (some e.1) e.2 (8 + bay))) s1

/-- The sequencer moves a group to a bay: its waves are saved and restored on the way, those of the rolled-back sets in the state of
their rollback, and the sets' regions have their inputs prefetched again (R324, R420). -/
def State.moveGroup (s : State) (ts : List Nat) (ps : List Placed) : State :=
  let ws := s.wavesOf ts
  let sets := dedup ((s.sys.health.replays.filter fun e => ws.contains e.1).flatMap fun e => s.portSet e.1)
  let s1 := ws.foldl State.hold s
  if s1.saveFaults ts then s1.saveFails ts
  else
    let s2 := ((ws.filter fun i => !sets.contains i).foldl State.readForSave s1).storeTeams ts
    -- a request for the group stands (R384)
    let s3 := ts.foldl (fun z t => z.modTeam t fun x =>
      { x with request := (s.teams[t]?).bind Team.request, draining := ((s.teams[t]?).map Team.draining).getD false }) (s2.restore ts ps)
    (sets.foldl State.prefetchFor s3).logReplays ws (((ps.head?).map fun p => p.2 / 8).getD 0)

/-- REGION_REPLAY_DISPATCH: the group of a wave is placed and goes on. -/
def execRegionReplayDispatch (w : Nat) (places : List Placement) (s : State) : Result :=
  .next (match s.waves[w]? with
    | none => s
    | some x =>
      let ts := s.replayGroup x.team
      match matchPlaces (ts.filterMap s.wantOf) places with
      | none => s
      | some ps =>
        if ts.isEmpty || s.heldTeam x.team || !s.savable ts || !s.replayOk ts (ps.map Prod.fst) || !s.replayTurn ts x.grid then s
        else s.moveGroup ts (ps.map Prod.fst))

/-! ## HBM_SCRUB (R411, R413) -/

/-- HBM_SCRUB: a sector is read, each half by its own check symbols; a corrected half is written back, an uncorrectable one is
written back as P. Errors that wait in the sector are met. -/
def execHbmScrub (sector : Nat) (lo hi : EccClass) (s : State) : Result :=
  .next (if hbmSize ≤ 64 * sector then s else ((s.readHbm [sector]).hbmEvent sector lo).hbmEvent sector hi)

/-! ## A slice that stops (R410) -/

/-- Both copies of a tag or directory entry of some slice have failed: Dorzin marks every context of every enabled partition LOST,
logs an SRAM uncorrectable event, and accepts no launch any more. -/
def State.stopSlices (s : State) : State :=
  match s.sys.phys.slices with
  | [] => s
  | ks =>
    let on (c : Context) : Bool := !c.lost && ((s.sys.parts.toList[c.part]?).map Partition.enabled).getD false
    let s1 := (s.modPhys fun p => { p with slices := [] }).modDorzin fun d => { d with sliceStopped := true }
    let s2 := ((s.sys.contexts.filter on).map Context.id).foldl State.loseContext s1
    ks.foldl (fun z k => z.report none ⟨6, 0, llcSite k 0, 0, 0, 0⟩) s2

/-! ## Repoint entries (R425, R426, R428) -/

/-- A repoint entry takes effect, and is logged with KIND 0x0E and ACTION 7. -/
def State.applyRepoint (s : State) (e : DWord) (site : Nat) : State :=
  ({ s with sys := { s.sys with fuses := { s.sys.fuses with repoint := s.sys.fuses.repoint ++ [e] } } }).logError
    (s.errWords none ⟨0x0E, 7, site, 0, 0, 0⟩ 0)

/-- Dorzin pre-empts the teams of a core by save, those under request already excepted (R426). -/
def State.saveCore (s : State) (core : Nat) : State :=
  (s.teamsOn [] core).foldl (fun z t =>
    let ts := z.liveTeams (z.wholeGroup t.grid t.idx)
    if !z.sys.dorzin.runs || !z.allSt ts .resident || ts.any fun k => ((z.teams[k]?).bind Team.request).isSome then z
    else (ts.foldl (fun y k => y.modTeam k fun x => { x with request := some z.sys.dorzin.count }) z).chooseSave ts) s

/-- LANE_REPOINT_APPLY (R426): not while a wave is resident on the quarter; Dorzin then has the core's teams saved. -/
def execLaneRepointApply (i : Nat) (s : State) : Result :=
  .next (match s.sys.health.laneWaits[i]? with
    | none => s
    | some e =>
      let v := e.toNat
      let core := field v 43 9 / 4
      let q := field v 43 9 % 4
      if s.waves.any fun w => w.core == core && w.quarter == q && s.placedWave w then s.saveCore core
      else
        let h := s.sys.health
        ({ s with sys := { s.sys with health := { h with laneWaits := h.laneWaits.eraseIdx i } } }).applyRepoint e
          (core + q * 2 ^ 6 + field v 37 6 * 2 ^ 8))

/-- ROW_COPY_COMPLETE (R428): the copy has read every sector of the row, uncorrectable ones as P, and the spare row serves every
later access. -/
def execRowCopyComplete (i : Nat) (s : State) : Result :=
  .next (match s.sys.health.rowCopies[i]? with
    | none => s
    | some e =>
      let v := e.toNat
      let site := field v 43 9 * 2 ^ 14 + field v 37 6 * 2 ^ 28 + field v 19 18 * 2 ^ 34
      let h := s.sys.health
      let s1 : State := { s with sys := { s.sys with health := { h with rowCopies := h.rowCopies.eraseIdx i } } }
      (s1.readHbm ((s.sys.phys.ecc.filter fun q => hbmSite q.1 == site).map fun q => q.1)).applyRepoint e site)

end Sys2Proof.Machine
end

