-- ==== Sys2Proof/Machine/Control.lean ====
section
/-!
DEFINITION. Control masters, partitions, firmware and attestation (spec/20 R433 to R443), and writes through the control window
(spec/21 R447, R451, R452).
-/

namespace Sys2Proof.Machine

/-! ## Ownership (R438, R439) -/

def State.modOwner (s : State) (f : Owner → Owner) : State := s.modSys fun x => { x with owner := f x.owner }

def Owner.setClaim (o : Owner) (m : Master) (c : Option Claim) : Owner := { o with claims := o.claims.set m c }

def Owner.anyClaim (o : Owner) : Bool := o.claims.toList.any Option.isSome

/-- CTRL_CLAIM_CLAIM. -/
def execCtrlClaimClaim (m : Master) (prio : BitVec 4) (nonce : BitVec 16) (s : State) : Result :=
  .next (s.modOwner fun o =>
    if !o.valid then { o.setClaim m (some ⟨prio, nonce⟩) with elect := true }
    else if o.owner == m then o
    else o.setClaim m (some ⟨prio, nonce⟩))

/-- The owner gives up: claims that wait open a window. -/
def Owner.release (o : Owner) : Owner := { o with valid := false, epoch := o.epoch + 1, elect := o.anyClaim }

/-- CTRL_CLAIM_RELEASE. -/
def execCtrlClaimRelease (m : Master) (s : State) : Result :=
  .next (s.modOwner fun o => if o.valid && o.owner == m then o.release else o.setClaim m none)

/-- CTRL_CLAIM_HANDOVER: to a master with a pending claim; any other write is ignored. -/
def execCtrlClaimHandover (m target : Master) (s : State) : Result :=
  .next (s.modOwner fun o =>
    match o.claims[target] with
    | none => o
    | some c =>
      if o.valid && o.owner == m then
        { o.setClaim target none with owner := target, prio := c.prio, nonce := c.nonce, epoch := o.epoch + 1 }
      else o)

/-- The claim that wins: the highest priority, the lower identifier among equals. -/
def Owner.winner (o : Owner) : Option (Master × Claim) :=
  (List.finRange 4).foldl (fun (best : Option (Master × Claim)) m =>
    match o.claims[m], best with
    | none, _ => best
    | some c, none => some (m, c)
    | some c, some b => if b.2.prio < c.prio then some (m, c) else best) none

/-- ELECTION_WINDOW_CLOSE. -/
def execElectionWindowClose (s : State) : Result :=
  .next (s.modOwner fun o =>
    if !o.elect then o
    else
      match o.winner with
      | none => { o with elect := false }
      | some (m, c) =>
        { valid := true, elect := false, epoch := o.epoch + 1, owner := m, prio := c.prio, nonce := c.nonce,
          claims := Vector.replicate 4 none })

/-- OWNER_LAPSE: as if the owner had released. -/
def execOwnerLapse (s : State) : Result := .next (s.modOwner fun o => if o.valid then o.release else o)

/-- CTRL_OWNER as it reads (R438). -/
def Owner.word (o : Owner) : DWord :=
  BitVec.ofNat 64 ((if o.valid then 2 ^ 63 else 0) + (if o.elect then 2 ^ 62 else 0) + o.epoch.toNat * 2 ^ 32 + o.owner.val * 2 ^ 24 +
    o.prio.toNat * 2 ^ 16 + o.nonce.toNat)

/-! ## Partitions (R433 to R436) -/

/-- PART_CFG as it reads. -/
def Partition.word (p : Partition) : DWord :=
  BitVec.ofNat 64 ((if p.enabled then 2 ^ 63 else 0) + p.ways.toNat * 2 ^ 32 + p.bays.toNat)

def State.modPart (s : State) (p : Fin 8) (f : Partition → Partition) : State :=
  s.modSys fun x => { x with parts := x.parts.set p (f x.parts[p]) }

/-- Two valid ranges of one kind overlap; a range of no frames overlaps none. -/
def rangesMeet (a b : DWord) : Bool :=
  let x := a.toNat
  let y := b.toNat
  bitOf x 63 && bitOf y 63 && bitOf x 62 == bitOf y 62 &&
  decide (max (field x 0 19) (field y 0 19) < min (field x 0 19 + field x 32 19) (field y 0 19 + field y 32 19))

/-- Why a write of ENABLE := 1 is refused (R434); the numbers are the model's (notes/assumptions/2.md). -/
def State.enableRefused (s : State) (p : Fin 8) (new : Partition) : Option Nat :=
  let others := (List.finRange 8).filter fun q => q != p && s.sys.parts[q].enabled
  if new.bays = 0 || others.any fun q => s.sys.parts[q].bays &&& new.bays != 0 then some 0
  else if new.ways.toNat / 2 ^ 12 = 0 then some 1
  else if others.any fun q => s.sys.parts[q].mem.toList.any fun a => new.mem.toList.any (rangesMeet a) then some 2
  else none

/-- PART_CFG_ENABLE (R433, R434). -/
def execPartCfgEnable (m : Master) (p : Fin 8) (v : DWord) (s : State) : Result :=
  let x := s.sys.parts[p]
  let new := { x with enabled := true, ways := BitVec.ofNat 24 (field v.toNat 32 24), bays := BitVec.ofNat 8 v.toNat }
  .next (if !s.isOwner m || x.enabled then s
    else
      match s.enableRefused p new with
      | some reason => s.logEvent 4 (p.val + reason * 2 ^ 3) 0 0
      | none => s.modPart p fun _ => new)

/-- PART_CFG_DISABLE (R436): it takes effect with the partition's last context. -/
def execPartCfgDisable (m : Master) (p : Fin 8) (s : State) : Result :=
  .next (if !s.isOwner m || !s.sys.parts[p].enabled then s
    else (s.modPart p fun x => { x with disabling := true }).settlePart p)

/-! ## What the registers read (R6, R447) -/

/-- RST_STATUS as it reads: WARM, write-only, reads 0 (R463). -/
def Rst.word (r : Rst) : DWord :=
  let bit (b : Bool) (n : Nat) : Nat := if b then 2 ^ n else 0
  BitVec.ofNat 64 (r.wcount.toNat * 2 ^ 32 + r.linkup.toNat * 2 ^ 8 + bit r.recovery 5 + bit r.schedReady 4 + bit r.memReady 3 +
    bit r.fwOk 2 + bit r.warmLast 1 + bit r.romDone 0)

/-- CTRL_PEND: bit m while master m holds a pending claim (R438). -/
def Owner.pend (o : Owner) : DWord :=
  BitVec.ofNat 64 ((List.finRange 4).foldl (fun n m => n + (if o.claims[m].isSome then 2 ^ m.val else 0)) 0)

/-- Word 6 of CTRL_ATTEST (R443). -/
def Attest.word6 (a : Attest) : DWord := BitVec.ofNat 64 (a.status.toNat + a.master.val * 2 ^ 4 + a.seq.toNat * 2 ^ 32)

/-- KICK_PEND word n: bit j stands for queue 64 n + j (R371). -/
def Dorzin.kickPend (d : Dorzin) (n : Nat) : DWord :=
  BitVec.ofNat 64 ((List.range 64).foldl (fun x j => x + (if d.kicks.contains (64 * n + j) then 2 ^ j else 0)) 0)

/-- LLC_CARVE (R407). -/
def Mem.carveWord (m : Mem) : DWord := BitVec.ofNat 64 ((if m.carveBusy then 2 ^ 31 else 0) + m.carveCur * 2 ^ 16 + m.carveK)

/-- PWR_LIMIT and PWR_STATUS (R467). -/
def Power.limitWord (p : Power) : DWord := BitVec.ofNat 64 (p.tlimit % 2 ^ 16 * 2 ^ 32 + p.plimit % 2 ^ 16)

def Power.statusWord (p : Power) : DWord :=
  let uv := (List.finRange 8).foldl (fun n r => n + (if p.rails[r] = 0 then 0 else 2 ^ r.val)) 0
  BitVec.ofNat 64 (p.clk % 2 ^ 16 * 2 ^ 48 + p.pwr % 2 ^ 16 * 2 ^ 32 + p.temp % 2 ^ 16 * 2 ^ 16 + uv)

/-- The committed words of a window entry (R447, R452). -/
def Partition.windowWord (x : Partition) (w k : Nat) : DWord :=
  match x.windows.find? fun e => e.1 == w with
  | none => 0
  | some e => if k = 0 then e.2.1 else if k = 1 then e.2.2.1 else if k = 2 then e.2.2.2 else 0

/-- A register of a partition, by its offset from PART_CFG (R433, R435). -/
def Partition.cfgWord (x : Partition) (o : Nat) : DWord :=
  if o = 0 then x.word
  else if o = 8 then x.rsv
  else if h : 0x10 ≤ o ∧ o < 0x30 ∧ o % 8 = 0 then x.mem[(o - 0x10) / 8]'(by omega)
  else 0

/-- Where registers of the board controller's I3C space stand for CONTROL_REGISTER_WRITE: beyond the 64 MiB of the control
window (notes/assumptions/9.md). -/
def i3cBase : Nat := 2 ^ 26

def lookup (l : List (Nat × DWord)) (n : Nat) : DWord := ((l.find? fun e => e.1 == n).map fun e => e.2).getD 0

/-- What a master reads in an aligned word of the control window (R6, R437, R447): write-only and reserved fields, write-only
registers and offsets that are not allocated read as zero. -/
def State.controlWord (s : State) (m : Master) (off : Nat) : DWord :=
  let y := s.sys
  let part (n : Nat) : Partition := y.parts[(⟨n % 8, Nat.mod_lt _ (by decide)⟩ : Fin 8)]
  if off % 8 != 0 then 0
  else if off = 0 then y.rst.word
  else if off = 0x1000 then y.owner.word
  else if off = 0x1010 then y.owner.pend
  else if h : 0x1100 ≤ off ∧ off < 0x1130 then y.attest.words[m][(off - 0x1100) / 8]'(by omega)
  else if off = 0x1130 then y.attest.word6
  else if 0x2000 ≤ off && off < 0x2838 then BitVec.ofNat 64 (numLE ((y.attest.buffer.drop (off - 0x2000)).take 8))
  else if 0x21000 ≤ off && off < 0x21200 then y.dorzin.kickPend ((off - 0x21000) / 8)
  else if off = 0x40000 then s.mem.carveWord
  else if 0x100000 ≤ off && off < 0x100800 then (part ((off - 0x100000) / 0x100)).cfgWord (off % 0x100)
  else if 0x200000 ≤ off && off < 0x210000 then (part ((off - 0x200000) / 0x2000)).windowWord (off % 0x2000 / 32) (off % 32 / 8)
  else if 0x300000 ≤ off && off < 0x301000 then lookup (part ((off - 0x300000) / 0x200)).imports (off % 0x200 / 8)
  else if off = 0x400000 then y.links.aperCfg
  else if off = 0x400008 then y.links.aperBase
  else if 0x500000 ≤ off && off < 0x502000 then lookup y.links.routes ((off - 0x500000) / 8)
  else if 0x600000 ≤ off && off < 0x600040 then (part ((off - 0x600000) / 8)).collRing
  else if off = i3cBase + 0x10 then y.power.limitWord
  else if off = i3cBase + 0x18 then y.power.statusWord
  else 0

/-! ## Registers without behaviour of their own (R437, R447) -/

/-- The words of a window entry that a write stages next to: staged ones, or the committed entry. -/
def Partition.stagedWords (x : Partition) (w : Nat) : Word × DWord × DWord :=
  match x.staged.find? fun e => e.1 == w with
  | some e => e.2
  | none =>
    match x.windows.find? fun e => e.1 == w with
    | some e => (e.2.1.setWidth 32, e.2.2)
    | none => (0, 0, 0)

def Partition.stage (x : Partition) (w : Nat) (f : Word × DWord × DWord → Word × DWord × DWord) : Partition :=
  { x with staged := (w, f (x.stagedWords w)) :: x.staged.filter fun e => e.1 != w }

/-- The staged words of a window entry and the high half of its first become the entry in one step (R447, R452). -/
def State.commitWindow (s : State) (p : Fin 8) (w : Nat) (hi : Word) : State :=
  s.modPart p fun x =>
    let (lo, w1, w2) := x.stagedWords w
    let base : DWord := 0x00FFFFFFFFE00000#64
    let e : Nat × DWord × DWord × DWord := (w, (hi ++ lo) &&& 0xC3FFFFFF0007FFFF#64, w1 &&& base, w2 &&& base)
    { x with windows := e :: x.windows.filter fun y => y.1 != w }

/-- FABRIC_WINDOW_COMMIT (R447, R452). -/
def execFabricWindowCommit (m : Master) (p : Fin 8) (w : BitVec 8) (hi : Word) (s : State) : Result :=
  .next (if s.isOwner m then s.commitWindow p w.toNat hi else s)

/-- FAB_ROUTE_WRITE (R451, R455): the mask of the ports that lead to a device; the device is no longer lost. -/
def execFabRouteWrite (m : Master) (d : BitVec 10) (v : DWord) (s : State) : Result :=
  .next (if !s.isOwner m then s
    else s.modSys fun x => { x with links := { x.links with
      routes := (d.toNat, v &&& 0xFFFFFF#64) :: x.links.routes.filter fun e => e.1 != d.toNat,
      lost := x.links.lost.filter (· != d.toNat) } })

/-- A write to a register of the owner's alone: reserved bits are ignored (R6). -/
def State.ownerWrite (s : State) (off : Nat) (v : DWord) : State :=
  if off = i3cBase + 0x10 then
    let power : Power := { s.sys.power with
      tlimit := max 85 (min 105 (field v.toNat 32 16)), plimit := max 600 (min 3000 (field v.toNat 0 16)) }
    s.modSys fun x => { x with power := power }
  else if 0x100000 ≤ off && off < 0x100800 then
    let p : Fin 8 := ⟨(off - 0x100000) / 0x100 % 8, Nat.mod_lt _ (by decide)⟩
    let o := off % 0x100
    -- while ENABLE is 1, other fields are not written (R433)
    if s.sys.parts[p].enabled then s
    else if o = 0 then
      -- a write of ENABLE := 1 is a step of its own, PART_CFG_ENABLE
      if bitOf v.toNat 63 then s
      else s.modPart p fun x => { x with ways := BitVec.ofNat 24 (field v.toNat 32 24), bays := BitVec.ofNat 8 v.toNat }
    else if o = 8 then s.modPart p fun x => { x with rsv := v }
    else if h : 0x10 ≤ o ∧ o < 0x30 then
      s.modPart p fun x => { x with mem := x.mem.set ((o - 0x10) / 8) (v &&& 0xC007FFFF0007FFFF#64) (by omega) }
    else s
  else if 0x200000 ≤ off && off < 0x210000 then
    let p : Fin 8 := ⟨(off - 0x200000) / 0x2000 % 8, Nat.mod_lt _ (by decide)⟩
    let w := off % 0x2000 / 32
    match off % 32 with
    | 0 => s.modPart p fun x => x.stage w fun e => (v.setWidth 32, e.2)
    | 8 => s.modPart p fun x => x.stage w fun e => (e.1, v, e.2.2)
    | 16 => s.modPart p fun x => x.stage w fun e => (e.1, e.2.1, v)
    | _ => s
  else if 0x300000 ≤ off && off < 0x301000 then
    let p : Fin 8 := ⟨(off - 0x300000) / 0x200 % 8, Nat.mod_lt _ (by decide)⟩
    let i := off % 0x200 / 8
    s.modPart p fun x => { x with imports := (i, v &&& 0x83FF07000000FFFF#64) :: x.imports.filter fun e => e.1 != i }
  else if off = 0x400000 then s.modSys fun x => { x with links := { x.links with aperCfg := v &&& 0xC00000000007FFFF#64 } }
  else if off = 0x400008 then s.modSys fun x => { x with links := { x.links with aperBase := v &&& 0x00FFFFF000000000#64 } }
  else if 0x600000 ≤ off && off < 0x600040 then
    let p : Fin 8 := ⟨(off - 0x600000) / 8 % 8, Nat.mod_lt _ (by decide)⟩
    s.modPart p fun x => { x with collRing := v &&& 0x1FFFFFFFFFFFF000#64 }
  else s

/-- An aligned word written by a master (R437, R447). CTRL_ATTEST's words are each master's own; every other register is written for
the owner alone. Offsets without a register ignore writes, and a register with behaviour of its own is written by its own step
(LAUNCH_KICK, CTRL_CLAIM_CLAIM and the other rows of the table). -/
def State.controlWrite (s : State) (m : Master) (off : Nat) (v : DWord) : State :=
  if h : 0x1100 ≤ off ∧ off < 0x1130 then
    s.modSys fun x => { x with attest := { x.attest with
      words := x.attest.words.set m (x.attest.words[m].set ((off - 0x1100) / 8) v (by omega)) } }
  else if s.isOwner m then s.ownerWrite off v
  else s

/-- The high half of a window entry's word at an offset (R447): it commits the entry, or is staged. -/
def State.windowHigh (s : State) (off : Nat) (v : Word) : State :=
  let p : Fin 8 := ⟨(off - 0x200000) / 0x2000 % 8, Nat.mod_lt _ (by decide)⟩
  let w := off % 0x2000 / 32
  match off % 32 with
  | 0 => s.commitWindow p w v
  | 8 => s.modPart p fun x => x.stage w fun e => (e.1, v ++ e.2.1.setWidth 32, e.2.2)
  | 16 => s.modPart p fun x => x.stage w fun e => (e.1, e.2.1, v ++ e.2.2.setWidth 32)
  | _ => s

/-- CONTROL_REGISTER_WRITE (R437, R447): one aligned word; at 4 beyond a word its high half, whose low half stays as it is. An access
of another alignment is discarded. -/
def execControlRegisterWrite (m : Master) (off : Nat) (v : DWord) (s : State) : Result :=
  .next (if off % 8 = 0 then s.controlWrite m off v
    else if off % 8 != 4 then s
    else if 0x200000 ≤ off && off < 0x210000 then (if s.isOwner m then s.windowHigh (off - 4) (v.setWidth 32) else s)
    else s.controlWrite m (off - 4) (v.setWidth 32 ++ (s.controlWord m (off - 4)).setWidth 32))

/-! ## Attestation (R441 to R443) -/

def atIdle : BitVec 4 := 0
def atBusy : BitVec 4 := 1
def atDone : BitVec 4 := 2
def atExhausted : BitVec 4 := 3
def atFault : BitVec 4 := 4
def atBadreq : BitVec 4 := 5

/-- CTRL_ATTEST_GO: ignored while a request is in progress. -/
def execCtrlAttestGo (m : Master) (s : State) : Result :=
  .next (if s.sys.attest.status = atBusy then s
    else s.modSys fun x => { x with attest := { x.attest with status := atBusy, master := m, taken := x.attest.words[m] } })

/-- The attestation report (R442). The signatures are free values: the spec computes none. -/
def State.attestReport (s : State) (chal : List Byte) : List Byte :=
  let f := s.sys.fuses
  let digest (d : Option (BitVec 384 × Nat)) : List Byte := bytesLE 48 ((d.map fun e => e.1.toNat).getD 0)
  bytesLE 8 (1 + 2100 * 2 ^ 16) ++ bytesLE 8 f.serial.toNat ++ chal ++ digest f.dorzin ++ digest f.health ++ bytesLE 8 f.version ++
  bytesLE 8 s.sys.owner.word.toNat ++ s.sys.parts.toList.flatMap (fun p => bytesLE 8 p.word.toNat) ++ bytesLE 8 f.lmsLeaf ++
  (List.range 1868).map fun k => Config.signatureByte s.free k

/-- The destination of a report can be written: each of its sectors is translated for a program's store. -/
def State.attestPlaces (s : State) (part asid va : Nat) : Option (List (Nat × Loc)) :=
  (sectors va 2100).mapM fun k =>
    match s.translate part asid (64 * k) writing with
    | .ok p => some (64 * k, p)
    | .error _ => none

/-- Write the report at translated places, as stores of scope .d. -/
def State.attestWrite (s : State) (part asid va : Nat) (report : List Byte) (ps : List (Nat × Loc)) : State :=
  ps.foldl (fun (z : State) e =>
    z.sentVia ((z.recall e.2.line).home e.2.line (ovWrite [] e.1 ((report.drop (e.1 - va)).take 64)) []) part asid) s

/-- The LMS leaf is used, and the fused mark follows it (R441). -/
def Fuses.useLeaf (f : Fuses) : Fuses :=
  { f with lmsLeaf := f.lmsLeaf + 1, lmsMark := max f.lmsMark (f.lmsLeaf / 4096 * 4096) }

/-- What a request does: the state and its status. -/
def State.attest (s : State) : State × BitVec 4 :=
  let a := s.sys.attest
  let dest := a.taken[4].toNat
  let ctl := a.taken[5].toNat
  let mode := field ctl 20 2
  let part := field ctl 16 3
  let on := ((s.sys.parts.toList[part]?).map Partition.enabled).getD false
  if mode = 3 || field ctl 22 42 != 0 || (mode != 2 && decide (2 ^ 56 ≤ dest)) || (mode = 0 && !on) then (s, atBadreq)
  else if 2 ^ 20 ≤ s.sys.fuses.lmsLeaf then (s, atExhausted)
  else if mode != 2 && dest % 64 != 0 then (s, atFault)
  else
    let chal := (a.taken.toList.take 4).flatMap fun w => bytesLE 8 w.toNat
    let report := s.attestReport chal
    let s1 := { s.modSys fun x => { x with fuses := x.fuses.useLeaf } with free := s.free + 1 }
    if mode = 2 then (s1.modSys fun x => { x with attest := { x.attest with buffer := report } }, atDone)
    else if mode = 1 then
      (s1.modSys fun x => { x with links := { x.links with sent := x.links.sent ++ [.host dest report false] } }, atDone)
    else
      match s1.attestPlaces part (field ctl 0 16) dest with
      | none => (s1, atFault)
      | some ps => (s1.attestWrite part (field ctl 0 16) dest report ps, atDone)

/-- ATTEST_FINISH. -/
def execAttestFinish (s : State) : Result :=
  .next (if s.sys.attest.status != atBusy then s
    else
      let (s1, st) := s.attest
      (s1.modSys fun x => { x with attest := { x.attest with status := st, seq := x.attest.seq + 1 } }).msix 2)

/-! ## Firmware (R440) -/

/-- Bits [5:2] of RST_STATUS (R463). -/
def Rst.steps (r : Rst) : List Bool := [r.recovery, r.schedReady, r.memReady, r.fwOk]

/-- RST_STATUS changes; a change of its bits [5:2] raises vector 3 (R446). -/
def State.modRst (s : State) (f : Rst → Rst) : State :=
  let s1 := s.modSys fun x => { x with rst := f x.rst }
  if s1.sys.rst.steps == s.sys.rst.steps then s1 else s1.msix 3

/-- Which checks of an image fail: ECDSA, LMS, the fused counter. -/
def Fuses.failed (f : Fuses) (version : Nat) (ecdsa lms : Bool) : Nat :=
  (if ecdsa then 0 else 1) + (if lms then 0 else 2) + (if f.version ≤ version then 0 else 4)

/-- FIRMWARE_IMAGE_LOAD: of the owner, or in recovery of any master. -/
def execFirmwareImageLoad (m : Master) (version : Nat) (ecdsa lms : Bool) (digest : BitVec 384) (s : State) : Result :=
  .next (if !s.isOwner m && !s.sys.rst.recovery then s
    else
      let bad := s.sys.fuses.failed version ecdsa lms
      if bad != 0 then s.logEvent 2 bad 0 0
      else
        let s1 := s.modSys fun x => { x with fuses := { x.fuses with dorzin := some (digest, version) } }
        s1.modRst fun r => if r.recovery then { r with recovery := false, fwOk := s.sys.fuses.health.isSome } else r)

/-- FUSED_COUNTER_ADVANCE: to the running image's version; it never falls. -/
def execFusedCounterAdvance (m : Master) (s : State) : Result :=
  .next (if !s.isOwner m then s
    else s.modSys fun x => { x with fuses := { x.fuses with
      version := max x.fuses.version ((x.fuses.dorzin.map fun e => e.2).getD 0) } })

end Sys2Proof.Machine
end

