-- ==== Sys2Proof/Machine/Fabric.lean ====
section
/-!
DEFINITION. The host link, the UALink fabric and the collective engine (spec/21 R444 to R459; spec/22 R464).
-/

namespace Sys2Proof.Machine

def State.modLinks (s : State) (f : Links → Links) : State := s.modSys fun x => { x with links := f x.links }

def State.sends (s : State) (m : Sent) : State := s.modLinks fun k => { k with sent := k.sent ++ [m] }

/-! ## Accesses that reach home slices without a core (R448, R453) -/

/-- Partition and address space of an access that no core makes. -/
def State.viaNone (s : State) (part asid : Nat) : Via := ⟨part, asid, s.cores.length⟩

/-- Translate the first byte of each sector of a range, and bring the lines to their slices. -/
def State.homeReach (part asid va n : Nat) (k : Kindly) (s : State) : Except (Nat × XFault) (State × List (Nat × Loc)) :=
  (sectors va n).foldl (fun (acc : Except (Nat × XFault) (State × List (Nat × Loc))) sec =>
    match acc with
    | .error e => .error e
    | .ok (z, ps) =>
      let a := max va (64 * sec)
      if addrBad a then .error (a, ⟨4, xNotMapped⟩)
      else
        match z.request part asid a k with
        | .error f => .error (a, f)
        | .ok (p, z1) => .ok (z1.recallGathers p, ps ++ [(a, p)])) (.ok (s, []))

/-- The bytes of a range at their home slices. -/
def State.homeBytes (s : State) (ps : List (Nat × Loc)) (va n : Nat) : List Byte :=
  (List.range n).map fun i =>
    match ps.find? fun e => e.1 / 64 == (va + i) / 64 with
    | none => 0
    | some (a, p) => s.mem.byte (p.add (va + i - a))

def State.homePoison (s : State) (ps : List (Nat × Loc)) : Bool := ps.any fun e => s.mem.poisoned e.2

/-- Bytes from an address on, those that are enabled. -/
def enabled (va : Nat) (bs : List (Option Byte)) : Overlay := (mapIx (fun i b => (va + i, b)) 0 bs).filterMap fun e => e.2.map fun b => (e.1, b)

/-- Write the enabled bytes of a range at their home slices, or send them on where they lie elsewhere. A poisoned beat poisons each
sector that it writes (R414). -/
def State.homePut (s : State) (part asid va : Nat) (ps : List (Nat × Loc)) (bs : List (Option Byte)) (poison : Bool) : State :=
  let ov := enabled va bs
  ps.foldl (fun (z : State) e =>
    let mine := ov.filter fun b => b.1 / 64 == e.1 / 64
    let bad := if poison && !mine.isEmpty then [e.1 / 64] else []
    if e.2.near then z.homeWrite (z.viaNone part asid) e.2.line mine bad
    else z.sentVia (z.sendOut noWave .s 0 [] e.2.line mine bad) part asid) s

/-- Write bytes, all of them enabled. -/
def State.homeStore (s : State) (part asid va : Nat) (ps : List (Nat × Loc)) (bs : List Byte) (poison : Bool) : State :=
  s.homePut part asid va ps (bs.map some) poison

/-! ## The host aperture (R448, R464) -/

/-- The aperture's partition and address space, and the address of an offset. -/
def Links.aperture (k : Links) (off : Nat) : Nat × Nat × Nat :=
  (field k.aperCfg.toNat 16 3, field k.aperCfg.toNat 0 16, k.aperBase.toNat + off)

/-- A translation fault of a host access: recorded in the event log (R466). -/
def State.apertureFault (s : State) (asid : Nat) (write : Bool) (va : Nat) (f : XFault) : State :=
  s.logEvent 5 (va % 2 ^ 56) (f.word asid va write false) 0

/-- An access lies in BAR2. -/
def inBar2 (off n : Nat) : Bool := n != 0 && decide (off + n ≤ 2 ^ 36)

/-- HOST_APERTURE_READ: data, with the poisoned-TLP bit; Unsupported Request; or Completer Abort. A read of a page that lies
elsewhere is sent on, and completes with its reply. -/
def execHostApertureRead (off width : Nat) (s : State) : Result :=
  let (part, asid, va) := s.sys.links.aperture off
  .next (if !inBar2 off width then s
    else if !s.sys.rst.memReady || !bitOf s.sys.links.aperCfg.toNat 63 then s.sends .unsupported
    else
      match s.homeReach part asid va width reading with
      | .error (a, f) => (s.apertureFault asid false a f).sends .aborted
      | .ok (s1, ps) =>
        match ps with
        | (_, p) :: _ =>
          -- a host read is none of the accesses that lower a reader count (R115)
          if p.near then s1.sends (.aperture (s1.homeBytes ps va width) (s1.homePoison ps))
          else s1.ask noWave .s 0 [] va p (.read width)
        | [] => s)

/-- HOST_APERTURE_WRITE: a posted write; one that is not allowed, or meets a fault, is discarded. A poisoned TLP poisons the
sectors that it writes (R414). -/
def execHostApertureWrite (off : Nat) (bytes : List Byte) (poison : Bool) (s : State) : Result :=
  let (part, asid, va) := s.sys.links.aperture off
  let c := s.sys.links.aperCfg.toNat
  .next (if !inBar2 off bytes.length || !s.sys.rst.memReady || !bitOf c 63 || !bitOf c 62 then s
    else
      match s.homeReach part asid va bytes.length writing with
      | .error (a, f) => s.apertureFault asid true a f
      | .ok (s1, ps) => s1.homeStore part asid va ps bytes poison)

/-! ## Replies (R449, R454) -/

/-- A reply has the form that its request asks for. -/
def replyFits : FabOp → Reply → Bool
  | _, .refused => true
  | .read n, .data bs _ => bs.length == n
  | .atomic op _ _ _, .data bs _ => bs.length == AtomOp.bytes op
  | .addTo k a x, .data bs _ => bs.length == FabOp.width (.addTo k a x)
  | .write _, .done => true
  | _, _ => false

/-- A write, or a reduction of a gathering line, whose reply no instruction and no job looks at: of an L1, of a cure, of the device
itself, of a ray's log or hod. -/
def Remote.posted (r : Remote) : Bool :=
  r.job.isNone && match r.op with
    | .write _ => r.ray.isSome || r.lanes.isEmpty || decide (hodOut ≤ r.out)
    | .atomic .. => r.wave == noWave && r.ray.isNone && r.out == 0
    | _ => false

/-- A read of the host aperture. -/
def Remote.aperture (r : Remote) : Bool :=
  r.wave == noWave && r.strm == .s && r.out == 0 && r.job.isNone && r.ray.isNone && r.lanes.isEmpty && r.reads

/-- Partition, address space and context of a request that nothing waits for. -/
def State.viaRemote (s : State) (r : Remote) : Nat × Nat × BitVec 16 :=
  match r.via, r.ray.bind (fun k => s.rays[k]?), s.waves[r.wave]? with
  | some (part, asid), _, _ => (part, asid, 0)
  | none, some x, _ => let c := s.context x.ctx; (c.part, c.asid, x.ctx)
  | none, none, some w => let c := s.ctxOf w; (c.part, c.asid, s.ctxIdOf w)
  | none, none, none => (0, 0, 0)

/-- A refused write that nothing waits for stays open, in a fault record of its own (R453). -/
def State.refuse (s : State) (r : Remote) : State :=
  if s.mem.faults.any fun f => f.holder == .remote r.tag && !f.answered then s
  else
    let (part, asid, ctx) := s.viaRemote r
    (s.faultRecord part asid ctx (.remote r.tag) ⟨0, xFabric⟩ r.va true false).1

/-- The answer that a read of the aperture gets (R448). -/
def State.apertureReply (s : State) (r : Remote) : Reply → State
  | .data bs bad => s.sends (.aperture bs bad)
  | .refused => (s.apertureFault (field s.sys.links.aperCfg.toNat 0 16) false r.va ⟨0, xFabric⟩).sends .aborted
  | .done => s

/-- A request takes its reply. -/
def State.takeReply (s : State) (r : Remote) (reply : Reply) : State :=
  if r.posted then if reply == .refused then s.refuse r else s.dropRemote r.tag
  else if r.aperture then (s.dropRemote r.tag).apertureReply r reply
  else s.modLinks fun k => { k with remotes := k.remotes.map fun q => if q.tag == r.tag then { q with reply := some reply } else q }

/-- The open request with a tag, to the host or to another device. -/
def State.openRemote (s : State) (tag : Nat) (host : Bool) : Option Remote :=
  s.sys.links.remotes.find? fun r => r.tag == tag && r.reply.isNone && r.dev.isNone == host

/-- HOST_WINDOW_COMPLETION (R449): the data of a read through a host window. -/
def execHostWindowCompletion (tag : Nat) (reply : Reply) (s : State) : Result :=
  .next (match s.openRemote tag true with
    | none => s
    | some r => if replyFits r.op reply && reply != .refused then s.takeReply r reply else s)

/-- FABRIC_ACKNOWLEDGEMENT (R453, R454): the home device's reply. -/
def execFabricAcknowledgement (tag : Nat) (reply : Reply) (s : State) : Result :=
  .next (match s.openRemote tag false with
    | none => s
    | some r => if replyFits r.op reply then s.takeReply r reply else s)

/-- MSIX_UNMASK (R446): one message for a pending bit. -/
def execMsixUnmask (v : BitVec 11) (s : State) : Result :=
  .next (s.modLinks fun k =>
    if k.unmasked.contains v.toNat then k
    else
      { k with unmasked := v.toNat :: k.unmasked, pending := k.pending.filter (· != v.toNat),
               sent := if k.pending.contains v.toNat then k.sent ++ [.msix v.toNat] else k.sent })

/-! ## Requests of other devices (R450 to R454) -/

/-- An entry of FAB_IMP admits a request. -/
def Partition.admits (p : Partition) (q : FabReq) : Bool :=
  p.imports.any fun e =>
    let v := e.2.toNat
    bitOf v 63 && field v 48 10 == q.srcDev && field v 40 3 == q.srcPart && field v 0 16 == q.asid

/-- Watchpoints with FAB set that a fabric atomic matches: one report for each (R472). -/
def State.fabricWatch (s : State) (q : FabReq) : List WatchHit :=
  s.sys.contexts.flatMap fun c =>
    match s.cores.find? fun k => k.watchCtx == some c.id with
    | none => []
    | some core =>
      (mapIx (fun n wp => (n, wp)) 0 core.watch.toList).filterMap fun e =>
        if bitOf e.2.2.toNat 61 then
          (watchByte e.2 q.part q.asid q.addr (FabOp.width q.op)).map fun b =>
            (⟨none, c.id, e.1, b, q.srcDev, 3, core.cycles⟩ : WatchHit)
        else none

/-- The request's old value goes to a register, where its poison is consumed (R228). -/
def FabOp.returns : FabOp → Bool
  | .read _ => true
  | .atomic _ _ _ ret => ret
  | _ => false

/-- A location changed for an atomic request, whose old bytes are the reply. A poisoned one stays as it is, which is logged where
no value is returned; an operand that carries poison poisons it (R228, R265, R414). -/
def State.fabricChange (s : State) (q : FabReq) (ps : List (Nat × Loc)) (f : List Byte → List Byte) : State × Reply :=
  let old := s.homeBytes ps q.addr (FabOp.width q.op)
  if s.homePoison ps then
    (if FabOp.returns q.op then s else s.report none ⟨0x0A, 0, channelOf q.addr * 2 ^ 14, q.addr, 0, 0⟩, .data old true)
  else
    let s1 := s.homeStore q.part q.asid q.addr ps (f old) q.poison
    (s1.modSys fun y => { y with watchHits := y.watchHits ++ s.fabricWatch q }, .data old false)

/-- A request performed at its home slices, with its reply. -/
def State.fabricPerform (s : State) (q : FabReq) (ps : List (Nat × Loc)) : State × Reply :=
  match q.op with
  | .read n =>
    (ps.foldl (fun (z : State) e => if e.1 % 256 < 64 || e.1 == q.addr then z.readCount e.2 else z) s,
     .data (s.homeBytes ps q.addr n) (s.homePoison ps))
  | .write bs => (s.homePut q.part q.asid q.addr ps bs q.poison, .done)
  | .atomic op x c _ =>
    let n := AtomOp.bytes op
    s.fabricChange q ps fun old => bytesLE n (atomNew op (numLE old) (x.toNat % 2 ^ (8 * n)) (c.toNat % 2 ^ (8 * n)))
  | .addTo k acc x => s.fabricChange q ps fun old => bytesLE (kindElem k / 8) (addInto k acc (numLE old) x.toNat)

/-- The reply of a request is sent, and kept for its tag (R451). -/
def State.replies (s : State) (q : FabReq) (r : Reply) : State :=
  s.modLinks fun k => { k with kept := (q.srcDev, q.tag, r) :: k.kept, sent := k.sent ++ [.reply q.srcDev q.tag r] }

/-- FABRIC_REQUEST_ARRIVAL (R451, R453): a tag already performed gets its kept reply; a request that no entry admits, or that
meets a fault, is refused. -/
def execFabricRequestArrival (q : FabReq) (s : State) : Result :=
  .next (if s.sys.rst.linkup = 0 || !s.sys.rst.memReady then s
    else
      match s.sys.links.kept.find? fun e => e.1 == q.srcDev && e.2.1 == q.tag with
      | some (_, _, r) => s.sends (.reply q.srcDev q.tag r)
      | none =>
        let admitted := ((s.sys.parts.toList[q.part]?).map fun p => p.admits q).getD false
        if !admitted then s.replies q .refused
        else
          match s.homeReach q.part q.asid q.addr (FabOp.width q.op) (match q.op with | .read _ => reading | _ => writing) with
          | .error _ => s.replies q .refused
          | .ok (s1, ps) =>
            if ps.all fun e => e.2.near then
              let (s2, r) := s1.fabricPerform q ps
              s2.replies q r
            else s.replies q .refused)

/-! ## Ports (R451, R464) -/

/-- LINKUP and the event log follow a port (R463, R466). -/
def State.setPort (s : State) (p : Fin 24) (up : Bool) : State :=
  let bit : BitVec 24 := 1#24 <<< p.val
  (s.modSys fun x => { x with
      rst := { x.rst with linkup := if up then x.rst.linkup ||| bit else x.rst.linkup &&& ~~~bit },
      links := { x.links with retries := x.links.retries.set p 0 } }).logEvent 6 p.val 0 0

def State.portUp (s : State) (p : Fin 24) : Bool := s.sys.rst.linkup.getLsbD p.val

/-- UALINK_PORT_DOWN. -/
def execUalinkPortDown (p : Fin 24) (s : State) : Result := .next (if s.portUp p then s.setPort p false else s)

/-- UALINK_PORT_RETRAIN: ports train after FW_OK; a port that does not train tries again. -/
def execUalinkPortRetrain (p : Fin 24) (ok : Bool) (s : State) : Result :=
  .next (if s.sys.rst.fwOk && !s.portUp p && ok then s.setPort p true else s)

/-- DATA_LINK_RETRY: 16 failed retries in a row take the port down. -/
def execDataLinkRetry (p : Fin 24) (ok : Bool) (s : State) : Result :=
  .next (if !s.portUp p then s
    else if ok then s.modLinks fun k => { k with retries := k.retries.set p 0 }
    else if s.sys.links.retries[p] < 15 then s.modLinks fun k => { k with retries := k.retries.set p (k.retries[p] + 1) }
    else s.setPort p false)

/-- The ports that lead to a device (R451). -/
def Links.route (k : Links) (d : Nat) : BitVec 24 :=
  match k.routes.find? fun e => e.1 == d with
  | none => 0
  | some e => e.2.setWidth 24

/-- The port that a request for a line takes: the k-th up port of the mask, by the address (R451). -/
def State.portFor (s : State) (d va : Nat) : Option Nat :=
  let up := s.sys.links.route d &&& s.sys.rst.linkup
  let ports := (List.range 24).filter fun p => up.getLsbD p
  ports[field va 8 13 % ports.length]?

/-- DEVICE_LOST (R455): a device whose route has no up port. Its open requests are answered. -/
def execDeviceLost (d : BitVec 10) (s : State) : Result :=
  let k := s.sys.links
  .next (if k.lost.contains d.toNat || (s.portFor d.toNat 0).isSome then s
    else
      let s1 := (s.modLinks fun x => { x with lost := d.toNat :: x.lost }).logEvent 7 d.toNat 0 0
      (k.remotes.filter fun r => r.dev == some d.toNat && r.reply.isNone).foldl (fun (z : State) r => z.takeReply r (lostReply r.op)) s1)

/-- POD_DEVICE_NUMBER_SET (R452, R464): the fabric manager numbers the device once its ports train. -/
def execPodDeviceNumberSet (n : BitVec 10) (s : State) : Result :=
  .next (if s.sys.rst.fwOk then s.modLinks fun k => { k with number := n.toNat } else s)

/-- CONFIGURATION_REQUEST (R464). -/
def execConfigurationRequest (s : State) : Result := .next (s.sends (if s.sys.rst.romDone then .configDone else .configRetry))

/-! ## Collectives (R456 to R459) -/

/-- A word of a record. -/
def Coll.word (c : Coll) (k : Nat) : Nat := numLE ((c.record.drop (8 * k)).take 8)

def Coll.op (c : Coll) : Nat := field (c.word 0) 0 4
def Coll.redop (c : Coll) : Nat := field (c.word 0) 4 4
def Coll.kind (c : Coll) : Option Kind := Kind.ofCode (field (c.word 0) 8 5)
def Coll.root (c : Coll) : Nat := field (c.word 0) 16 16
def Coll.tag (c : Coll) : Nat := field (c.word 0) 32 32
def Coll.count (c : Coll) : Nat := c.word 1
def Coll.tmo (c : Coll) : Nat := field (c.word 7) 0 6

/-- The kinds of elements that a collective takes. -/
def collKind : Kind → Bool
  | .fmt .fp64 | .fmt .fp32 | .fmt .bf16 | .fmt .fp16 | .i32 | .n32 | .i64 | .n64 => true
  | _ => false

def Kind.float : Kind → Bool
  | .fmt _ => true
  | _ => false

/-- The fields of a record that stand alone are legal. -/
def Coll.fieldsOk (c : Coll) : Bool :=
  decide (c.op ≤ 3) && decide (c.redop ≤ 5) && field (c.word 0) 13 3 == 0 && c.count != 0 && decide (c.count < 2 ^ 32) &&
  (c.tmo == 0 || (decide (20 ≤ c.tmo) && decide (c.tmo ≤ 40))) && c.word 7 / 2 ^ 6 == 0 &&
  ((List.range 8).all fun k => c.word (8 + k) == 0) &&
  match c.kind with
  | none => false
  | some k => collKind k && (!Kind.float k || decide (c.redop ≤ 2))

/-- The group descriptor is legal for a device: n, own rank, device numbers by rank. -/
def Coll.groupOk (c : Coll) (number : Nat) (group : List Nat) (rank : Nat) : Bool :=
  decide (2 ≤ group.length) && decide (group.length ≤ 1024) && decide (rank < group.length) && group[rank]? == some number &&
  (c.op != 3 || decide (c.root < group.length))

/-- The ring of a partition, a hod of records of 128 bytes (R456). -/
def Partition.ring (p : Partition) : Option Hod :=
  let v := p.collRing.toNat
  if 4 ≤ field v 56 5 && field v 56 5 ≤ 16 then some ⟨field v 0 56, field v 56 5, false⟩ else none

/-- The collective engine as it asks for what its ring holds. -/
def collAsker (part : Nat) : Asker := ⟨none, noWave, .s, 2 * hodOut + part, []⟩

/-- COLL_RECORD_TAKE (R380, R456). A ring that meets a fault waits for its answer; a poisoned record is taken and forgotten. -/
def execCollRecordTake (p : Fin 8) (s : State) : Result :=
  .next (match s.sys.parts[p].ring with
    | none => s
    | some h =>
      if s.ringHeld p h.base then s
      else
        let v := s.viaNone p (Config.collAsid p.val)
        match s.hodTake (collAsker p) v h with
        | .ok (s1, some (_, bs, bad)) =>
          if bad then s1 else s1.modLinks fun k => { k with colls := k.colls ++ [⟨p.val, bs, false, none, false, false, s.sys.health.clock⟩] }
        | .ok (s1, none) => s1
        | .error (z, .fault va f write) => z.ringFault v 0 h.base va f write
        | .error (z, _) => z)

/-- Data that the engine reads in an address space: a fault, a wait for a reply, or bytes with their poison. -/
inductive CollGot where
  | fault (va : Nat) (f : XFault)
  | wait (s : State)
  | ok (s : State) (bytes : List Byte) (poison : Bool)

/-- Read n bytes for the engine. A range elsewhere is asked for whole. -/
def State.collRead (s : State) (part va n : Nat) : CollGot :=
  match s.homeReach part (Config.collAsid part) va n reading with
  | .error (a, f) => .fault a f
  | .ok (s1, ps) =>
    match ps with
    | [] => .ok s1 [] false
    | (_, p) :: _ =>
      if p.near then .ok s1 (s1.homeBytes ps va n) (s1.homePoison ps)
      else
        match s1.sys.links.remotes.find? fun r => r.wave == noWave && r.strm == .l .a && r.va == va && r.op == .read n with
        | none => .wait (s1.ask noWave (.l .a) 0 [] va p (.read n))
        | some r =>
          match r.reply with
          | none => .wait s
          | some (.data bs bad) => .ok (s1.dropRemote r.tag) bs bad
          | some .done => .wait s
          | some .refused => .fault va ⟨0, xFabric⟩

/-- One step of a reduction (R457): no flag is raised. -/
def collStep (k : Kind) (redop acc x : Nat) : Nat :=
  let n := kindElem k
  let signed := ((kindInt k).map fun e => e.1).getD false
  let sg (v : Nat) : Int := sfield v 0 n
  match k with
  | .fmt f =>
    match fmtFlt f with
    | none => acc
    | some F =>
      match redop with
      | 0 => (F.add .rne 0 (F.decode acc) (F.decode x)).1
      | 1 => (F.minMax false false acc x).1
      | _ => (F.minMax true false acc x).1
  | _ =>
    match redop with
    | 0 => (acc + x) % 2 ^ n
    | 1 => if signed then (if sg x < sg acc then x else acc) else min acc x
    | 2 => if signed then (if sg acc < sg x then x else acc) else max acc x
    | 3 => acc &&& x
    | 4 => acc ||| x
    | _ => acc ^^^ x

/-- Elements of a width in bytes. -/
def elems (e : Nat) : Nat → List Byte → List Nat
  | 0, _ => []
  | n + 1, bs => numLE (bs.take e) :: elems e n (bs.drop e)

/-- Element k of a reduction over contributors in ascending rank: a left fold (R457). -/
def collFold (k : Kind) (redop : Nat) : List (List Nat) → List Nat
  | [] => []
  | first :: rest => rest.foldl (fun acc xs => List.zipWith (collStep k redop) acc xs) first

/-- Ranks of contributors in ascending order with what each contributes. -/
def byRank (n : Nat) (parts : List (Nat × List Byte)) : List (Nat × List Byte) :=
  (List.range n).filterMap fun r => parts.find? fun e => e.1 == r

/-- Bytes of one block. -/
def Coll.block (c : Coll) : Nat := c.count * (((c.kind.map kindElem).getD 0) / 8)

/-- What this member gives: the block that a reduce-scatter asks it for, or all of SRC. -/
def Coll.srcSize (c : Coll) (n : Nat) : Nat := if c.op = 1 then n * c.block else c.block

/-- The result for this member: pairs of an offset in DST and bytes; none where the root is missing (R456 to R458). -/
def Coll.result (c : Coll) (k : Kind) (parts : List (Nat × List Byte)) : Option (List (Nat × List Byte)) :=
  let e := kindElem k / 8
  match c.op with
  | 2 => some (parts.map fun p => (p.1 * c.block, p.2))
  | 3 => (parts.find? fun p => p.1 == c.root).map fun p => [(0, p.2)]
  | _ => some [(0, (collFold k c.redop (parts.map fun p => elems e c.count p.2)).flatMap fun x => bytesLE e x)]

/-- The first step of a completion: the mask (R459). -/
def maskBytes (mask : List Nat) : List Byte := bytesLE 128 (mask.foldl (fun n r => n + 2 ^ r) 0)

/-- A fault of the engine: held until system software answers; one that cannot be resolved completes FAULT (R456). -/
def State.collFault (s : State) (i : Nat) (c : Coll) (va : Nat) (f : XFault) (write : Bool) : State :=
  if f.fatal || addrBad va then s.modColl i fun y => { y with fatal := true }
  else
    let (s1, id, _) := s.faultRecord c.part (Config.collAsid c.part) 0 (.coll i) f va write false
    s1.modColl i fun y => { y with held := some id }

/-- Write the completion area: the mask, and then the status word. A completion area that cannot be written ends the collective
without a trace. -/
def State.collEnd (s : State) (i : Nat) (c : Coll) (status : Nat) (mask : List Nat) : State :=
  let asid := Config.collAsid c.part
  let comp := c.word 5
  let s1 := s.modColl i fun y => { y with done := true }
  let word := status + mask.length * 2 ^ 16 + c.tag * 2 ^ 32
  match s1.homeReach c.part asid (comp + 0x40) 128 writing with
  | .error (a, f) => if c.fatal || f.fatal || addrBad a then s1 else s.collFault i c a f true
  | .ok (s2, ps) =>
    match (s2.homeStore c.part asid (comp + 0x40) ps (maskBytes mask) false).homeReach c.part asid comp 8 writing with
    | .error (a, f) => if c.fatal || f.fatal || addrBad a then s1 else s.collFault i c a f true
    | .ok (s3, qs) => s3.homeStore c.part asid comp qs (bytesLE 8 word) false

/-- The leader, as this device sees it: the lowest rank that is not lost (R458). -/
def State.collLeader (s : State) (group : List Nat) : Nat :=
  ((List.range group.length).find? fun r => !(s.sys.links.lost.contains ((group[r]?).getD 0))).getD 0

/-- The mask is one that may stand: a leader waits for every member that is not lost, unless its limit of time has passed, and
contributes itself. -/
def State.maskOk (s : State) (c : Coll) (group : List Nat) (rank : Nat) (mask : List Nat) : Bool :=
  let leader := s.collLeader group
  leader != rank ||
    (mask.contains rank && (c.sealed ||
      (List.range group.length).all fun r => mask.contains r || s.sys.links.lost.contains ((group[r]?).getD 0)))

/-- The contributions have their lengths: this member's own stands for its SRC and is empty. -/
def Coll.partsOk (c : Coll) (n rank : Nat) (parts : List (Nat × List Byte)) : Bool :=
  (dedup (parts.map fun e => e.1)).length == parts.length &&
  parts.all fun e => decide (e.1 < n) &&
    (if e.1 == rank then e.2.isEmpty else if c.op = 3 && e.1 != c.root then e.2.isEmpty else e.2.length == c.block)

/-- The group descriptor that a record names. -/
def groupOf (bs : List Byte) : List Nat := (List.range (bs.length / 2)).map fun k => numLE ((bs.drop (2 * k)).take 2)

/-- COLL_SEAL_TIMEOUT (R458): the limit of a leader with LOG2TMO above 0 passes, in cycles of the management core since its own
record. -/
def execCollSealTimeout (i : Nat) (s : State) : Result :=
  .next (match s.sys.links.colls[i]? with
    | none => s
    | some c => if c.done || c.tmo = 0 || decide (s.sys.health.clock < c.since + 2 ^ c.tmo) then s else s.modColl i fun y => { y with sealed := true })

/-- Run a collective whose record and group are legal, over given contributors. -/
def State.collRun (s : State) (i : Nat) (c : Coll) (k : Kind) (group : List Nat) (rank : Nat) (parts : List (Nat × List Byte)) : State :=
  let n := group.length
  let mask := (byRank n parts).map fun e => e.1
  if !c.partsOk n rank parts || !s.maskOk c group rank mask || mask.isEmpty then s
  else if !mask.contains rank then s.collEnd i c 2 mask
  else if c.op = 3 && !mask.contains c.root then s.collEnd i c 3 mask
  else
    let status := if mask.length = n then 0 else 1
    -- a member reads its SRC where the result needs it
    let need := if c.op = 3 && rank != c.root then 0 else c.srcSize n
    match s.collRead c.part (c.word 3) need with
    | .fault va f => s.collFault i c va f false
    | .wait s1 => s1
    | .ok s1 own bad =>
      let mine := if c.op = 1 then (own.drop (rank * c.block)).take c.block else own
      let all := byRank n (parts.map fun e => if e.1 == rank then (e.1, mine) else e)
      match c.result k all with
      | none => s1.collEnd i c 3 mask
      | some ws =>
        let asid := Config.collAsid c.part
        let out := ws.foldl (fun (acc : Except (Nat × XFault) State) e =>
          match acc with
          | .error x => .error x
          | .ok z =>
            match z.homeReach c.part asid (c.word 4 + e.1) e.2.length writing with
            | .error x => .error x
            | .ok (z1, ps) => .ok (z1.homeStore c.part asid (c.word 4 + e.1) ps e.2 bad)) (.ok s1)
        match out with
        | .error (va, f) => s.collFault i c va f true
        | .ok s2 => s2.collEnd i c status mask

/-- COLL_COMPLETE: the collective ends over the contributors given, with the data of each other member. -/
def execCollComplete (i : Nat) (parts : List (Nat × List Byte)) (s : State) : Result :=
  .next (match s.sys.links.colls[i]? with
    | none => s
    | some c =>
      if c.done || c.held.isSome then s
      else if c.fatal then s.collEnd i c 5 []
      else
        match c.fieldsOk, c.kind with
        | true, some k =>
          match s.collRead c.part (c.word 2) 8 with
          | .fault va f => s.collFault i c va f false
          | .wait s1 => s1
          | .ok s1 head bad =>
            let n := field (numLE head) 0 16
            let rank := field (numLE head) 16 16
            if bad || n < 2 || 1024 < n then s1.collEnd i c 4 []
            else
              match s1.collRead c.part (c.word 2 + 8) (2 * n) with
              | .fault va f => s1.collFault i c va f false
              | .wait s2 => s2
              | .ok s2 list bad2 =>
                let group := groupOf list
                if bad2 || !c.groupOk s.sys.links.number group rank then s2.collEnd i c 4 []
                else s2.collRun i c k group rank parts
        | _, _ => s.collEnd i c 4 [])

end Sys2Proof.Machine
end

