-- ==== Sys2Proof/Machine/Bringup.lean ====
section
/-!
DEFINITION. Resets, bring-up, the power governor and the rails (spec/22 R460 to R468).
-/

namespace Sys2Proof.Machine

/-! ## Resets (R460 to R463) -/

/-- What neither reset takes: the messages that have left the device, retired quarters, and the model's own fields. -/
def State.keepOver (s new : State) : State :=
  { new with
    sys := { new.sys with
      links := { new.sys.links with sent := s.sys.links.sent },
      power := { new.sys.power with nominal := s.sys.power.nominal, minimum := s.sys.power.minimum },
      phys := { new.sys.phys with residue := s.sys.phys.residue } },
    cores := s.cores.map fun c => { Core.reset with retired := c.retired },
    agenda := s.agenda, tick := s.tick, free := s.free }

/-- Lane entries that waited for their quarters take effect: no wave is left. -/
def State.fusesKept (s : State) : Fuses :=
  { s.sys.fuses with repoint := s.sys.fuses.repoint ++ s.sys.health.laneWaits, resets := s.sys.fuses.resets + 1 }

/-- A cold reset (R461): fuses and the repoint entries stay; signing resumes above the fused mark (R441). -/
def State.coldReset (s : State) : State :=
  let f := s.fusesKept
  s.keepOver { State.reset with sys := { Sys.reset with fuses := { f with dorzin := none, health := none, lmsLeaf := f.lmsMark + 4096 } } }

/-- POWER_ON. -/
def execPowerOn (s : State) : Result := .next s.coldReset

/-- PERST_ASSERT. -/
def execPerstAssert (s : State) : Result := .next s.coldReset

/-- I3C_RESET_COMMAND. -/
def execI3cResetCommand (s : State) : Result := .next s.coldReset

/-- Memory over a warm reset: dirty lines of every L1, and lines with a reader count, are written back; green data, carved data and
every cached entry are lost (R462). -/
def State.settledMem (s : State) : Mem :=
  let s1 := (List.range s.cores.length).foldl (fun z c => z.flush c fun _ => true) s
  let m := (s1.mem.llc.filter fun x => x.rc.isSome).foldl Mem.writeLine s1.mem
  { Mem.reset with hbm := m.hbm, hbmPoison := m.hbmPoison }

/-- A warm reset (R461, R462), with its trigger: the logs and the journal are kept, and the journal goes on in a new ring. One that
falls into a reset that has not reached ROM_DONE merges with it (R460). It lasts longer than the cycles within which log entries
merge (notes/assumptions/33.md). -/
def State.warmReset (s : State) (trigger : Nat) : State :=
  if !s.sys.rst.romDone then s
  else
    let d := s.sys.dorzin
    let lost := (s.grids.filter fun g => !g.complete).length
    let dorzin : Dorzin := { Dorzin.reset with
      errors := d.errors, errorSeq := d.errorSeq, events := d.events, eventSeq := d.eventSeq, kept := d.kept ++ d.journal }
    let rst : Rst := { Rst.reset with wcount := s.sys.rst.wcount + 1, warmLast := true }
    let power : Power := { Power.reset with trip := s.sys.power.trip }
    let s1 := s.keepOver { State.reset with
      sys := { Sys.reset with fuses := s.fusesKept, dorzin := dorzin, rst := rst, power := power,
                              health := { Sys.reset.health with clock := s.sys.health.clock + 4096 },
                              phys := { Sys.reset.phys with ecc := s.sys.phys.ecc } },
      mem := s.settledMem }
    s1.logEvent 1 trigger (BitVec.ofNat 64 lost) 0

/-- RST_STATUS_WARM: WARM := 1, of the owner, or of the host while no owner holds the device (R463). -/
def execRstStatusWarm (m : Master) (s : State) : Result :=
  .next (if s.isOwner m || (!s.sys.owner.valid && m == 0) then s.warmReset 0 else s)

/-- The model's numbers of the triggers over the host link (notes/assumptions/2.md). -/
def LinkReset.code : LinkReset → Nat
  | .hot => 1
  | .secondaryBus => 2
  | .functionLevel => 3
  | .d3hotToD0 => 4

/-- HOST_LINK_RESET. -/
def execHostLinkReset (k : LinkReset) (s : State) : Result := .next (s.warmReset (LinkReset.code k))

/-- WATCHDOG_EXPIRY. -/
def execWatchdogExpiry (s : State) : Result := .next (s.warmReset 5)

/-! ## Bring-up (R464, R465) -/

/-- FIRMWARE_VERIFY: fuses are loaded and the boot ROM runs (step 1); it verifies the images (step 2). After a warm reset the
previous images are verified again. -/
def execFirmwareVerify (version : Nat) (ecdsa lms : Bool) (dorzin health : BitVec 384) (s : State) : Result :=
  let r := s.sys.rst
  .next (if r.fwOk || r.recovery then s
    else
      let f := s.sys.fuses
      let images := match r.warmLast, f.dorzin, f.health with
        | true, some a, some b => (a, b)
        | _, _, _ => ((dorzin, version), (health, version))
      let bad := f.failed images.1.2 ecdsa lms
      if bad != 0 then (s.modRst fun x => { x with romDone := true, recovery := true }).logEvent 2 bad 0 0
      else (s.modSys fun x => { x with fuses := { f with dorzin := some images.1, health := some images.2 } }).modRst fun x =>
        { x with romDone := true, fwOk := true })

/-- The in-service copy of repoint entries is checked; a copy that fails is discarded, and the event logged (R461). The check's
outcome is free: the spec computes no code. -/
def State.checkRepoint (s : State) : State :=
  let f := s.sys.fuses
  let fused := f.repoint.filter fun e => bitOf e.toNat 61
  let s1 := { s with free := s.free + 1 }
  if fused.length = f.repoint.length || !Config.freeBit s.free then s1
  else (s1.modSys fun x => { x with fuses := { f with repoint := fused } }).logEvent 0x0B 0 0 0

/-- CHANNEL_TRAINING: every channel trains and the repoint entries are applied; a channel that fails leaves MEM_READY at 0. -/
def execChannelTraining (failed : List Nat) (s : State) : Result :=
  let r := s.sys.rst
  .next (if !r.fwOk || r.memReady || !failed.isEmpty then s
    else s.checkRepoint.modRst fun x => { x with memReady := true })

/-- The last byte address at which the 128 KiB of the queue table may begin (R19, R370). -/
def qtabLast : Nat := hbmSize - 4096 * 32

/-- SCHEDULER_START: the logs and the journal open (step 4). System software sets QTAB through Dorzin (R370): a free value within HBM. -/
def execSchedulerStart (s : State) : Result :=
  let r := s.sys.rst
  .next (if !r.memReady || r.schedReady then s
    else (s.modRst fun x => { x with schedReady := true }).modDorzin fun d =>
      { d with qtab := Config.qtab s.sys.fuses.resets % (qtabLast + 1) })

/-! ## Power (R467, R468, R430) -/

/-- The clock after one action of the governor: its rules in their order. -/
def Power.nextClk (p : Power) (pwr temp : Nat) : Nat :=
  if p.plimit < pwr || p.tlimit < temp then max 1200 (p.clk - 100)
  else if 100 * pwr < 95 * p.plimit && temp + 3 ≤ p.tlimit then min 3600 (p.clk + 100)
  else p.clk

/-- GOVERNOR_TICK: the clock, with an event when it changes, and the thermal trip. -/
def execGovernorTick (pwr temp : BitVec 16) (s : State) : Result :=
  let p := s.sys.power
  let clk := p.nextClk pwr.toNat temp.toNat
  let trip := p.trip || (p.clk == 1200 && decide (p.tlimit + 5 < temp.toNat))
  let s1 := s.modSys fun x => { x with power := { p with pwr := pwr.toNat, temp := temp.toNat, clk := clk, trip := trip } }
  .next (if clk = p.clk then s1 else s1.logEvent 0x0A clk 0 0)

/-- A rail may go down one step of 5 mV: the health manager allows it, at most 8 % below nominal, not below the fused minimum. -/
def Power.mayLower (p : Power) (r : Fin 8) : Bool :=
  let below := 5 * (p.rails[r] + 1)
  !p.locked[r] && !p.held[r] && decide (100 * below ≤ 8 * p.nominal[r]) && decide (p.minimum[r] + below ≤ p.nominal[r])

/-- RAIL_VOLTAGE_STEP: the governor moves a rail one step down, or back towards nominal. -/
def execRailVoltageStep (rail : Fin 8) (lower : Bool) (s : State) : Result :=
  let p := s.sys.power
  let n := p.rails[rail]
  .next (if lower then
      (if p.mayLower rail then s.modSys fun x => { x with power := { p with rails := p.rails.set rail (n + 1) } } else s)
    else s.modSys fun x => { x with power := { p with rails := p.rails.set rail (n - 1) } })

end Sys2Proof.Machine
end

