-- ==== Sys2Proof/Machine/Dispatch.lean ====
section
/-!
DEFINITION. The one dispatcher: each step of spec/opcode_table.json and its meaning.
-/

namespace Sys2Proof.Machine

def exec (i : Instr) (s : State) : Host.Outcome State Fault Refusal :=
  match i with
  -- S-ops: integer arithmetic (R157)
  | .sadd d a b => Sys2Proof.Machine.execSadd d a b s
  | .ssub d a b => Sys2Proof.Machine.execSsub d a b s
  | .sand d a b => Sys2Proof.Machine.execSand d a b s
  | .sor d a b => Sys2Proof.Machine.execSor d a b s
  | .sxor d a b => Sys2Proof.Machine.execSxor d a b s
  | .sshl d a b => Sys2Proof.Machine.execSshl d a b s
  | .sshr d a b => Sys2Proof.Machine.execSshr d a b s
  | .ssar d a b => Sys2Proof.Machine.execSsar d a b s
  | .smul d a b => Sys2Proof.Machine.execSmul d a b s
  | .smulh d a b => Sys2Proof.Machine.execSmulh d a b s
  | .smulhU d a b => Sys2Proof.Machine.execSmulhU d a b s
  | .sdiv d a b => Sys2Proof.Machine.execSdiv d a b s
  | .sdivU d a b => Sys2Proof.Machine.execSdivU d a b s
  | .srem d a b => Sys2Proof.Machine.execSrem d a b s
  | .sremU d a b => Sys2Proof.Machine.execSremU d a b s
  | .smin d a b => Sys2Proof.Machine.execSmin d a b s
  | .smax d a b => Sys2Proof.Machine.execSmax d a b s
  | .sminU d a b => Sys2Proof.Machine.execSminU d a b s
  | .smaxU d a b => Sys2Proof.Machine.execSmaxU d a b s
  | .scmp c d a b => Sys2Proof.Machine.execScmp c d a b s
  | .sselNz d a b => Sys2Proof.Machine.execSselNz d a b s
  | .sselZ d a b => Sys2Proof.Machine.execSselZ d a b s
  | .sli d imm => Sys2Proof.Machine.execSli d imm s
  | .slui d imm => Sys2Proof.Machine.execSlui d imm s
  -- S-ops: control flow (R161)
  | .sbr c a b off => Sys2Proof.Machine.execSbr c a b off s
  | .sjmp off => Sys2Proof.Machine.execSjmp off s
  | .scall d off => Sys2Proof.Machine.execScall d off s
  | .sret a => Sys2Proof.Machine.execSret a s
  | .sloop d off => Sys2Proof.Machine.execSloop d off s
  -- S-ops: memory (R163, R165)
  | .sld d a ann sz sx off => Sys2Proof.Machine.execSld d a ann sz sx off s
  | .sst d a ann sz off => Sys2Proof.Machine.execSst d a ann sz off s
  | .satom d a op wide nr ordm ann => Sys2Proof.Machine.execSatom d a op wide nr ordm ann s
  | .sldk d a sz sx off => Sys2Proof.Machine.execSldk d a sz sx off s
  -- S-ops: lane dispatch, register blocks (R166 to R169)
  | .lrun a cnt off => Sys2Proof.Machine.execLrun a cnt off s
  | .spop d => Sys2Proof.Machine.execSpop d s
  | .ldrain => Sys2Proof.Machine.execLdrain s
  | .regxAcq k => Sys2Proof.Machine.execRegxAcq k s
  | .regxRel k => Sys2Proof.Machine.execRegxRel k s
  -- S-ops: copy jobs and completion maps (R308 to R317)
  | .jcopyLoad a b rel => Sys2Proof.Machine.execJcopyLoad a b rel s
  | .jcopyStore a b rel => Sys2Proof.Machine.execJcopyStore a b rel s
  | .jcopyAdd a b rel => Sys2Proof.Machine.execJcopyAdd a b rel s
  | .jstat d tag => Sys2Proof.Machine.execJstat d tag s
  | .cwait a b tags y any off => Sys2Proof.Machine.execCwait a b tags y any off s
  | .ctest d a b tags => Sys2Proof.Machine.execCtest d a b tags s
  | .wcnt d => Sys2Proof.Machine.execWcnt d s
  -- S-ops: regions, bonds, barriers (R170 to R174)
  | .rgnBeg id => Sys2Proof.Machine.execRgnBeg id s
  | .rgnEnd d => Sys2Proof.Machine.execRgnEnd d s
  | .rgnIn a b => Sys2Proof.Machine.execRgnIn a b s
  | .rgnOut a b => Sys2Proof.Machine.execRgnOut a b s
  | .bond a => Sys2Proof.Machine.execBond a s
  | .barArr id => Sys2Proof.Machine.execBarArr id s
  | .barWait d id => Sys2Proof.Machine.execBarWait d id s
  | .cbarArr id => Sys2Proof.Machine.execCbarArr id s
  | .cbarWait d id => Sys2Proof.Machine.execCbarWait d id s
  -- S-ops: system (R175 to R180), prefixes (R139)
  | .trap n => Sys2Proof.Machine.execTrap n s
  | .sysc d a n => Sys2Proof.Machine.execSysc d a n s
  | .srdx d n => Sys2Proof.Machine.execSrdx d n s
  | .swrx a n => Sys2Proof.Machine.execSwrx a n s
  | .nop => Sys2Proof.Machine.execNop s
  | .yield n => Sys2Proof.Machine.execYield n s
  | .exit => Sys2Proof.Machine.execExit s
  | .rseed a => Sys2Proof.Machine.execRseed a s
  | .xim payload => Sys2Proof.Machine.execXim payload s
  | .xhnt kind n => Sys2Proof.Machine.execXhnt kind n s
  -- L-ops: integer (R185 to R190)
  | .iadd c ty sat d a b => Sys2Proof.Machine.execIadd c ty sat d a b s
  | .iaddImm c ty sat d a imm => Sys2Proof.Machine.execIaddImm c ty sat d a imm s
  | .isub c ty sat d a b => Sys2Proof.Machine.execIsub c ty sat d a b s
  | .isubImm c ty sat d a imm => Sys2Proof.Machine.execIsubImm c ty sat d a imm s
  | .imul c ty sat d a b => Sys2Proof.Machine.execImul c ty sat d a b s
  | .imulImm c ty sat d a imm => Sys2Proof.Machine.execImulImm c ty sat d a imm s
  | .imulh c ty d a b => Sys2Proof.Machine.execImulh c ty d a b s
  | .imulhImm c ty d a imm => Sys2Proof.Machine.execImulhImm c ty d a imm s
  | .imad c ty sat d a b x => Sys2Proof.Machine.execImad c ty sat d a b x s
  | .idiv c ty rem d a b => Sys2Proof.Machine.execIdiv c ty rem d a b s
  | .idivImm c ty rem d a imm => Sys2Proof.Machine.execIdivImm c ty rem d a imm s
  | .ilop c ty op d a b => Sys2Proof.Machine.execIlop c ty op d a b s
  | .ilopImm c ty op d a imm => Sys2Proof.Machine.execIlopImm c ty op d a imm s
  | .ishf c ty op clamp d a b => Sys2Proof.Machine.execIshf c ty op clamp d a b s
  | .ishfImm c ty op clamp d a imm => Sys2Proof.Machine.execIshfImm c ty op clamp d a imm s
  | .imin c ty d a b => Sys2Proof.Machine.execImin c ty d a b s
  | .iminImm c ty d a imm => Sys2Proof.Machine.execIminImm c ty d a imm s
  | .imax c ty d a b => Sys2Proof.Machine.execImax c ty d a b s
  | .imaxImm c ty d a imm => Sys2Proof.Machine.execImaxImm c ty d a imm s
  | .iabs c ty sat d a => Sys2Proof.Machine.execIabs c ty sat d a s
  | .icmp c ty cond d a b => Sys2Proof.Machine.execIcmp c ty cond d a b s
  | .icmpImm c ty cond d a imm => Sys2Proof.Machine.execIcmpImm c ty cond d a imm s
  | .isel c ty z d a b => Sys2Proof.Machine.execIsel c ty z d a b s
  | .iselImm c ty z d a imm => Sys2Proof.Machine.execIselImm c ty z d a imm s
  | .ipopc c ty d a => Sys2Proof.Machine.execIpopc c ty d a s
  | .iclz c ty d a => Sys2Proof.Machine.execIclz c ty d a s
  | .ibrev c ty d a => Sys2Proof.Machine.execIbrev c ty d a s
  | .iprmt c ty d a b => Sys2Proof.Machine.execIprmt c ty d a b s
  | .iprmtImm c ty d a imm => Sys2Proof.Machine.execIprmtImm c ty d a imm s
  | .iext c ty d a b => Sys2Proof.Machine.execIext c ty d a b s
  | .iextImm c ty d a imm => Sys2Proof.Machine.execIextImm c ty d a imm s
  | .iins c ty d a b x => Sys2Proof.Machine.execIins c ty d a b x s
  -- L-ops: floating point (R191 to R196)
  | .fadd c ty rnd d a b => Sys2Proof.Machine.execFadd c ty rnd d a b s
  | .faddImm c ty rnd d a imm => Sys2Proof.Machine.execFaddImm c ty rnd d a imm s
  | .fsub c ty rnd d a b => Sys2Proof.Machine.execFsub c ty rnd d a b s
  | .fsubImm c ty rnd d a imm => Sys2Proof.Machine.execFsubImm c ty rnd d a imm s
  | .fmul c ty rnd d a b => Sys2Proof.Machine.execFmul c ty rnd d a b s
  | .fmulImm c ty rnd d a imm => Sys2Proof.Machine.execFmulImm c ty rnd d a imm s
  | .ffma c ty rnd d a b x => Sys2Proof.Machine.execFfma c ty rnd d a b x s
  | .fmin c ty nan d a b => Sys2Proof.Machine.execFmin c ty nan d a b s
  | .fminImm c ty nan d a imm => Sys2Proof.Machine.execFminImm c ty nan d a imm s
  | .fmax c ty nan d a b => Sys2Proof.Machine.execFmax c ty nan d a b s
  | .fmaxImm c ty nan d a imm => Sys2Proof.Machine.execFmaxImm c ty nan d a imm s
  | .fcmp c ty cond d a b => Sys2Proof.Machine.execFcmp c ty cond d a b s
  | .fcmpImm c ty cond d a imm => Sys2Proof.Machine.execFcmpImm c ty cond d a imm s
  | .fclass c ty d a => Sys2Proof.Machine.execFclass c ty d a s
  | .fdiv c ty rnd d a b => Sys2Proof.Machine.execFdiv c ty rnd d a b s
  | .fdivImm c ty rnd d a imm => Sys2Proof.Machine.execFdivImm c ty rnd d a imm s
  | .fsqrt c ty rnd d a => Sys2Proof.Machine.execFsqrt c ty rnd d a s
  | .frcp c ty d a => Sys2Proof.Machine.execFrcp c ty d a s
  | .frsq c ty d a => Sys2Proof.Machine.execFrsq c ty d a s
  | .fscale c ty rnd d a b => Sys2Proof.Machine.execFscale c ty rnd d a b s
  | .fscaleImm c ty rnd d a imm => Sys2Proof.Machine.execFscaleImm c ty rnd d a imm s
  | .frnd c ty rnd d a => Sys2Proof.Machine.execFrnd c ty rnd d a s
  -- L-ops: conversions and elementary functions (R197 to R204)
  | .fcvt c k d a => Sys2Proof.Machine.execFcvt c k d a s
  | .fpack c k d a b => Sys2Proof.Machine.execFpack c k d a b s
  | .funpk c k elem d a b => Sys2Proof.Machine.execFunpk c k elem d a b s
  | .fexp2 c ty d a => Sys2Proof.Machine.execFexp2 c ty d a s
  | .flog2 c ty d a => Sys2Proof.Machine.execFlog2 c ty d a s
  | .fsin c ty d a => Sys2Proof.Machine.execFsin c ty d a s
  | .fcos c ty d a => Sys2Proof.Machine.execFcos c ty d a s
  -- L-ops: movement and steering (R209 to R217)
  | .lhdr z ranges => Sys2Proof.Machine.execLhdr z ranges s
  | .mov c op => Sys2Proof.Machine.execMov c op s
  | .movImm c w64 d imm => Sys2Proof.Machine.execMovImm c w64 d imm s
  | .shfl c mode w64 d a sel => Sys2Proof.Machine.execShfl c mode w64 d a sel s
  | .vote c mode a => Sys2Proof.Machine.execVote c mode a s
  | .lred c ty op l d a => Sys2Proof.Machine.execLred c ty op l d a s
  | .lbr c taken join => Sys2Proof.Machine.execLbr c taken join s
  | .ljoin c => Sys2Proof.Machine.execLjoin c s
  | .lend c => Sys2Proof.Machine.execLend c s
  | .lkill c => Sys2Proof.Machine.execLkill c s
  -- L-ops: memory and atomics (R218 to R228)
  | .ld c sz hint ann d a off => Sys2Proof.Machine.execLd c sz hint ann d a off s
  | .st c sz hint ann a b rc off => Sys2Proof.Machine.execSt c sz hint ann a b rc off s
  | .lds c sz ann d a off => Sys2Proof.Machine.execLds c sz ann d a off s
  | .sts c sz ann a b off => Sys2Proof.Machine.execSts c sz ann a b off s
  | .ldr c sz ann d a off => Sys2Proof.Machine.execLdr c sz ann d a off s
  | .str c sz ann a b off => Sys2Proof.Machine.execStr c sz ann a b off s
  | .atom c op ordm ann d a b x off => Sys2Proof.Machine.execAtom c op ordm ann d a b x off s
  | .red c op ordm ann a b off => Sys2Proof.Machine.execRed c op ordm ann a b off s
  -- L-ops: neighbour ports (R232)
  | .push c w64 rel port b st => Sys2Proof.Machine.execPush c w64 rel port b st s
  | .pop c w64 acq d port st => Sys2Proof.Machine.execPop c w64 acq d port st s
  | .peek c w64 acq d port st => Sys2Proof.Machine.execPeek c w64 acq d port st s
  | .pstat c d port => Sys2Proof.Machine.execPstat c d port s
  -- L-ops: reservoirs (R273)
  | .rsvUpd c n a b x => Sys2Proof.Machine.execRsvUpd c n a b x s
  | .rsvMrg c n s1 b cap => Sys2Proof.Machine.execRsvMrg c n s1 b cap s
  | .rsvFin c n d => Sys2Proof.Machine.execRsvFin c n d s
  | .rsvSet c n f a => Sys2Proof.Machine.execRsvSet c n f a s
  | .rsvGet c n f d => Sys2Proof.Machine.execRsvGet c n f d s
  | .rsvClr c mask => Sys2Proof.Machine.execRsvClr c mask s
  -- L-ops: matrix engine (R259 to R265)
  | .mldw c a b x tag => Sys2Proof.Machine.execMldw c a b x tag s
  | .mma c ovw rowp acca a b x => Sys2Proof.Machine.execMma c ovw rowp acca a b x s
  | .mzero c a => Sys2Proof.Machine.execMzero c a s
  | .mdrain c add a b x tag => Sys2Proof.Machine.execMdrain c add a b x tag s
  | .mdrainFence c tag => Sys2Proof.Machine.execMdrainFence c tag s
  -- L-ops: traversal unit (R298)
  | .trav c log q d a b x hod => Sys2Proof.Machine.execTrav c log q d a b x hod s
  | .tres c q d a hod => Sys2Proof.Machine.execTres c q d a hod s
  | .tresume c a b x st => Sys2Proof.Machine.execTresume c a b x st s
  | .tlog c d a b => Sys2Proof.Machine.execTlog c d a b s
  -- steps of the lane stream, the waves and the engines
  | .ticketTakeUp w => Sys2Proof.Machine.execTicketTakeUp w s
  | .stagingComplete w => Sys2Proof.Machine.execStagingComplete w s
  | .ticketComplete w => Sys2Proof.Machine.execTicketComplete w s
  | .fastFileEviction w => Sys2Proof.Machine.execFastFileEviction w s
  | .reservoirSlotEviction w => Sys2Proof.Machine.execReservoirSlotEviction w s
  | .regxGrant core => Sys2Proof.Machine.execRegxGrant core s
  | .loadDataReturn w n => Sys2Proof.Machine.execLoadDataReturn w n s
  | .storePerformed w n => Sys2Proof.Machine.execStorePerformed w n s
  | .streamDeadlock w => Sys2Proof.Machine.execStreamDeadlock w s
  | .yieldExpiry w => Sys2Proof.Machine.execYieldExpiry w s
  | .gridCompletion g => Sys2Proof.Machine.execGridCompletion g s
  | .portStall w side => Sys2Proof.Machine.execPortStall w side s
  | .bondStall w side => Sys2Proof.Machine.execBondStall w side s
  | .travStall w side => Sys2Proof.Machine.execTravStall w side s
  | .jobStall w strm => Sys2Proof.Machine.execJobStall w strm s
  | .cwaitStall w => Sys2Proof.Machine.execCwaitStall w s
  | .yieldedWaveReactivate w => Sys2Proof.Machine.execYieldedWaveReactivate w s
  | .impreciseTrapDelivery w => Sys2Proof.Machine.execImpreciseTrapDelivery w s
  | .nongreenWritebackTimeout core line => Sys2Proof.Machine.execNongreenWritebackTimeout core line s
  | .gatherLineTimeout core line => Sys2Proof.Machine.execGatherLineTimeout core line s
  | .jobAccept w strm => Sys2Proof.Machine.execJobAccept w strm s
  | .copyChunkLanded j k => Sys2Proof.Machine.execCopyChunkLanded j k s
  | .copyJobComplete j => Sys2Proof.Machine.execCopyJobComplete j s
  | .matrixJobComplete j => Sys2Proof.Machine.execMatrixJobComplete j s
  | .regionCure w => Sys2Proof.Machine.execRegionCure w s
  | .regionReplayDispatch w places => Sys2Proof.Machine.execRegionReplayDispatch w places s
  | .rayNodeFetch r => Sys2Proof.Machine.execRayNodeFetch r s
  | .rayHodTake core g => Sys2Proof.Machine.execRayHodTake core g s
  | .translationWalk part asid va write fetch => Sys2Proof.Machine.execTranslationWalk part asid va write fetch s
  | .faultAnswerResolve id => Sys2Proof.Machine.execFaultAnswerResolve id s
  | .faultAnswerFatal id => Sys2Proof.Machine.execFaultAnswerFatal id s
  | .parkedLaneReplay w strm => Sys2Proof.Machine.execParkedLaneReplay w strm s
  | .controllerBatchOpen ch => Sys2Proof.Machine.execControllerBatchOpen ch s
  -- steps of Dorzin and the distributor
  | .launchKick v => Sys2Proof.Machine.execLaunchKick v s
  | .teamPlacement g places => Sys2Proof.Machine.execTeamPlacement g places s
  | .preemptionRequest g t deadline => Sys2Proof.Machine.execPreemptionRequest g t deadline s
  | .drainDeadlineExpiry g t => Sys2Proof.Machine.execDrainDeadlineExpiry g t s
  | .contextSave g t => Sys2Proof.Machine.execContextSave g t s
  | .contextRestore g t places => Sys2Proof.Machine.execContextRestore g t places s
  | .contextCreate id record => Sys2Proof.Machine.execContextCreate id record s
  | .invalidationRequest part asid lo hi => Sys2Proof.Machine.execInvalidationRequest part asid lo hi s
  | .invalidationEnd n => Sys2Proof.Machine.execInvalidationEnd n s
  | .watchpointLoad ctx n waddr wctl => Sys2Proof.Machine.execWatchpointLoad ctx n waddr wctl s
  | .watchEngineReport n => Sys2Proof.Machine.execWatchEngineReport n s
  -- steps of the management core and the memory system
  | .hbmScrub sector lo hi => Sys2Proof.Machine.execHbmScrub sector lo hi s
  | .laneRepointApply n => Sys2Proof.Machine.execLaneRepointApply n s
  | .rowCopyComplete n => Sys2Proof.Machine.execRowCopyComplete n s
  | .llcCarveWrite m v => Sys2Proof.Machine.execLlcCarveWrite m v s
  | .partCfgEnable m p v => Sys2Proof.Machine.execPartCfgEnable m p v s
  | .partCfgDisable m p => Sys2Proof.Machine.execPartCfgDisable m p s
  | .ctrlClaimClaim m prio nonce => Sys2Proof.Machine.execCtrlClaimClaim m prio nonce s
  | .ctrlClaimRelease m => Sys2Proof.Machine.execCtrlClaimRelease m s
  | .ctrlClaimHandover m target => Sys2Proof.Machine.execCtrlClaimHandover m target s
  | .ctrlAttestGo m => Sys2Proof.Machine.execCtrlAttestGo m s
  | .firmwareImageLoad m version ecdsa lms digest => Sys2Proof.Machine.execFirmwareImageLoad m version ecdsa lms digest s
  | .fusedCounterAdvance m => Sys2Proof.Machine.execFusedCounterAdvance m s
  -- steps of the host link and the fabric
  | .fabricWindowCommit m p w hi => Sys2Proof.Machine.execFabricWindowCommit m p w hi s
  | .fabRouteWrite m d v => Sys2Proof.Machine.execFabRouteWrite m d v s
  | .controlRegisterWrite m off v => Sys2Proof.Machine.execControlRegisterWrite m off v s
  | .hostApertureRead off width => Sys2Proof.Machine.execHostApertureRead off width s
  | .hostApertureWrite off bytes poison => Sys2Proof.Machine.execHostApertureWrite off bytes poison s
  | .hostWindowCompletion tag reply => Sys2Proof.Machine.execHostWindowCompletion tag reply s
  | .msixUnmask v => Sys2Proof.Machine.execMsixUnmask v s
  | .fabricRequestArrival req => Sys2Proof.Machine.execFabricRequestArrival req s
  | .fabricAcknowledgement tag reply => Sys2Proof.Machine.execFabricAcknowledgement tag reply s
  | .ualinkPortDown p => Sys2Proof.Machine.execUalinkPortDown p s
  | .ualinkPortRetrain p ok => Sys2Proof.Machine.execUalinkPortRetrain p ok s
  | .deviceLost d => Sys2Proof.Machine.execDeviceLost d s
  | .collRecordTake p => Sys2Proof.Machine.execCollRecordTake p s
  | .collSealTimeout n => Sys2Proof.Machine.execCollSealTimeout n s
  | .collComplete n parts => Sys2Proof.Machine.execCollComplete n parts s
  -- resets, bring-up and power
  | .rstStatusWarm m => Sys2Proof.Machine.execRstStatusWarm m s
  | .hostLinkReset k => Sys2Proof.Machine.execHostLinkReset k s
  | .firmwareVerify version ecdsa lms dorzin health => Sys2Proof.Machine.execFirmwareVerify version ecdsa lms dorzin health s
  | .channelTraining failed => Sys2Proof.Machine.execChannelTraining failed s
  | .governorTick pwr temp => Sys2Proof.Machine.execGovernorTick pwr temp s
  | .railVoltageStep rail lower => Sys2Proof.Machine.execRailVoltageStep rail lower s
  | .systemKill g team => Sys2Proof.Machine.execSystemKill g team s
  | .contextDestroy id => Sys2Proof.Machine.execContextDestroy id s
  | .podDeviceNumberSet n => Sys2Proof.Machine.execPodDeviceNumberSet n s
  | .dataLinkRetry p ok => Sys2Proof.Machine.execDataLinkRetry p ok s
  -- handler actions (R354), and steps without operands
  | .hactRetry => Sys2Proof.Machine.execHactRetry s
  | .hactNext => Sys2Proof.Machine.execHactNext s
  | .hactKill => Sys2Proof.Machine.execHactKill s
  | .hactKilllanes => Sys2Proof.Machine.execHactKilllanes s
  | .launchAccept => Sys2Proof.Machine.execLaunchAccept s
  | .schedulerTakeover => Sys2Proof.Machine.execSchedulerTakeover s
  | .electionWindowClose => Sys2Proof.Machine.execElectionWindowClose s
  | .ownerLapse => Sys2Proof.Machine.execOwnerLapse s
  | .attestFinish => Sys2Proof.Machine.execAttestFinish s
  | .carveConversionEnd => Sys2Proof.Machine.execCarveConversionEnd s
  | .powerOn => Sys2Proof.Machine.execPowerOn s
  | .perstAssert => Sys2Proof.Machine.execPerstAssert s
  | .i3cResetCommand => Sys2Proof.Machine.execI3cResetCommand s
  | .watchdogExpiry => Sys2Proof.Machine.execWatchdogExpiry s
  | .schedulerStart => Sys2Proof.Machine.execSchedulerStart s
  | .configurationRequest => Sys2Proof.Machine.execConfigurationRequest s

end Sys2Proof.Machine
end

