-- ==== Sys2Proof/Machine/Step.lean ====
section
/-!
DEFINITION. One step of the machine: one S-op group (spec/06 R139) or one L-op of a wave that may issue, or one event of the
agents beside the waves. `agenda` says who acts; with nothing on it the waves and their engines act in turn
(notes/assumptions/7.md).
-/

namespace Sys2Proof.Machine

/-! ## Who may issue -/

/-- A rollback has left the wave without blocks that it held at RGN.beg, and it waits for them (R474). -/
def Wave.wantsBack (w : Wave) : Bool := w.ss.acquire.isSome && w.ss.waitS.isNone

/-- A wave of the set of a rolled-back wave waits for its blocks: the set does not resume (R474). -/
def State.setHeld (s : State) (i : Nat) (w : Wave) : Bool :=
  w.region.isSome && (s.portSet i).any fun k => ((s.waves[k]?).map fun y => y.region.isSome && y.wantsBack).getD false

/-- The S-stream of wave i may issue a group. -/
def State.sReady (s : State) (i : Nat) : Option Wave :=
  (s.runner i).filter fun w =>
    !s.sys.power.trip && w.ss.parkS.isNone && w.ss.yieldN == 0 &&
    (w.priv.handler || (w.ss.yielded.isNone && w.ss.acquire.isNone && !s.setHeld i w))

/-- The accesses of an L-op may follow one another without their replies: ATOM and RED with .ord (R120). -/
def orderedAtomic : Instr → Bool
  | .atom _ _ ordm _ _ _ _ _ _ => ordm
  | .red _ _ ordm _ _ _ _ => ordm
  | _ => false

/-- An access of a side to the host or to another device has no reply yet: its lanes may still park (R221, R453). -/
def LStream.away (x : LStream) (d : Side) : Bool :=
  x.outs.any fun o => o.side == d && o.remote != 0 && !((o.src.map fun e => orderedAtomic e.2.1).getD false)

/-- A side stands at an L-op that nothing but its operands can hold back. -/
def LStream.able (x : LStream) (d : Side) : Bool :=
  ((x.side? d).any fun p => p.st == .running && p.mask != 0) && !x.parkHolds d && !x.away d

/-- The other side can issue, and this one had the last opportunity (R55). -/
def LStream.yields (x : LStream) (d : Side) : Bool := x.last == d && x.able (Side.other d) && (x.wait? (Side.other d)).isNone

/-- A side of wave i may issue its L-op: the wave, and the address. A full result queue that an L-op waits for stalls both sides
(R38). -/
def State.lReady (s : State) (i : Nat) (d : Side) : Option (Wave × Nat) :=
  match s.runner i with
  | none => none
  | some w =>
    if s.sys.power.trip || w.priv.handler || w.ls.blk.phase != .ready || !w.ls.able d || w.ls.full || w.ls.yields d then none
    else (w.ls.side? d).map fun p => (w, p.pc)

/-! ## Issue -/

/-- The instructions of a group, prefixes first. -/
def runGroup : List Instr → State → Result
  | [], s => .next s
  | i :: is, s =>
    match exec i s with
    | .next t => runGroup is t
    | .fault r => .fault r
    | .refused r => .refused r

/-- What follows an instruction that gives a next state. -/
def afterwards (f : State → State) : Result → Result
  | .next t => .next (f t)
  | .fault r => .fault r
  | .refused r => .refused r

/-- The prefixes of a group are over with it. -/
def endGroup : Result → Result := afterwards fun t => { t with pfx := Pfx.none }

/-- An imprecise trap stands at the group's boundary (R347). -/
def State.boundary (s : State) (w : Wave) : Bool :=
  !w.priv.handler && !w.priv.held.isEmpty && (s.ctxOf w).hen

/-- The S-stream of wave i has issued its group, unless it waits at it (R379). -/
def State.issuedScalar (s : State) (i : Nat) : State :=
  s.modWave i fun w => if w.ss.waitS.isSome then w else { w with ss := { w.ss with issuedS := s.cyclesOf w.core } }

/-- A side of wave i has had its opportunity to issue (R55), and has issued unless it waits at its L-op (R69, R71, R379). -/
def State.issuedLane (s : State) (i : Nat) (d : Side) : State :=
  s.modWave i fun w =>
    let now := s.cyclesOf w.core
    if (w.ls.wait? d).isSome then { w with ls := { w.ls with last := d } }
    else { w with ls := { w.ls with last := d, issuedL := now, usedZ := if w.ls.blk.z then now else w.ls.usedZ } }

/-- The S-stream of wave i issues its group, after an imprecise trap that is held. -/
def State.stepS (s : State) (i : Nat) : Result :=
  match s.sReady i with
  | none => .next ((s.dueFatal i .s).getD s)
  | some w =>
    if s.boundary w then exec (.impreciseTrapDelivery i) s
    else
      match ({ s with cur := (i, .a), pfx := Pfx.none }).sGroup i w with
      | .error t => .next t
      | .ok (s1, is) => afterwards (fun t => t.issuedScalar i) (endGroup (runGroup is s1))

/-- A side of wave i issues its L-op. -/
def State.stepL (s : State) (i : Nat) (d : Side) : Result :=
  match s.lReady i d with
  | none => .next ((s.dueFatal i (.l d)).getD s)
  | some (w, pc) =>
    match ({ s with cur := (i, d), pfx := Pfx.none }).lOp i w d pc false with
    | .error t => .next (t.issuedLane i d)
    | .ok (s1, ins) => afterwards (fun t => t.issuedLane i d) (exec ins s1)

/-- An agent acts. -/
def State.act (s : State) : Agent → Result
  | .sStream i => s.stepS i
  | .lStream i d => s.stepL i d
  | .event e => exec e s

/-! ## Who acts when the agenda is empty -/

/-- The S-stream of wave i may issue now: nothing holds it, or what it waits for has come (R54). -/
def State.sIssues (s : State) (i : Nat) : Bool :=
  match s.sReady i with
  | none => false
  | some w =>
    w.ss.waitS.isNone ||
      match s.stepS i with
      | .next t => ((t.waves[i]?).map fun y => y.ss.waitS.isNone).getD true
      | _ => true

/-- A side of wave i may issue now. -/
def State.lIssues (s : State) (i : Nat) (d : Side) : Bool :=
  match s.lReady i d with
  | none => false
  | some (w, _) =>
    (w.ls.wait? d).isNone ||
      match s.stepL i d with
      | .next t => ((t.waves[i]?).map fun y => (y.ls.wait? d).isNone).getD true
      | _ => true

/-- Of two waves of a quarter, the one that has waited longer, or the lower in the wave table (R379). -/
def Wave.ahead (since : Wave → Nat) (x y : Wave) : Bool :=
  x.core == y.core && x.quarter == y.quarter && (decide (since x < since y) || (since x == since y && decide (x.pos < y.pos)))

/-- The waves that the quarters choose for one slot among those that can issue in it (R379). -/
def State.chosen (s : State) (since : Wave → Nat) (l : List Nat) : List Nat :=
  let ws := l.filterMap fun i => s.waves[i]?
  l.filter fun i => ((s.waves[i]?).map fun w => ws.all fun y => !y.ahead since w).getD false

/-- What can happen to a wave without the outside, beside an issue. An instruction that waits looks again at what it waits for. -/
def Wave.agents (i : Nat) (w : Wave) : List Agent :=
  (if w.ss.waitS.isSome then [.sStream i] else []) ++ (if w.ls.waitA.isSome then [.lStream i .a] else []) ++
  (if w.ls.waitB.isSome then [.lStream i .b] else []) ++ [.event (.ticketTakeUp i), .event (.stagingComplete i)] ++
  (positions (fun (o : Outst) => !o.done && o.load) 0 w.ls.outs).map (fun k => Agent.event (.loadDataReturn i k)) ++
  (positions (fun (o : Outst) => !o.done && !o.load) 0 w.ls.outs).map (fun k => Agent.event (.storePerformed i k)) ++
  [.event (.ticketComplete i), .event (.yieldExpiry i), .event (.yieldedWaveReactivate i), .event (.impreciseTrapDelivery i),
   .event (.jobAccept i .s), .event (.jobAccept i (.l .a)), .event (.jobAccept i (.l .b)), .event (.regionCure i),
   .event (.parkedLaneReplay i .s), .event (.parkedLaneReplay i (.l .a)), .event (.parkedLaneReplay i (.l .b))]

/-- The issues that the quarters choose: a scalar group of one wave, and an L-op of one, each (R379). -/
def State.issues (s : State) : List Agent :=
  let l := positions (fun (w : Wave) => w.st == .resident) 0 s.waves
  (s.chosen (fun w => w.ss.issuedS) (l.filter s.sIssues)).map Agent.sStream ++
  (s.chosen (fun w => w.ls.issuedL) (l.filter fun i => s.lIssues i .a || s.lIssues i .b)).map fun i =>
    .lStream i (if s.lIssues i .a then .a else .b)

/-- Everything that can act without the outside: waves that have not left, engines, register files, bring-up, and the save of a
group for its twin copy (R475). -/
def State.agents (s : State) : List Agent :=
  (if s.sys.rst.fwOk && !s.sys.rst.schedReady then [.event (.channelTraining []), .event .schedulerStart] else []) ++ s.issues ++
  (positions (fun (w : Wave) => w.st == .resident) 0 s.waves).flatMap (fun i => ((s.waves[i]?).map fun w => w.agents i).getD []) ++
  (positions (fun (j : Job) => !j.complete) 0 s.jobs).flatMap (fun j => [Agent.event (.copyJobComplete j), .event (.matrixJobComplete j)]) ++
  (positions (fun (r : Ray) => r.st != .dropped && !r.freed) 0 s.rays).map (fun r => Agent.event (.rayNodeFetch r)) ++
  (positions (fun (c : Core) => !c.grants.isEmpty) 0 s.cores).map (fun c => Agent.event (.regxGrant c)) ++
  (positions Team.mirror 0 s.teams).filterMap (fun t => (s.teams[t]?).map fun x => Agent.event (.contextSave x.grid x.idx))

/-- The agent whose turn it is. -/
def State.turn (s : State) : Option Agent :=
  let l := s.agents
  l[s.tick % l.length]?

/-- Who acts in a step, and the state with the agenda after it. -/
def State.next (s : State) : State × Option Agent :=
  match s.agenda with
  | a :: rest => ({ s with agenda := rest }, some a)
  | [] => (s, s.turn)

/-! ## Time (R20, R389) -/

/-- Cycles that pass in a step at a clock of the device: one at least, and as many more as the spec leaves open. Cores 0 to 63,
the active scheduler core (64) and the management core (65) each have a count of their own (R389, R431). -/
def State.passed (s : State) (clock : Nat) : Nat := 1 + Config.extraCycles (66 * s.tick + clock)

/-- Cycles pass. -/
def State.elapse (s : State) : State :=
  let d := s.sys.dorzin
  let h := s.sys.health
  { s with
    tick := s.tick + 1,
    cores := mapIx (fun k c => { c with cycles := c.cycles + s.passed k }) 0 s.cores,
    teams := s.teams.map fun t => if t.st == .resident then { t with cycles := t.cycles + s.passed t.core } else t,
    sys := { s.sys with dorzin := { d with count := d.count + s.passed 64 }, health := { h with clock := h.clock + s.passed 65 } } }

/-- The end of a step: cycles pass, and Dorzin meets a slice that has stopped (R410). -/
def elapsed : Result → Result := afterwards fun t => t.elapse.stopSlices

/-- One step: whoever is on the agenda acts, or whoever has the turn; with nobody to act, time passes. -/
def step (s : State) : Result :=
  match s.next with
  | (s1, some a) => elapsed (s1.act a)
  | (s1, none) => elapsed (.next s1)

/-! ## Placing an instruction before the machine -/

/-- Where withFetchWord lays the code: scalar code, and lane code behind it. -/
def slotBase : Nat := 2 ^ 30
def slotLane : Nat := 2 ^ 30 + 0x1000

/-- The launch, grid, context and team that run the placed instruction: one wave on core 0 whose code sections are the slot's. -/
def slotLaunch : Launch :=
  { Launch.empty with sbase := slotBase, ssize := 0x1000, lbase := slotLane, lsize := 0x1000, scratch := 8, acc := 1, wbuf := 1 }

/-- The wave's context. -/
def slotContext (id : BitVec 16) : Context := { Context.empty with id := id }

/-- The leaves of the slot's GiB, as the units of its two lines' channels have cached them (R395, R397): valid, writable,
executable. -/
def slotLeaves : List Leaf := [slotBase, slotLane].map fun a => ⟨channelOf a, 0, 0, 1, true, 0x4000000F#64⟩

/-- The block in which a placed L-op stands: its staging is complete, and v0 to v95, the most that six ranges hold,
are its working set. -/
def slotBlock : Blk := ⟨.ready, true, [⟨0, 7⟩, ⟨8, 7⟩, ⟨16, 7⟩, ⟨24, 7⟩, ⟨32, 7⟩, ⟨40, 7⟩], 0xFFFFFFFF#32⟩

/-- A ticket whose block lies at the slot's lane code. -/
def slotTicket : Ticket := ⟨slotLane, 1, Vector.replicate 4 0, 0, 0, 0⟩

/-- The wave that runs a placed word: an S-op of its S-stream, an L-op of its side A, or the header of its oldest ticket. -/
def slotWave (g t : Nat) (lane header : Bool) (now : Nat) : Wave :=
  let w := Wave.start g t 0 0 0 0 0xFFFFFFFF#32 slotBase (Vector.replicate 64 0) now
  if header then { w with ls := { w.ls with tickets := [slotTicket] } }
  else if lane then
    { w with ls := { w.ls with tickets := [slotTicket], blk := slotBlock, slot := true,
                               sideA := some ⟨slotLane + 12, 0xFFFFFFFF#32, none, .running⟩ } }
  else w

/-- The word is the header of a block. -/
def isHeaderWord (nbits w : Nat) : Bool :=
  match decodeTableWord nbits w with
  | some (.lhdr _ _) => true
  | _ => false

/-- Store words of 32 bits in HBM, each least significant byte first. -/
def placeWords (m : Mem) (pa : Nat) : List Nat → Mem
  | [] => m
  | w :: ws => placeWords { m with hbm := cellWrite m.hbm pa (bytesLE 4 w) } (pa + 4) ws

/-- The machine with an instruction as the next that it fetches: a wave of its own runs it, loaded from outside as a launch would
load it (notes/assumptions/8.md). -/
def State.withFetchWord (s : State) (nbits w : Nat) : State :=
  let lane := decide (32 < nbits)
  let header := isHeaderWord nbits w
  let g := s.grids.length
  let t := s.teams.length
  let i := s.waves.length
  let id := BitVec.ofNat 16 s.sys.contexts.length
  let part := s.sys.parts[0]
  let words := if lane then [bits w 0 32, bits w 32 32, bits w 64 32] else [w % 2 ^ 32, 0, 0]
  let at_ := if header then slotLane else if lane then slotLane + 12 else slotBase
  let mem := placeWords s.mem at_ words
  { s with
    sys := { s.sys with
      contexts := s.sys.contexts ++ [slotContext id],
      parts := s.sys.parts.set 0 { part with enabled := true, ways := 0xFFFFFF#24, bays := 1,
                                             mem := part.mem.set 0 0x8004000000000000#64 },
      power := { s.sys.power with trip := false } },
    mem := { mem with leaves := slotLeaves ++ mem.leaves },
    grids := s.grids ++ [⟨id, 0, 0, slotLaunch, 0, false, false, false⟩],
    teams := s.teams ++ [Team.start g 0 false 0 0 0],
    waves := s.waves ++ [slotWave g t lane header (s.cyclesOf 0)],
    agenda := (if header then .event (.ticketTakeUp i) else if lane then .lStream i .a else .sStream i) :: s.agenda }

end Sys2Proof.Machine
end

