-- ==== Sys2Proof/Safety.lean ====
section
/-!
DEFINITION. What a state must satisfy between steps, what a safe run is, and the terms in which statements say when an
instruction completes and what it leaves alone.
-/

namespace Sys2Proof.Machine

/-- Memory is in its canonical form: addresses strictly rising, no byte listed that an unlisted address reads as. -/
def Mem.wf (m : Mem) : Bool := Cells.wf m.hbm && Cells.wf m.carved

/-- The arithmetic clock is one that the governor can set (R467): a multiple of 100 MHz from 1,200 to 3,600. -/
def Power.legal (p : Power) : Bool := decide (1200 ≤ p.clk) && decide (p.clk ≤ 3600) && p.clk % 100 == 0

/-- What every step keeps: memory's canonical form, and a legal clock. -/
def State.inv (s : State) : Bool := s.mem.wf && s.sys.power.legal

/-- A step in which the machine neither stops nor is refused. -/
def State.safe (s : State) : Prop := ∃ t, step s = .next t

/-- A run of k steps neither stops nor is refused. -/
def safeRun (k : Nat) (s : State) : Prop :=
  match k with
  | 0 => True
  | k + 1 => ∃ t, step s = .next t ∧ safeRun k t

/-! ## What an instruction leaves alone -/

/-- Nothing but waves and teams differs: memory and caches, jobs, rays, the device, and the model's own fields are the same. -/
def State.sameBeside (s t : State) : Prop := { t with waves := s.waves, teams := s.teams } = s

/-- Wave i has become w'. Beside it nothing differs but its team's count of issued instructions (R385). -/
structure State.IssuedBy (s t : State) (i : Nat) (w w' : Wave) : Prop where
  beside : s.sameBeside t
  others : ∀ j, j ≠ i → t.waves[j]? = s.waves[j]?
  count : t.teams = modAt s.teams w.team fun x => { x with issued := x.issued + 1 }
  wave : t.waves[i]? = some w'

/-- Wave w has gone on to w' with `v` in scalar register d (nothing where d is s0), its S-stream at `pc`. Every other scalar
register of the level, the registers of the other level (R344), and everything else of the wave are unchanged. -/
structure Wave.ScalarTo (w w' : Wave) (d : SReg) (v : DWord) (pc : Nat) : Prop where
  pc : w'.ss.pc = pc
  wait : w'.ss.waitS = none
  regs : ∀ r, w'.readS r = if r = d ∧ d.val ≠ 0 then v else w.readS r
  user : w.priv.handler = true → ∀ r : SReg, 48 ≤ r.val → w'.ss.s[r] = w.ss.s[r]
  bank : w.priv.handler = false → w'.priv.bank = w.priv.bank
  rest : { w' with ss := { w'.ss with pc := w.ss.pc, s := w.ss.s, waitS := w.ss.waitS },
                   priv := { w'.priv with bank := w.priv.bank } } = w

/-- The machine has issued an S-op of wave w. Its results are `v` in register d, the next address `pc`, and what w0 holds
beside w. -/
def State.ScalarDoneAs (s t : State) (w w0 : Wave) (d : SReg) (v : DWord) (pc : Nat) : Prop :=
  ∃ w', s.IssuedBy t s.cur.1 w w' ∧ w0.ScalarTo w' d v pc

/-- The machine has issued an S-op of wave w whose only results are `v` in register d and the next address `pc`. -/
def State.ScalarDone (s t : State) (w : Wave) (d : SReg) (v : DWord) (pc : Nat) : Prop := s.ScalarDoneAs t w w d v pc

/-- An instruction completes: exec answers a next state of which P holds. -/
def State.completes (s : State) (i : Instr) (P : State → Prop) : Prop := ∃ t, exec i s = .next t ∧ P t

/-- S-op i of wave w writes `v` into register d, goes on after itself, and changes nothing else. -/
def State.puts (s : State) (w : Wave) (i : Instr) (d : SReg) (v : DWord) : Prop :=
  s.completes i fun t => s.ScalarDone t w d v (s.opAddr w + 4)

/-- Wave w has gone on to w' by a change of its scalar stream and privileged registers, at the place of a trap. Every user
register, lane register value, predicate, counter and ticket is unchanged; the window has drained, so that what arrives later
is written to the registers at once (R72, R73, R344, R349, R353). -/
structure Wave.EnteredTo (w w' : Wave) (entry : Nat) (strm : Strm) (imp : Bool) (cause : Nat) (va aux trappc : Nat) (mask : Mask) :
    Prop where
  level : w'.priv.handler = true
  pc : w'.ss.pc = entry
  wait : w'.ss.waitS = none
  cause : w'.priv.cause = BitVec.ofNat 64 (cause + (if imp then 2 ^ 16 else 0) + (if strm = .s then 0 else 2 ^ 17) +
    (if strm = .l .b then 2 ^ 18 else 0) + (if w.region.isSome then 2 ^ 19 else 0))
  trappc : w'.priv.trappc = BitVec.ofNat 64 trappc
  trapva : w'.priv.trapva = BitVec.ofNat 64 va
  trapaux : w'.priv.trapaux = BitVec.ofNat 64 (aux % 2 ^ 56 + min w.priv.discarded 255 * 2 ^ 56)
  lanemask : w'.priv.lanemask = mask
  hret : w'.priv.hret = w.priv.hret
  bank : w'.priv.bank = w.priv.bank
  held : w'.priv.held = w.priv.held
  regs : w'.ss.s = w.ss.s
  vregs : ∀ r l, w'.ls.laneVal r l = w.ls.laneVal r l
  drained : w'.ls.win = []
  lane : ∃ v st, w'.ls = { w.ls with v := v, staged := st, win := [], prods := w.ls.prods.map Prod.stale,
                                     outs := w.ls.outs.map Outst.late, waitA := none, waitB := none }
  soft : w'.soft = w.soft
  region : w'.region = w.region
  green : w'.green = w.green

/-- Wave i has entered its handler, and nothing else of the machine differs. -/
structure State.Entered (s t : State) (i : Nat) (w : Wave) (strm : Strm) (imp : Bool) (cause : Nat) (va aux trappc : Nat) (mask : Mask) :
    Prop where
  beside : s.sameBeside t
  others : ∀ j, j ≠ i → t.waves[j]? = s.waves[j]?
  teams : t.teams = s.teams
  wave : ∃ w', t.waves[i]? = some w' ∧ w.EnteredTo w' (s.ctxOf w).hentry strm imp cause va aux trappc mask

/-! ## L-ops -/

/-- The value that operand o gives lane l at a position of a width in bits: the v register, or the pair; a snapshot; the lane's
number; the wave's; zero (R58, R59, R181). -/
def Wave.operand (w : Wave) (o : Opnd) (bits : Nat) (l : Lane) : Nat :=
  let reg (r : Nat) : Nat := if h : r < 256 then (w.ls.laneVal ⟨r, h⟩ l).toNat else 0
  match o with
  | .v r => if bits = 64 then reg r.val + reg (r.val + 1) * 2 ^ 32 else reg r.val % 2 ^ bits
  | .t k => w.ls.ticket.snaps[k].toNat % 2 ^ bits
  | .lane => l.val
  | .wave => w.num % 64
  | .zero => 0

/-- The registers that a last-use bit marks (R72). -/
def lastUse (bit : Bool) (o : Opnd) (n : Nat) : List Nat := if bit then spanO o n else []

/-- Side p of wave w, whose turn it is, can issue an L-op that names v registers `regs` and reservoirs `zs`: they are staged (R65,
R68), the wait counter allows it (R76, R77), stall counts and waits cover every result that it meets (R74, R78), and no error of
the physical world is pending. -/
structure State.LReady (s : State) (w : Wave) (p : PcSide) (c : LCtl) (regs : List Nat) (zs : List ZReg) : Prop where
  wave : s.waves[s.cur.1]? = some w
  side : w.ls.side? s.cur.2 = some p
  staged : ∀ r ∈ regs, w.ls.blk.names r = true
  slot : zs ≠ [] → w.ls.blk.z = true
  counter : c.wt = true → w.ls.w[c.cnt] = 0
  room : c.inc = true → c.wt = false → w.ls.w[c.cnt] ≠ 63
  covered : ∀ e ∈ w.ls.prods, e.side = s.cur.2 → e.acc < e.lat →
    (∀ r ∈ regs, ∀ x ∈ e.regs, x.1 ≠ r) ∧ ∀ n ∈ zs, ∀ x ∈ e.zs, x.1 ≠ n.val
  landed : ∀ e ∈ w.ls.outs, e.load = true → e.done = false → ∀ r ∈ regs, ∀ x ∈ e.regs, x.1 ≠ r
  sound : s.sys.phys = ⟨[], [], [], [], [], [], [], []⟩

/-- A result of register r that lane l reads from the window. -/
def WinEnt.of (e : WinEnt) (r : VReg) (l : Lane) : Bool := e.reg == r.val && inMask e.mask l

/-- A result after one more issue of side d: it leaves the window at age 8, once it is produced (R72, R184). -/
def WinEnt.older (e : WinEnt) (d : Side) : WinEnt := if e.side == d then { e with age := e.age + 1 } else e

/-- An outstanding L-op but for its age. -/
def Outst.ageless (o : Outst) : Outst := { o with age := 0 }

/-- After an L-op of side p at slot d, active in `act`, wave w0 has become w': the side stands at the next L-op; in every active
lane destination D, of a width in bits, reads as `f`; every other lane value is unchanged while no result of it leaves the window,
and a lone result that leaves is committed, unless it is marked dead, now in `dead` or before (R72, R184). The other side, the committed
value's owners and everything else of the wave are unchanged. -/
structure Wave.LaneTo (w0 w' : Wave) (d : Side) (p : PcSide) (act : Mask) (dead : List Nat) (D : Dst) (bits : Nat) (f : Lane → Nat) :
    Prop where
  side : w'.ls.side? d = some { p with pc := p.pc + 12 }
  other : w'.ls.side? (Side.other d) = w0.ls.side? (Side.other d)
  low : ∀ r l, D = .v r → inMask act l = true → w'.ls.laneVal r l = BitVec.ofNat 32 (f l)
  high : ∀ (r q : VReg) l, D = .v r → bits = 64 → q.val = r.val + 1 → inMask act l = true →
    w'.ls.laneVal q l = BitVec.ofNat 32 (f l / 2 ^ 32)
  kept : ∀ (r : VReg) l, r.val ∉ spanD D (regsOf bits) ∨ inMask act l = false →
    (∀ e ∈ w0.ls.win, e.of r l = true → (e.older d).over = false) → w'.ls.laneVal r l = w0.ls.laneVal r l
  left : ∀ (r : VReg) l e, r.val ∉ spanD D (regsOf bits) ∨ inMask act l = false →
    w0.ls.win.filter (fun x => x.of r l) = [e] → (e.older d).over = true →
    w'.ls.laneVal r l = if inMask e.dead l = true ∨ (r.val ∈ dead ∧ inMask act l = true) then (w0.ls.committed r)[l] else e.val[l]
  outs : w'.ls.outs.map Outst.ageless = w0.ls.outs.map Outst.ageless
  rest : { w' with ls := { w'.ls with
    v := w0.ls.v, staged := w0.ls.staged, win := w0.ls.win, prods := w0.ls.prods, outs := w0.ls.outs,
    sideA := w0.ls.sideA, sideB := w0.ls.sideB, waitA := w0.ls.waitA, waitB := w0.ls.waitB } } = w0

/-- L-op i of wave w completes: f in destination D of the active lanes, w0 beside that, and nothing else. -/
def State.lanesPut (s : State) (w w0 : Wave) (p : PcSide) (c : LCtl) (i : Instr) (dead : List Nat) (D : Dst) (bits : Nat)
    (f : Lane → Nat) : Prop :=
  s.completes i fun t => ∃ w', s.IssuedBy t s.cur.1 w w' ∧ w0.LaneTo w' s.cur.2 p (w.active p c) dead D bits f

/-- A lane's value of a register once the window has drained for LBR, LJOIN or LEND: the youngest result that is not marked dead, or
the committed value (R73). -/
def LStream.drainedVal (x : LStream) (r : VReg) (l : Lane) : Word :=
  match x.win.find? fun e => e.of r l && !inMask e.dead l with
  | some e => e.val[l]
  | none => (x.committed r)[l]

/-- An LBR, LJOIN or LEND has made w' of wave w: the two slots and the divergence stack are as given, the window has drained, stall
counts are over; everything else of the wave is unchanged. -/
structure Wave.SteeredTo (w w' : Wave) (A B : Option PcSide) (stack : List Spilled) : Prop where
  sideA : w'.ls.sideA = A
  sideB : w'.ls.sideB = B
  stack : w'.ls.stack = stack
  values : ∀ r l, w'.ls.laneVal r l = w.ls.drainedVal r l
  win : w'.ls.win = []
  prods : w'.ls.prods = []
  outs : w'.ls.outs.map Outst.ageless = w.ls.outs.map Outst.ageless
  rest : { w' with ls := { w'.ls with
    v := w.ls.v, staged := w.ls.staged, win := w.ls.win, prods := w.ls.prods, outs := w.ls.outs, sideA := w.ls.sideA,
    sideB := w.ls.sideB, stack := w.ls.stack, waitA := w.ls.waitA, waitB := w.ls.waitB } } = w

/-- The two slots of a stream by one of them. -/
def slots (d : Side) (p q : Option PcSide) : Option PcSide × Option PcSide := match d with
  | .a => (p, q)
  | .b => (q, p)

/-- L-op i of wave w leaves these sides and this divergence stack, and changes nothing else. -/
def State.steers (s : State) (w : Wave) (i : Instr) (AB : Option PcSide × Option PcSide) (stack : List Spilled) : Prop :=
  s.completes i fun t => ∃ w', s.IssuedBy t s.cur.1 w w' ∧ w.SteeredTo w' AB.1 AB.2 stack

/-! ## Memory accesses -/

/-- Wave w's requests `rs` of an access of n bytes are in range and aligned (R104), and their translations and line requests succeed:
in state u they have reached the places `ps`, all in this device's memory (R394 to R401). -/
structure State.Reaches (s : State) (w : Wave) (n : Nat) (k : Kindly) (rs : List LaneReq) (ps : List (LaneReq × Loc)) (u : State) :
    Prop where
  range : ∀ r ∈ rs, r.addr < 2 ^ 56 ∧ r.addr % n = 0
  reach : State.reach (s.viaOf w) k s rs = (u, ps, [])
  near : ∀ e ∈ ps, e.2.near = true

/-- No watchpoint, region rule or pending release stands against a write of wave w (R112, R128, R220, R325, R471). -/
structure State.MayWrite (s : State) (w : Wave) (atomic : Bool) (ann : Ann) : Prop where
  region : regionIllegal w atomic ann = false
  twin : s.twinIllegal w = false
  watch : w.priv.handler = true ∨ ∀ c, s.cores[w.core]? = some c → ∀ x ∈ c.watch.toList, x.2.getLsbD 63 = false
  acked : annRel ann = true → ann.scope = .p → s.unacknowledged s.cur.1 = false

/-- The state after the release that an annotation asks for (R109). -/
def State.released (s : State) (w : Wave) (ann : Ann) : State :=
  if annRel ann then s.release w.core (s.scopeOf w ann.scope) else s

/-- The L1 of a core gathers no partial results (R227). -/
def State.gathersNone (s : State) (core : Nat) : Prop := ∀ c, s.cores[core]? = some c → ∀ x ∈ c.l1, x.gather = none

/-- The L1 of a core has room for n more lines (R15). -/
def State.l1Room (s : State) (core n : Nat) : Prop := ∀ c, s.cores[core]? = some c → c.l1.length + n ≤ l1Lines

/-- A wave after its store has issued: a WATCH that RETRY has answered applies again (R471). -/
def Wave.rearmed (w : Wave) (strm : Strm) : Wave :=
  { w with ss := { w.ss with unwatched := w.ss.unwatched.filter (· != strm) } }

/-- A variable-latency L-op joins wave w's outstanding L-ops, and raises the counter of its inc bit, unless it is complete at its issue
(R76, R141). -/
def Wave.withOut (w : Wave) (c : LCtl) (o : Outst) : Wave :=
  { w with ls := { w.ls with
    outs := w.ls.outs ++ [o], w := if c.inc && !o.done then w.ls.w.set c.cnt (w.ls.w[c.cnt] + 1) else w.ls.w } }

/-- A new outstanding L-op of side d: at `pc`, with the values its destination registers will take in the lanes of `mask`. -/
def Outst.fresh (c : LCtl) (d : Side) (load : Bool) (src : Option (Nat × Instr × List LaneReq)) (regs : List (Nat × Lanes Word))
    (mask : Mask) : Outst :=
  { load := load, side := d, age := 0, lud := c.lud, rays := false, regs := regs, mask := mask, parked := 0, remote := 0, src := src,
    cnt := if c.inc then some c.cnt else none, inTicket := true, done := false }

/-- An L-op of wave w0 issues in state u: the wave goes on with outstanding L-op o, which is complete at once where no lane is active
(R141), and nothing beside it changes. -/
def State.launchesAs (s u : State) (w w0 : Wave) (p : PcSide) (c : LCtl) (dead : List Nat) (o : Outst) (t : State) : Prop :=
  ∃ w', u.IssuedBy t s.cur.1 w w' ∧ ((w0.rearmed (.l s.cur.2)).withOut c { o with done := w.active p c == 0 }).LaneTo w' s.cur.2 p
    (w.active p c) dead .zero 32 fun _ => 0

/-- The same of an L-op that changes no other state of its wave. -/
def State.launches (s u : State) (w : Wave) (p : PcSide) (c : LCtl) (dead : List Nat) (o : Outst) (t : State) : Prop :=
  s.launchesAs u w w p c dead o t

/-- What the region of wave i issued is no longer undone by a rollback: its jobs and rays (R304, R321). -/
def State.PutsBehind (s t : State) (i : Nat) : Prop :=
  t.jobs = s.jobs.map (fun (j : Job) => if j.wave = i then { j with region := false } else
    { j with members := j.members.filter fun k => !(j.region && k == i) }) ∧
  t.rays = s.rays.map fun (r : Ray) => if r.wave = some i then { r with inRegion := false } else r

/-- No storage of the machine is poisoned, and no error of the physical world is pending. -/
def State.unpoisoned (s : State) : Prop :=
  s.mem.hbmPoison = [] ∧ s.mem.carvedPoison = [] ∧ (∀ x ∈ s.mem.llc, x.poison = []) ∧ (∀ c ∈ s.cores, ∀ x ∈ c.l1, x.poison = []) ∧
  (∀ t ∈ s.teams, ∀ odd, (t.half odd).scratchPoison = [] ∧ (t.half odd).accPoison = [] ∧ (t.half odd).wbufPoison = []) ∧
  (∀ w ∈ s.waves, w.imagePoisoned = false ∧ w.green.poison = [] ∧ w.green.scrPoison = []) ∧
  s.sys.phys = ⟨[], [], [], [], [], [], [], []⟩

/-- Records are taken from a hod for lanes, one after the other (R300, R380): the state after, and the words that each lane gets, those
of the oldest record, or EMPTY where no slot is available. -/
def State.TakesAll (i : Nat) (d : Side) (out : Nat) (v : Via) (h : Hod) :
    State → List Lane → State → List (Lane × List DWord) → Prop
  | s, [], u, got => u = s ∧ got = []
  | s, l :: ls, u, got => ∃ z r rest, s.hodTake (laneAsker i d out l) v h = .ok (z, r) ∧ z.waves = s.waves ∧
      (∀ e, r = some e → e.2.2 = false) ∧
      got = (l, (r.map fun e => recordWords e.2.1).getD (bareRecord 0xA)) :: rest ∧ State.TakesAll i d out v h z ls u rest

/-- The bytes that a store takes from its data operand: the low bytes of the register, the pair or the four registers (R219). -/
def Wave.storeData (w : Wave) (b : Opnd) (sz : MSize) (l : Lane) : List Byte :=
  match sz with
  | .b64 => bytesLE 8 (w.operand b 64 l)
  | .b128 => match b with
    | .v r => (List.range 4).flatMap fun k => bytesLE 4 (if h : r.val + k < 256 then (w.ls.laneVal ⟨r.val + k, h⟩ l).toNat else 0)
    | _ => bytesLE 16 0
  | _ => bytesLE (MSize.bytes sz) (w.operand b 32 l)

end Sys2Proof.Machine
end

