-- ==== Sys2Proof/Certificates/Slice0/Obligations.lean ====
section
/-!
DEFINITION. The statements about the machine for the provers. Each says which rules of spec/ it formalises. `s.completes i P` is
"exec i s answers a next state of which P holds"; the terms stand in Sys2Proof/Safety.lean.
-/

open Sys2Proof Sys2Proof.Machine

/-! ## Scalar arithmetic -/

/-- R157, R158: the S-ops of format SR that add, subtract, combine, shift, multiply and divide, at every operand, at user and at
handler level; frame: nothing but sD, the next address and the issue count changes. b is the register or immediate of R133. Division
never traps: the quotient is truncated toward zero, the remainder is a - q b; b = 0 gives all ones and a. -/
def Obligations.ScalarArithmetic : Prop :=
  ∀ (s : State) (w : Wave) (d a : SReg) (b : SrcB), s.waves[s.cur.1]? = some w →
    let x := w.readS a
    let y := s.opB w b
    s.puts w (.sadd d a b) d (x + y) ∧
    s.puts w (.ssub d a b) d (x - y) ∧
    s.puts w (.sand d a b) d (x &&& y) ∧
    s.puts w (.sor d a b) d (x ||| y) ∧
    s.puts w (.sxor d a b) d (x ^^^ y) ∧
    s.puts w (.sshl d a b) d (BitVec.ofNat 64 (x.toNat * 2 ^ (y.toNat % 64))) ∧
    s.puts w (.sshr d a b) d (BitVec.ofNat 64 (x.toNat / 2 ^ (y.toNat % 64))) ∧
    s.puts w (.ssar d a b) d (BitVec.ofInt 64 (x.toInt / 2 ^ (y.toNat % 64))) ∧
    s.puts w (.smul d a b) d (BitVec.ofInt 64 (x.toInt * y.toInt)) ∧
    s.puts w (.smulh d a b) d (((x.signExtend 128 * y.signExtend 128) >>> 64).setWidth 64) ∧
    s.puts w (.smulhU d a b) d (((x.setWidth 128 * y.setWidth 128) >>> 64).setWidth 64) ∧
    s.puts w (.sdiv d a b) d (if y = 0 then BitVec.allOnes 64 else x.sdiv y) ∧
    s.puts w (.srem d a b) d (if y = 0 then x else x - x.sdiv y * y) ∧
    s.puts w (.sdivU d a b) d (if y = 0 then BitVec.allOnes 64 else x / y) ∧
    s.puts w (.sremU d a b) d (if y = 0 then x else x - x / y * y)

/-- R157 (minimum and maximum), R159, R160, R134. SSEL reads sD before it writes it; SLUI keeps the low half of sD.

R133, R135, R139: how an immediate is formed. Without an XIM a field of n bits is sign-extended; with one, the payload stands
above it and the whole is sign-extended. An SB or SJ offset counts words from the address of the branching S-op. -/
def Obligations.ScalarSelectAndImmediates : Prop :=
  (∀ (s : State) (w : Wave) (c : Cond) (d a : SReg) (b : SrcB) (imm : BitVec 20), s.waves[s.cur.1]? = some w →
    let x := w.readS a
    let y := s.opB w b
    let k := w.readS d
    let v := s.pfx.imm 20 imm.toNat
    let holds : Prop := match c with
      | .eq => x = y
      | .ne => x ≠ y
      | .lt => x.toInt < y.toInt
      | .ge => y.toInt ≤ x.toInt
      | .ltu => x.toNat < y.toNat
      | .geu => y.toNat ≤ x.toNat
    s.puts w (.smin d a b) d (BitVec.ofInt 64 (min x.toInt y.toInt)) ∧
    s.puts w (.smax d a b) d (BitVec.ofInt 64 (max x.toInt y.toInt)) ∧
    s.puts w (.sminU d a b) d (BitVec.ofNat 64 (min x.toNat y.toNat)) ∧
    s.puts w (.smaxU d a b) d (BitVec.ofNat 64 (max x.toNat y.toNat)) ∧
    (holds → s.puts w (.scmp c d a b) d 1) ∧
    (¬ holds → s.puts w (.scmp c d a b) d 0) ∧
    (k ≠ 0 → s.puts w (.sselNz d a b) d x ∧ s.puts w (.sselZ d a b) d y) ∧
    (k = 0 → s.puts w (.sselNz d a b) d y ∧ s.puts w (.sselZ d a b) d x) ∧
    s.puts w (.sli d imm) d v ∧
    s.puts w (.slui d imm) d (v.setWidth 32 ++ k.setWidth 32)) ∧
  (∀ (s : State) (w : Wave) (r : SReg) (v : BitVec 10) (off : BitVec 20) (y : BitVec 26),
    s.opB w (.reg r) = w.readS r ∧
    (s.pfx.xim = none →
      s.opB w (.imm v) = v.signExtend 64 ∧
      s.target w 20 off.toNat = BitVec.ofNat 64 (w.ss.pc + 4 * s.pfx.words) + 4 * off.signExtend 64) ∧
    (s.pfx.xim = some y →
      s.opB w (.imm v) = (y ++ v).signExtend 64 ∧
      s.target w 20 off.toNat = BitVec.ofNat 64 (w.ss.pc + 4 * s.pfx.words) + 4 * (y ++ off).signExtend 64))

/-! ## Scalar control flow -/

/-- R161: where SBR, SJMP, SCALL, SRET and SLOOP go, and what they write. A taken target lies in the wave's scalar section and
in 56 bits, SRET's is a multiple of 4; an SBR that is not taken does not look at its target.

R162, R137: a taken branch to an address outside the scalar section raises CODE_RANGE (0x04) at the branching S-op, with the
target in sys.trapva and the group's first word in sys.trappc; SRET's MISALIGNED (0x06) comes after it. With a handler installed
(R350) the wave enters it. -/
def Obligations.ScalarBranches : Prop :=
  (∀ (s : State) (w : Wave) (c : Cond) (d a b : SReg) (off11 : BitVec 11) (off20 : BitVec 20), s.waves[s.cur.1]? = some w →
    let next := s.opAddr w + 4
    let inside (t : DWord) : Prop := (s.scalarSection w).1 ≤ t.toNat ∧ t.toNat + 4 ≤ (s.scalarSection w).1 + (s.scalarSection w).2 ∧
      t.toNat < 2 ^ 56
    let T := s.target w 20 off20.toNat
    let T11 := s.target w 11 off11.toNat
    (Cond.holds c (w.readS a) (w.readS b) = false → s.completes (.sbr c a b off11) fun t => s.ScalarDone t w 0 0 next) ∧
    (Cond.holds c (w.readS a) (w.readS b) = true → inside T11 →
      s.completes (.sbr c a b off11) fun t => s.ScalarDone t w 0 0 T11.toNat) ∧
    (inside T → s.completes (.sjmp off20) fun t => s.ScalarDone t w 0 0 T.toNat) ∧
    (inside T → s.completes (.scall d off20) fun t => s.ScalarDone t w d (BitVec.ofNat 64 next) T.toNat) ∧
    (inside (w.readS a) → (w.readS a).toNat % 4 = 0 → s.completes (.sret a) fun t => s.ScalarDone t w 0 0 (w.readS a).toNat) ∧
    (1 < (w.readS d).toNat → inside T → s.completes (.sloop d off20) fun t => s.ScalarDone t w d (w.readS d - 1) T.toNat) ∧
    ((w.readS d).toNat ≤ 1 → s.completes (.sloop d off20) fun t => s.ScalarDone t w d 0 next)) ∧
  (∀ (s : State) (w : Wave) (c : Cond) (d a b : SReg) (off11 : BitVec 11) (off20 : BitVec 20), s.waves[s.cur.1]? = some w →
    w.priv.handler = false → (s.ctxOf w).hen = true →
    let outside (n : Nat) : Prop := ¬ ((s.scalarSection w).1 ≤ n ∧ n + 4 ≤ (s.scalarSection w).1 + (s.scalarSection w).2 ∧ n < 2 ^ 56)
    let T := (s.target w 20 off20.toNat).toNat
    let T11 := (s.target w 11 off11.toNat).toNat
    let range (i : Instr) (va : Nat) : Prop := s.completes i fun t => s.Entered t s.cur.1 w .s false 0x04 va 0 w.ss.pc 0
    (Cond.holds c (w.readS a) (w.readS b) = true → outside T11 → range (.sbr c a b off11) T11) ∧
    (outside T → range (.sjmp off20) T ∧ range (.scall d off20) T ∧ (1 < (w.readS d).toNat → range (.sloop d off20) T)) ∧
    (outside ((w.readS a).toNat / 4 * 4) → range (.sret a) (w.readS a).toNat) ∧
    (¬ outside ((w.readS a).toNat / 4 * 4) → (w.readS a).toNat % 4 ≠ 0 →
      s.completes (.sret a) fun t => s.Entered t s.cur.1 w .s false 0x06 (w.readS a).toNat 0 w.ss.pc 0))

/-! ## Traps, handlers and special registers -/

/-- R175, R344, R349, R351, R353: TRAP takes USER_TRAP (0x22) with its code, SYSC takes SYSCALL (0x23) with its code and argument.
The wave is at handler level at the entry address, the five registers hold the report, the window has drained with every value
kept, and no other register, no memory and no other wave changes. -/
def Obligations.TrapAndSystemCall : Prop :=
  ∀ (s : State) (w : Wave) (d a : SReg) (n : BitVec 10), s.waves[s.cur.1]? = some w →
    w.priv.handler = false → (s.ctxOf w).hen = true → 0 ≤ s.number n → s.number n ≤ 65535 →
    s.completes (.trap n) (fun t => s.Entered t s.cur.1 w .s false 0x22 0 (s.number n).toNat w.ss.pc 0) ∧
    s.completes (.sysc d a n) (fun t => s.Entered t s.cur.1 w .s false 0x23 (w.readS a).toNat (s.number n).toNat w.ss.pc 0)

/-- R350, R355, R179, R33: how a wave leaves. With no handler installed, a precise trap kills its wave with the trap's own cause: its
tickets, results, requests and blocks are given up, and the team keeps the wave and the cause of its first kill. EXIT outside a
region, with every earlier ticket complete, retires the wave. Registers keep their values, and no memory changes. -/
def Obligations.WavesLeave : Prop :=
  ∀ (s : State) (w : Wave) (x : Team) (n : BitVec 10), s.waves[s.cur.1]? = some w → s.teams[w.team]? = some x → w.gone = false →
    w.priv.handler = false →
    ((s.ctxOf w).hen = false → 0 ≤ s.number n → s.number n ≤ 65535 → s.completes (.trap n) fun t =>
      (∃ w', t.waves[s.cur.1]? = some w' ∧ w'.st = .killed ∧ w'.killCause = 0x22 ∧ w'.ss.s = w.ss.s ∧ w'.ls.tickets = [] ∧
        w'.ls.results = [] ∧ w'.ss.blocks = 0 ∧ w'.region = none) ∧
      (∃ x', t.teams[w.team]? = some x' ∧ x'.killed = x.killed ||| 1#64 <<< w.num ∧
        x'.firstKill = if x.firstKill = 0 then 0x22 else x.firstKill) ∧
      t.mem = s.mem) ∧
    (w.region = none → w.ls.tickets = [] → s.completes .exit fun t =>
      (∃ w', t.waves[s.cur.1]? = some w' ∧ w'.st = .retired ∧ w'.ss.ins = [] ∧ w'.ss.outs = [] ∧ w'.ss.blocks = 0 ∧
        w'.soft.ext = 0 ∧ w'.ss.s = w.ss.s ∧ w'.ls.v = w.ls.v) ∧
      t.mem = s.mem ∧ t.cores.length = s.cores.length)

/-- R354, R353: how a handler ends. RETRY goes on at the place of the trap; NEXT after a precise trap of the S-stream goes on after
its group and gives SYSC's destination sys.hret, and after one of an L-op moves its side past it, also where an LBR has put the
parked side onto the divergence stack (R44); KILL kills the wave with the cause
in sys.cause; KILLLANES takes the lanes of sys.lanemask out of the live mask and of the sides, and
goes on after the L-op where lanes are left. RETRY and NEXT keep every other register, at both
levels, and all memory. -/
def Obligations.HandlerActions : Prop :=
  ∀ (s : State) (w : Wave) (c : TrapCtx), s.waves[s.cur.1]? = some w → w.priv.handler = true → w.priv.ctx = some c →
    let kept (w' : Wave) : Prop := w'.priv.handler = false ∧ w'.priv.bank = w.priv.bank ∧ w'.soft = w.soft ∧ w'.region = w.region ∧
      w'.green = w.green ∧ ∀ r l, w'.ls.laneVal r l = w.ls.laneVal r l
    let ends (i : Instr) (P : Wave → Prop) : Prop := s.completes i fun t => ∃ w', s.IssuedBy t s.cur.1 w w' ∧ kept w' ∧ P w'
    let spilled (d : Side) : Prop := w.trapParked = true ∧ ∃ k, w.ls.park? d = some k ∧ k.stacked = true
    ends .hactRetry (fun w' => w'.ss.pc = c.pc ∧ w'.ss.s = w.ss.s) ∧
    (c.imprecise = true → ends .hactNext fun w' => w'.ss.pc = c.pc ∧ w'.ss.s = w.ss.s) ∧
    (c.imprecise = false → c.strm = .s → ends .hactNext fun w' => w'.ss.pc = c.nextPc ∧
      ∀ r : SReg, r.val ≠ 0 → w'.ss.s[r] = if c.sysc = some r then w.priv.hret else w.ss.s[r]) ∧
    (∀ d p, c.imprecise = false → c.strm = .l d → c.lhdr = false → w.ls.side? d = some p → ¬ spilled d → ends .hactNext fun w' =>
      w'.ss.pc = c.pc ∧ w'.ss.s = w.ss.s ∧ w'.ls.side? d = some { p with pc := c.nextPc } ∧
      w'.ls.side? (Side.other d) = w.ls.side? (Side.other d)) ∧
    (∀ d, c.imprecise = false → c.strm = .l d → c.lhdr = false → spilled d → ends .hactNext fun w' =>
      w'.ss.pc = c.pc ∧ w'.ss.s = w.ss.s ∧ w'.ls.side? d = w.ls.side? d ∧ w'.ls.park? d = none ∧
      w'.ls.stack = w.ls.stack.map fun e => if e.parked = true ∧ e.slot = d then ⟨{ e.side with pc := c.nextPc }, d, false⟩ else e) ∧
    (∀ k : Cause, w.trapCode = k.code → w.gone = false → s.completes .hactKill fun t =>
      ∃ w', t.waves[s.cur.1]? = some w' ∧ w'.st = .killed ∧ w'.killCause = k.code) ∧
    (∀ d p, c.imprecise = false → c.strm = .l d → c.lhdr = false → w.trapCode = 0x24 ∨ w.trapCode = 0x25 → w.ls.side? d = some p →
      ¬ spilled d → (∀ e q, w.ls.side? e = some q → q.st = .running ∧ q.mask &&& ~~~w.priv.lanemask ≠ 0) →
      s.completes .hactKilllanes fun t => ∃ w', t.waves[s.cur.1]? = some w' ∧ w'.priv.handler = false ∧
        w'.ls.live = w.ls.live &&& ~~~w.priv.lanemask ∧
        w'.ls.side? d = some { p with pc := c.nextPc, mask := p.mask &&& ~~~w.priv.lanemask })

/-- R176, R177, R345: what SRDX reads and SWRX writes, by register number. Reads zero-extend. The registers from 0x100 on are those
of handler level; at user level they raise PRIVILEGE (0x09) with the number in sys.trapva. -/
def Obligations.SpecialRegisters : Prop :=
  ∀ (s : State) (w : Wave) (d a : SReg) (n : BitVec 10), s.waves[s.cur.1]? = some w →
    let k := s.number n
    let reads (m : Int) (v : DWord) : Prop := k = m → s.puts w (.srdx d n) d v
    let c := s.ctxOf w
    let x := w.readS a
    reads 0x000 (w.soft.fflags.setWidth 64) ∧ reads 0x001 w.soft.bond ∧ reads 0x002 (BitVec.ofNat 64 (s.cyclesOf w.core)) ∧
    reads 0x003 w.soft.seed ∧ reads 0x004 (BitVec.ofNat 64 w.soft.ext) ∧ reads 0x005 (BitVec.ofNat 64 w.ls.tickets.length) ∧
    reads 0x006 (BitVec.ofNat 64 w.ls.results.length) ∧
    (w.priv.handler = true →
      reads 0x100 w.priv.cause ∧ reads 0x101 w.priv.trappc ∧ reads 0x102 w.priv.trapva ∧ reads 0x103 w.priv.trapaux ∧
      reads 0x104 (w.priv.lanemask.setWidth 64) ∧ reads 0x105 0 ∧ reads 0x106 w.priv.hret ∧ reads 0x107 c.ctxctl ∧ reads 0x108 c.subst ∧
      reads 0x109 c.tring ∧ reads 0x10A (BitVec.ofNat 64 c.tidx) ∧ reads 0x10B (BitVec.ofNat 64 (s.imageBase w.team)) ∧ reads 0x10C ((s.ctxIdOf w).setWidth 64) ∧
      (∀ r : SReg, reads (0x200 + r.val) (if r.val = 0 then 0 else w.ss.s[r])) ∧
      (k = 0x106 → s.completes (.swrx a n) fun t => s.ScalarDoneAs t w { w with priv := { w.priv with hret := x } } 0 0 (s.opAddr w + 4)) ∧
      (∀ r : SReg, k = 0x200 + r.val → s.completes (.swrx a n) fun t => s.ScalarDoneAs t w
        (if r.val = 0 then w else { w with ss := { w.ss with s := w.ss.s.set r.val x r.isLt } }) 0 0 (s.opAddr w + 4))) ∧
    (k = 0x000 → s.completes (.swrx a n) fun t => s.ScalarDoneAs t w { w with soft := { w.soft with fflags := x.setWidth 5 } } 0 0
      (s.opAddr w + 4)) ∧
    (w.priv.handler = false → c.hen = true → 0x100 ≤ k → k ≤ 0x3FF →
      s.completes (.srdx d n) (fun t => s.Entered t s.cur.1 w .s false 0x09 k.toNat 0 w.ss.pc 0) ∧
      s.completes (.swrx a n) (fun t => s.Entered t s.cur.1 w .s false 0x09 k.toNat 0 w.ss.pc 0))

/-- R178, R180, R139: NOP changes nothing, YIELD keeps the S-stream from issue for n cycles from now, RSEED sets the seed and adds 1 to its
epoch, XIM and XHNT only qualify the S-op of their group. -/
def Obligations.ScalarSmallOps : Prop :=
  ∀ (s : State) (w : Wave) (a : SReg) (n : BitVec 10) (y : BitVec 26) (h : HintKind) (k : BitVec 8), s.waves[s.cur.1]? = some w →
    let next := s.opAddr w + 4
    s.completes .nop (fun t => s.ScalarDone t w 0 0 next) ∧
    (w.priv.handler = false → 0 ≤ s.number n → s.number n ≤ 1023 → s.completes (.yield n) fun t =>
      s.ScalarDoneAs t w
        { w with ss := { w.ss with yieldN := (s.number n).toNat, yieldAt := s.cyclesOf w.core } } 0 0 next) ∧
    (w.priv.handler = false → s.completes (.rseed a) fun t =>
      s.ScalarDoneAs t w { w with soft := { w.soft with seed := w.readS a, epoch := w.soft.epoch + 1 } } 0 0 next) ∧
    s.completes (.xim y) (fun t => t.pfx.xim = some y ∧ t.pfx.words = s.pfx.words + 1 ∧ { t with pfx := s.pfx } = s) ∧
    s.completes (.xhnt h k) (fun t => t.pfx.hint = some (h, k) ∧ t.pfx.words = s.pfx.words + 1 ∧ { t with pfx := s.pfx } = s)

/-! ## Lane dispatch, register blocks, bonds, footprints, barriers -/

/-- R35, R166 to R168: LRUN appends a ticket with the block address, the snapshots and the recorded state; SPOP takes the oldest
result; LDRAIN passes once every ticket is complete; WCNT reads the four counters. -/
def Obligations.LaneDispatch : Prop :=
  ∀ (s : State) (w : Wave) (d a : SReg) (cnt : BitVec 3) (off : BitVec 17) (e : DWord) (es : List DWord),
    s.waves[s.cur.1]? = some w → w.priv.handler = false →
    let next := s.opAddr w + 4
    let L := (s.launchOf w).lbase + 4 * off.toNat
    let snap (k : Nat) : DWord := if k < cnt.toNat then (if h : a.val + k < 64 then w.readS ⟨a.val + k, h⟩ else 0) else 0
    (s.pfx.xim = none → w.ls.tickets.length < 8 → L + 4 ≤ (s.launchOf w).lbase + (s.launchOf w).lsize → L < 2 ^ 56 →
      s.completes (.lrun a cnt off) fun t => s.ScalarDoneAs t w
        { w with ls := { w.ls with tickets := w.ls.tickets ++
          [⟨L, w.soft.ext, #v[snap 0, snap 1, snap 2, snap 3], w.soft.bond, w.soft.seed, w.soft.epoch⟩] } } 0 0 next) ∧
    (w.ls.results = e :: es → s.completes (.spop d) fun t =>
      s.ScalarDoneAs t w { w with ls := { w.ls with results := es } } d e next) ∧
    (w.ls.tickets = [] → s.completes .ldrain fun t => s.ScalarDone t w 0 0 next) ∧
    s.puts w (.wcnt d) d ((0 : BitVec 40) ++ (w.ls.w[3] ++ w.ls.w[2] ++ w.ls.w[1] ++ w.ls.w[0]))

/-- R62, R169, R376: REGX.acq of blocks that the wave holds, or that the core's pool of 512 covers with no older request and no release
of its own waiting, completes at once, and under RESEXT it always does: blocks up to k are held and every register of the new ones
reads zero in every lane, the others keep their values. REGX.rel gives the extent k; with no ticket queued the blocks return at once. -/
def Obligations.RegisterBlocks : Prop :=
  ∀ (s : State) (w : Wave) (n : BitVec 10), s.waves[s.cur.1]? = some w → w.priv.handler = false → 0 ≤ s.number n → s.number n ≤ 7 →
    let k := (s.number n).toNat
    let next := s.opAddr w + 4
    (k + 1 ≤ (s.launchOf w).regs → k ≤ w.soft.ext → s.completes (.regxAcq n) fun t => s.ScalarDone t w 0 0 next) ∧
    (k + 1 ≤ (s.launchOf w).regs → w.soft.ext < k → w.ss.acquire = none →
      (s.launchOf w).resext = true ∨
        (w.ss.release = [] ∧ s.grantsOf w.core = [] ∧ s.blocksUsed w.core + (k - w.ss.blocks) ≤ 512) →
      s.completes (.regxAcq n) fun t => ∃ w', s.IssuedBy t s.cur.1 w w' ∧ w'.ss.pc = next ∧ w'.soft = { w.soft with ext := k } ∧
        w'.ss.blocks = max w.ss.blocks k ∧ w'.ss.s = w.ss.s ∧
        ∀ r : VReg, w'.ls.v[r] = if 32 * (w.ss.blocks + 1) ≤ r.val ∧ r.val < 32 * (k + 1) then Vector.replicate 32 0 else w.ls.v[r]) ∧
    (w.soft.ext ≤ k → s.completes (.regxRel n) fun t => s.ScalarDone t w 0 0 next) ∧
    (k < w.soft.ext → w.ls.tickets = [] → s.completes (.regxRel n) fun t => s.ScalarDoneAs t w
      { w with soft := { w.soft with ext := k }, ss := { w.ss with blocks := k } } 0 0 next)

/-- R171, R172: RGN.in and RGN.out append a range to the pending list, and a length of 0 changes nothing; a ninth range raises
FOOTPRINT_FULL (0x0E). BOND sets the bond register to a value of R243's layout; any other value raises BOND_INVALID (0x17), and the
report holds the bond value in use (R351). -/
def Obligations.FootprintsAndBonds : Prop :=
  ∀ (s : State) (w : Wave) (a b : SReg), s.waves[s.cur.1]? = some w → w.priv.handler = false →
    let lo := (w.readS a).toNat
    let len := (w.readS b).toNat
    let next := s.opAddr w + 4
    let v := w.readS a
    let cnt := v.toNat / 2 ^ 36 % 8
    let member (k : Nat) : Nat := v.toNat / 2 ^ (6 * k) % 64
    (w.region = none →
      (len = 0 → s.completes (.rgnIn a b) (fun t => s.ScalarDone t w 0 0 next) ∧ s.completes (.rgnOut a b) (fun t => s.ScalarDone t w 0 0 next)) ∧
      (0 < len → lo + len ≤ 2 ^ 56 → w.ss.ins.length < 8 → s.completes (.rgnIn a b) fun t =>
        s.ScalarDoneAs t w { w with ss := { w.ss with ins := w.ss.ins ++ [⟨lo, len⟩] } } 0 0 next) ∧
      (0 < len → lo + len ≤ 2 ^ 56 → w.ss.outs.length < 8 → s.completes (.rgnOut a b) fun t =>
        s.ScalarDoneAs t w { w with ss := { w.ss with outs := w.ss.outs ++ [⟨lo, len⟩] } } 0 0 next) ∧
      (0 < len → lo + len ≤ 2 ^ 56 → 8 ≤ w.ss.ins.length → (s.ctxOf w).hen = true → s.completes (.rgnIn a b) fun t =>
        s.Entered t s.cur.1 w .s false 0x0E 0 0 w.ss.pc 0)) ∧
    let layout : Prop := v = 0 ∨ (2 ≤ cnt ∧ cnt ≤ 6 ∧ v.toNat < 2 ^ 39 ∧ (∀ k, k < 6 → cnt ≤ k → member k = 0) ∧
      (∀ k, k + 1 < cnt → member k < member (k + 1)) ∧ (∀ k, k < cnt → member k < (s.launchOf w).waves) ∧
      ∃ k, k < cnt ∧ member k = w.num)
    (layout → s.completes (.bond a) fun t => s.ScalarDoneAs t w { w with soft := { w.soft with bond := v } } 0 0 next) ∧
    (¬ layout → (s.ctxOf w).hen = true → s.completes (.bond a) fun t =>
      s.Entered t s.cur.1 w .s false 0x17 0 w.soft.bond.toNat w.ss.pc 0)

/-- R173, R174: an arrival is recorded; the phase ends with the arrival after which every member has arrived or has left, and then
every member that had arrived finds it ended, abandoned or not, and the next phase opens unmarked. A wait for an ended phase gives 0,
or 1 for an abandoned one, and leaves the state idle; a wait in state idle, and a second arrival, raise BAR_SEQUENCE (0x16). The
arrival's release is State.release at scope .t.

R173, R174 for a cluster barrier: the members are the waves of every team of the cluster, and the team of rank 0 keeps the
phase. -/
def Obligations.TeamAndClusterBarriers : Prop :=
  (∀ (s : State) (w : Wave) (x : Team) (b : Fin 16) (n : BitVec 10) (d : SReg), s.waves[s.cur.1]? = some w → s.teams[w.team]? = some x →
    w.priv.handler = false → s.number n = b.val →
    let u := s.release w.core (s.scopeOf w .t)
    let next := s.opAddr w + 4
    let missing : Prop := ∃ k y, k ≠ s.cur.1 ∧ s.waves[k]? = some y ∧ y.team = w.team ∧ y.gone = false ∧ y.ss.bars[b] ≠ .arrived
    let trapped (i : Instr) : Prop := s.completes i fun t => s.Entered t s.cur.1 w .s false 0x16 0 0 w.ss.pc 0
    (w.region = none → w.ls.tickets = [] → w.ss.bars[b] = .idle → missing → s.completes (.barArr n) fun t =>
      u.IssuedBy t s.cur.1 w { w with ss := { w.ss with bars := w.ss.bars.set b .arrived, pc := next, waitS := none } }) ∧
    (w.region = none → w.ls.tickets = [] → w.ss.bars[b] = .idle → ¬ missing → s.completes (.barArr n) fun t =>
      u.sameBeside t ∧
      (∃ w', t.waves[s.cur.1]? = some w' ∧ w'.ss.pc = next ∧ w'.ss.bars[b] = .ended x.bars[b].abandoned) ∧
      (∃ x', t.teams[w.team]? = some x' ∧ x'.bars[b] = ⟨x.bars[b].phase + 1, false⟩) ∧
      ∀ k y, k ≠ s.cur.1 → s.waves[k]? = some y →
        t.waves[k]? = some (if y.team = w.team ∧ y.ss.bars[b] = .arrived then
          { y with ss := { y.ss with bars := y.ss.bars.set b (.ended x.bars[b].abandoned) } } else y)) ∧
    (∀ ab, w.ss.bars[b] = .ended ab → s.completes (.barWait d n) fun t => s.ScalarDoneAs t w
      { w with ss := { w.ss with bars := w.ss.bars.set b .idle } } d (if ab then 1 else 0) next) ∧
    ((s.ctxOf w).hen = true → (w.ss.bars[b] = .idle → trapped (.barWait d n)) ∧
      (w.region = none → w.ss.bars[b] ≠ .idle → trapped (.barArr n)))) ∧
  (∀ (s : State) (w : Wave) (x : Team) (b : Fin 4) (n : BitVec 10) (d : SReg), s.waves[s.cur.1]? = some w →
    s.teams[s.clusterHead w.team]? = some x → w.team ∈ s.clusterOf w.team → w.priv.handler = false → s.number n = b.val →
    let u := s.release w.core .b
    let next := s.opAddr w + 4
    let missing : Prop := ∃ k y, k ≠ s.cur.1 ∧ s.waves[k]? = some y ∧ y.team ∈ s.clusterOf w.team ∧ y.gone = false ∧
      y.ss.cbars[b] ≠ .arrived
    (w.region = none → w.ls.tickets = [] → w.ss.cbars[b] = .idle → missing → s.completes (.cbarArr n) fun t =>
      u.IssuedBy t s.cur.1 w { w with ss := { w.ss with cbars := w.ss.cbars.set b .arrived, pc := next, waitS := none } }) ∧
    (w.region = none → w.ls.tickets = [] → w.ss.cbars[b] = .idle → ¬ missing → s.completes (.cbarArr n) fun t =>
      u.sameBeside t ∧
      (∃ w', t.waves[s.cur.1]? = some w' ∧ w'.ss.pc = next ∧ w'.ss.cbars[b] = .ended x.cbars[b].abandoned) ∧
      (∃ x', t.teams[s.clusterHead w.team]? = some x' ∧ x'.cbars[b] = ⟨x.cbars[b].phase + 1, false⟩)) ∧
    (∀ ab, w.ss.cbars[b] = .ended ab → s.completes (.cbarWait d n) fun t => s.ScalarDoneAs t w
      { w with ss := { w.ss with cbars := w.ss.cbars.set b .idle } } d (if ab then 1 else 0) next))

/-! ## Lane arithmetic -/

/-- R185 to R187, R181, R143, R72: the lane integer instructions, register and immediate forms, at every type: exact, saturated once
where .sat asks, narrowed to n bits, a 16-bit result extended by its type. No division traps: a divisor of 0 gives all ones and the
dividend, the quotient truncates toward zero. Lanes outside the active set and every other register keep their values. -/
def Obligations.LaneIntegerArithmetic : Prop :=
  ∀ (s : State) (w : Wave) (p : PcSide) (c : LCtl) (ty : IntTy) (sat rem : Bool) (D : Dst) (a b x : Opnd) (imm : Word),
    let n := ty.bits
    let k := regsOf n
    let val (v : Nat) : Int := if ty.signed ∧ 2 ^ (n - 1) ≤ v then (v : Int) - 2 ^ n else v
    let hi : Int := if ty.signed then 2 ^ (n - 1) - 1 else 2 ^ n - 1
    let lo : Int := if ty.signed then -2 ^ (n - 1) else 0
    let low (m : Nat) (y : Int) : Nat := (y % 2 ^ m).toNat
    let out (y : Int) : Nat := if n = 16 ∧ ty.signed then low 32 (val (low n y)) else low n y
    let clamp (y : Int) : Int := if sat then max lo (min hi y) else y
    let A (l : Lane) : Int := val (w.operand a n l)
    let B (l : Lane) : Int := val (w.operand b n l)
    let X (l : Lane) : Int := val (w.operand x n l)
    let I : Int := val (low n (if n = 64 then imm.toInt else imm.toNat))
    let quo (y z : Int) : Int := if z = 0 then 2 ^ n - 1 else y.tdiv z
    let ra := spanO a k
    let rd := spanD D k
    let la := lastUse c.lua a k
    let lb := lastUse c.lub b k
    let two (i j : Instr) (f : Int → Int → Int) : Prop :=
      (s.LReady w p c (ra ++ spanO b k ++ rd) [] → s.lanesPut w w p c i (la ++ lb) D n fun l => out (f (A l) (B l))) ∧
      (s.LReady w p c (ra ++ rd) [] → s.lanesPut w w p c j la D n fun l => out (f (A l) I))
    two (.iadd c ty sat D a b) (.iaddImm c ty sat D a imm) (fun y z => clamp (y + z)) ∧
    two (.isub c ty sat D a b) (.isubImm c ty sat D a imm) (fun y z => clamp (y - z)) ∧
    two (.imul c ty sat D a b) (.imulImm c ty sat D a imm) (fun y z => clamp (y * z)) ∧
    two (.imulh c ty D a b) (.imulhImm c ty D a imm) (fun y z => y * z / 2 ^ n) ∧
    two (.imin c ty D a b) (.iminImm c ty D a imm) min ∧
    two (.imax c ty D a b) (.imaxImm c ty D a imm) max ∧
    two (.idiv c ty rem D a b) (.idivImm c ty rem D a imm)
      (fun y z => if rem then y - (if z = 0 then 0 else quo y z * z) else quo y z) ∧
    (s.LReady w p c (ra ++ rd) [] →
      s.lanesPut w w p c (.iabs c ty sat D a) la D n fun l => out (clamp (if A l < 0 then -A l else A l))) ∧
    (s.LReady w p c (ra ++ spanO b k ++ spanO x k ++ rd) [] →
      s.lanesPut w w p c (.imad c ty sat D a b x) (la ++ lb ++ lastUse c.luc x k) D n fun l => out (clamp (A l * B l + X l)))

/-- R188: the seven bitwise operations and the four shifts. -/
def Obligations.LaneLogicAndShifts : Prop :=
  ∀ (s : State) (w : Wave) (p : PcSide) (c : LCtl) (ty : IntTy) (op : LogicOp) (sh : ShiftOp) (clamp : Bool) (D : Dst) (a b : Opnd)
    (imm : Word),
    let n := ty.bits
    let k := regsOf n
    let low (m : Nat) (y : Int) : Nat := (y % 2 ^ m).toNat
    let sext (v : Nat) : Int := if 2 ^ (n - 1) ≤ v then (v : Int) - 2 ^ n else v
    let out (v : Nat) : Nat := if n = 16 ∧ ty.signed then low 32 (sext (v % 2 ^ n)) else v % 2 ^ n
    let logic (v u : Nat) : Nat :=
      let y := BitVec.ofNat n v
      let z := BitVec.ofNat n u
      (match op with
        | .and => y &&& z
        | .or => y ||| z
        | .xor => y ^^^ z
        | .andn => y &&& ~~~z
        | .orn => y ||| ~~~z
        | .xnor => ~~~(y ^^^ z)
        | .nor => ~~~(y ||| z)).toNat
    let shift (v u : Nat) : Nat :=
      let r := if clamp = true ∧ sh ≠ .rol then min u n else u % n
      match sh with
      | .shl => v * 2 ^ r
      | .shr => v / 2 ^ r
      | .sar => low n (sext v / 2 ^ r)
      | .rol => v * 2 ^ r + v / 2 ^ (n - r)
    let A (l : Lane) : Nat := w.operand a n l
    let I : Nat := low n (if n = 64 then imm.toInt else imm.toNat)
    let two (i j : Instr) (f : Nat → Nat → Nat) : Prop :=
      (s.LReady w p c (spanO a k ++ spanO b k ++ spanD D k) [] →
        s.lanesPut w w p c i (lastUse c.lua a k ++ lastUse c.lub b k) D n fun l => out (f (A l) (w.operand b n l))) ∧
      (s.LReady w p c (spanO a k ++ spanD D k) [] → s.lanesPut w w p c j (lastUse c.lua a k) D n fun l => out (f (A l) I))
    two (.ilop c ty op D a b) (.ilopImm c ty op D a imm) logic ∧
    two (.ishf c ty sh clamp D a b) (.ishfImm c ty sh clamp D a imm) shift

/-- R189: ICMP writes 1 or 0; ISEL reads its own destination as the condition. -/
def Obligations.LaneCompareAndSelect : Prop :=
  ∀ (s : State) (w : Wave) (p : PcSide) (c : LCtl) (ty : IntTy) (cc : ICond) (z : Bool) (D : Dst) (a b : Opnd) (imm : Word),
    let n := ty.bits
    let k := regsOf n
    let val (v : Nat) : Int := if ty.signed ∧ 2 ^ (n - 1) ≤ v then (v : Int) - 2 ^ n else v
    let low (m : Nat) (y : Int) : Nat := (y % 2 ^ m).toNat
    let out (v : Nat) : Nat := if n = 16 ∧ ty.signed then low 32 (val v) else v
    let holds (v u : Nat) : Bool := match cc with
      | .eq => val v = val u
      | .ne => val v ≠ val u
      | .lt => val v < val u
      | .le => val v ≤ val u
      | .gt => val v > val u
      | .ge => val v ≥ val u
      | .tst => v &&& u ≠ 0
      | .ntst => v &&& u = 0
    let cond (l : Lane) : Nat := match D with
      | .v r => w.operand (.v r) n l
      | .zero => 0
    let A (l : Lane) : Nat := w.operand a n l
    let I : Nat := low n (if n = 64 then imm.toInt else imm.toNat)
    let sel (l : Lane) (v u : Nat) : Nat := out (if (cond l = 0) ↔ z = true then v else u)
    let two (i j : Instr) (f : Lane → Nat → Nat → Nat) : Prop :=
      (s.LReady w p c (spanO a k ++ spanO b k ++ spanD D k) [] →
        s.lanesPut w w p c i (lastUse c.lua a k ++ lastUse c.lub b k) D n fun l => f l (A l) (w.operand b n l)) ∧
      (s.LReady w p c (spanO a k ++ spanD D k) [] → s.lanesPut w w p c j (lastUse c.lua a k) D n fun l => f l (A l) I)
    two (.icmp c ty cc D a b) (.icmpImm c ty cc D a imm) (fun _ v u => if holds v u then 1 else 0) ∧
    two (.isel c ty z D a b) (.iselImm c ty z D a imm) sel

/-- R190: counts, reversal, permutation and fields. The functions are those of Machine/LaneInt.lean; BitFunctions says what they
compute, bit by bit. -/
def Obligations.LaneBitFields : Prop :=
  ∀ (s : State) (w : Wave) (p : PcSide) (c : LCtl) (ty : IntTy) (D : Dst) (a b x : Opnd) (imm : Word),
    let n := ty.bits
    let k := regsOf n
    let A (l : Lane) : Nat := w.operand a n l
    let B (l : Lane) : Nat := w.operand b n l
    let ra := spanO a k
    let rd := spanD D k
    let la := lastUse c.lua a k
    let lb := lastUse c.lub b k
    let one (i : Instr) (f : Nat → Nat) : Prop := s.LReady w p c (ra ++ rd) [] → s.lanesPut w w p c i la D n fun l => f (A l)
    let two (i j : Instr) (f : Nat → Nat → Nat) : Prop :=
      (s.LReady w p c (ra ++ spanO b k ++ rd) [] → s.lanesPut w w p c i (la ++ lb) D n fun l => f (A l) (B l)) ∧
      (s.LReady w p c (ra ++ rd) [] → s.lanesPut w w p c j la D n fun l => f (A l) (immInt n imm))
    one (.ipopc c ty D a) (popcOf n) ∧
    one (.iclz c ty D a) (clzOf n) ∧
    one (.ibrev c ty D a) (fun v => ioutN ty (brevOf n v)) ∧
    two (.iprmt c ty D a b) (.iprmtImm c ty D a imm) (prmtOf n) ∧
    two (.iext c ty D a b) (.iextImm c ty D a imm) (extOf ty) ∧
    (s.LReady w p c (ra ++ spanO b k ++ spanO x k ++ rd) [] →
      s.lanesPut w w p c (.iins c ty D a b x) (la ++ lb ++ lastUse c.luc x k) D n fun l => insOf ty (A l) (B l) (w.operand x n l))

/-- R190, bit by bit: leading zeros, reversal, byte permutation, extraction and insertion on n-bit values. -/
def Obligations.BitFunctions : Prop :=
  ∀ (ty : IntTy) (v u x : Nat) (i : Nat), v < 2 ^ ty.bits → u < 2 ^ ty.bits →
    let n := ty.bits
    let pos := x % 256
    let len := min (x / 256 % 256) n
    let nib := u / 2 ^ (i / 8 * 4) % 16
    (clzOf n v ≤ n ∧ v < 2 ^ (n - clzOf n v) ∧ (v ≠ 0 → 2 ^ (n - 1 - clzOf n v) ≤ v)) ∧
    (i < n → (brevOf n v).testBit i = v.testBit (n - 1 - i)) ∧
    (i < n → (prmtOf n v u).testBit i = (decide (nib < 8) && v.testBit (8 * (nib % (n / 8)) + i % 8))) ∧
    (ty.signed = false → (extOf ty v x).testBit i = (decide (i < len) && v.testBit (pos + i))) ∧
    (ty.signed = false → (insOf ty v u x).testBit i =
      if pos ≤ i ∧ i < pos + len ∧ i < n then u.testBit (i - pos) else v.testBit i)

/-! ## Lane floating point -/

/-- R191, R192, R196, R89, R98, R143: the rounded instructions and the two estimates, register and immediate forms, at every type and
mode: each active lane's result, the flags of the active lanes raised in fflags, and with .sr one draw of each active lane's counter.
Flt.add and its companions stand in Machine/Float.lean: exact, then rounded once. -/
def Obligations.LaneFloatArithmetic : Prop :=
  ∀ (s : State) (w : Wave) (p : PcSide) (c : LCtl) (ty : FTy) (m : Rnd) (D : Dst) (a b x : Opnd) (imm : Word),
    let n := ty.bits
    let k := regsOf n
    let F := ftyFlt ty
    let act := w.active p c
    let v (l : Lane) : Nat := if m = .sr then
      (draw (w.ls.ticket.seed ^^^ BitVec.ofNat 64 (l.val * 2 ^ 32)) w.soft.rndctr[l]).toNat / 2 ^ 32 else 0
    let A (l : Lane) : Val := F.decode (w.operand a n l)
    let B (l : Lane) : Val := F.decode (w.operand b n l)
    let X (l : Lane) : Val := F.decode (w.operand x n l)
    let I : Val := F.decode (immFlt ty imm)
    let rd := spanD D k
    let ra := spanO a k
    let la := lastUse c.lua a k
    let lb := lastUse c.lub b k
    let puts (i : Instr) (regs dead : List Nat) (draws : Bool) (g : Lane → Nat × Flags) : Prop :=
      s.LReady w p c regs [] → s.lanesPut w { w with soft := { w.soft with
          fflags := w.soft.fflags ||| ((lanesIn act).map fun l => (g l).2).foldl (· ||| ·) 0,
          rndctr := if draws then lanes fun l => if inMask act l then w.soft.rndctr[l] + 1 else w.soft.rndctr[l] else w.soft.rndctr } }
        p c i dead D n fun l => (g l).1
    let two (i j : Instr) (f : Rnd → Nat → Val → Val → Nat × Flags) : Prop :=
      puts i (ra ++ spanO b k ++ rd) (la ++ lb) (m = .sr) (fun l => f m (v l) (A l) (B l)) ∧
      puts j (ra ++ rd) la (m = .sr) (fun l => f m (v l) (A l) I)
    two (.fadd c ty m D a b) (.faddImm c ty m D a imm) F.add ∧
    two (.fsub c ty m D a b) (.fsubImm c ty m D a imm) F.sub ∧
    two (.fmul c ty m D a b) (.fmulImm c ty m D a imm) F.mul ∧
    two (.fdiv c ty m D a b) (.fdivImm c ty m D a imm) F.div ∧
    puts (.ffma c ty m D a b x) (ra ++ spanO b k ++ spanO x k ++ rd) (la ++ lb ++ lastUse c.luc x k) (m = .sr)
      (fun l => F.fma m (v l) (A l) (B l) (X l)) ∧
    puts (.fsqrt c ty m D a) (ra ++ rd) la (m = .sr) (fun l => F.sqrt m (v l) (A l)) ∧
    puts (.frnd c ty m D a) (ra ++ rd) la (m = .sr) (fun l => F.rint m (v l) (A l)) ∧
    puts (.fscale c ty m D a b) (ra ++ spanO b 1 ++ rd) (la ++ lastUse c.lub b 1) (m = .sr)
      (fun l => F.scale m (v l) (sfield (w.operand b 32 l) 0 32) (A l)) ∧
    puts (.fscaleImm c ty m D a imm) (ra ++ rd) la (m = .sr) (fun l => F.scale m (v l) imm.toInt (A l)) ∧
    puts (.frcp c ty D a) (ra ++ rd) la false (fun l => F.rcp (A l)) ∧
    puts (.frsq c ty D a) (ra ++ rd) la false (fun l => F.rsq (A l))

/-- R193 to R195, R203: minimum, maximum, comparison, classification and the elementary functions, which Machine/Float.lean encloses
and rounds. -/
def Obligations.LaneFloatFunctions : Prop :=
  ∀ (s : State) (w : Wave) (p : PcSide) (c : LCtl) (ty : FTy) (nan : Bool) (cc : FCond) (D : Dst) (a b : Opnd) (imm : Word),
    let n := ty.bits
    let k := regsOf n
    let F := ftyFlt ty
    let A (l : Lane) : Nat := w.operand a n l
    let rd := spanD D k
    let ra := spanO a k
    let la := lastUse c.lua a k
    let lb := lastUse c.lub b k
    let puts (i : Instr) (regs dead : List Nat) (g : Lane → Nat × Flags) : Prop :=
      s.LReady w p c regs [] → s.lanesPut w { w with soft := { w.soft with
          fflags := w.soft.fflags ||| ((lanesIn (w.active p c)).map fun l => (g l).2).foldl (· ||| ·) 0 } } p c i dead D n fun l => (g l).1
    let two (i j : Instr) (f : Nat → Nat → Nat × Flags) : Prop :=
      puts i (ra ++ spanO b k ++ rd) (la ++ lb) (fun l => f (A l) (w.operand b n l)) ∧
      puts j (ra ++ rd) la (fun l => f (A l) (immFlt ty imm))
    let one (i : Instr) (f : Nat → Nat × Flags) : Prop := puts i (ra ++ rd) la fun l => f (A l)
    two (.fmin c ty nan D a b) (.fminImm c ty nan D a imm) (F.minMax false nan) ∧
    two (.fmax c ty nan D a b) (.fmaxImm c ty nan D a imm) (F.minMax true nan) ∧
    two (.fcmp c ty cc D a b) (.fcmpImm c ty cc D a imm) (fun v u =>
      let r := fcmpOf cc (F.decode v) (F.decode u)
      (if r.1 then 1 else 0, r.2)) ∧
    (s.LReady w p c (ra ++ spanD D 1) [] →
      s.lanesPut w w p c (.fclass c ty D a) la D 32 fun l => F.classify (A l)) ∧
    one (.fexp2 c ty D a) F.exp2 ∧ one (.flog2 c ty D a) F.log2 ∧ one (.fsin c ty D a) F.sinPi ∧ one (.fcos c ty D a) F.cosPi

/-- R80, R88, R90, R95: an encoding of a finite value of any IEEE format reads as a value that rounds back to that encoding, in
every mode and for every draw, and raises no flag.

R93, R94, R192: what an operation on special values gives, whatever the mode and the draw: a NaN operand gives the canonical NaN,
NV for a signalling one; infinity less infinity, zero times infinity, 0/0 and a negative root are invalid; a finite non-zero value
over zero raises DZ; x - x is +0, or -0 under RDN. -/
def Obligations.FloatRoundingAndSpecials : Prop :=
  (∀ (F : Flt) (m : Rnd) (sat : Bool) (v enc : Nat) (x : Ex), F ∈ [fp64, fp32, fr19, bf16, fp16, e5m2] → enc < 2 * F.signBit →
    F.decode enc = .fin x → F.round m sat v x = (enc, 0)) ∧
  (∀ (F : Flt) (m : Rnd) (v : Nat) (y : Val) (q : Bool) (x : Ex) (n : Bool), F ∈ [fp64, fp32, fp16] →
    (F.add m v (.nan q) y).1 = F.nan ∧ (F.mul m v y (.nan q)).1 = F.nan ∧ (F.div m v (.nan q) y).1 = F.nan ∧
    (F.add m v (.nan true) y).2 = fNV ∧ (y.isSignalling = false → (F.add m v (.nan false) y).2 = 0) ∧
    F.sub m v (.inf n) (.inf n) = (F.nan, fNV) ∧ F.add m v (.inf n) (.inf n) = (F.signed n F.infMag, 0) ∧
    (x.m = 0 → F.mul m v (.inf n) (.fin x) = (F.nan, fNV) ∧ F.div m v (.fin x) (.fin x) = (F.nan, fNV) ∧
      F.sqrt m v (.fin x) = (F.signed x.neg 0, 0)) ∧
    (x.m ≠ 0 → F.div m v (.fin x) (.fin ⟨n, 0, 0, false⟩) = (F.signed (x.neg != n) F.infMag, fDZ) ∧
      (x.neg = true → F.sqrt m v (.fin x) = (F.nan, fNV))) ∧
    F.sub m v (.fin x) (.fin x) = (F.signed (m == .rdn) 0, 0))

/-! ## Lane conversions and movement -/

/-- R197 to R202: FCVT, FPACK and FUNPK of one lane's element, and the block that FCVT scales over the active lanes. -/
def Obligations.LaneConversions : Prop :=
  ∀ (s : State) (w : Wave) (p : PcSide) (c : LCtl) (k : Cvt) (e : BitVec 3) (D : Dst) (a b : Opnd),
    let sb := Kind.bits k.src
    let db := Kind.bits k.dst
    let act := w.active p c
    let v (l : Lane) (j : Nat) : Nat := if k.rnd = .sr then
      (draw (w.ls.ticket.seed ^^^ BitVec.ofNat 64 (l.val * 2 ^ 32)) (w.soft.rndctr[l] + BitVec.ofNat 32 j)).toNat / 2 ^ 32 else 0
    let puts (i : Instr) (regs dead : List Nat) (bits draws : Nat) (g : Lane → Nat × Flags) : Prop :=
      s.LReady w p c regs [] → s.lanesPut w { w with soft := { w.soft with
          fflags := w.soft.fflags ||| ((lanesIn act).map fun l => (g l).2).foldl (· ||| ·) 0,
          rndctr := if k.rnd = .sr then lanes fun l =>
            if inMask act l then w.soft.rndctr[l] + BitVec.ofNat 32 draws else w.soft.rndctr[l] else w.soft.rndctr } }
        p c i dead D bits fun l => (g l).1
    let src (l : Lane) : Val := convSource k.src (k.blk && (k.src.scalable || k.src.four)) (w.operand a sb l)
    let conv (l : Lane) (j : Nat) (y : Val) : Nat × Flags := kindConvert k.dst k.rnd k.sat (v l j) y
    let names := spanO a (regsOf sb)
    let scaled := k.blk && (k.dst.scalable || k.dst.four)
    let off := blockOff k.dst ((lanesIn act).map src)
    (scaled = false → puts (.fcvt c k D a) (names ++ spanD D (regsOf db)) (lastUse c.lua a (regsOf sb)) db 1 fun l =>
      (convOut k.dst (conv l 0 (src l)).1, (conv l 0 (src l)).2)) ∧
    (scaled = true → puts (.fcvt c k D a) (names ++ spanD D (regsOf db)) (lastUse c.lua a (regsOf sb)) db 1 fun l =>
      let r := kindConvertScaled k.dst k.rnd (v l 0) off (src l)
      (r.1 + scaleByte k.dst off * 2 ^ 8, r.2)) ∧
    puts (.fpack c k D a b) (names ++ spanO b (regsOf sb) ++ spanD D 1) (lastUse c.lua a (regsOf sb) ++ lastUse c.lub b (regsOf sb)) 32 2
      (fun l =>
        let x := conv l 0 (kindDecode k.src (w.operand a sb l))
        let y := conv l 1 (kindDecode k.src (w.operand b sb l))
        let n := if k.dst.half then 16 else 8
        (x.1 % 2 ^ n + y.1 % 2 ^ n * 2 ^ n, x.2 ||| y.2)) ∧
    puts (.funpk c k e D a b) (spanO a 1 ++ spanO b 1 ++ spanD D (regsOf db)) (lastUse c.lua a 1 ++ lastUse c.lub b 1) db 1
      (fun l =>
        let n := if k.src.half then 16 else if k.src.four then 4 else 8
        let code := w.operand a 32 l / 2 ^ (n * e.toNat) % 2 ^ n
        let y := if k.blk then kindDecodeScaled k.src code (w.operand b 32 l % 256) else kindDecode k.src code
        (convOut k.dst (conv l 0 y).1, (conv l 0 y).2))

/-- R208 to R210: MOV between registers, to and from a predicate, of an immediate; SHFL, where a lane outside 0 to 31 or outside the
active set gives the lane's own value. A write of p7 is discarded and it reads 1. -/
def Obligations.LaneMoves : Prop :=
  ∀ (s : State) (w : Wave) (p : PcSide) (c : LCtl) (D : Dst) (a b : Opnd) (P : PReg) (wide : Bool) (imm : Word) (mode : ShflMode)
    (sel : BitVec 5),
    let act := w.active p c
    let n := if wide then 64 else 32
    let k := if wide then 2 else 1
    let la (j : Nat) := lastUse c.lua a j
    let from_ (x : Int) (l : Lane) : Nat :=
      if h : 0 ≤ x ∧ x.toNat < 32 then (if inMask act ⟨x.toNat, h.2⟩ then w.operand a n ⟨x.toNat, h.2⟩ else w.operand a n l)
      else w.operand a n l
    let lane (l : Lane) (v : Nat) : Int := match mode with
      | .idx => (v % 32 : Nat)
      | .xor => (l.val ^^^ (v % 32) : Nat)
      | .up => (l.val : Int) - v
      | .down => (l.val : Int) + v
    let put (i : Instr) (w0 : Wave) (regs dead : List Nat) (D : Dst) (bits : Nat) (f : Lane → Nat) : Prop :=
      s.LReady w p c regs [] → s.lanesPut w w0 p c i dead D bits f
    put (.mov c (.b32 D a)) w (spanO a 1 ++ spanD D 1) (la 1) D 32 (w.operand a 32) ∧
    put (.mov c (.b64 D a)) w (spanO a 2 ++ spanD D 2) (la 2) D 64 (w.operand a 64) ∧
    (P.val = 7 → put (.mov c (.toP P a)) w (spanO a 1) (la 1) .zero 32 (fun _ => 0)) ∧
    (P.val ≠ 7 → ∀ m : Mask, (∀ l, inMask m l = if inMask act l then w.operand a 32 l != 0 else inMask w.ls.p[P] l) →
      put (.mov c (.toP P a)) { w with ls := { w.ls with p := w.ls.p.set P m } } (spanO a 1) (la 1) .zero 32 (fun _ => 0)) ∧
    put (.mov c (.fromP D P)) w (spanD D 1) [] D 32 (fun l => if P.val = 7 then 1 else if inMask w.ls.p[P] l then 1 else 0) ∧
    put (.movImm c wide D imm) w (spanD D k) [] D n (fun _ => if wide then (imm.signExtend 64).toNat else imm.toNat) ∧
    put (.shfl c mode wide D a (.imm sel)) w (spanO a k ++ spanD D k) (la k) D n (fun l => from_ (lane l sel.toNat) l) ∧
    put (.shfl c mode wide D a (.reg b)) w (spanO a k ++ spanO b 1 ++ spanD D k) (la k ++ lastUse c.lub b 1) D n
      (fun l => from_ (lane l (w.operand b 32 l)) l)

/-- R38, R211 to R213: VOTE and LRED append one entry to the result queue while it holds fewer than 8; LRED.l writes every active lane.
The tree of R213 is redOf in Machine/LaneMove.lean. -/
def Obligations.LaneVotes : Prop :=
  ∀ (s : State) (w : Wave) (p : PcSide) (c : LCtl) (m : VoteMode) (ty : RedTy) (op : RedOp) (D : Dst) (a : Opnd),
    let act := w.active p c
    let n := RedTy.bits ty
    let k := regsOf n
    let ls := lanesIn act
    let V (l : Lane) : Nat := w.operand a 32 l
    let r := redOf ty op act (w.operand a n)
    let raised := { w with soft := { w.soft with fflags := w.soft.fflags ||| r.2 } }
    let entry (w0 : Wave) (e : DWord) : Wave := { w0 with ls := { w0.ls with results := w.ls.results ++ [e] } }
    let vote (e : DWord) : Prop := s.lanesPut w (entry w e) p c (.vote c m a) (lastUse c.lua a 1) .zero 32 fun _ => 0
    w.ls.results.length < 8 →
      (s.LReady w p c (spanO a 1) [] →
        (m = .any → (∃ l ∈ ls, V l ≠ 0) → vote 1) ∧ (m = .any → (¬ ∃ l ∈ ls, V l ≠ 0) → vote 0) ∧
        (m = .all → (∀ l ∈ ls, V l ≠ 0) → vote 1) ∧ (m = .all → (¬ ∀ l ∈ ls, V l ≠ 0) → vote 0) ∧
        (m = .uni → (∀ l ∈ ls, ∀ j ∈ ls, V l = V j) → vote 1) ∧ (m = .uni → (¬ ∀ l ∈ ls, ∀ j ∈ ls, V l = V j) → vote 0) ∧
        (m = .ballot → ∀ e : Word, (∀ l, inMask e l = (inMask act l && V l != 0)) → vote (e.setWidth 64))) ∧
      (s.LReady w p c (spanO a k) [] → s.lanesPut w
        (entry raised (if redSigned ty then sextTo64 n r.1 else BitVec.ofNat 64 r.1)) p c (.lred c ty op false D a) (lastUse c.lua a k)
        .zero 32 fun _ => 0) ∧
      (s.LReady w p c (spanO a k ++ spanD D k) [] →
        s.lanesPut w raised p c (.lred c ty op true D a) (lastUse c.lua a k) D n fun _ => r.1)

/-- R43 to R48, R73, R215 to R217, R46: LBR, LJOIN, LEND and LKILL. LBR with no active lane goes on; with every lane of its side active
it jumps; else the fall-through lanes stand in lpcA and the taken ones in lpcB with the join target, and a side that stood in the
other slot goes onto the divergence stack, with the record of an L-op at which it stands parked. LJOIN at the side's join target waits for its sibling, and merges with one that has
arrived; elsewhere it does nothing. LEND of a lone side ends the block. LKILL takes the active lanes out of the live mask and of every side, those on the stack included. -/
def Obligations.LaneSteering : Prop :=
  ∀ (s : State) (w : Wave) (p : PcSide) (c : LCtl) (taken join : BitVec 16), s.LReady w p c [] [] →
    let d := s.cur.2
    let act := w.active p c
    let fall := p.mask &&& ~~~act
    let tgt : Int := p.pc + 12 * taken.toInt
    let j : Nat := ((p.pc + 12 * join.toInt : Int) % 2 ^ 56).toNat
    let sec := s.laneSection w
    let inside : Prop := 0 ≤ tgt ∧ sec.1 ≤ tgt.toNat ∧ tgt.toNat + 4 ≤ sec.1 + sec.2
    let other := w.ls.side? (Side.other d)
    let split := slots .a (some ⟨p.pc + 12, fall, some j, .running⟩) (some ⟨tgt.toNat, act, some j, .running⟩)
    let ends (i : Instr) : Prop := s.completes i fun t => ∃ w', s.IssuedBy t s.cur.1 w w' ∧
      ({ w with ls := { w.ls with blk := { w.ls.blk with phase := .ended }, parkA := none, parkB := none } }).SteeredTo w' none none []
    (act = 0 → s.steers w (.lbr c taken join) (slots d (some { p with pc := p.pc + 12 }) other) w.ls.stack) ∧
    (act ≠ 0 → fall = 0 → inside → s.steers w (.lbr c taken join) (slots d (some { p with pc := tgt.toNat }) other) w.ls.stack) ∧
    (act ≠ 0 → fall ≠ 0 → inside → other = none → s.steers w (.lbr c taken join) split w.ls.stack) ∧
    (∀ q, act ≠ 0 → fall ≠ 0 → inside → other = some q → w.ls.stack.length < 256 →
      (∀ k, w.ls.park? (Side.other d) = some k → k.stacked = true) →
      s.steers w (.lbr c taken join) split (⟨q, Side.other d, false⟩ :: w.ls.stack)) ∧
    (∀ q k, act ≠ 0 → fall ≠ 0 → inside → other = some q → w.ls.stack.length < 256 →
      w.ls.park? (Side.other d) = some k → k.stacked = false → s.completes (.lbr c taken join) fun t => ∃ w', s.IssuedBy t s.cur.1 w w' ∧
        ({ w with ls := w.ls.setPark (Side.other d) (some { k with stacked := true }) }).SteeredTo w' split.1 split.2
          (⟨q, Side.other d, true⟩ :: w.ls.stack)) ∧
    (act ≠ 0 → ¬ inside → w.priv.handler = false → w.ss.parkS = none → (s.ctxOf w).hen = true → s.completes (.lbr c taken join) fun t =>
      s.Entered t s.cur.1 w (.l d) false 0x04 (tgt % 2 ^ 64).toNat 0 p.pc 0) ∧
    (p.join ≠ some p.pc → s.steers w (.ljoin c) (slots d (some { p with pc := p.pc + 12 }) other) w.ls.stack) ∧
    (∀ q, p.join = some p.pc → other = some q → p.mask ≠ 0 → q.mask ≠ 0 → q.st = .running →
      s.steers w (.ljoin c) (slots d (some { p with st := .arrived }) other) w.ls.stack) ∧
    (∀ q, p.join = some p.pc → other = some q → p.mask ≠ 0 → q.mask ≠ 0 → q.st = .arrived → w.ls.stack = [] → ∀ pc,
      (match d with | .a => pc = p.pc + 12 | .b => pc = q.pc + 12) →
      s.steers w (.ljoin c) (slots .a (some ⟨pc, p.mask ||| q.mask, none, .running⟩) none) []) ∧
    (other = none → w.ls.stack = [] → ends (.lend c)) ∧
    (∀ q, other = some q → p.mask ≠ 0 → q.mask ≠ 0 → q.st = .running →
      s.steers w (.lend c) (slots d (some { p with st := .atLend }) other) w.ls.stack) ∧
    (∀ q, other = some q → p.mask ≠ 0 → q.mask ≠ 0 → q.st = .atLend → w.ls.stack = [] → ends (.lend c)) ∧
    (p.st = .running → fall ≠ 0 → (∀ q, other = some q → q.mask &&& ~~~act ≠ 0) → s.completes (.lkill c) fun t => ∃ w' w1,
      s.IssuedBy t s.cur.1 w w' ∧ w.LaneTo w1 d p act [] .zero 32 (fun _ => 0) ∧
      w' = { w1 with ls := (({ w1.ls with live := w.ls.live &&& ~~~act,
                                          stack := w.ls.stack.map fun e => { e with side := e.side.drop act } } : LStream).setSide d
        (some { p with pc := p.pc + 12, mask := fall })).setSide (Side.other d) (other.map fun q => { q with mask := q.mask &&& ~~~act }) })

/-- R36, R63, R66, R67, R37, R180: how a block begins and ends. TICKET_TAKE_UP reads the header of the oldest ticket and, in a block of
another epoch, resets the draw counters; LHDR checks its ranges against the extent the ticket recorded; staging copies the working
set, and the block begins with the live mask; a ticket whose accesses are complete leaves, and its registers are written back. R69,
R318: a block that has issued no L-op for 256 cycles, or whose wave has yielded, gives its place in the fast file up where another
block of the quarter lacks the space. -/
def Obligations.TicketsAndBlocks : Prop :=
  ∀ (s : State) (i : Nat) (w : Wave) (tk : Ticket) (rest : List Ticket) (z : Bool) (ranges : List RangeDesc),
    s.waves[i]? = some w → w.ls.tickets = tk :: rest →
    let within := ∀ g ∈ ranges, g.first + g.count ≤ 32 * (tk.extent + 1)
    let taken := if tk.epoch = w.soft.lastEpoch then w else
      { w with soft := { w.soft with lastEpoch := tk.epoch, rndctr := Vector.replicate 32 0, mctr := 0 } }
    let one (j : Instr) (P : Wave → Prop) : Prop := s.completes j fun t => s.sameBeside t ∧
      (∀ k, k ≠ i → t.waves[k]? = s.waves[k]?) ∧ ∃ w', t.waves[i]? = some w' ∧ P w'
    (s.cur.1 = i → within → w.ls.live ≠ 0 → one (.lhdr z ranges) fun w' => w' =
      { w with ls := { w.ls with blk := ⟨.staging, z, ranges, 0⟩ } }) ∧
    (s.cur.1 = i → within → w.ls.live = 0 → one (.lhdr z ranges) fun w' => w' = { w with ls := w.ls.endBlock }) ∧
    (∀ u, s.runs w = true → w.priv.handler = false → w.ls.blk.phase = .none → w.ls.parkA = none → within → w.ls.live ≠ 0 →
      ({ s.putWave i taken with cur := (i, .a) }).lOp i taken .a tk.addr true = .ok (u, .lhdr z ranges) → u.waves[i]? = some taken →
      u.cur = (i, .a) → s.completes (.ticketTakeUp i) fun t => ∃ w', t.waves[i]? = some w' ∧
        w' = { taken with ls := { taken.ls with blk := ⟨.staging, z, ranges, 0⟩ } } ∧ t.mem = u.mem) ∧
    (s.runs w = true → w.ls.blk.phase = .staging → (w.ls.blk.z = true → s.slotFree w = true) →
      s.stagedOn w + w.ls.blk.regs.length ≤ 512 → w.ls.live ≠ 0 → w.ls.sideA = none → w.ls.sideB = none →
      one (.stagingComplete i) fun w' =>
        w'.ls.sideA = some ⟨tk.addr + 12, w.ls.live, none, .running⟩ ∧ w'.ls.sideB = none ∧ w'.ls.blk.phase = .ready ∧
        w'.ls.blk.entry = w.ls.live ∧ w'.ls.staged.map Staged.reg = w.ls.blk.regs.filter (· < 256) ∧ w'.ls.v = w.ls.v ∧
        (∀ g ∈ w'.ls.staged, ∀ h : g.reg < 256, g.val = w.ls.v[g.reg]) ∧ w'.soft = w.soft ∧ w'.ss = w.ss) ∧
    (w.st = .resident → w.ls.blk.phase = .ended → (∀ o ∈ w.ls.outs, o.inTicket = true → o.done = true) → s.sys.phys.parity = [] →
      one (.ticketComplete i) fun w' =>
        w'.ls.tickets = rest ∧ w'.ls.staged = [] ∧ w'.ls.win = [] ∧ w'.ls.blk.phase = .none ∧ w'.ls.p = w.ls.p ∧ w'.ls.w = w.ls.w ∧
        w'.soft = w.soft ∧ w'.ss = w.ticketDone.ss ∧ w'.ls.results = w.ls.results ∧
        (w.ls.staged.Pairwise (fun g h => g.reg ≠ h.reg) → (∀ e ∈ w.ss.release, e.1 = 1 → w.soft.ext ≤ e.2) →
          ∀ r l, w'.ls.laneVal r l = w.ls.drainedVal r l)) ∧
    (s.runs w = true → w.ls.blk.phase = .ready ∨ w.ls.blk.phase = .ended → w.ls.staged ≠ [] → s.spaceWanted w = true →
      w.ss.yielded ≠ none ∨ 256 ≤ s.cyclesOf w.core - w.ls.issuedL →
      one (.fastFileEviction i) fun w' => w'.ls.staged = [] ∧ w'.ls.win = [] ∧
        w'.ls.blk.phase = (if w.ls.blk.phase = .ready then .staging else .ended) ∧ w'.soft = w.soft ∧
        w'.ss = w.ss ∧ w'.ls.sideA = w.ls.sideA ∧ w'.ls.sideB = w.ls.sideB ∧
        (w.ls.staged.Pairwise (fun g h => g.reg ≠ h.reg) → ∀ r l, w'.ls.laneVal r l = w.ls.laneVal r l))

/-- R70, R71, R76, R78, R72, R62: with no slot free for a waiting Z block, the slot of the least recently used wave that runs none goes
to it, or else of the one longest idle that has issued no L-op for 256 cycles, whose block stages again; reservoirs keep their values,
which the image in memory takes. The oldest request of a core is granted when the pool covers it; the data of a load enters the window, or the committed values
once eight later L-ops have issued or the block has ended, and its counter falls by 1; a store that is performed lowers its counter.
Requests to the host and to other devices are none here.

The model's own: when a late result enters the window (notes/assumptions/36.md). -/
def Obligations.CompletionsAndGrants : Prop :=
  (∀ (s : State) (i : Nat) (w : Wave), s.waves[i]? = some w → w.ls.slot = true → w.st = .resident →
    (s.slotVictim w).map Prod.fst = some i → (s.onQuarter w fun y => y.ls.blk.phase == .staging && y.ls.blk.z && !y.ls.slot) ≠ [] →
    s.slotFree { w with ls := { w.ls with slot := false } } = false →
    s.completes (.reservoirSlotEviction i) fun t => t.teams = s.teams ∧ t.grids = s.grids ∧ t.jobs = s.jobs ∧
      ((w.ls.blk.phase ≠ .ready ∨ w.ls.blk.z = false) → t.waves = s.waves.set i { w with ls := { w.ls with slot := false } }) ∧
      (w.ls.blk.phase = .ready → w.ls.blk.z = true → t.waves = s.waves.set i { w with ls := { w.ls.evict with slot := false } })) ∧
  (∀ (s : State) (core i : Nat) (c : Core) (w : Wave) (k : Nat) (rest : List Nat), s.cores[core]? = some c → c.grants = i :: rest →
    s.waves[i]? = some w → w.ss.acquire = some k → s.covers w k = true →
    s.completes (.regxGrant core) fun t => t.waves = s.waves.set i (w.grant k) ∧ (w.grant k).ss.blocks = max w.ss.blocks k ∧
      (w.grant k).ss.acquire = none ∧ t.mem = s.mem ∧ t.teams = s.teams ∧
      t.cores[core]? = some { c with grants := rest }) ∧
  ∀ (s : State) (i k : Nat) (w : Wave) (o : Outst), s.waves[i]? = some w → w.st = .resident → w.ls.outs[k]? = some o → o.done = false →
    o.parked = 0 → o.remote = 0 → s.sys.links.remotes = [] →
    let w1 : Vector (BitVec 6) 4 := match o.cnt with
      | none => w.ls.w
      | some c => w.ls.w.set c (w.ls.w[c] - 1)
    let one (j : Instr) (P : Wave → Prop) : Prop := s.completes j fun t => s.sameBeside t ∧ t.teams = s.teams ∧
      (∀ n, n ≠ i → t.waves[n]? = s.waves[n]?) ∧ ∃ w', t.waves[i]? = some w' ∧ w'.ss = w.ss ∧ w'.soft = w.soft ∧ w'.priv = w.priv ∧
        w'.ls.w = w1 ∧ w'.ls.tickets = w.ls.tickets ∧ w'.ls.sideA = w.ls.sideA ∧ w'.ls.sideB = w.ls.sideB ∧ P w'
    (o.load = true → o.lud = false → (∀ a b, a ∈ o.regs → b ∈ o.regs → a.1 = b.1 → a = b) →
      one (.loadDataReturn i k) fun w' => ∀ (r : VReg) (l : Lane) (v : Lanes Word), (r.val, v) ∈ o.regs → inMask o.mask l = true →
        w'.ls.laneVal r l = v[l]) ∧
    (o.load = false → o.mask = 0 → one (.storePerformed i k) fun w' => w'.ls.v = w.ls.v ∧ w'.ls.win = w.ls.win)

/-! ## Stalls, yields and held traps -/

/-- R40, R236, R245, R299, R305, R317: a stream that has waited as long as its limit allows takes its precise trap at the instruction
that waits: STREAM_DEADLOCK 0x13, PORT_STALL 0x1E, BOND_STALL 0x19, TRAV_STALL 0x1F, JOB_STALL 0x20, CWAIT_STALL 0x21. -/
def Obligations.StallTraps : Prop :=
  ∀ (s : State) (i : Nat) (w : Wave) (d : Side) (p : PcSide), s.waves[i]? = some w → s.runs w = true → w.priv.handler = false →
    (s.ctxOf w).hen = true → w.ls.side? d = some p → w.ss.parkS = none → s.offers = [] →
    let n (strm : Strm) : Nat := s.waited w strm
    let limit : Nat := 2 ^ (s.ctxOf w).pstall
    let enters (j : Instr) (strm : Strm) (code aux pc : Nat) : Prop :=
      s.completes j fun t => ∃ w0 : Wave, w0.ls = w.ls ∧ w0.soft = w.soft ∧ w0.priv = w.priv ∧ w0.region = w.region ∧
        w0.ss.s = w.ss.s ∧ s.Entered t i w0 strm false code 0 aux pc 0
    (w.ls.wait? d = some .port → limit ≤ n (.l d) → enters (.portStall i d) (.l d) 0x1E (n (.l d)) p.pc) ∧
    (w.ls.wait? d = some .bond → limit ≤ n (.l d) → enters (.bondStall i d) (.l d) 0x19 w.ls.ticket.bond.toNat p.pc) ∧
    (w.ls.wait? d = some .trav → limit ≤ n (.l d) → enters (.travStall i d) (.l d) 0x1F (n (.l d)) p.pc) ∧
    (w.ls.wait? d = some .job → limit ≤ n (.l d) → enters (.jobStall i (.l d)) (.l d) 0x20 (n (.l d)) p.pc) ∧
    (w.ss.waitS = some .job → limit ≤ n .s → enters (.jobStall i .s) .s 0x20 (n .s) w.ss.pc) ∧
    (w.ss.waitS = some .cwait → limit ≤ n .s → enters (.cwaitStall i) .s 0x21 (n .s) w.ss.pc) ∧
    ((w.ss.waitS = some .ticket ∧ 8 ≤ w.ls.tickets.length) ∨ (w.ss.waitS = some .join ∧ w.ls.tickets ≠ []) → w.ls.wait? d = some .result →
      8 ≤ w.ls.results.length → enters (.streamDeadlock i) .s 0x13 0 w.ss.pc)

/-- R178, R318, R347, R348, R472: a YIELD of n cycles is over when n cycles of its core have passed, and nothing else changes; a wave
that yielded at a CWAIT .y goes on at its continuation when the condition holds; the oldest held imprecise trap is delivered at a
boundary of user level, with IMP set, the address of the next group, and the report of the event, a watchpoint's with the cycles
since. -/
def Obligations.YieldsAndHeldTraps : Prop :=
  ∀ (s : State) (i : Nat) (w : Wave), s.waves[i]? = some w →
    let now := s.cyclesOf w.core
    (w.ss.yieldN ≤ now - w.ss.yieldAt → s.completes (.yieldExpiry i) fun t =>
      t = { s with waves := s.waves.set i { w with ss := { w.ss with yieldN := 0 } } }) ∧
    (∀ y : Yielded, s.runs w = true → w.priv.handler = false → w.ss.yielded = some y →
      s.cwaitHolds w y.tags y.any y.first y.mask = true → s.completes (.yieldedWaveReactivate i) fun t => s.IssuedBy t i w
        { w with ss := { w.ss with yielded := none, pc := y.target, waitS := none } }) ∧
    (∀ (h : Imp) (rest : List Imp), s.runs w = true → w.priv.handler = false → (s.ctxOf w).hen = true → w.ss.parkS = none →
      w.ss.acquire = none ∨ w.ss.waitS ≠ none → s.offers = [] → w.priv.held = h :: rest →
      let skid := min (2 ^ 24 - 1) (now - h.since) * 2 ^ 24
      let aux := h.aux.toNat + if h.cause = .watchEngine then skid else 0
      s.completes (.impreciseTrapDelivery i) fun t => t.mem = s.mem ∧ t.teams = s.teams ∧ (∀ k, k ≠ i → t.waves[k]? = s.waves[k]?) ∧
        ∃ w', t.waves[i]? = some w' ∧ w'.priv.handler = true ∧
        w'.ss.pc = (s.ctxOf w).hentry ∧ w'.priv.held = rest ∧ w'.priv.trappc = BitVec.ofNat 64 w.ss.pc ∧
        w'.priv.trapva = h.va ∧ w'.priv.trapaux = BitVec.ofNat 64 (aux % 2 ^ 56 + min w.priv.discarded 255 * 2 ^ 56) ∧
        w'.priv.cause.getLsbD 16 = true ∧ w'.priv.cause.toNat % 2 ^ 16 = h.cause.code ∧ w'.ss.s = w.ss.s ∧
        ∀ r l, w'.ls.laneVal r l = w.ls.laneVal r l)

/-! ## Scalar memory access -/

/-- R163, R110, R111, R129: SLD and SLDK read w bytes at s[ra] + off x w, in little-endian order, the wave's own green bytes merged, and
zero- or sign-extend them into sD. What the core's L1 holds is read there, with no line request; an acquire that reaches as scope .b or
wider first sends its core's copy of the line home, and a read that reaches the home slice ends every gathering of the line. Nothing
else beside the translation and the line's residence changes.

The model's own: the access is performed at its issue, and SLDK reads memory as it is now (notes/assumptions/4.md, 15.md). -/
def Obligations.ScalarLoads : Prop :=
  ∀ (s u : State) (w : Wave) (d a : SReg) (ann : Ann) (sz : SSize) (sx : Bool) (off : BitVec 6) (p : Loc),
    s.waves[s.cur.1]? = some w → s.sys.phys = ⟨[], [], [], [], [], [], [], []⟩ →
    let n := SSize.bytes sz
    let va := (w.readS a + s.pfx.imm 6 off.toNat * BitVec.ofNat 64 n).toNat
    let r : LaneReq := ⟨0, va, [], 0⟩
    let held := s.l1Holds (s.viaOf w) n r
    let wide := annAcq ann && scopeWide (s.scopeOf w ann.scope)
    let loads (i : Instr) (u1 : State) : Prop :=
      let x := numLE (u1.bytesFor w va n p)
      u1.poisonFor w va n p = false → s.completes i fun t => ∃ w', u1.IssuedBy t s.cur.1 w w' ∧
        w.ScalarTo w' d (if sx then (BitVec.ofNat (8 * n) x).signExtend 64 else BitVec.ofNat 64 x) (s.opAddr w + 4)
    let sld : Instr := .sld d a ann sz sx off
    let sldk : Instr := .sldk d a sz sx off
    (va < 2 ^ 56 → va % n = 0 → held = some p → (wide = false → loads sld s) ∧ loads sldk s) ∧
    (s.Reaches w n (reading.hinted s.pfx.retention) [r] [(r, p)] u →
      (held = none ∨ wide = true → (u.meetHomes w.core wide [p.line]).mem.counted? p = none → loads sld (u.meetHomes w.core wide [p.line])) ∧
      (held = none → (u.meetHomes w.core false [p.line]).mem.counted? p = none → loads sldk (u.meetHomes w.core false [p.line])))

/-- R163, R109, R111, R139: SST writes w bytes of s[rd] at s[ra] + off x w: outside a region into its core's L1 (with .nol1 at the home
slice, where the L1 does not hold the line), inside one into the wave's green data. Every other byte reads as before, and no register
changes. A full L1 also sends a line home: the frame is that of a core with room for one.

The model's own: the access is performed at its issue (notes/assumptions/4.md). -/
def Obligations.ScalarStores : Prop :=
  ∀ (s u : State) (w : Wave) (d a : SReg) (ann : Ann) (sz : SSize) (off : BitVec 6) (p : Loc),
    s.waves[s.cur.1]? = some w → w.core < s.cores.length → s.MayWrite w false ann → (annRel ann = true → w.ls.tickets = []) →
    let n := SSize.bytes sz
    let va := (w.readS a + s.pfx.imm 6 off.toNat * BitVec.ofNat 64 n).toNat
    let v := s.viaOf w
    let r : LaneReq := ⟨0, va, bytesLE n (w.readS d).toNat, 0⟩
    let byte (b : Nat) : Byte := BitVec.ofNat 8 ((w.readS d).toNat / 2 ^ (8 * (b - va)))
    s.pfx.rcCount = none → (s.released w ann).Reaches w n (writing.hinted s.pfx.retention) [r] [(r, p)] u →
    let nol1 : Bool := s.pfx.retention == .nol1
    (w.isGreen = false → s.completes (.sst d a ann sz off) fun t =>
      let z := u.writeLines v none nol1 [(r, p)]
      (∃ w', z.IssuedBy t s.cur.1 w w' ∧ (w.rearmed .s).ScalarTo w' 0 0 (s.opAddr w + 4)) ∧
      (nol1 = false ∨ u.l1Line? v.core v.part v.asid (va / 256) ≠ none → u.gathersNone w.core → u.l1Room w.core 1 →
        { z with cores := u.cores } = u ∧ (∀ k, k ≠ w.core → z.cores[k]? = u.cores[k]?) ∧
        ∀ b q, z.byteAt v b q = if va ≤ b ∧ b < va + n then byte b else u.byteAt v b q) ∧
      (nol1 = true → u.l1Line? v.core v.part v.asid (va / 256) = none → (∀ c, u.gathersNone c) → u.mem.counted? p = none → u.mem.wf = true →
        { z with mem := u.mem } = u ∧ (∀ j, j < n → z.mem.byte (p.add j) = byte (va + j)) ∧
        ∀ q : Loc, q.near = true → (∀ j, j < n → q ≠ p.add j) → z.mem.byte q = u.mem.byte q)) ∧
    (w.isGreen = true → (∀ g : Green, g.sectors ≤ w.green.sectors + 1 → u.greenFull w g = false) →
      s.completes (.sst d a ann sz off) fun t => u.sameBeside t ∧
        (∃ w', t.waves[s.cur.1]? = some w' ∧ w'.ss.pc = s.opAddr w + 4 ∧ w'.ss.s = w.ss.s ∧ w'.ls = w.ls ∧ w'.soft = w.soft ∧
          ∀ b, ovGet w'.green.glob b = if va ≤ b ∧ b < va + n then some (byte b) else ovGet w.green.glob b) ∧
        ∀ k, k ≠ s.cur.1 → t.waves[k]? = s.waves[k]?)

/-- R165, R119, R224: SATOM returns the old value in sD (with .nr it writes no register) and stores the new one: in the L1 for scope .w,
and .t of an unpaired team (the frame is that of an L1 with room for a line), else at the home slice.

The model's own: the access is performed at its issue (notes/assumptions/4.md). -/
def Obligations.ScalarAtomics : Prop :=
  ∀ (s u : State) (w : Wave) (d a : SReg) (op : SAtomOp) (wide nr ordm : Bool) (ann : Ann) (p : Loc) (k : DWord),
    s.waves[s.cur.1]? = some w → w.core < s.cores.length → s.MayWrite w true ann → (annRel ann = true → w.ls.tickets = []) →
    let n := if wide then 8 else 4
    let va := (w.readS a).toNat
    let v := s.viaOf w
    let r : LaneReq := ⟨0, va, bytesLE n (w.readS d).toNat, BitVec.ofNat 64 (k.toNat % 2 ^ (8 * n))⟩
    let old := numLE (u.bytesFor w va n p)
    let new := atomNew (satomOp op wide) old ((w.readS d).toNat % 2 ^ (8 * n)) (k.toNat % 2 ^ (8 * n))
    (if h : d.val + 1 < 64 then k = w.readS ⟨d.val + 1, h⟩ else k = 0) → w.isGreen = false →
    (s.released w ann).Reaches w n (writing.hinted s.pfx.retention) [r] [(r, p)] u → (∀ c, u.gathersNone c) →
    u.l1Line? v.core v.part v.asid (va / 256) = none → u.mem.counted? p = none → u.poisonFor w va n p = false → u.mem.wf = true →
    s.completes (.satom d a op wide nr ordm ann) fun t =>
      (∃ w', t.waves[s.cur.1]? = some w' ∧ (w.rearmed .s).ScalarTo w' (if nr then 0 else d) (BitVec.ofNat 64 old) (s.opAddr w + 4)) ∧
      (∀ j, j ≠ s.cur.1 → t.waves[j]? = s.waves[j]?) ∧
      (scopeWide (s.scopeOf w ann.scope) = false → u.l1Room w.core 1 → t.mem = u.mem ∧
        ∀ b q, t.byteAt v b q = if va ≤ b ∧ b < va + n then BitVec.ofNat 8 (new / 2 ^ (8 * (b - va))) else u.byteAt v b q) ∧
      (scopeWide (s.scopeOf w ann.scope) = true → t.cores = u.cores ∧
        (∀ j, j < n → t.mem.byte (p.add j) = BitVec.ofNat 8 (new / 2 ^ (8 * j))) ∧
        ∀ q : Loc, q.near = true → (∀ j, j < n → q ≠ p.add j) → t.mem.byte q = u.mem.byte q)

/-! ## Lane memory access -/

/-- R218 to R222, R76, R110, R111, R16: LD issues: each active lane's address is its d register plus the sign-extended offset, its bytes
are those that the core sees, the wave's green bytes merged: read in the L1 where it holds them, else by one request a line; the values
wait in an outstanding L-op for the data's return.

The model's own: the access is performed at its issue (notes/assumptions/4.md). -/
def Obligations.LaneLoads : Prop :=
  ∀ (s u : State) (w : Wave) (p : PcSide) (c : LCtl) (sz : MSize) (hint : LHint) (ann : Ann) (D : Dst) (a : Opnd) (off : BitVec 23)
    (q : Lane → Loc),
    let n := MSize.bytes sz
    let k := (n + 3) / 4
    let act := w.active p c
    let va (l : Lane) : Nat := (BitVec.ofNat 64 (w.operand a 64 l) + off.signExtend 64).toNat
    let r (l : Lane) : LaneReq := ⟨l, va l, [], 0⟩
    let rs := (lanesIn act).map r
    let i : Instr := .ld c sz hint ann D a off
    let wide := annAcq ann && scopeWide (s.scopeOf w ann.scope)
    let held (l : Lane) : Option Loc := if wide then none else s.l1Holds (s.viaOf w) n (r l)
    let asked := (lanesIn act).filter fun l => (held l).isNone
    let ps := asked.map fun l => (r l, q l)
    s.LReady w p c (spanO a 2 ++ spanD D k) [] → w.ls.park? s.cur.2 = none →
    (∀ l, inMask act l = true → va l < 2 ^ 56 ∧ va l % n = 0 ∧ (held l = none ∨ held l = some (q l))) →
    s.Reaches w n (reading.hinted hint) (asked.map r) ps u →
    let u1 := u.meetHomes w.core wide (lineHomes ps)
    let val (l : Lane) (j : Nat) : Word := loadWord sz (u1.bytesFor w (va l) n (q l)) j
    (∀ l, inMask act l = true → u1.poisonFor w (va l) n (q l) = false) → (∀ l ∈ asked, u1.mem.counted? (q l) = none) →
    s.completes i fun t => s.launches u1 w p c (lastUse c.lua a 2)
      (.fresh c s.cur.2 true (some (p.pc, i, rs))
        (mapIx (fun j x => (x, lanes fun l => if inMask act l then val l j else 0)) 0 (spanD D k)) act) t

/-- R218 to R222, R108, R109, R139: ST outside a region, without a count: each active lane's bytes go into the core's L1 (with .nol1 to
the home slices of the lines that it does not hold), the higher lane's where two lanes write one byte; every other byte reads as
before, in a core whose L1 has room for the lines.

The model's own: the access is performed at its issue (notes/assumptions/4.md). -/
def Obligations.LaneStores : Prop :=
  ∀ (s u : State) (w : Wave) (p : PcSide) (c : LCtl) (sz : MSize) (hint : LHint) (ann : Ann) (a b : Opnd) (off : BitVec 23)
    (q : Lane → Loc),
    let n := MSize.bytes sz
    let k := (n + 3) / 4
    let act := w.active p c
    let v := s.viaOf w
    let va (l : Lane) : Nat := (BitVec.ofNat 64 (w.operand a 64 l) + off.signExtend 64).toNat
    let data (l : Lane) : List Byte := w.storeData b sz l
    let r (l : Lane) : LaneReq := ⟨l, va l, data l, 0⟩
    let rs := (lanesIn act).map r
    let i : Instr := .st c sz hint ann a b 0 off
    let ps := (lanesIn act).map fun l => (r l, q l)
    let nol1 : Bool := hint == .nol1
    let stored (x : Nat) : Option Byte := ((lanesIn act).reverse.find? fun l => decide (va l ≤ x) && decide (x < va l + n)).map fun l =>
      (data l).getD (x - va l) 0
    s.LReady w p c (spanO a 2 ++ spanO b k) [] → w.ls.park? s.cur.2 = none → s.MayWrite w false ann → w.isGreen = false →
    w.core < s.cores.length → (s.released w ann).Reaches w n (writing.hinted hint) rs ps u →
    s.completes i fun t =>
      let z := u.writeLines v none nol1 ps
      s.launches z w p c (lastUse c.lua a 2 ++ lastUse c.lub b k) (.fresh c s.cur.2 false (some (p.pc, i, rs)) [] 0) t ∧
      (nol1 = false → u.gathersNone w.core → u.l1Room w.core 32 → { z with cores := u.cores } = u ∧
        (∀ j, j ≠ w.core → z.cores[j]? = u.cores[j]?) ∧ ∀ x y, z.byteAt v x y = (stored x).getD (u.byteAt v x y)) ∧
      (nol1 = true → (∀ c, u.gathersNone c) → u.mem.wf = true →
        (∀ l, inMask act l = true → u.l1Line? v.core v.part v.asid (va l / 256) = none ∧ u.mem.counted? (q l) = none) →
        (∀ l m, inMask act l = true → inMask act m = true → (q l).line = (q m).line → va l / 256 = va m / 256) →
        { z with mem := u.mem } = u ∧
        (∀ l j, inMask act l = true → j < n → some (z.mem.byte ((q l).add j)) = stored (va l + j)) ∧
        ∀ y : Loc, y.near = true → (∀ l j, inMask act l = true → j < n → y ≠ (q l).add j) → z.mem.byte y = u.mem.byte y)

/-- R105, R106, R219 to R223: where LDS, STS, LDR and STR go, what the loads bring (the wave's own green bytes merged, held by an
outstanding L-op until the data's return), and what the stores of a wave outside a region write: the higher lane's byte where two
lanes write one.

The model's own: the access is performed at its issue (notes/assumptions/4.md). -/
def Obligations.ScratchpadAccess : Prop :=
  ∀ (s : State) (w : Wave) (p : PcSide) (c : LCtl) (sz : MSize) (ann : Ann) (D : Dst) (a b : Opnd) (off : BitVec 23) (far : Bool)
    (sp : Lane → Spot),
    let n := MSize.bytes sz
    let k := (n + 3) / 4
    let act := w.active p c
    let q (l : Lane) : Int := (w.operand a 32 l : Int) + off.toInt
    let size := s.scratchSize w
    let at_ (j : Nat) (odd : Bool) (o : Nat) (l : Lane) : Bool :=
      decide ((sp l).team = j) && (sp l).odd == odd && decide ((sp l).off ≤ o) && decide (o < (sp l).off + n)
    (∀ x : Int, s.spotOf w false x n = if 0 ≤ x ∧ x + n ≤ size then some ⟨w.team, w.odd, x.toNat⟩ else none) ∧
    (∀ (x : Int) (e : Spot), s.spotOf w true x n = some e → 0 ≤ x ∧ x < 2 ^ 25 ∧ e.off = x.toNat % 2 ^ 21 ∧
      e.odd = decide (x.toNat / 2 ^ 24 % 2 = 1) ∧ e.off + n ≤ size ∧ e.team ∈ s.clusterOf w.team ∧
      ∃ y, s.teams[e.team]? = some y ∧ y.rank = x.toNat / 2 ^ 21 % 8) ∧
    ((∀ l, inMask act l = true → q l % n = 0 ∧ s.spotOf w far (q l) n = some (sp l)) →
      (s.LReady w p c (spanO a 1 ++ spanD D k) [] → (∀ l, inMask act l = true → s.scratchPoisoned w (sp l) n = false) →
        s.completes (if far then .ldr c sz ann D a off else .lds c sz ann D a off) fun t =>
          s.launches s w p c (lastUse c.lua a 1) (.fresh c s.cur.2 true none
            (mapIx (fun j x => (x, lanes fun l => if inMask act l then loadWord sz (s.scratchBytes w (sp l) n) j else 0)) 0 (spanD D k))
            act) t) ∧
      (s.LReady w p c (spanO a 1 ++ spanO b k) [] → regionIllegal w false ann = false → w.isGreen = false →
        (∀ (j : Nat) (x : Team), s.teams[j]? = some x → Cells.wf x.lo.scratch = true ∧ Cells.wf x.hi.scratch = true) →
        s.completes (if far then .str c sz ann a b off else .sts c sz ann a b off) fun t =>
          ∃ z : State, { z with teams := s.teams } = s.released w ann ∧
            s.launches z w p c (lastUse c.lua a 1 ++ lastUse c.lub b k) (.fresh c s.cur.2 false none [] 0) t ∧
            ∀ (j : Nat) (x : Team), s.teams[j]? = some x → ∃ y, z.teams[j]? = some y ∧
              { y with lo := { y.lo with scratch := x.lo.scratch, scratchPoison := x.lo.scratchPoison },
                       hi := { y.hi with scratch := x.hi.scratch, scratchPoison := x.hi.scratchPoison } } = x ∧
              ∀ odd o, cellGet (y.half odd).scratch o = match (lanesIn act).reverse.find? (at_ j odd o) with
                | some l => (w.storeData b sz l).getD (o - (sp l).off) 0
                | none => cellGet (x.half odd).scratch o))

/-- R224 to R227, R119, R108: ATOM and RED of one active lane outside a region: the old value waits for its return to dest, the new
one is stored, in the core's L1 for scope .w (.t of an unpaired team) or at the home slice; a RED that gathers leaves its
contribution in the L1 instead. The frame is that of an L1 with room for a line.

The model's own: a relaxed RED gathers or not as a free bit says (notes/assumptions/6.md), and accesses are performed at their
issue (notes/assumptions/4.md). -/
def Obligations.LaneAtomics : Prop :=
  ∀ (s u : State) (w : Wave) (p : PcSide) (c : LCtl) (op : AtomOp) (ordm : Bool) (ann : Ann) (D : Dst) (a b x : Opnd) (off : BitVec 23)
    (l : Lane) (q : Loc),
    let n := AtomOp.bytes op
    let rn := if n = 8 then 2 else 1
    let bits := if n = 8 then 64 else 32
    let act := w.active p c
    let v := s.viaOf w
    let va : Nat := (BitVec.ofNat 64 (w.operand a 64 l) + off.signExtend 64).toNat
    let X := w.operand b bits l % 2 ^ (8 * n)
    let old := numLE (u.bytesFor w va n q)
    let home := scopeWide (s.scopeOf w ann.scope)
    let gathers := ann.ord = .rlx ∧ ordm = false ∧ home = true ∧ Config.freeBit s.free = true
    lanesIn act = [l] → w.ls.park? s.cur.2 = none → s.MayWrite w true ann → w.isGreen = false → w.core < s.cores.length → (∀ k, u.gathersNone k) →
    u.l1Line? v.core v.part v.asid (va / 256) = none → u.mem.counted? q = none → u.poisonFor w va n q = false → u.mem.wf = true →
    let runs (i : Instr) (D : Dst) (x : Opnd) (P : State → Prop) : Prop :=
      let r : LaneReq := ⟨l, va, bytesLE n (w.operand b bits l), BitVec.ofNat 64 (w.operand x bits l % 2 ^ (8 * n))⟩
      s.LReady w p c (spanO a 2 ++ spanO b rn ++ spanO x rn ++ spanD D rn) [] →
      (s.released w ann).Reaches w n writing [r] [(r, q)] u →
      s.completes i fun t => ∃ z : State, s.launches z w p c (lastUse c.lua a 2 ++ lastUse c.lub b rn ++ lastUse c.luc x rn)
          (.fresh c s.cur.2 D.isV (some (p.pc, i, [r]))
            (mapIx (fun j y => (y, lanes fun m => if m = l then BitVec.ofNat 32 (old / 2 ^ (32 * j)) else 0)) 0 (spanD D rn))
            (if D.isV then act else 0)) t ∧
        (u.l1Room w.core 1 ∨ home = true ∧ ¬ gathers → { z with cores := u.cores, mem := u.mem, free := u.free } = u ∧ P z)
    let stores (C : Nat) (z : State) : Prop :=
      let new := atomNew op old X C
      (home = false → z.mem = u.mem ∧
        ∀ y r, z.byteAt v y r = if va ≤ y ∧ y < va + n then BitVec.ofNat 8 (new / 2 ^ (8 * (y - va))) else u.byteAt v y r) ∧
      (home = true → z.cores = u.cores ∧ (∀ j, j < n → z.mem.byte (q.add j) = BitVec.ofNat 8 (new / 2 ^ (8 * j))) ∧
        ∀ r : Loc, r.near = true → (∀ j, j < n → r ≠ q.add j) → z.mem.byte r = u.mem.byte r)
    runs (.atom c op ordm ann D a b x off) D x (stores (w.operand x bits l % 2 ^ (8 * n))) ∧
    (¬ gathers → runs (.red c op ordm ann a b off) .zero .zero (stores 0)) ∧
    (gathers → u.mem.poisoned q = false → runs (.red c op ordm ann a b off) .zero .zero fun z => z.mem = u.mem ∧
      (∀ y, z.cores[w.core]? = some y → ⟨v.part, v.asid, va / 256, q.line, [], [], some op, [(va, BitVec.ofNat 64 X)]⟩ ∈ y.l1) ∧
      (∀ k, k ≠ w.core → z.cores[k]? = u.cores[k]?) ∧ ∀ y r, z.byteAt v y r = u.byteAt v y r)

/-! ## Neighbour ports, reservoirs, jobs, rays -/

/-- R229, R232 to R237: PUSH appends the value to the queue of each active lane's target, POP and PEEK take the heads of the lanes'
own queues, a broken port gives status 0 and writes nothing, a full target queue makes PUSH wait; PSTAT writes the port's word. -/
def Obligations.NeighbourPorts : Prop :=
  ∀ (s : State) (w : Wave) (p : PcSide) (c : LCtl) (P : Port) (D : Dst) (b : Opnd) (st : Option PReg) (wide rel acq : Bool),
    let i := s.cur.1
    let d := s.cur.2
    let n := if wide then 64 else 32
    let k := if wide then 2 else 1
    let act := w.active p c
    let E (l : Lane) : Option FarEnd := s.farEnd i w P l
    let marked (ok : Mask) : Wave := match st with
      | none => w
      | some r => if r.val = 7 then w else { w with ls := { w.ls with p := w.ls.p.set r ((w.ls.p[r] &&& ~~~act) ||| (ok &&& act)) } }
    let u := if rel then s.release w.core (s.scopeOf w (s.portScope i w P)) else s
    let push : Instr := .push c wide rel P b st
    let took (ok : Mask) (w0 : Wave) (t : State) : Prop := ∃ w', s.IssuedBy t i w w' ∧
      w0.LaneTo w' d p ok [] D n fun l => ((w.queue P l).headD 0).toNat
    ((∀ e ∈ s.mapped w, e.1 ≠ P ∧ e.1 ≠ Port.opp P) → ∀ (l m : Lane), w.ls.live = BitVec.allOnes 32 →
      (P = .xe ∧ m.val = (l.val + 1) % 32 ∨ P = .xw ∧ m.val = (l.val + 31) % 32 ∨ P = .xn ∧ m.val = (l.val + 24) % 32 ∨
        P = .xs ∧ m.val = (l.val + 8) % 32) → E l = some ⟨i, m, 4⟩) ∧
    (s.LReady w p c (spanO b k) [] →
      (∀ ok : Mask, (∀ l, inMask ok l = (inMask act l && (E l).isSome)) →
        (∀ l e, inMask act l = true → E l = some e → s.freeAt P e ≠ 0) → s.completes push fun t => ∃ (z : State) (w' : Wave),
          u.IssuedBy z i w w' ∧ (marked ok).LaneTo w' d p act (lastUse c.lub b k) .zero 32 (fun _ => 0) ∧
          { t with waves := z.waves } = z ∧
          ∀ (j : Nat) (y : Wave), z.waves[j]? = some y → ∃ y', t.waves[j]? = some y' ∧
            { y' with soft := { y'.soft with rx := y.soft.rx } } = y ∧
            ∀ Q m, y'.queue Q m = if Q = Port.opp P then y.queue Q m ++
                ((lanesIn act).filter fun l => (E l).any fun e => e.wave == j && e.lane == m).map (fun l => BitVec.ofNat 64 (w.operand b n l))
              else y.queue Q m) ∧
      ((∃ l e, inMask act l = true ∧ E l = some e ∧ s.freeAt P e = 0) → s.completes push fun t => ∃ since,
        t = s.putWave i { w with ls := (w.ls.setWait d (some .port)).setSince d since })) ∧
    (s.LReady w p c (spanD D k) [] → (∀ l, inMask act l = true → w.queue P l ≠ [] ∨ E l = none) →
      ∀ ok : Mask, (∀ l, inMask ok l = (inMask act l && !(w.queue P l).isEmpty)) →
        s.completes (.peek c wide acq D P st) (took ok (marked ok)) ∧
        s.completes (.pop c wide acq D P st) fun t => ∃ w0 : Wave, took ok w0 t ∧
          { w0 with soft := { w0.soft with rx := w.soft.rx } } = marked ok ∧
          ∀ Q l, w0.queue Q l = if Q = P ∧ inMask ok l = true then (w.queue Q l).tail else w.queue Q l) ∧
    (s.LReady w p c (spanD D 1) [] → s.lanesPut w w p c (.pstat c D P) [] D 32 fun l =>
      (if (s.mapped w).any fun e => e.1 == P then 2 ^ 11 else 0) +
      (match E l with
        | none => 2 ^ 10
        | some e => s.freeAt P e % 16 * 2 ^ 4) + (w.queue P l).length % 16)

/-- R269 to R277, R98: the reservoir instructions. In each active lane they write the named reservoir or the destination, every other
lane and reservoir is unchanged. RSV.upd and RSV.mrg always count their candidate in M and take one draw. -/
def Obligations.Reservoirs : Prop :=
  ∀ (s : State) (w : Wave) (p : PcSide) (c : LCtl) (n q : ZReg) (D : Dst) (a b x : Opnd) (cap : BitVec 23) (f : ZField) (mask : BitVec 8)
    (Z : Vector (Lanes Rsv) 8),
    let act := w.active p c
    let seed := w.ls.ticket.seed
    let z (l : Lane) : Rsv := w.soft.z[n][l]
    let A (m : Nat) (l : Lane) : Nat := w.operand a m l
    let B (l : Lane) : Nat := w.operand b 32 l
    let X (l : Lane) : Nat := w.operand x 32 l
    let fl (g : Lane → Flags) : Flags := ((lanesIn act).map g).foldl (· ||| ·) 0
    let writes (i : Instr) (regs : List Nat) (zs : List ZReg) (dead : List Nat) (on : ZReg → Prop) (g : ZReg → Lane → Rsv) (e : Flags) :
        Prop :=
      s.LReady w p c regs zs → (∀ m l, on m → inMask act l = true → Z[m][l] = g m l) →
      (∀ m l, ¬ on m ∨ inMask act l = false → Z[m][l] = w.soft.z[m][l]) →
      s.lanesPut w { w with soft := { w.soft with fflags := w.soft.fflags ||| e, z := Z } } p c i dead .zero 32 fun _ => 0
    let upd (l : Lane) : Rsv × Flags := rsvUpd seed l n (z l) (A 64 l) (B l) (X l)
    let mrg (l : Lane) : Rsv × Flags := rsvMrg seed l n (z l) w.soft.z[q][l] (B l) cap.toNat
    let bits := if f = .y then 64 else 32
    let k := if f = .y then 2 else 1
    let bad (v : Nat) : Bool := match fp32.decode v with
      | .fin e => e.neg && e.m != 0
      | _ => true
    let weight (v : Nat) : Word := if v % 2 ^ 31 = 0 ∨ bad v = true then 0 else BitVec.ofNat 32 v
    let put (r : Rsv) (v : Nat) : Rsv := match f with
      | .y => { r with y := BitVec.ofNat 64 v }
      | .wsum => { r with wsum := weight v }
      | .phat => { r with phat := weight v }
      | .m => { r with m := BitVec.ofNat 32 v }
      | .ctr => { r with ctr := BitVec.ofNat 32 v }
    let got (r : Rsv) : Nat := match f with
      | .y => r.y.toNat
      | .wsum => r.wsum.toNat
      | .phat => r.phat.toNat
      | .m => r.m.toNat
      | .ctr => r.ctr.toNat
    writes (.rsvUpd c n a b x) (spanO a 2 ++ spanO b 1 ++ spanO x 1) [n] (lastUse c.lua a 2 ++ lastUse c.lub b 1 ++ lastUse c.luc x 1)
      (· = n) (fun _ l => (upd l).1) (fl fun l => (upd l).2) ∧
    writes (.rsvMrg c n q b cap) (spanO b 1) [n, q] (lastUse c.lub b 1) (· = n) (fun _ l => (mrg l).1) (fl fun l => (mrg l).2) ∧
    (∀ l, (upd l).1.ctr = (z l).ctr + 1 ∧ (upd l).1.m = BitVec.ofNat 32 (min ((z l).m.toNat + 1) (2 ^ 32 - 1)) ∧
      (mrg l).1.ctr = (z l).ctr + 1) ∧
    writes (.rsvSet c n f a) (spanO a k) [n] (lastUse c.lua a k) (· = n) (fun _ l => put (z l) (A bits l))
      (fl fun l => if (f = .wsum ∨ f = .phat) ∧ bad (A bits l) = true then fNV else 0) ∧
    writes (.rsvClr c mask) [] ((List.finRange 8).filter fun m => mask.getLsbD m.val) [] (fun m => mask.getLsbD m.val = true)
      (fun _ _ => ⟨0, 0, 0, 0, 0⟩) 0 ∧
    (s.LReady w p c (spanD D k) [n] → s.lanesPut w w p c (.rsvGet c n f D) [] D bits fun l => got (z l)) ∧
    (s.LReady w p c (spanD D 1) [n] →
      s.lanesPut w { w with soft := { w.soft with fflags := w.soft.fflags ||| fl fun l => (rsvFin (z l)).2 } } p c (.rsvFin c n D) [] D 32
        fun l => (rsvFin (z l)).1)

/-- R240, R243 to R246, R259, R263 to R265, R305, R473: the matrix instructions. With no active lane each goes on and does nothing.
Else MLDW, MDRAIN and the fence enter a job card under their tag, with the record as read, MZERO and MMA one of the engine's queue; a
solo MMA's job is its own, a bonded one waits for the other members and the last arrival starts the joint operation for all.

The model's own: when mctr is taken, and that arrivals wait for the queue (notes/assumptions/18.md). -/
def Obligations.MatrixInstructions : Prop :=
  ∀ (s u : State) (w : Wave) (p : PcSide) (c : LCtl) (ovw rowp acca add : Bool) (a b x : Opnd) (tag : BitVec 6) (l : Lane) (pl : Loc),
    let i := s.cur.1
    let d := s.cur.2
    let act := w.active p c
    let A : DWord := BitVec.ofNat 64 (w.operand a 64 l)
    let B : DWord := BitVec.ofNat 64 (w.operand b 64 l)
    let X : DWord := BitVec.ofNat 64 (w.operand x 64 l)
    let F (o : Opnd) : Word := BitVec.ofNat 32 (w.operand o 32 l)
    let va := A.toNat
    let seed := w.ls.ticket.seed
    let bond := w.ls.ticket.bond
    let v := s.viaOf w
    let la (n : Nat) := lastUse c.lua a n
    let lb (n : Nat) := lastUse c.lub b n
    let lx := lastUse c.luc x 2
    let room (k : JobKind) (pair : Bool) : Prop :=
      ∀ J : Job, J.kind = k → J.pair = pair → J.core = w.core → J.bay = w.core / 8 → s.room J = true
    let bytes : List Byte := (List.range 64).map fun k => u.mem.byte (pl.line.add ((va + k) % 256))
    let record (z : State) (j : Job) : Prop :=
      ({ z with offers := [⟨.l d, j, va, none, false, false⟩] }).request v.part v.asid va reading = .ok (pl, u) ∧ pl.near = true ∧
      (∀ k, u.gathersNone k) ∧ u.mem.counted? pl = none ∧ s.recordBlocked ⟨.l d, j, va, none, false, false⟩ = false
    let tagged (y : Wave) : Wave := { y with soft := { y.soft with tags := y.soft.tags.set tag.toNat ⟨true, false, 0, some s.jobs.length⟩ } }
    let drawn (rnd : Nat) (y : Wave) : Wave := if rnd = 4 then { y with soft := { y.soft with mctr := y.soft.mctr + 1 } } else y
    let enters (z : State) (j : Instr) (dead : List Nat) (w0 : Wave) (P : Job → Prop) : Prop := s.completes j fun t =>
      ∃ (J : Job) (w' : Wave), P J ∧ J.wave = i ∧ J.team = w.team ∧ J.core = w.core ∧ J.complete = false ∧
        ({ z with jobs := z.jobs ++ [J], offers := [] }).IssuedBy t i w w' ∧ w0.LaneTo w' d p act dead .zero 32 fun _ => 0
    let jl : Job := { w.newJob i .mldw (some tag) seed with b := B, c := X, pair := (WDesc.ofWord B).pair }
    let jd : Job := { w.newJob i (.mdrain add) (some tag) seed with c := X, fmt := F b, pair := (NDesc.ofWord X).pair }
    let own : Arrival := ⟨d, bond, (lanesIn act).map fun m => BitVec.ofNat 32 (w.operand a 32 m), some (B, X), seed, ovw, rowp, acca, c, a, b, x⟩
    let s1 := s.putWave i { w with arrival := some own }
    let ms := s.bonded i w bond
    let mma : Instr := .mma c ovw rowp acca a b x
    let f := FmtW.ofWord (F a)
    let fits (y : Wave) : Prop := f.valid = true ∧ mmaDescBad f (ADesc.ofWord B) (DDesc.ofWord X) rowp acca (s.paired y) (s.scratchSize y)
      (s.accBytes y) (s.wbufBytes y) = false
    let regs3 (n : Nat) := spanO a 2 ++ spanO b n ++ spanO x 2
    let idle (j : Instr) (regs dead : List Nat) : Prop := s.LReady w p c regs [] → s.lanesPut w w p c j dead .zero 32 fun _ => 0
    (act = 0 → w.arrival = none →
      idle (.mldw c a b x tag) (regs3 2) (la 2 ++ lb 2 ++ lx) ∧
      idle (.mzero c a) (spanO a 2) (la 2) ∧
      idle (.mdrainFence c tag) [] [] ∧
      ((add = true → w.inRegion = false) → s.twinIllegal w = false → idle (.mdrain c add a b x tag) (regs3 1) (la 2 ++ lb 1 ++ lx)) ∧
      (bond = 0 → idle mma (spanO a 1 ++ spanO b 2 ++ spanO x 2) (la 1 ++ lb 2 ++ lx))) ∧
    (lowest act = some l → s.offers = [] → w.isGreen = false →
      (s.LReady w p c (spanO a 2) [] →
        let z := ZDesc.ofWord A
        z.reserved = false → z.off % 256 = 0 → (z.pair = true → s.paired w = true) → z.off + z.len ≤ s.accBytes w →
        (z.len = 0 → s.lanesPut w w p c (.mzero c a) (la 2) .zero 32 fun _ => 0) ∧
        (z.len ≠ 0 → room .mzero z.pair → enters s (.mzero c a) (la 2) w fun J => J.kind = .mzero ∧ J.a = A ∧ J.reads = [] ∧
          J.writes = if z.pair then [⟨.acc w.team false, z.off, z.len⟩, ⟨.acc w.team true, z.off, z.len⟩] else [⟨.acc w.team w.odd, z.off, z.len⟩])) ∧
      (s.tagDone w tag = true → va < 2 ^ 56 → va % 64 = 0 →
        (s.LReady w p c (regs3 2) [] → (WDesc.ofWord B).reserved = false → (WDesc.ofWord B).off % 64 = 0 →
          ((WDesc.ofWord B).pair = true → s.paired w = true) → room .mldw (WDesc.ofWord B).pair → record (s.release w.core .d) jl →
          enters u (.mldw c a b x tag) (la 2 ++ lb 2 ++ lx) (tagged w) fun J => J.kind = .mldw ∧ J.tag = some tag ∧ J.b = B ∧ J.c = X ∧
            J.record = bytes) ∧
        (s.LReady w p c (regs3 1) [] → (add = true → w.inRegion = false) → s.twinIllegal w = false →
          drainDescBad (FmtW.ofWord (F b)) (NDesc.ofWord X) (s.paired w) (s.accBytes w) = false →
          room (.mdrain add) (NDesc.ofWord X).pair → record s jd →
          enters u (.mdrain c add a b x tag) (la 2 ++ lb 1 ++ lx) (drawn (FmtW.ofWord (F b)).rnd (tagged w)) fun J =>
            J.kind = .mdrain add ∧ J.tag = some tag ∧ J.c = X ∧ J.fmt = F b ∧ J.record = bytes ∧ J.ctr = w.soft.mctr)) ∧
      (s.LReady w p c [] [] → s.tagDone w tag = true → room .fence false →
        enters s (.mdrainFence c tag) [] (tagged w) fun J => J.kind = .fence ∧ J.tag = some tag ∧ J.reads = [] ∧ J.writes = []) ∧
      (s.LReady w p c (spanO a 1 ++ spanO b 2 ++ spanO x 2) [] → w.arrival = none →
        (bond = 0 → fits w → (∀ m, inMask act m = true → w.operand a 32 m = w.operand a 32 l) → room .mma (DDesc.ofWord X).pair →
          enters s mma (la 1 ++ lb 2 ++ lx) (drawn f.rnd w) fun J => J.kind = .mma ∧ J.members = [i] ∧ J.fmt = F a ∧ J.b = B ∧ J.c = X ∧
            J.ovw = ovw ∧ J.rowp = rowp ∧ J.acca = acca ∧ J.seed = seed ∧ J.ctr = w.soft.mctr) ∧
        (bond ≠ 0 → s.bondGone ms = false →
          ((∃ k, some k ∈ ms ∧ k ≠ i ∧ ∀ y r, s.waves[k]? = some y → y.arrival = some r → r.bond ≠ bond) → s.completes mma fun t =>
            ∃ since, t = s.putWave i { w with arrival := some own, ls := (w.ls.setWait d (some .bond)).setSince d since }) ∧
          (∀ (L : List (Nat × Arrival)) (lead : Nat) (y : Wave), some i ∈ ms → s1.arrivals ms bond = some L → (L.map Prod.fst).Nodup →
            L.head?.map Prod.fst = some lead → s1.waves[lead]? = some y → (∀ e ∈ L, ∃ z q, s1.waves[e.1]? = some z ∧ z.ls.side? e.2.side = some q) →
            (L.head?.any fun e => e.2.rowp == rowp && e.2.acca == acca) = true →
            (∀ e ∈ L, (∀ g ∈ e.2.fmts, g = F a) ∧ (∀ g, e.2.bc = some g → g = (B, X))) → fits y →
            (∀ J : Job, J.kind = .mma → J.pair = (DDesc.ofWord X).pair → J.core = y.core → J.bay = y.core / 8 → s.room J = true) →
            s.completes mma fun t => (∃ J, t.jobs = s.jobs ++ [J] ∧ J.kind = .mma ∧ J.members = L.map Prod.fst ∧ J.fmt = F a ∧ J.b = B ∧ J.c = X) ∧
              t.mem = s.mem ∧ (∀ k, k ∉ L.map Prod.fst → t.waves[k]? = s.waves[k]?) ∧
              ∀ e ∈ L, ∀ z q, s1.waves[e.1]? = some z → z.ls.side? e.2.side = some q → ∃ w', t.waves[e.1]? = some w' ∧ w'.arrival = none ∧
                w'.ls.side? e.2.side = some { q with pc := q.pc + 12 } ∧ w'.ss = z.ss ∧ w'.priv = z.priv))))

/-- R293, R294, R299 to R302, R76, R303, R381: the traversal instructions. TRAV starts one running ray in each active lane, whose first
record its outstanding L-op awaits (with .q its completion, with no record for it); TRES gives the record of an ended or suspended ray, BADHANDLE where the handle
names none, and frees an ended ray; TRES.q takes records from a hod; TRESUME applies its decision and marks the lanes in which it took
effect; TLOG gives the old LCUR and sets the lane log state.

The model's own: the number of a ray's slot, which is free, and corners of records (notes/assumptions/6.md, 17.md). -/
def Obligations.TraversalInstructions : Prop :=
  ∀ (s u : State) (w : Wave) (p : PcSide) (c : LCtl) (log q : Bool) (D : Dst) (a b x : Opnd) (hod : BitVec 6) (st : Option PReg)
    (G : Lanes LogSt) (h : Hod) (got : List (Lane × List DWord)),
    let i := s.cur.1
    let d := s.cur.2
    let act := w.active p c
    let ls := lanesIn act
    let out := w.ls.outs.length
    let A (l : Lane) : Nat := w.operand a 32 l
    let word (k : Nat) (l : Lane) : Nat := match a with
      | .v r => (if y : r.val + 2 * k < 256 then (w.ls.laneVal ⟨r.val + 2 * k, y⟩ l).toNat else 0) +
          (if y : r.val + 2 * k + 1 < 256 then (w.ls.laneVal ⟨r.val + 2 * k + 1, y⟩ l).toNat else 0) * 2 ^ 32
      | _ => w.operand a 64 l
    let named (l : Lane) (any : Bool) : Option Nat := s.rayNamed w (A l) any
    let ctl (l : Lane) : Nat := w.operand x 32 l
    let w1 : Wave := if log then { w with soft := { w.soft with log := G } } else w
    let part (rec : List DWord) (k : Nat) : Word := BitVec.ofNat 32 ((rec.getD (k / 2) 0).toNat / 2 ^ (32 * (k % 2)))
    let holds (o : Outst) (l : Lane) (rec : List DWord) : Prop := inMask o.mask l = true ∧ inMask o.parked l = false ∧
      ∀ (k : Nat) (e : Nat × Lanes Word), o.regs[k]? = some e → e.2[l] = part rec k
    (s.LReady w p c (spanO a (if q then 18 else 16) ++ spanO b 2 ++ spanO x 1 ++ spanD D 10) [] →
      (∀ l, G[l] = if inMask act l then { w.soft.log[l] with cur := w.soft.log[l].cur + 1 } else w.soft.log[l]) →
      (q = true → w.inRegion = false ∧ ∃ e, s.hodOf w.grid hod.toNat = some e ∧ e.output = true) → (log = true → s.twinIllegal w = false) →
      s.slotsUsed w.core + ls.length ≤ 2047 →
      s.completes (.trav c log q D a b x hod) fun t => ∃ z : State, { z with rays := s.rays, free := s.free } = s ∧
        z.rays.length = s.rays.length + ls.length ∧ z.rays.take s.rays.length = s.rays ∧
        s.launchesAs z w w1 p c (lastUse c.lua a (if q then 18 else 16) ++ lastUse c.lub b 2 ++ lastUse c.luc x 1)
          { Outst.fresh c d true none ((spanD D 10).map fun r => (r, Vector.replicate 32 0)) 0 with
            rays := true, inTicket := false, parked := act } t ∧
        ∀ (j : Nat) (l : Lane), ls[j]? = some l → ∃ r, z.rays[s.rays.length + j]? = some r ∧ r.st = .running ∧ r.freed = false ∧
          r.core = w.core ∧ r.ctx = s.ctxIdOf w ∧ r.wave = some i ∧ r.lane = l ∧ 1 ≤ r.handle ∧ r.handle ≤ 2047 ∧ r.best = none ∧
          r.root = w.operand b 64 l ∧ (∀ k : Fin 3, r.o[k].toNat = word k.val l ∧ r.d[k].toNat = word (3 + k.val) l) ∧
          r.tmin.toNat = word 6 l ∧ r.tmax.toNat = word 7 l ∧ r.tb = r.tmax ∧ (q = true → r.tag.toNat = word 8 l ∧ r.hod = some hod.toNat) ∧
          (q = false → r.hod = none) ∧ r.owes = [(i, out, l)] ∧ r.inRegion = w.inRegion ∧ r.remain = (if ctl l % 2 ^ 16 = 0 then 65536 else ctl l % 2 ^ 16) ∧
          r.mask.toNat = ctl l / 2 ^ 16 % 2 ^ 8 ∧ r.anyhit = decide (ctl l / 2 ^ 24 % 2 = 1) ∧ r.logging = log ∧
          r.slice = w.soft.log[l].base.toNat + w.soft.log[l].slice.toNat * w.soft.log[l].cur.toNat ∧
          r.sliceLen = w.soft.log[l].slice.toNat ∧ r.logFull = (log && sliceBad r.slice r.sliceLen)) ∧
    (s.LReady w p c (spanO a 1 ++ spanD D 10) [] →
      (∀ l n r, inMask act l = true → named l false = some n → s.rays[n]? = some r → r.st = .ended ∨ r.st = .suspended) →
      s.completes (.tres c false D a hod) fun t => ∃ (z : State) (o : Outst), { z with rays := s.rays } = s ∧ z.rays.length = s.rays.length ∧
        s.launches z w p c (lastUse c.lua a 1) o t ∧ o.load = true ∧ o.done = false ∧ o.mask = act ∧ o.regs.map Prod.fst = spanD D 10 ∧
        (∀ l, inMask act l = true → named l false = none → holds o l (bareRecord 0xB)) ∧
        (∀ l n r, inMask act l = true → named l false = some n → s.rays[n]? = some r → holds o l r.record) ∧
        ∀ (n : Nat) (r : Ray), s.rays[n]? = some r → z.rays[n]? = some
          (if (ls.any fun l => named l false == some n) && r.st == .ended then { r with freed := true } else r)) ∧
    (s.LReady w p c (spanO a 1 ++ spanD D 12) [] → w.ls.park? d = none → s.hodOf w.grid hod.toNat = some h → h.output = true →
      s.TakesAll i d out (s.viaOf w) h ls u got →
      s.completes (.tres c true D a hod) fun t => ∃ o : Outst, s.launches u w p c (lastUse c.lua a 1) o t ∧ o.load = true ∧ o.done = false ∧
        o.regs.map Prod.fst = spanD D 12 ∧ o.parked = 0 ∧ o.remote = 0 ∧ ∀ e ∈ got, holds o e.1 e.2) ∧
    (s.LReady w p c (spanO a 1 ++ spanO b 1 ++ spanO x 2) [] →
      (∀ l m n, inMask act l = true → inMask act m = true → named l true = some n → named m true = some n → l = m) →
      ∀ ok : Mask, let took (l : Lane) : Option (Nat × Ray) := (named l true).bind fun n => (s.rays[n]?).bind fun r =>
          (r.decide (w.operand b 32 l) (BitVec.ofNat 64 (w.operand x 64 l))).map fun e => (n, e)
        (∀ l, inMask ok l = (inMask act l && (took l).isSome)) →
        s.completes (.tresume c a b x st) fun t => ∃ (z : State) (w' : Wave), { z with rays := s.rays } = s ∧ z.IssuedBy t i w w' ∧
          (w.setStatus st act ok).LaneTo w' d p act (lastUse c.lua a 1 ++ lastUse c.lub b 1 ++ lastUse c.luc x 2) .zero 32 (fun _ => 0) ∧
          (∀ l n e, inMask act l = true → took l = some (n, e) → z.rays[n]? = some e) ∧
          ∀ n, (∀ l, inMask act l = true → (took l).map Prod.fst ≠ some n) → z.rays[n]? = s.rays[n]?) ∧
    (s.LReady w p c (spanO a 2 ++ spanO b 1 ++ spanD D 1) [] →
      (∀ l, inMask act l = true → w.operand a 64 l < 2 ^ 56 ∧ w.operand a 64 l % 64 = 0 ∧ w.operand b 32 l % 64 = 0 ∧
        w.operand b 32 l ≤ 65536) →
      (∀ l, G[l] = if inMask act l then ⟨BitVec.ofNat 64 (w.operand a 64 l), BitVec.ofNat 32 (w.operand b 32 l), 0⟩ else w.soft.log[l]) →
      s.lanesPut w { w with soft := { w.soft with log := G } } p c (.tlog c D a b) (lastUse c.lua a 2 ++ lastUse c.lub b 1) D 32
        fun l => w.soft.log[l].cur.toNat)

/-- R316 to R318, R308, R309, R313, R314, R305: JSTAT reads a tag, CTEST the selected completion bits, CWAIT goes on when they hold and
waits or yields otherwise; JCOPY enters a job card under its tag, with its descriptor, its origin and the record as read, and a load
takes the chunks that it will write.

The model's own: the record belongs to the read footprint (notes/assumptions/19.md). -/
def Obligations.CopiesAndCompletions : Prop :=
  ∀ (s u : State) (w : Wave) (d a b : SReg) (n : BitVec 10) (off : BitVec 11) (tags y any rel : Bool) (pl : Loc) (team : Team),
    s.waves[s.cur.1]? = some w → w.priv.handler = false → s.teams[w.team]? = some team →
    let i := s.cur.1
    let next := s.opAddr w + 4
    let first := (w.readS a).toNat
    let mask := w.readS b
    let size := s.scratchSize w
    let job (k : Fin 64) : Option Job := (w.soft.tags[k].job).bind fun j => s.jobs[j]?
    let ended (k : Fin 64) : Bool := w.soft.tags[k].complete || (job k).any fun j => j.complete
    let done (k : Fin 64) : Bool := ended k || !w.soft.tags[k].valid
    let landed (k : Nat) : Bool := decide (size ≤ 512 * k) || !((team.half w.odd).pending.any fun e => e.1 == k)
    let bit (k : Fin 64) : Bool := if tags then done k else landed (first + k.val)
    let inRange : Prop := tags = false → 512 * first < size
    let holds : Prop := if any then mask = 0 ∨ ∃ k : Fin 64, (bit k && mask.getLsbD k.val) = true
      else ∀ k : Fin 64, mask.getLsbD k.val = true → bit k = true
    let T := s.target w 11 off.toNat
    let wait : Instr := .cwait a b tags y any off
    let cont : Prop := y = true → (s.scalarSection w).1 ≤ T.toNat ∧ T.toNat + 4 ≤ (s.scalarSection w).1 + (s.scalarSection w).2 ∧ T.toNat < 2 ^ 56
    let dsc := w.readS b
    let org : DWord := if e : b.val + 1 < 64 then w.readS ⟨b.val + 1, e⟩ else 0
    let tile := Tile.ofWord dsc
    let s0 := if rel then s.release w.core .d else s
    let v := s.viaOf w
    let copies (j : Instr) (kind : JobKind) : Prop :=
      let card : Job := { w.newJob i kind (some tile.tag) w.soft.seed with a := dsc, b := org }
      first < 2 ^ 56 → first % 64 = 0 → tileBad dsc org = false → tile.off < size → (kind = .add → w.inRegion = false) →
      (kind ≠ .load → s.twinIllegal w = false) → (rel = true → w.ls.tickets = []) → s.offers = [] → s.tagDone w tile.tag = true →
      s.trackerFull (w.core / 8) = false → w.isGreen = false →
      ({ s0 with offers := [⟨.s, card, first, none, false, false⟩] }).request v.part v.asid first reading = .ok (pl, u) → pl.near = true →
      (∀ k, u.gathersNone k) → u.mem.counted? pl = none → s.recordBlocked ⟨.s, card, first, none, false, false⟩ = false →
      s.completes j fun t => ∃ (J : Job) (z : State), { z with jobs := u.jobs, teams := u.teams, offers := u.offers } = u ∧
        z.jobs = s.jobs ++ [J] ∧ z.offers = [] ∧
        { J with record := [], recPoisoned := false, reads := [], writes := [] } = card ∧
        J.record = ((List.range 64).map fun k => u.mem.byte (pl.line.add ((first + k) % 256))) ∧
        (kind ≠ .load → z.teams = s.teams) ∧ (∀ k, k ≠ w.team → z.teams[k]? = s.teams[k]?) ∧
        (∃ x, z.teams[w.team]? = some x ∧ x.setHalf w.odd { x.half w.odd with pending := (team.half w.odd).pending } = team ∧
          ∀ k, (∀ m, (k, m) ∈ (x.half w.odd).pending ↔ m = s.jobs.length) ∨
            ∀ m, (k, m) ∈ (x.half w.odd).pending ↔ (k, m) ∈ (team.half w.odd).pending) ∧
        z.ScalarDoneAs t w { w with soft := { w.soft with
          tags := w.soft.tags.set tile.tag.toNat ⟨true, false, 0, some s.jobs.length⟩,
          mctr := if tile.rnd = 4 then w.soft.mctr + 1 else w.soft.mctr } } 0 0 next
    (∀ k : Fin 64, s.number n = k.val → s.puts w (.jstat d n) d (BitVec.ofNat 64
      ((if w.soft.tags[k].valid then 2 ^ 7 else 0) + (if done k then 2 ^ 6 else 0) +
        (if ended k = true ∧ w.soft.tags[k].valid = true then
          (if w.soft.tags[k].complete then w.soft.tags[k].status else ((job k).map Job.status).getD 0).toNat else 0)))) ∧
    (inRange → ∀ e : DWord, (∀ k : Fin 64, e.getLsbD k.val = (bit k && mask.getLsbD k.val)) → s.puts w (.ctest d a b tags) d e) ∧
    (inRange → cont → holds → s.completes wait fun t => s.ScalarDone t w 0 0 next) ∧
    (inRange → cont → ¬ holds → s.completes wait fun t => ∃ since len, t = s.setWave { w with ss := { w.ss with
      waitS := some .cwait, sinceS := since, waitLen := len,
      yielded := if y then some ⟨tags, any, w.readS a, mask, T.toNat, next⟩ else w.ss.yielded } }) ∧
    copies (.jcopyLoad a b rel) .load ∧ copies (.jcopyStore a b rel) .store ∧ copies (.jcopyAdd a b rel) .add

/-- R52, R53, R170, R319, R321, R334: RGN.beg of a wave that is a port-connected set of its own reads the base words of the declared
ranges (no two of them alike), in the L1 or by line requests, records the checkpoint and opens the region; RGN.end cures it, when the region's jobs are complete: the green writes are
performed as one release of scope .d, and sD gets the number of rollbacks, at most 255.

The model's own: the start of a region is the address of its RGN.beg S-op (notes/assumptions/22.md). -/
def Obligations.RegionBeginAndEnd : Prop :=
  ∀ (s u : State) (w : Wave) (d : SReg) (n : BitVec 10) (e : RegEnt) (g : Region) (ps : List (LaneReq × Loc)),
    s.waves[s.cur.1]? = some w → w.priv.handler = false → w.ls.tickets = [] → (∀ k, s.neighbours k = []) →
    let i := s.cur.1
    let next := s.opAddr w + 4
    let l := s.launchOf w
    let rs := w.rangeReqs e
    let held := rs.filterMap fun r => (s.l1Holds (s.viaOf w) 8 r).map fun p => (r, p)
    let u1 := u.meetHomes w.core false (lineHomes ps)
    let place (r : LaneReq) : Option Loc := ((held ++ ps).find? fun q => q.1 == r).map fun q => q.2
    let base (k : Nat) : Nat := ((rs[k]?).bind fun r => (place r).map fun p => numLE (u1.bytesFor w r.addr 8 p)).getD 0
    let declared (o : Bool) : List Range := (mapIx (fun k (r : Nat × Bool × Nat) => (r.2.1, (⟨base k, r.2.2⟩ : Range))) 0 e.ranges).filterMap
      fun r => if r.1 = o then some r.2 else none
    (w.gone = false → w.region = none → w.ss.begun = none → 0 ≤ s.number n → s.number n ≤ 255 → l.regions[(s.number n).toNat]? = some e →
      l.sbase + e.beg = s.opAddr w → s.sys.phys = ⟨[], [], [], [], [], [], [], []⟩ → s.sys.links.remotes = [] →
      (rs.map LaneReq.addr).Nodup → (∀ r ∈ rs, r.addr < 2 ^ 56 ∧ r.addr % 8 = 0) →
      s.Reaches w 8 reading (rs.filter fun r => (s.l1Holds (s.viaOf w) 8 r).isNone) ps u → (∀ r ∈ ps, u1.mem.counted? r.2 = none) →
      (∀ r ∈ held ++ ps, u1.poisonFor w r.1.addr 8 r.2 = false) →
      (∀ k r, e.ranges[k]? = some r → base k + r.2.2 ≤ 2 ^ 56) →
      s.completes (.rgnBeg n) fun t => t.teams = modAt s.teams w.team (fun x => { x with issued := x.issued + 1 }) ∧ t.jobs = s.jobs ∧
        (∀ j, j ≠ i → t.waves[j]? = s.waves[j]?) ∧ ∃ w', t.waves[i]? = some w' ∧ w'.ss.pc = next ∧ w'.ss.s = w.ss.s ∧ w'.ls = w.ls ∧
          w'.soft = w.soft ∧ w'.priv = w.priv ∧ w'.green = Green.empty ∧ w'.ss.ins = [] ∧ w'.ss.outs = [] ∧
          ∃ r, w'.region = some r ∧ r.id = (s.number n).toNat ∧ r.endPc = l.sbase + e.end_ ∧ r.rollbacks = 0 ∧ r.errors = 0 ∧
            r.unchecked = false ∧ r.ended = none ∧ r.sig = 0 ∧ r.ck = ⟨next, w.ss.s, w.soft⟩ ∧
            r.ins = declared false ++ w.ss.ins ∧ r.outs = declared true ++ w.ss.outs) ∧
    (w.region = some g → g.endPc = s.opAddr w → l.twin = false → (∀ j ∈ s.jobs, j.inRegionOf i = true → j.complete = true) →
      s.completes (.rgnEnd d) fun t =>
        let z := (s.setWave { w with region := some { g with ended := some (d, next) }, ss := { w.ss with waitS := some .other } }).applyGreen i
        { t with waves := z.waves, teams := z.teams, jobs := z.jobs, rays := z.rays } = z ∧ (∀ j, j ≠ i → t.waves[j]? = s.waves[j]?) ∧
        t.teams = modAt z.teams w.team (fun x => { x with issued := x.issued + 1 }) ∧ s.PutsBehind t i ∧
        ∃ w', t.waves[i]? = some w' ∧ ({ w with region := none, green := Green.empty }).ScalarTo w' d (BitVec.ofNat 64 (min g.rollbacks 255)) next)

/-! ## Steps of the memory system and of the engines -/

/-- R109, R227, R393, R415: a dirty line of an L1 goes to its home slice: its bytes and the poison of their sectors are written there (a
sector written in part keeps its own poison), the line's copy in the LLC takes them, and nothing else changes. A gathering line's partial result is applied at home as one contribution.

R399: an invalidation is one more in progress; at its end, with no request of its range outstanding, the cached entries of its range
are gone, and no cache holds a line there whose leaf has changed.

R469, R470, R472: a watchpoint of a context takes the fields that are not reserved, in its context and in the cores that hold its
watchpoints and a team of it; the other watchpoints stay. A report of an engine is held for the wave that issued its job, with the byte,
the watchpoint, the origin and the engine.

The model's own: a line of an L1 is named by its place in the list (notes/assumptions/23.md). -/
def Obligations.LinesInvalidationsWatchpoints : Prop :=
  (∀ (s : State) (core k : Nat) (c : Core) (x : L1Line) (op : AtomOp) (va : Nat) (pv : DWord),
    s.cores[core]? = some c → c.l1[k]? = some x →
    let key (y : L1Line) : Bool := y.part == x.part && y.asid == x.asid && y.line == x.line
    let n := AtomOp.bytes op
    let old := numLE ((List.range n).map fun i => s.mem.byte (x.home.add (va % 256 + i)))
    let wet (m : BitVec 4) (y : LlcLine) : LlcLine :=
      if y.home = x.home then { y with valid := y.valid ||| m, dirty := y.dirty ||| m } else y
    let sent (e : Instr) (m : BitVec 4) (P : State → Prop) : Prop := s.completes e fun t =>
      { t with mem := s.mem, cores := s.cores } = s ∧ t.mem.llc = s.mem.llc.map (wet m) ∧
      { t.mem with hbm := s.mem.hbm, carved := s.mem.carved, hbmPoison := s.mem.hbmPoison, carvedPoison := s.mem.carvedPoison,
                   llc := s.mem.llc } = s.mem ∧
      t.cores = s.cores.set core { c with l1 := c.l1.filter fun y => !key y } ∧ t.mem.wf = true ∧
      (∀ q : Loc, q.near = true → (∀ a, a < 256 → q ≠ x.home.add a) → t.mem.byte q = s.mem.byte q) ∧ P t
    c.l1.filter key = [x] → x.home.near = true → x.home.line = x.home → s.mem.counted? x.home = none → s.mem.wf = true →
    s.sys.phys.ecc = [] →
    (x.gather = none → x.bytes.Pairwise (fun a b => a.1 < b.1) → (∀ b ∈ x.bytes, b.1 / 256 = x.line) →
      sent (.nongreenWritebackTimeout core k) (secMask x.bytes) fun t =>
        (∀ a, a < 256 → t.mem.byte (x.home.add a) = (ovGet x.bytes (256 * x.line + a)).getD (s.mem.byte (x.home.add a))) ∧
        ∀ b, b < 4 → t.mem.poisoned (x.home.add (64 * b)) =
          if x.bytes.any (fun e => e.1 / 64 == 4 * x.line + b) then x.poison.contains (4 * x.line + b) ||
            (!(fullSectors x.bytes).contains (4 * x.line + b) && s.mem.poisoned (x.home.add (64 * b)))
          else s.mem.poisoned (x.home.add (64 * b))) ∧
    (x.gather = some op → x.bytes = [] → x.partials = [(va, pv)] → va % n = 0 → s.mem.poisoned (x.home.add (va % 256)) = false →
      sent (.gatherLineTimeout core k) (1#4 <<< (va % 256 / 64)) fun t => (∀ a, a < 256 → (a < va % 256 ∨ va % 256 + n ≤ a) →
          t.mem.byte (x.home.add a) = s.mem.byte (x.home.add a)) ∧
        (List.range n).map (fun i => t.mem.byte (x.home.add (va % 256 + i))) = bytesLE n (atomNew op old pv.toNat 0))) ∧
  (∀ (s : State) (part asid lo hi i : Nat) (v : Inval),
    (s.completes (.invalidationRequest part asid lo hi) fun t =>
      t = { s with mem := { s.mem with invals := s.mem.invals ++ [⟨part, asid, lo, hi⟩] } }) ∧
    (s.mem.invals[i]? = some v →
      (∀ r ∈ s.sys.links.remotes, r.reply = none → v.hi ≤ r.va ∨ r.va + FabOp.width r.op ≤ v.lo ∨
        ∃ w, s.waves[r.wave]? = some w ∧ ((s.ctxOf w).part ≠ v.part ∨ (s.ctxOf w).asid ≠ v.asid)) →
      s.completes (.invalidationEnd i) fun t =>
        let meets (a len : Nat) : Prop := a < v.hi ∧ v.lo < a + len
        let size (x : Leaf) : Nat := if x.big then 2 ^ 30 else 2 ^ 21
        let fresh : State := { s with mem := s.mem.dropEntries v }
        let hit (p q line : Nat) : Prop := p = v.part ∧ q = v.asid ∧ meets (256 * line) 256 ∧ s.leafSame fresh p q (256 * line) = false
        t.mem.invals = s.mem.invals.eraseIdx i ∧
        (∀ x, x ∈ t.mem.leaves ↔ x ∈ s.mem.leaves ∧ ¬ (x.part = v.part ∧ x.asid = v.asid ∧ meets (x.page * size x) (size x))) ∧
        (∀ x, x ∈ t.mem.uppers ↔ x ∈ s.mem.uppers ∧ ¬ (x.part = v.part ∧ x.asid = v.asid ∧
          meets (x.page * 2 ^ (12 + 9 * x.level)) (2 ^ (12 + 9 * x.level)))) ∧
        (∀ c ∈ t.cores, ∀ x ∈ c.l1, ¬ hit x.part x.asid x.line) ∧ (∀ x ∈ t.mem.llc, ¬ hit x.part x.asid x.line) ∧
        t.waves = s.waves ∧ t.teams = s.teams ∧ t.grids = s.grids ∧ t.jobs = s.jobs ∧ t.rays = s.rays)) ∧
  (∀ (s : State) (ctx : BitVec 16) (n : Fin 4) (wa wc : DWord) (x : Context) (k i : Nat) (h : WatchHit) (w : Wave),
    (s.sys.contexts.find? (fun c => c.id == ctx) = some x →
      let x' : Context := { x with watch := x.watch.set n (wa &&& 0x00FFFFFFFFFFFFF0#64, wc &&& 0xE007FFFF0000FFFF#64) }
      s.completes (.watchpointLoad ctx n wa wc) fun t => { t with cores := s.cores, sys := s.sys } = s ∧
        { t.sys with contexts := s.sys.contexts } = s.sys ∧ t.context ctx = x' ∧ (∀ y, y ≠ ctx → t.context y = s.context y) ∧
        ∀ (core : Nat) (c : Core), s.cores[core]? = some c →
          (t.cores[core]? = some c ∨ t.cores[core]? = some { c with watch := x'.watch, watchCtx := some ctx }) ∧
          (c.watchCtx = some ctx → (∃ y ∈ s.teamsOn [] core, (s.grids[y.grid]?).map Grid.ctx = some ctx) →
            t.cores[core]? = some { c with watch := x'.watch, watchCtx := some ctx })) ∧
    (s.sys.watchHits[k]? = some h → h.wave = some i → s.waves[i]? = some w → w.gone = false → (s.ctxOf w).hen = true →
      w.priv.held.length < 4 → s.completes (.watchEngineReport k) fun t =>
        t = { s with
          sys := { s.sys with watchHits := s.sys.watchHits.eraseIdx k },
          waves := s.waves.set i { w with priv := { w.priv with
            held := w.priv.held ++ [⟨.watchEngine, BitVec.ofNat 64 h.va, BitVec.ofNat 64 (h.wp * 2 ^ 16 + h.origin * 2 ^ 4 + h.engine), h.since⟩] } } }))

/-- R221, R357, R358, R394, R397, R402, R403: a walk caches its leaf in the unit of the address's channel, 2,048 or 64 of its size, the
oldest making room, with upper-level entries that it read, and nothing else. RESOLVE marks its record answered and releases
what the fault holds; a resolved side's load is performed in its parked lanes with the recorded operands, and a resolved S-stream or code
fetch issues again. FATAL ends a held job's access, and is the precise trap PAGE_FAULT or ALIAS of a held side. -/
def Obligations.WalksAndAnswers : Prop :=
  ∀ (s : State) (part asid va e : Nat) (wr fe big : Bool) (pl : Loc) (f : XFault) (id : Word) (rec : FaultRec) (i j : Nat) (w : Wave)
    (d : Side) (k : Park) (J : Job) (c : LCtl) (sz : MSize) (hint : LHint) (ann : Ann) (D : Dst) (a : Opnd) (off : BitVec 23),
    let answered : State := { s with mem := { s.mem with
      faults := s.mem.faults.map fun y => if y.id = id then { y with answered := true } else y } }
    let n := MSize.bytes sz
    let on : Wave := { w with ls := w.ls.unpark d k.resume }
    let s0 : State := { s with cur := (i, d), waves := s.waves.set i on }
    let z : State := { answered with waves := s.waves.set i { w with ls := w.ls.setPark d (some { k with fatal := true }) } }
    (s.mem.cached part asid va = none → s.translate part asid va ⟨wr, fe, false, 1⟩ = .ok pl → s.walk part asid va = .ok (e, big) →
      s.completes (.translationWalk part asid va wr fe) fun t =>
        let mine (y : Leaf) : Bool := y.chan == channelOf va && y.big == big
        let most := if big then 64 else 2048
        { t with mem := { t.mem with leaves := s.mem.leaves, uppers := s.mem.uppers } } = s ∧ t.mem.cached part asid va = some (e, big) ∧
        (∀ y ∈ t.mem.leaves, y ∈ s.mem.leaves ∨
          y = ⟨channelOf va, part, asid, if big then va / 2 ^ 30 else va / 2 ^ 21, big, BitVec.ofNat 64 e⟩) ∧
        (∀ y ∈ s.mem.leaves, mine y = false ∨ (s.mem.leaves.filter mine).length < most → y ∈ t.mem.leaves) ∧
        ((s.mem.leaves.filter mine).length ≤ most → (t.mem.leaves.filter mine).length ≤ most) ∧
        ∀ y ∈ t.mem.uppers, y ∈ s.mem.uppers ∨ (y.chan = channelOf va ∧ y.part = part ∧ y.asid = asid ∧ y.page = levelPage va y.level)) ∧
    (s.mem.cached part asid va = none → s.walk part asid va = .error f →
      s.completes (.translationWalk part asid va wr fe) fun t => t = s) ∧
    (s.mem.faults.find? (fun y => y.id == id && !y.answered) = some rec → s.sys.links.remotes = [] →
      (rec.holder = .job j → s.jobs[j]? = some J → J.held = some id →
        (s.completes (.faultAnswerResolve id) fun t => t = { answered with jobs := s.jobs.set j { J with held := none } }) ∧
        (s.completes (.faultAnswerFatal id) fun t => t = { answered with jobs := s.jobs.set j { J with held := none, fatal := true } })) ∧
      (rec.holder = .wave i (.l d) → s.waves[i]? = some w → w.ls.park? d = some k → k.id = id → w.ss.parkS = none →
        (s.completes (.faultAnswerResolve id) fun t => t = { answered with
          waves := s.waves.set i { w with ls := w.ls.setPark d (some { k with resolved := true }) } }) ∧
        (s.runs w = true → w.priv.handler = false → (s.ctxOf w).hen = true → s.completes (.faultAnswerFatal id) fun t =>
          z.Entered t i { w with ls := w.ls.setPark d (some { k with fatal := true }) } (.l d) false
            (if k.report.toNat % 16 = 7 then 0x25 else 0x24) k.first k.report.toNat k.pc (if k.instr.isNone then 0 else reqMask k.reqs)))) ∧
    (s.waves[i]? = some w → s.runs w = true → k.resolved = true →
      (w.ss.parkS = some k → s.completes (.parkedLaneReplay i .s) fun t => ∃ w', t = { s with waves := s.waves.set i w' } ∧
        { w' with ss := { w'.ss with unwatched := w.ss.unwatched } } = { w with ss := { w.ss with parkS := none } } ∧
        ((∀ a b c d e, k.instr ≠ some (.sst a b c d e)) → (∀ a b c d e f g, k.instr ≠ some (.satom a b c d e f g)) →
          w'.ss.unwatched = w.ss.unwatched)) ∧
      (w.ls.park? d = some k → w.priv.handler = false →
        (k.instr = none → s.completes (.parkedLaneReplay i (.l d)) fun t =>
          t = { s with cur := (i, d), waves := s.waves.set i { w with ls := w.ls.setPark d none } }) ∧
        (k.instr = some (.ld c sz hint ann D a off) → s.sys.phys = ⟨[], [], [], [], [], [], [], []⟩ →
          let g := s0.readAll i on n ann hint k.reqs
          g.bad = [] → g.away = [] → g.poisoned = [] →
          s.completes (.parkedLaneReplay i (.l d)) fun t => t = { g.s with waves := modAt g.s.waves i fun y => { y with ls := { y.ls with
            outs := modAt y.ls.outs k.out fun o => { o.fillIn (loadWord sz) g.vals with parked := 0 } } } })))

/-- R305, R307, R404, R473: a job that a stream offers is accepted when entries are free: its record is read, its footprints are formed,
it joins the jobs in order, and its tag becomes valid, not complete, and its own. A batch of a channel reorders what no program
can see: the model performs requests at once (notes/assumptions/4.md).

R263, R265, R305, R310, R311, R314, R327: jobs of the copy engine and of the matrix engine complete: the tag takes the status, the
chunks that the job owns are landed, its flags merge into the wave's. A record that R310 refuses ends BAD_RECORD with nothing written;
a load writes what is left of its tile, or the part in one chunk, its flags as they come; MZERO zeroes its range; a fence only completes; a joint operation writes its results. -/
def Obligations.EngineJobs : Prop :=
  (∀ (s u : State) (ch : Nat) (card : Job) (recAt : Nat) (w : Wave) (g : BitVec 6) (pl : Loc),
    let o : Offer := ⟨.s, card, recAt, none, false, false⟩
    let v := s.viaJob card
    (s.completes (.controllerBatchOpen ch) fun t => t = s) ∧
    (s.offers = [o] → s.waves[card.wave]? = some w → s.runs w = true → w.priv.handler = false → w.isGreen = false → s.room card = true →
      card.kind = .store ∨ card.kind = .add ∨ card.kind = .mldw ∨ (∃ add, card.kind = .mdrain add) → card.fatal = false → card.region = false →
      card.tag = some g → recAt % 64 = 0 → s.request v.part v.asid recAt reading = .ok (pl, u) → pl.near = true →
      (∀ k, u.gathersNone k) → u.mem.counted? pl = none → s.recordBlocked o = false →
      s.completes (.jobAccept card.wave .s) fun t => ∃ J : Job, t.jobs = s.jobs ++ [J] ∧ t.offers = [{ o with accepted := true }] ∧
        { t with jobs := u.jobs, teams := u.teams, offers := u.offers, waves := u.waves } = u ∧
        { J with record := card.record, recPoisoned := card.recPoisoned, reads := card.reads, writes := card.writes, ctr := card.ctr } =
          card ∧
        J.record = ((List.range 64).map fun k => u.mem.byte (pl.line.add ((recAt + k) % 256))) ∧ J.ctr = w.soft.mctr ∧
        t.teams = s.teams ∧ (∀ i, i ≠ card.wave → t.waves[i]? = s.waves[i]?) ∧
        t.waves[card.wave]? = some { w with soft := { w.soft with
          tags := w.soft.tags.set g.toNat ⟨true, false, 0, some s.jobs.length⟩,
          mctr := if card.draws then w.soft.mctr + 1 else w.soft.mctr } })) ∧
  (∀ (s u : State) (j c : Nat) (J : Job) (w : Wave) (T : Team) (ls : List EngLine) (k tk : Kind) (ov : Overlay) (bad : List Nat)
    (fl : Flags),
    s.jobs[j]? = some J → s.waves[J.wave]? = some w → w.st = .resident → w.team = J.team → s.teams[J.team]? = some T →
    J.members = [J.wave] → J.complete = false → J.held = none → s.jobBlocked j J = false → s.sys.links.remotes = [] → J.pair = false →
    let odd := w.odd
    let old := T.half odd
    let tags (st : BitVec 4) : Vector Tag 64 := match J.tag with
      | none => w.soft.tags
      | some g => if w.soft.tags[g.toNat].job = some j then
          w.soft.tags.set g.toNat { w.soft.tags[g.toNat] with complete := true, status := st } else w.soft.tags
    let ends (z : State) (e : Instr) (st : BitVec 4) (fl : BitVec 5) (P : Half → Prop) : Prop := s.completes e fun t =>
      { t with waves := z.waves, teams := z.teams, jobs := z.jobs } = z ∧
      (∃ wrote, t.jobs = s.jobs.set j { J with complete := true, status := st, flags := fl, held := none, wrote := wrote }) ∧
      (∀ i, i ≠ J.wave → t.waves[i]? = s.waves[i]?) ∧
      t.waves[J.wave]? = some { w with soft := { w.soft with tags := tags st, fflags := w.soft.fflags ||| fl } } ∧
      (∀ i, i ≠ J.team → t.teams[i]? = s.teams[i]?) ∧
      ∃ x, t.teams[J.team]? = some x ∧ x.setHalf odd old = T ∧ (x.half odd).pending = old.pending.filter (fun e => e.2 != j) ∧
        P (x.half odd)
    let r := Rec.ofBytes J.record
    let tl := Tile.ofWord J.a
    let open_ : Prop := J.fatal = false ∧ J.ending = none
    let refused : Prop := J.recPoisoned = true ∨ copyBad J.kind r tl J.b (s.scratchSize w) = true
    let bytes (x y : Cells) : Prop := ∀ a, cellGet x a = (ovGet ov a).getD (cellGet y a)
    let z := ZDesc.ofWord J.a
    let f := FmtW.ofWord J.fmt
    let a := ADesc.ofWord J.b
    let d := DDesc.ofWord J.c
    let wb := s.wbufBytes w
    let out := mmaHalf f a d J.ovw J.rowp J.acca J.seed J.ctr wb odd (s.mmaMem J wb odd)
    let size := accSize f.acc
    let at_ (e : Nat × Nat × Nat × Option Val × List (Val × Val)) : Nat := d.doff + (e.1 * d.n + e.2.1) * size
    (J.kind = .load ∨ J.kind = .store ∨ J.kind = .add → open_ → refused →
      ends s (.copyJobComplete j) 1 0 fun h => h = { old with pending := h.pending }) ∧
    (J.kind = .load → open_ → ¬ refused → J.region = false → copyKinds r tl = some (k, tk) → Cells.wf old.scratch = true →
      let moves (sel : Nat → Bool) : Prop := State.engineReach j (s.viaJob J) reading s (lineHeads (((copyElems r tl J.b (kindElem k)
          (kindElem tk)).filter fun x => x.inside && sel x.chunk).flatMap fun x => spanBits x.glob (kindElem k))) = ⟨u, ls, none, false⟩ ∧
        (∀ l ∈ ls, u.mem.counted? l.home = none) ∧ u.loadMove J odd ls r tl k tk sel = (ov, bad, fl) ∧ ov.Pairwise (fun x y => x.1 < y.1)
      let status := if bad = [] then J.status else 3
      (moves (fun x => !J.landed.contains x) → ends u (.copyJobComplete j) status (J.flags ||| fl) fun h =>
        { h with scratch := old.scratch, scratchPoison := old.scratchPoison, pending := old.pending } = old ∧
        bytes h.scratch old.scratch) ∧
      (c ∉ J.landed → moves (fun x => !J.landed.contains x && x == c) → ov ≠ [] → s.completes (.copyChunkLanded j c) fun t =>
        { t with teams := u.teams, jobs := u.jobs } = u ∧
        t.jobs = s.jobs.set j { J with landed := c :: J.landed, flags := J.flags ||| fl, status := status } ∧
        (∀ i, i ≠ J.team → t.teams[i]? = s.teams[i]?) ∧
        ∃ x, t.teams[J.team]? = some x ∧ x.setHalf odd old = T ∧
          (x.half odd).pending = old.pending.filter (fun e => !(e.2 == j && e.1 == c)) ∧
          bytes (x.half odd).scratch old.scratch)) ∧
    (J.kind = .mzero → Cells.wf old.acc = true → ends s (.matrixJobComplete j) 0 0 fun h =>
      { h with acc := old.acc, accPoison := old.accPoison, pending := old.pending } = old ∧
      ∀ b, cellGet h.acc b = if z.off ≤ b ∧ b < z.off + z.len then 0 else cellGet old.acc b) ∧
    (J.kind = .fence → ends s (.matrixJobComplete j) 0 0 fun h => h = { old with pending := h.pending }) ∧
    (J.kind = .mma → s.sys.phys = ⟨[], [], [], [], [], [], [], []⟩ →
      s.poisonRead J odd (mmaReads J f a d wb odd (s.mmaMem J wb odd)) = (none, none) → shadowed f = false → Cells.wf old.acc = true →
      ends { s with free := s.free + 2 ^ 21 } (.matrixJobComplete j) 0 out.flags fun h =>
        { h with acc := old.acc, accPoison := old.accPoison, pending := old.pending } = old ∧
        (∀ e ∈ out.elems, (List.range size).map (fun b => cellGet h.acc (at_ e + b)) = bytesLE size e.2.2.1) ∧
        ∀ b, (∀ e ∈ out.elems, b < at_ e ∨ at_ e + size ≤ b) → cellGet h.acc b = cellGet old.acc b))

/-- R111, R170, R290, R292, R293, R297, R321, R420, R421: a cure performs the region's green writes and completes RGN.end with its
count of rollbacks; a rolled-back team takes its new place with its registers. A ray's visit ends it BADRAY or without a hit, or pushes
the hit children of a node; the record of a ray that has ended reaches the L-ops that wait for it; a traversal unit takes the oldest record of an input hod as a new ray.

The model's own: the length of the slice of a hod's ray, which is free, and what a replay writes (notes/assumptions/6.md, 22.md). -/
def Obligations.RegionsAndRays : Prop :=
  ∀ (s u : State) (i n core slot : Nat) (w : Wave) (T : Team) (g : Region) (d : SReg) (next : Nat) (places : List Placement) (a : Want)
    (r : Ray) (x : RayEnt) (rest : List RayEnt) (word : Nat) (G : Grid) (hod : Hod) (bs : List Byte),
    let l := s.launchOf w
    let comes (st : BitVec 4) : Prop := s.completes (.rayNodeFetch n) fun t => t = { s with rays := s.rays.set n { r with
      due := some (.ended, false), status := st, addr := 0, primid := 0, node := none, leaf := [] } }
    let tuv : List DWord := match r.best with
      | some h => [h.t, h.u, h.v]
      | none => [0x7FF0000000000000#64, 0, 0]
    let status : DWord := BitVec.ofNat 64 (r.primid.toNat * 2 ^ 32 + min r.remain 65535 * 2 ^ 16 + (if r.logFull then 16 else 0) +
      r.status.toNat)
    let r1 : Ray := { r with remain := r.remain - 1, stack := rest, node := some x }
    let f (k : Nat) : DWord := BitVec.ofNat 64 (numLE ((bs.drop (8 * k)).take 8))
    (s.waves[i]? = some w → w.priv.handler = false → w.region = some g → g.ended = some (d, next) → l.twin = false →
      (∀ k, s.neighbours k = []) → (∀ j ∈ s.jobs, j.inRegionOf i = true → j.complete = true) →
      s.completes (.regionCure i) fun t =>
        let z := s.applyGreen i
        { t with waves := z.waves, teams := z.teams, jobs := z.jobs, rays := z.rays } = z ∧ (∀ j, j ≠ i → t.waves[j]? = s.waves[j]?) ∧
        t.teams = modAt z.teams w.team (fun x => { x with issued := x.issued + 1 }) ∧ s.PutsBehind t i ∧
        ∃ w', t.waves[i]? = some w' ∧ ({ w with region := none, green := Green.empty }).ScalarTo w' d (BitVec.ofNat 64 (min g.rollbacks 255)) next) ∧
    (s.waves[i]? = some w → s.teams[w.team]? = some T → s.replayGroup w.team = [w.team] → s.heldTeam w.team = false → s.unpoisoned →
      ((s.wavesOf [w.team]).foldl State.hold s).saveFaults [w.team] = false → s.savable [w.team] = true → s.replayOk [w.team] [(a, core)] = true → s.replayTurn [w.team] w.grid = true →
      matchPlaces ([w.team].filterMap s.wantOf) places = some [((a, core), slot)] →
      s.completes (.regionReplayDispatch i places) fun t =>
        t.teams = s.teams.set w.team { T with st := .resident, core := core, mirror := false } ∧
        ∀ (k : Nat) (v : Wave), s.waves[k]? = some v → ∃ v', t.waves[k]? = some v' ∧ (v.team ≠ w.team ∨ v.gone = true → v' = v) ∧
          (v.team = w.team → v.gone = false → v'.st = .resident ∧ v'.core = waveCore (s.launchAt T.grid) core v.num ∧ v'.ss.s = v.ss.s ∧
            v'.ss.pc = v.ss.pc ∧ v'.soft = v.soft)) ∧
    (s.rays[n]? = some r → s.rayRuns r = true → r.st = .running → r.freed = false → r.held = none → r.logging = false → r.logBuf = [] →
      (r.due = none → r.bad = true → comes 9) ∧
      (r.due = none → r.bad = false → r.best = none → r.node = none → r.leaf = [] → r.stack = [] → comes 1) ∧
      (r.due = none → r.bad = false → r.best = none → r.node = none → r.leaf = [] → r.stack = x :: rest → ltVal r.tb x.entry = false →
        0 < r.remain → x.leaf = false → x.root = true →
        ({ s with rays := s.rays.set n r1 }).rayRead n r1 x.addr = .ok (u, word, false) → u.rays = s.rays.set n r1 → nodeBad word = false →
        (r1.pushes word ++ rest).length ≤ 256 → s.completes (.rayNodeFetch n) fun t => t = { u with
          rays := s.rays.set n { r1 with node := none, stack := r1.pushes word ++ rest, g0 := some (nodeGen word) } }) ∧
      (r.due = some (.ended, false) → r.hod = none → r.hodSlot = none → s.unperformed (r.asker n) = false → r.owes ≠ [] →
        s.completes (.rayNodeFetch n) fun t =>
          t = r.owes.foldl (fun z o => z.deliver (tuv ++ [BitVec.ofNat 64 r.addr, status, r.tag]) o) { s with rays := s.rays.set n { r with
            st := .ended, due := none, owes := [], freed := true } })) ∧
    (s.grids[n]? = some G → (∃ y ∈ s.teams, y.grid = n ∧ y.st = .resident ∧ y.core = core) → G.launch.bind = true → G.complete = false →
      s.slotsUsed core < 2047 → G.launch.hods[G.launch.inhod]? = some hod → s.ringHeld (s.context G.ctx).part hod.base = false →
      (let c := s.context G.ctx; ∃ at_, s.hodTake (unitAsker core n) ⟨c.part, c.asid, core⟩ hod = .ok (u, some (at_, bs, false))) →
      s.completes (.rayHodTake core n) fun t => ∃ y : Ray, t = { u with rays := u.rays ++ [y], free := u.free + 2 } ∧
        y.core = core ∧ y.ctx = G.ctx ∧ y.wave = none ∧ y.hod = some G.launch.outhod ∧ y.o = #v[f 0, f 1, f 2] ∧ y.d = #v[f 3, f 4, f 5] ∧
        y.tmin = f 6 ∧ y.tmax = f 7 ∧ y.root = (f 8).toNat ∧ y.tag = f 10 ∧ y.logging = (f 11 != 0) ∧ y.slice = (f 11).toNat ∧
        y.mask.toNat = (f 9).toNat / 2 ^ 16 % 2 ^ 8 ∧ y.anyhit = (f 9).getLsbD 24 ∧ y.st = .running ∧ y.best = none)

/-! ## Steps of Dorzin and the distributor -/

/-- R371 to R375, R388, R390: a kick sets its queue's bit; serving a queue accepts its record as the next launch, with the checks'
status, and journals it; a grid whose teams have all retired completes: its record's header is written, DONE is journalled, and the
signal word is written last. An entry of the journal is four words.

R346, R369, R389, R391, R436: a context takes the fields of its record, and goes with its watchpoints when no launch of it is in
progress; an active scheduler core stops, and the standby that takes over counts on from the journal, signals again what was journalled
DONE last, completes the grids that are done in the order of their launches, and kicks every queue with records left.

The model's own: the numbers of journal kinds, that the stop and the take-over are two steps, and the first launch number
(notes/assumptions/2.md, 24.md, 29.md). -/
def Obligations.LaunchesAndContexts : Prop :=
  (∀ (s : State) (v : Word) (q n : Nat) (c : Context) (bs : List Byte) (l : Launch) (st : Nat) (x : Grid),
    let runs := s.sys.dorzin.runs
    let k := v.toNat % 2 ^ 12
    let kicks := s.sys.dorzin.kicks
    let d := s.queue q
    let s1 := s.modDorzin fun y => { y with kicks := [], lastServed := q }
    let logged (kind queue launch : Nat) : List JEnt := ring 65536 (s.sys.dorzin.journal ++
      [JEnt.of (((s.sys.dorzin.journal.getLast?).map fun e => e.seq + 1).getD 0) kind queue 0 launch s.sys.dorzin.count 0])
    (s.sys.rst.romDone = true → s.completes (.launchKick v) fun t =>
      t = s.modDorzin fun y => { y with kicks := if k ∈ kicks then kicks else kicks ++ [k] }) ∧
    (kicks = [q] → runs = true → s.sys.rst.schedReady = true → s.sys.dorzin.sliceStopped = false → s.queueAt q + 32 ≤ hbmSize →
      (∀ y ∈ s.cores, ∀ z ∈ y.l1, z.home ≠ (Loc.hbm (s.queueAt q)).line) → d.enable = true → d.tail = (d.head + 1) % 2 ^ 64 →
      d.head ≠ d.tail → (d.tail + 2 ^ 64 - d.head) % 2 ^ 64 ≤ 2 ^ d.log2 → s.sys.contexts.find? (fun y => y.id == d.ctx) = some c →
      (∃ p, s.sys.parts.toList[c.part]? = some p ∧ p.enabled = true ∧ p.disabling = false) →
      s1.systemRead c (d.ring + 1024 * (d.head % 2 ^ d.log2)) 1024 = some bs → s1.checkRecord c d.minclass bs = (l, st) →
      l.cls ≠ 0 ∨ st ≠ 0 →
      (((s1.acceptRecord q d c).queue q).head = d.tail ∧ ((s1.acceptRecord q d c).queue q).tail = d.tail) →
      s.completes .launchAccept fun t => t.grids = s.grids ++ [⟨d.ctx, q, s.sys.dorzin.launchSeq, l, st, false, st != 0, false⟩] ∧
        t.sys.dorzin.launchSeq = (s.sys.dorzin.launchSeq + 1) % 2 ^ 64 ∧ t.sys.dorzin.kicks = [] ∧ t.sys.dorzin.lastServed = q ∧
        t.sys.dorzin.journal = logged 0 q s.sys.dorzin.launchSeq ∧ t.waves = s.waves ∧ t.teams = s.teams ∧ t.jobs = s.jobs) ∧
    (s.grids[n]? = some x → runs = true → x.complete = false → x.ending = false → s.quiet n = true → s.retiredCount n x.launch = x.launch.size →
      s.completes (.gridCompletion n) fun t => ∃ (y : State) (rest : List Byte), y.waves = s.waves ∧ y.teams = s.teams ∧ y.grids = s.grids ∧
        y.jobs = s.jobs ∧ y.sys.dorzin.journal = s.sys.dorzin.journal ∧ rest.length = 40 ∧
        t.sys.dorzin.journal = logged 4 x.queue x.seq ∧
        t = { (((y.systemWrite (s.context x.ctx) x.launch.comprec
          (bytesLE 8 x.status ++ bytesLE 8 x.seq ++ bytesLE 8 (if x.status = 1 then 0 else x.launch.size) ++ rest)).journal 4 x.queue 0 x.seq).signal x) with
            grids := s.grids.set n { x with complete := true } })) ∧
  (∀ (s : State) (id : BitVec 16) (bs : List Byte) (p : Partition) (x : Grid) (e : JEnt),
    let f (o n : Nat) : Nat := numLE ((bs.drop o).take n)
    let d := s.sys.dorzin
    let z0 := s.modDorzin fun y => { y with takenOver := true, count := (d.journal.foldl (fun n e => max n e.count) 0) + 1 }
    let taken (z : State) : Prop := s.completes .schedulerTakeover fun t => ∃ (done : List (Nat × Grid)) (u : State),
      done.Pairwise (fun a b => a.2.seq ≤ b.2.seq) ∧ (∀ a, a ∈ done ↔ z.grids[a.1]? = some a.2 ∧ z.gridDone a.1 a.2 = true) ∧
      u = done.foldl (fun y a => y.complete a.1 a.2) z ∧
      t = u.modDorzin fun y => { y with kicks := y.kicks ++ u.waitingQueues.filter fun q => !y.kicks.contains q }
    (contextOk bs = true → s.sys.parts.toList[f 2 1 % 8]? = some p → p.enabled = true → (∀ c ∈ s.sys.contexts, c.id ≠ id) →
      s.completes (.contextCreate id bs) fun t => ∃ c : Context, t = { s with sys := { s.sys with contexts := s.sys.contexts ++ [c] } } ∧
        c.id = id ∧ c.asid = f 0 2 ∧ c.part = f 2 1 % 8 ∧ c.hentry = f 8 8 ∧ c.hbase = f 0x10 8 ∧ c.hsize = f 0x18 8 ∧
        c.ctxctl.toNat = f 0x20 1 % 8 + (if f 0x23 1 % 64 = 0 then 24 else f 0x23 1 % 64) * 2 ^ 24 + f 0x24 1 % 32 * 2 ^ 32 ∧ c.subst.toNat = f 0x28 8 ∧ c.tring.toNat = f 0x30 8 ∧
        c.savebase = f 0x38 8 ∧ c.nslot = f 0x40 2 ∧ c.slotsize = f 0x42 4 ∧ c.priv = f 0x48 8 ∧ c.lost = false) ∧
    ((∀ g ∈ s.grids, g.ctx = id → g.complete = true) → (∀ k : Fin 8, s.sys.parts[k].disabling = false) →
      s.completes (.contextDestroy id) fun t => t = { s with
        sys := { s.sys with contexts := s.sys.contexts.filter fun c => c.id != id },
        cores := s.cores.map fun c =>
          if c.watchCtx = some id then { c with watchCtx := none, watch := Vector.replicate 4 (0, 0) } else c }) ∧
    (d.failed = false → d.takenOver = false → s.sys.rst.schedReady = true → s.completes .schedulerTakeover fun t =>
      t = s.modDorzin fun y => { y with failed := true }) ∧
    (d.failed = true → d.takenOver = false → s.sys.rst.schedReady = true →
      (d.journal = [] → taken z0) ∧
      (d.journal.getLast? = some e → e.kind ≠ 4 → taken z0) ∧
      (d.journal.getLast? = some e → e.kind = 4 → s.grids.find? (fun y => y.seq == e.launch && y.complete) = none → taken z0) ∧
      (d.journal.getLast? = some e → e.kind = 4 → s.grids.find? (fun y => y.seq == e.launch && y.complete) = some x → taken (z0.signal x))))

/-- R31, R376, R390: the distributor starts a team that is placed alone, and journals it: it takes its cores and its save slot, and each
of its waves takes its place and holds the state of R31. Every wave and team that stood already is unchanged.

The model's own: the number of a journal kind, and the choice of the position in the wave table (notes/assumptions/2.md, 25.md). -/
def Obligations.TeamPlacement : Prop :=
  ∀ (s : State) (g : Nat) (x : Grid) (p : Placement) (a : Want),
    let l := x.launch
    let rank := if l.cluster = 0 then 0 else p.team % l.cluster
    s.grids[g]? = some x → s.sys.dorzin.runs = true → matchPlaces (s.nextWants g) [p] = some [((a, p.core), p.slot)] → p.twin = false →
    s.inTurn g = true → s.replayWaits (s.partOf g) = false → placesOk (s.fits []) [(a, p.core)] [] = true → p.slot ∈ s.freeSlots x.ctx →
    s.completes (.teamPlacement g [p]) fun t =>
      t.mem = s.mem ∧ t.grids = s.grids ∧ t.jobs = s.jobs ∧ t.rays = s.rays ∧ t.waves.length = s.waves.length + l.waves ∧
      t.sys.dorzin.journal = ring 65536 (s.sys.dorzin.journal ++
        [JEnt.of (((s.sys.dorzin.journal.getLast?).map fun e => e.seq + 1).getD 0) 1 x.queue p.team x.seq s.sys.dorzin.count 0]) ∧
      (∀ i, i < s.waves.length → t.waves[i]? = s.waves[i]?) ∧
      (∃ y : Team, t.teams = s.teams ++ [y] ∧ y.grid = g ∧ y.idx = p.team ∧ y.twin = false ∧ y.rank = rank ∧ y.slot = p.slot ∧
        y.core = p.core ∧ y.st = .resident ∧ y.lo = Half.empty ∧ y.hi = Half.empty ∧ y.issued = 0) ∧
      ∀ num, num < l.waves → ∃ w, t.waves[s.waves.length + num]? = some w ∧ w.grid = g ∧ w.team = s.teams.length ∧ w.num = num ∧
        w.core = waveCore l p.core num ∧ w.st = .resident ∧ w.ss.pc = l.sbase + l.entry ∧
        (∀ r : SReg, w.ss.s[r] = match r.val with
          | 1 => BitVec.ofNat 64 l.argbase
          | 2 => BitVec.ofNat 64 p.team
          | 3 => BitVec.ofNat 64 num
          | 4 => BitVec.ofNat 64 rank
          | 5 => BitVec.ofNat 64 l.bucket
          | 6 => BitVec.ofNat 64 l.size
          | 7 => BitVec.ofNat 64 ((s.context x.ctx).priv + 4096 * (64 * p.slot + num))
          | _ => 0) ∧
        (∀ r k, w.ls.laneVal r k = 0) ∧ (∀ k : Fin 8, w.ls.p[k] = if k.val = 7 then BitVec.allOnes 32 else 0) ∧
        (∀ k : Fin 4, w.ls.w[k] = 0) ∧ (∀ (z : Fin 8) (k : Lane), w.soft.z[z][k] = Rsv.zero) ∧ w.soft.fflags = 0 ∧ w.soft.bond = 0 ∧
        w.soft.ext = 0 ∧ (∀ k : Lane, w.ls.live.getLsbD k.val = decide (32 * (l.waves * p.team + num) + k.val < l.s0)) ∧
        w.ls.tickets = [] ∧ w.ls.results = [] ∧ w.ls.sideA = none ∧ w.ls.sideB = none ∧ w.ls.stack = [] ∧ w.priv.handler = false ∧
        w.region = none

/-- R384, R385, R386, R390: a request to pre-empt a team that is a group of its own, with no region that waits for its cure. A second
request keeps the earlier deadline. Otherwise drain is chosen where the team's estimate fits before the deadline; a team with a wave
outside every region is stopped for a save; a team all in regions whose lost work is at most the cost of the save is discarded. A drain
that reaches its deadline becomes a save. Each choice is journalled.

R64, R355, R365, R367, R387, R390: a team that is stopped for a save leaves its cores once its accesses and jobs have drained, its
registers unchanged, its waves' windows drained, and what is left of a YIELD kept; a wave that has yielded stays so. It comes back to
cores as it was, and is journalled as resumed; a wave that has yielded waits at its CWAIT again. System software's kill of a grid ends it CANCELLED and kills its waves.

The model's own: the numbers of journal kinds and choices, and that registers stay with the saved wave (notes/assumptions/2.md,
20.md, 26.md). -/
def Obligations.PreemptionAndSaves : Prop :=
  (∀ (s : State) (g t k deadline r : Nat) (T : Team) (G : Grid), s.liveTeams (s.wholeGroup g t) = [k] → s.teams[k]? = some T →
    s.grids[T.grid]? = some G → s.sys.dorzin.runs = true → T.st = .resident →
    (∀ w ∈ s.waves, w.team = k → ∀ x, w.region = some x → x.ended = none) →
    let e := G.launch.expect
    let cost := ((e - T.issued) * T.cycles + T.issued - 1) / T.issued
    let drains : Prop := T.issued ≠ 0 ∧ T.issued < e ∧ cost ≤ (deadline - s.sys.dorzin.count) * s.sys.power.clk / 1800
    let inRegions : Prop := ∀ w ∈ s.waves, w.team = k → w.gone = true ∨ w.region.isSome = true
    let logged (choice : Nat) : List JEnt := ring 65536 (s.sys.dorzin.journal ++
      [JEnt.of (((s.sys.dorzin.journal.getLast?).map fun x => x.seq + 1).getD 0) 2 G.queue T.idx G.seq s.sys.dorzin.count choice])
    let kept (u : State) : Prop := ∀ (i : Nat) (w : Wave), s.waves[i]? = some w → ∃ w', u.waves[i]? = some w' ∧ w'.st = w.st ∧
      w'.ss.s = w.ss.s ∧ w'.ss.pc = w.ss.pc ∧ w'.soft = w.soft ∧ w'.priv = w.priv ∧ w'.ls.v = w.ls.v ∧ w'.ls.tickets = w.ls.tickets ∧
      (w.team ≠ k → w' = w)
    (T.request = some r → s.completes (.preemptionRequest g t deadline) fun u =>
      u = { s with teams := s.teams.set k { T with request := some (min deadline r) } }) ∧
    (T.request = none → drains → s.completes (.preemptionRequest g t deadline) fun u =>
      u.teams = s.teams.set k { T with request := some deadline, draining := true } ∧ u.sys.dorzin.journal = logged 1 ∧
      u.waves = s.waves ∧ u.mem = s.mem) ∧
    (T.request = none → ¬ drains → ¬ inRegions → s.completes (.preemptionRequest g t deadline) fun u =>
      u.teams = s.teams.set k { T with request := some deadline } ∧ u.sys.dorzin.journal = logged 3 ∧ kept u ∧ u.mem = s.mem) ∧
    (T.request = none → ¬ drains → inRegions → s.lostWork (s.wavesOf [k]) ≤ (s.saveBytes k true + 511) / 512 + 2048 →
      s.completes (.preemptionRequest g t deadline) fun u => u.sys.dorzin.journal = logged 2 ∧
        (∃ y, u.teams[k]? = some y ∧ y.st = .saved ∧ y.request = none ∧ y.draining = false) ∧
        ∀ (i : Nat) (w : Wave), s.waves[i]? = some w → w.team = k → w.gone = false → ∃ w', u.waves[i]? = some w' ∧ w'.st = .saved) ∧
    (T.request = some r → T.draining = true → r ≤ s.sys.dorzin.count → ¬ inRegions → s.completes (.drainDeadlineExpiry g t) fun u =>
      u.teams = s.teams.set k { T with draining := false } ∧ u.sys.dorzin.journal = logged 3 ∧ kept u ∧ u.mem = s.mem)) ∧
  (∀ (s : State) (g t k core slot : Nat) (T : Team) (G : Grid) (places : List Placement) (a : Want),
    (s.liveTeams (s.wholeGroup g t) = [k] → s.teams[k]? = some T →
      (T.st = .resident → T.request.isSome = true → T.draining = false → T.mirror = false → s.savable [k] = true → s.saveFaults [k] = false →
        s.sys.phys = ⟨[], [], [], [], [], [], [], []⟩ → s.completes (.contextSave g t) fun u =>
          u.teams = s.teams.set k { T with st := .saved, request := none, draining := false } ∧ u.grids = s.grids ∧ u.jobs = s.jobs ∧
          u.rays = s.rays ∧
          ∀ (i : Nat) (w : Wave), s.waves[i]? = some w → u.waves[i]? = some (if w.team = k ∧ w.gone = false then
            { w with st := .saved, ls := w.ls.park_,
                     ss := { w.ss with yieldN := w.ss.yieldN - (s.cyclesOf w.core - w.ss.yieldAt) } } else w)) ∧
      (s.sys.dorzin.runs = true → T.st = .saved → T.grid = g → s.grids[g]? = some G → matchPlaces ([k].filterMap s.wantOf) places = some [((a, core), slot)] →
        placesOk (s.fits [k]) [(a, core)] [] = true → s.restoreTurn [k] g = true →
        s.mem.hbmPoison = [] → s.mem.carvedPoison = [] → s.mem.llc = [] → (∀ w ∈ s.waves, w.imagePoisoned = false) →
        s.completes (.contextRestore g t places) fun u =>
          u.teams = s.teams.set k { T with st := .resident, core := core } ∧ u.mem = s.mem ∧ u.grids = s.grids ∧ u.jobs = s.jobs ∧
          u.sys.dorzin.journal = ring 65536 (s.sys.dorzin.journal ++
            [JEnt.of (((s.sys.dorzin.journal.getLast?).map fun x => x.seq + 1).getD 0) 3 G.queue T.idx G.seq s.sys.dorzin.count 0]) ∧
          ∀ (i : Nat) (w : Wave), s.waves[i]? = some w → ∃ w', u.waves[i]? = some w' ∧ (w.team ≠ k ∨ w.gone = true → w' = w) ∧
            (w.team = k → w.gone = false → let now := s.cyclesOf (waveCore G.launch core w.num)
              w'.st = .resident ∧ w'.core = waveCore G.launch core w.num ∧
              w'.ss = { w.ss with yieldAt := now, sinceS := now, issuedS := now,
                                  waitS := if w.ss.yielded.isSome then some .cwait else w.ss.waitS } ∧
              w'.ls = { w.ls with issuedL := now, usedZ := now } ∧ w'.soft = w.soft ∧ w'.priv = w.priv ∧ w'.green = w.green))) ∧
    (s.grids[g]? = some G → G.complete = false → G.ending = false → s.completes (.systemKill g none) fun u =>
      u.grids = s.grids.set g { G with status := 6, ending := true } ∧ u.mem = s.mem ∧
      ∀ (i : Nat) (w : Wave), s.waves[i]? = some w → ∃ w', u.waves[i]? = some w' ∧ w'.ss.s = w.ss.s ∧
        (w.grid = g → w.gone = false → w'.st = .killed ∧ w'.killCause = 0x35 ∧ w'.ls.tickets = []) ∧
        (w.grid ≠ g ∨ w.gone = true → w'.st = w.st ∧ w'.ss.pc = w.ss.pc ∧ w'.ls.v = w.ls.v)))

/-! ## Steps of the management core -/

/-- R411, R413, R425 to R429, R431, R432: scrub of a sector with a correctable half logs and counts it; one with an uncorrectable half
becomes poisoned, and is logged; an event like that of an entry less than 4,096 management cycles old raises the entry's COUNT. A lane entry takes effect when no wave is resident on its quarter, a row entry when its copy ends; both
are logged with KIND 0x0E.

R407, R408, R409: a write of LLC_CARVE by the owner: more ways start a conversion, whose end carves ways with no line left in
them; fewer ways lose what they held, unless an enabled partition names a frame beyond, which is logged; a write of another master is
ignored (R437).

R467, R468, R430: the governor lowers the clock by 100 MHz down to 1,200 MHz, or raises it up to 3,600 MHz; a change is an event
of KIND 0x0A; it trips at 1,200 MHz above TLIMIT + 5. A rail moves one step of 5 mV: down where the health manager allows it, at most 8 %
below nominal and not below the fused minimum, or back towards nominal.

The model's own: which rail and array an error is charged to, and the clock that the trip looks at (notes/assumptions/28.md, 34.md). -/
def Obligations.RepairCarvingAndPower : Prop :=
  (∀ (s : State) (sector n : Nat) (lo hi : EccClass) (e : DWord) (old : ErrEnt),
    let d := s.sys.dorzin
    let h := s.sys.health
    let f (a b : Nat) : Nat := e.toNat / 2 ^ a % 2 ^ b
    let entry (k act site addr : Nat) (x : ErrEnt) : Prop := x.words[1].toNat % 2 ^ 12 = k + act * 2 ^ 8 ∧
      x.words[3] = BitVec.ofNat 64 site ∧ x.words[4] = BitVec.ofNat 64 addr
    let like (k site : Nat) (x : ErrEnt) : Prop := x.words[1].toNat % 2 ^ 8 = k ∧ x.words[3] = BitVec.ofNat 64 site ∧ h.clock - x.since < 4096
    let fresh (k site : Nat) : Prop := ∀ x ∈ d.errors, ¬ like k site x
    let logged (t : State) (k act site addr : Nat) : Prop := ∃ x, t.sys.dorzin.errors = ring 65536 (d.errors ++ [x]) ∧ x.since = h.clock ∧
      t.sys.dorzin.errorSeq = d.errorSeq + 1 ∧ x.words[0] = BitVec.ofNat 64 d.errorSeq ∧ entry k act site addr x
    let still (t : State) : Prop := t.waves = s.waves ∧ t.teams = s.teams ∧ t.jobs = s.jobs ∧ t.cores = s.cores
    let key := 4 * 2 ^ 52 + hbmSite sector / 2 ^ 14 * 2 ^ 14
    let before := ((h.counts.find? fun x => x.1 == key).map fun x => x.2).getD 0
    let repaired (i : Instr) (h' : Health) (site : Nat) : Prop := fresh 0x0E site → s.completes i fun t => t.sys.health = h' ∧ t.mem = s.mem ∧ still t ∧
      t.sys.fuses = { s.sys.fuses with repoint := s.sys.fuses.repoint ++ [e] } ∧ logged t 0x0E 7 site 0
    (64 * sector < hbmSize → (∀ q ∈ s.sys.phys.ecc, q.1 ≠ sector) →
      ((lo = .corrected ∧ hi = .good) ∨ (hi = .corrected ∧ lo = .good) → before ≠ 3 → s.completes (.hbmScrub sector lo hi) fun t =>
        t.mem = s.mem ∧ still t ∧ t.sys.health = { h with counts := (key, before + 1) :: h.counts.filter fun x => x.1 != key } ∧
        (fresh 1 (hbmSite sector) → logged t 1 1 (hbmSite sector) (64 * sector)) ∧
        (d.errors = [old] → like 1 (hbmSite sector) old → t.sys.dorzin.errors = [{ old with words := old.words.set 2 (old.words[2] + 2 ^ 32) }] ∧
          t.sys.dorzin.errorSeq = d.errorSeq)) ∧
      (lo = .uncorrectable ∨ hi = .uncorrectable → fresh 5 (hbmSite sector) → s.completes (.hbmScrub sector lo hi) fun t =>
        (∀ k, t.mem.hbmPoison.contains k = (k == sector || s.mem.hbmPoison.contains k)) ∧ t.mem.hbm = s.mem.hbm ∧ still t ∧
        ∃ x ∈ t.sys.dorzin.errors, entry 5 2 (hbmSite sector) (64 * sector) x)) ∧
    (h.laneWaits[n]? = some e → (∀ w ∈ s.waves, w.core = f 43 9 / 4 → w.quarter = f 43 9 % 4 → s.placedWave w = false) →
      repaired (.laneRepointApply n) { h with laneWaits := h.laneWaits.eraseIdx n } (f 43 9 / 4 + f 43 9 % 4 * 2 ^ 6 + f 37 6 * 2 ^ 8)) ∧
    (h.rowCopies[n]? = some e →
      (∀ q ∈ s.sys.phys.ecc, hbmSite q.1 ≠ f 43 9 * 2 ^ 14 + f 37 6 * 2 ^ 28 + f 19 18 * 2 ^ 34) →
      repaired (.rowCopyComplete n) { h with rowCopies := h.rowCopies.eraseIdx n } (f 43 9 * 2 ^ 14 + f 37 6 * 2 ^ 28 + f 19 18 * 2 ^ 34))) ∧
  (∀ (s : State) (m : Master) (v : DWord) (p : Nat),
    let k := v.toNat % 16
    let owner : Prop := s.sys.owner.valid = true ∧ s.sys.owner.owner = m
    let d := s.sys.dorzin
    let kept (a : Nat) : Bool := decide (22 * (a / 2 ^ 21) + a % 2 ^ 21 / 256 / 384 < 512 * k)
    (¬ owner → s.completes (.llcCarveWrite m v) fun t => t = s) ∧
    (owner → k ≤ 12 → s.mem.carveBusy = false →
      (s.mem.carveCur < k → s.completes (.llcCarveWrite m v) fun t =>
        t = { s with mem := { s.mem with carveBusy := true, carveK := k } }) ∧
      (k < s.mem.carveCur → s.carveBlocked (512 * k / 22) = some p → s.completes (.llcCarveWrite m v) fun t =>
        t.mem = s.mem ∧ t.waves = s.waves ∧ t.cores = s.cores ∧
        t.sys.dorzin.events = ring 16384 (d.events ++ [⟨#v[BitVec.ofNat 64 d.eventSeq, BitVec.ofNat 64 (0x0C + (k + p * 2 ^ 4) * 2 ^ 8), 0, 0]⟩])) ∧
      (k < s.mem.carveCur → s.carveBlocked (512 * k / 22) = none → s.completes (.llcCarveWrite m v) fun t =>
        t.mem.carveCur = k ∧ t.mem.hbm = s.mem.hbm ∧ t.waves = s.waves ∧ t.teams = s.teams ∧ t.sys = s.sys ∧
        (Cells.wf s.mem.carved = true → ∀ a, cellGet t.mem.carved a = if kept a then cellGet s.mem.carved a else 0) ∧
        ∀ c ∈ t.cores, ∀ x ∈ c.l1, ∀ a, x.home = .carved a → kept a = true)) ∧
    (s.mem.carveBusy = true → s.completes .carveConversionEnd fun t => t.mem.carveCur = s.mem.carveK ∧ t.mem.carveBusy = false ∧
      (∀ x ∈ t.mem.llc, s.mem.carveK ≤ x.way) ∧ t.mem.carved = s.mem.carved ∧ t.waves = s.waves ∧ t.cores = s.cores ∧ t.sys = s.sys)) ∧
  (∀ (s : State) (pwr temp : BitVec 16) (rail : Fin 8),
    let p := s.sys.power
    let d := s.sys.dorzin
    let clk := if p.plimit < pwr.toNat ∨ p.tlimit < temp.toNat then max 1200 (p.clk - 100)
      else if 100 * pwr.toNat < 95 * p.plimit ∧ temp.toNat + 3 ≤ p.tlimit then min 3600 (p.clk + 100) else p.clk
    let n := p.rails[rail]
    (s.completes (.governorTick pwr temp) fun t =>
      t.sys.power = { p with
        pwr := pwr.toNat, temp := temp.toNat, clk := clk, trip := p.trip || (p.clk == 1200 && decide (p.tlimit + 5 < temp.toNat)) } ∧
      t.sys.dorzin.events = (if clk = p.clk then d.events else ring 16384 (d.events ++
        [⟨#v[BitVec.ofNat 64 d.eventSeq, BitVec.ofNat 64 (0x0A + clk * 2 ^ 8), 0, 0]⟩])) ∧
      { t with sys := s.sys } = s) ∧
    (p.locked[rail] = false → p.held[rail] = false → 100 * (5 * (n + 1)) ≤ 8 * p.nominal[rail] →
      p.minimum[rail] + 5 * (n + 1) ≤ p.nominal[rail] → s.completes (.railVoltageStep rail true) fun t =>
        t = { s with sys := { s.sys with power := { p with rails := p.rails.set rail (n + 1) } } }) ∧
    s.completes (.railVoltageStep rail false) fun t =>
      t = { s with sys := { s.sys with power := { p with rails := p.rails.set rail (n - 1) } } })

/-! ## Control masters, partitions, firmware, attestation -/

/-- R438, R439: a claim while no owner holds the device opens or joins an election window; while one does it waits, and the owner's own
changes nothing; a release or a lapse ends ownership and raises EPOCH, and opens a window where claims wait; a handover makes a waiting
master owner; the window's close elects the highest priority, the lower identifier among equals.

R433, R434, R436, R440: ENABLE := 1 of the owner takes effect when no rule of R434 forbids it, and is logged with KIND 0x04 and
changes nothing otherwise; ENABLE := 0 waits for the partition's last context; an image is loaded when it passes its checks, and is
otherwise logged with KIND 0x02; the fused counter rises to the running image's version.

R441 to R443: GO takes the master's words while no request is in progress. A request ends BADREQ, EXHAUSTED or DONE; a report into
the board controller's buffer holds the challenge, the digests, the versions, the owner and the partitions, and 1,868 bytes of signatures
whose values are free (notes/assumptions/6.md); each report uses one leaf, SEQ rises, and vector 2 is raised.

The model's own: the number of a refusal's reason, and the order of a request's checks (notes/assumptions/2.md, 37.md). -/
def Obligations.OwnershipPartitionsAttestation : Prop :=
  (∀ (s : State) (m target : Master) (prio : BitVec 4) (nonce : BitVec 16) (c : Claim),
    let o := s.sys.owner
    let become (i : Instr) (o' : Owner) : Prop := s.completes i fun t => t = { s with sys := { s.sys with owner := o' } }
    let claimed : Vector (Option Claim) 4 := o.claims.set m (some ⟨prio, nonce⟩)
    let waits : Bool := o.claims.toList.any Option.isSome
    let given : Owner := { o with valid := false, epoch := o.epoch + 1, elect := waits }
    (o.valid = false → become (.ctrlClaimClaim m prio nonce) { o with claims := claimed, elect := true }) ∧
    (o.valid = true → o.owner = m → become (.ctrlClaimClaim m prio nonce) o) ∧
    (o.valid = true → o.owner ≠ m → become (.ctrlClaimClaim m prio nonce) { o with claims := claimed }) ∧
    (o.valid = true → o.owner = m → become (.ctrlClaimRelease m) given) ∧
    (o.valid = false ∨ o.owner ≠ m → become (.ctrlClaimRelease m) { o with claims := o.claims.set m none }) ∧
    (o.valid = true → become .ownerLapse given) ∧
    (o.valid = true → o.owner = m → o.claims[target] = some c → become (.ctrlClaimHandover m target)
      { o with owner := target, prio := c.prio, nonce := c.nonce, epoch := o.epoch + 1, claims := o.claims.set target none }) ∧
    (o.valid = false ∨ o.owner ≠ m ∨ o.claims[target] = none → become (.ctrlClaimHandover m target) o) ∧
    (o.elect = true → o.claims[m] = some c →
      (∀ (n : Master) (x : Claim), o.claims[n] = some x → x.prio < c.prio ∨ (x.prio = c.prio ∧ m ≤ n)) →
      become .electionWindowClose {
        valid := true, elect := false, epoch := o.epoch + 1, owner := m, prio := c.prio, nonce := c.nonce,
        claims := Vector.replicate 4 none }) ∧
    (o.elect = true → waits = false → become .electionWindowClose { o with elect := false })) ∧
  (∀ (s : State) (m : Master) (p : Fin 8) (v : DWord) (version : Nat) (ecdsa lms : Bool) (digest : BitVec 384),
    let x := s.sys.parts[p]
    let owner : Prop := s.sys.owner.valid = true ∧ s.sys.owner.owner = m
    let fuses := s.sys.fuses
    let rst := s.sys.rst
    let d := s.sys.dorzin
    let become (i : Instr) (sys : Sys) : Prop := s.completes i fun t => t = { s with sys := sys }
    let part (y : Partition) : Sys := { s.sys with parts := s.sys.parts.set p y }
    let new : Partition := { x with enabled := true, ways := BitVec.ofNat 24 (v.toNat / 2 ^ 32), bays := BitVec.ofNat 8 v.toNat }
    let others (P : Partition → Prop) : Prop := ∃ q : Fin 8, q ≠ p ∧ s.sys.parts[q].enabled = true ∧ P s.sys.parts[q]
    let forbidden : Prop := new.bays = 0 ∨ others (fun y => y.bays &&& new.bays ≠ 0) ∨ new.ways.toNat / 2 ^ 12 = 0 ∨
      others fun y => ∃ a ∈ y.mem.toList, ∃ b ∈ new.mem.toList, rangesMeet a b = true
    let image : Fuses := { fuses with dorzin := some (digest, version) }
    let logged (t : State) (kind : Nat) (P : Nat → Prop) : Prop := ∃ n, t.sys.dorzin.events =
      ring 16384 (d.events ++ [⟨#v[BitVec.ofNat 64 d.eventSeq, BitVec.ofNat 64 (kind + n * 2 ^ 8), 0, 0]⟩]) ∧ P n
    (¬ owner ∨ x.enabled = true → become (.partCfgEnable m p v) s.sys) ∧
    (owner → x.enabled = false → ¬ forbidden → become (.partCfgEnable m p v) (part new)) ∧
    (owner → x.enabled = false → forbidden → s.completes (.partCfgEnable m p v) fun t => t.sys.parts = s.sys.parts ∧
      { t with sys := s.sys } = s ∧ logged t 4 fun n => n % 8 = p.val) ∧
    (¬ owner ∨ x.enabled = false → become (.partCfgDisable m p) s.sys) ∧
    (owner → x.enabled = true → (∀ c ∈ s.sys.contexts, c.part ≠ p.val) →
      become (.partCfgDisable m p) (part { x with enabled := false, disabling := false })) ∧
    (owner → x.enabled = true → (∃ c ∈ s.sys.contexts, c.part = p.val) → become (.partCfgDisable m p) (part { x with disabling := true })) ∧
    (¬ owner → rst.recovery = false → become (.firmwareImageLoad m version ecdsa lms digest) s.sys) ∧
    (owner ∨ rst.recovery = true →
      (ecdsa = true → lms = true → fuses.version ≤ version →
        (rst.recovery = false → become (.firmwareImageLoad m version ecdsa lms digest) { s.sys with fuses := image }) ∧
        (rst.recovery = true → s.completes (.firmwareImageLoad m version ecdsa lms digest) fun t => t.sys.fuses = image ∧
          t.sys.rst = { rst with recovery := false, fwOk := fuses.health.isSome })) ∧
      (ecdsa = false ∨ lms = false ∨ version < fuses.version → s.completes (.firmwareImageLoad m version ecdsa lms digest) fun t =>
        t.sys.fuses = fuses ∧ t.sys.rst = rst ∧ { t with sys := s.sys } = s ∧ logged t 2 fun n => 0 < n ∧ n < 8)) ∧
    (owner → become (.fusedCounterAdvance m) { s.sys with fuses := { fuses with
      version := max fuses.version ((fuses.dorzin.map fun e => e.2).getD 0) } }) ∧
    (¬ owner → become (.fusedCounterAdvance m) s.sys)) ∧
  (∀ (s : State) (m : Master),
    let a := s.sys.attest
    let f := s.sys.fuses
    let ctl := a.taken[5].toNat
    let mode := ctl / 2 ^ 20 % 4
    let bad : Prop := mode = 3 ∨ ctl / 2 ^ 22 ≠ 0 ∨ (mode ≠ 2 ∧ 2 ^ 56 ≤ a.taken[4].toNat) ∨
      (mode = 0 ∧ ∀ p, s.sys.parts.toList[ctl / 2 ^ 16 % 8]? = some p → p.enabled = false)
    let ends (st : BitVec 4) (P : State → Prop) : Prop := s.completes .attestFinish fun t => t.sys.attest.status = st ∧
      t.sys.attest.seq = a.seq + 1 ∧ (if 2 ∈ s.sys.links.unmasked then Sent.msix 2 ∈ t.sys.links.sent else 2 ∈ t.sys.links.pending) ∧
      t.waves = s.waves ∧ t.teams = s.teams ∧ P t
    let digest (x : Option (BitVec 384 × Nat)) : List Byte := bytesLE 48 ((x.map fun e => e.1.toNat).getD 0)
    (a.status ≠ 1 → s.completes (.ctrlAttestGo m) fun t => t = { s with sys := { s.sys with attest := { a with
      status := 1, master := m, taken := a.words[m] } } }) ∧
    (a.status = 1 →
      (s.completes (.ctrlAttestGo m) fun t => t = s) ∧
      (bad → ends 5 fun t => t.sys.fuses = f ∧ t.mem = s.mem) ∧
      (¬ bad → 2 ^ 20 ≤ f.lmsLeaf → ends 3 fun t => t.sys.fuses = f ∧ t.mem = s.mem) ∧
      (mode = 2 → ctl / 2 ^ 22 = 0 → f.lmsLeaf < 2 ^ 20 → ends 2 fun t => t.mem = s.mem ∧
        t.sys.fuses = { f with lmsLeaf := f.lmsLeaf + 1, lmsMark := max f.lmsMark (f.lmsLeaf / 4096 * 4096) } ∧
        ∃ sig, sig.length = 1868 ∧ t.sys.attest.buffer = bytesLE 8 (1 + 2100 * 2 ^ 16) ++ bytesLE 8 f.serial.toNat ++
          (a.taken.toList.take 4).flatMap (fun w => bytesLE 8 w.toNat) ++ digest f.dorzin ++ digest f.health ++ bytesLE 8 f.version ++
          bytesLE 8 s.sys.owner.word.toNat ++ s.sys.parts.toList.flatMap (fun p => bytesLE 8 p.word.toNat) ++ bytesLE 8 f.lmsLeaf ++ sig)))

/-! ## Registers, host link and fabric -/

/-- R433, R437, R443, R447, R451, R452, R455, R467: control registers are written for the owner alone but CTRL_ATTEST's words, which are
each master's own, by words of 8 bytes or by their high halves; a partition's fields only while it is not enabled; a window's words are staged and become its entry in one step; a
write of a route ends the loss of its device. Reserved bits are ignored.

R446, R448, R449, R452, R464: accesses through the host aperture read and write home slices, once MEM_READY and as APERCFG allows; a
read that is not allowed gets Unsupported Request, one that meets a fault is logged and gets Completer Abort, and a write of either
kind is discarded; a reply is kept for its read; unmasking a vector sends one message for its pending bit; configuration requests are
retried before ROM_DONE.

The model's own: where the I3C registers stand among offsets, and what leads nowhere (notes/assumptions/9.md, 31.md). -/
def Obligations.RegistersAndHostLink : Prop :=
  (∀ (s : State) (m : Master) (p : Fin 8) (w : BitVec 8) (hi lo : Word) (w1 w2 v : DWord) (d : BitVec 10) (k : Fin 6) (j : Fin 4) (off : Nat),
    let owner : Prop := s.sys.owner.valid = true ∧ s.sys.owner.owner = m
    let x := s.sys.parts[p]
    let become (i : Instr) (sys : Sys) : Prop := s.completes i fun t => t = { s with sys := sys }
    let part (y : Partition) : Sys := { s.sys with parts := s.sys.parts.set p y }
    let write (off : Nat) : Instr := .controlRegisterWrite m off v
    let at_ (o : Nat) : Nat := 0x100000 + 0x100 * p.val + o
    let a := s.sys.attest
    (become (write (0x1100 + 8 * k.val)) { s.sys with attest := { a with words := a.words.set m (a.words[m].set k v) } }) ∧
    (¬ owner → off < 0x1100 ∨ 0x1130 ≤ off → become (write off) s.sys) ∧
    (¬ owner → become (.fabricWindowCommit m p w hi) s.sys ∧ become (.fabRouteWrite m d v) s.sys) ∧
    (owner →
      (x.enabled = true → off < 0x100 → become (write (at_ off)) s.sys) ∧
      (x.enabled = false →
        (v.getLsbD 63 = false →
          become (write (at_ 0)) (part { x with ways := BitVec.ofNat 24 (v.toNat / 2 ^ 32), bays := BitVec.ofNat 8 v.toNat })) ∧
        become (write (at_ 8)) (part { x with rsv := v }) ∧
        become (write (at_ 12)) (part { x with rsv := v.setWidth 32 ++ x.rsv.setWidth 32 }) ∧
        become (write (at_ (0x10 + 8 * j.val))) (part { x with mem := x.mem.set j (v &&& 0xC007FFFF0007FFFF#64) })) ∧
      become (write 0x400000) { s.sys with links := { s.sys.links with aperCfg := v &&& 0xC00000000007FFFF#64 } } ∧
      become (write 0x400008) { s.sys with links := { s.sys.links with aperBase := v &&& 0x00FFFFF000000000#64 } } ∧
      become (write (0x600000 + 8 * p.val)) (part { x with collRing := v &&& 0x1FFFFFFFFFFFF000#64 }) ∧
      (x.stagedWords w.toNat = (lo, w1, w2) → become (.fabricWindowCommit m p w hi) (part { x with
        windows := (w.toNat, (hi ++ lo) &&& 0xC3FFFFFF0007FFFF#64, w1 &&& 0x00FFFFFFFFE00000#64, w2 &&& 0x00FFFFFFFFE00000#64) ::
          x.windows.filter fun y => y.1 != w.toNat })) ∧
      become (.fabRouteWrite m d v) { s.sys with links := { s.sys.links with
        routes := (d.toNat, v &&& 0xFFFFFF#64) :: s.sys.links.routes.filter (fun e => e.1 != d.toNat),
        lost := s.sys.links.lost.filter fun y => y != d.toNat } })) ∧
  (∀ (s u : State) (off n va tag : Nat) (bytes : List Byte) (pl : Loc) (r : Remote) (poison : Bool) (v : BitVec 11) (number : BitVec 10),
    let k := s.sys.links
    let cfg := k.aperCfg
    let part := cfg.toNat / 2 ^ 16 % 8
    let asid := cfg.toNat % 2 ^ 16
    let links (k' : Links) : State := { s with sys := { s.sys with links := k' } }
    let sends (z : State) (m : Sent) : State := { z with sys := { z.sys with links := { z.sys.links with sent := z.sys.links.sent ++ [m] } } }
    let on : Prop := s.sys.rst.memReady = true ∧ cfg.getLsbD 63 = true
    let spot : Prop := va = k.aperBase.toNat + off ∧ off + n ≤ 2 ^ 36 ∧ 0 < n ∧ va / 64 = (va + n - 1) / 64 ∧ va < 2 ^ 56
    (0 < n → off + n ≤ 2 ^ 36 → ¬ on → s.completes (.hostApertureRead off n) fun t => t = sends s .unsupported) ∧
    (spot → on → s.request part asid va reading = .ok (pl, u) → pl.near = true → (∀ c, u.gathersNone c) →
      s.completes (.hostApertureRead off n) fun t =>
        t = sends u (.aperture ((List.range n).map fun i => u.mem.byte (pl.add i)) (u.mem.poisoned pl))) ∧
    (spot → bytes.length = n → ¬ on ∨ cfg.getLsbD 62 = false → s.completes (.hostApertureWrite off bytes poison) fun t => t = s) ∧
    (spot → bytes.length = n → on → cfg.getLsbD 62 = true → s.request part asid va writing = .ok (pl, u) → pl.near = true →
      (∀ c, u.gathersNone c) → u.mem.counted? pl = none → pl.offset % 256 = va % 256 → u.mem.wf = true → u.sys.phys.ecc = [] →
      s.completes (.hostApertureWrite off bytes poison) fun t =>
        (∀ i (b : Byte), bytes[i]? = some b → t.mem.byte (pl.add i) = b) ∧
        (∀ q : Loc, q.near = true → (∀ i, i < n → q ≠ pl.add i) → t.mem.byte q = u.mem.byte q) ∧
        (poison = true → t.mem.poisoned pl = true) ∧ t.waves = s.waves ∧ t.teams = s.teams ∧ t.sys = u.sys) ∧
    (k.remotes.find? (fun y => y.tag == tag && y.reply.isNone && y.dev.isNone == true) = some r → r.op = .read bytes.length →
      (r.job.isSome = true ∨ r.ray.isSome = true ∨ r.lanes ≠ []) →
      s.completes (.hostWindowCompletion tag (.data bytes poison)) fun t => t = links { k with remotes := k.remotes.map fun y =>
        if y.tag = tag then { y with reply := some (.data bytes poison) } else y }) ∧
    (v.toNat ∉ k.unmasked → s.completes (.msixUnmask v) fun t => t = links { k with
      unmasked := v.toNat :: k.unmasked, pending := k.pending.filter (fun y => y != v.toNat),
      sent := if v.toNat ∈ k.pending then k.sent ++ [.msix v.toNat] else k.sent }) ∧
    (s.completes .configurationRequest fun t => t = sends s (if s.sys.rst.romDone then .configDone else .configRetry)) ∧
    (s.sys.rst.fwOk = true → s.completes (.podDeviceNumberSet number) fun t => t = links { k with number := number.toNat }))

/-- R450, R451, R453 to R455, R463: a request that no import entry admits is refused; one that is admitted is performed at the home slice
and its reply is sent and kept for its tag; a tag already performed gets its kept reply again. An acknowledgement is kept for its request; that of a write which nothing waits for
ends it.
A port that goes down, trains or fails 16 retries in a row changes LINKUP and is logged; a device with no up port on its route is lost.

R380, R456 to R459: the collective engine takes the oldest record of its ring; a leader with a limit of time seals at it; a record
that breaks a rule completes BADREC; an all-reduce over contributors that its mask admits writes the left fold of their elements, in
ascending rank, into DST, and completes DONE, or PARTIAL where members are missing. The mask is written before the status word.

The model's own: the address space of the collective engine, which is free, and what leads nowhere (notes/assumptions/6.md, 31.md,
32.md). -/
def Obligations.FabricAndCollectives : Prop :=
  (∀ (s u : State) (q : FabReq) (r : Remote) (reply : Reply) (x : Partition) (pl : Loc) (n : Nat) (e : Nat × Nat × Reply) (p : Fin 24)
    (d : BitVec 10),
    let k := s.sys.links
    let links (z : State) (k' : Links) : State := { z with sys := { z.sys with links := k' } }
    let admits : Prop := ∃ y ∈ x.imports, y.2.getLsbD 63 = true ∧ y.2.toNat / 2 ^ 48 % 2 ^ 10 = q.srcDev ∧
      y.2.toNat / 2 ^ 40 % 8 = q.srcPart ∧ y.2.toNat % 2 ^ 16 = q.asid
    let replied (z : State) (a : Reply) : State := links z { z.sys.links with
      kept := (q.srcDev, q.tag, a) :: z.sys.links.kept, sent := z.sys.links.sent ++ [.reply q.srcDev q.tag a] }
    let up : Prop := s.sys.rst.linkup.getLsbD p.val = true
    let ev := s.sys.dorzin
    let ported (t : State) (mask : BitVec 24) : Prop := t.sys.rst = { s.sys.rst with linkup := mask } ∧
      t.sys.links.retries = k.retries.set p 0 ∧
      t.sys.dorzin.events = ring 16384 (ev.events ++ [⟨#v[BitVec.ofNat 64 ev.eventSeq, BitVec.ofNat 64 (6 + p.val * 2 ^ 8), 0, 0]⟩]) ∧
      { t with sys := s.sys } = s
    (s.sys.rst.linkup ≠ 0 → s.sys.rst.memReady = true →
      (k.kept.find? (fun y => y.1 == q.srcDev && y.2.1 == q.tag) = some e → s.completes (.fabricRequestArrival q) fun t =>
        t = links s { k with sent := k.sent ++ [.reply q.srcDev q.tag e.2.2] }) ∧
      (k.kept.find? (fun y => y.1 == q.srcDev && y.2.1 == q.tag) = none → s.sys.parts.toList[q.part]? = some x →
        (¬ admits → s.completes (.fabricRequestArrival q) fun t => t = replied s .refused) ∧
        (admits → q.op = .read n → 0 < n → q.addr / 64 = (q.addr + n - 1) / 64 → q.addr < 2 ^ 56 →
          s.request q.part q.asid q.addr reading = .ok (pl, u) → pl.near = true → (∀ c, u.gathersNone c) → u.mem.counted? pl = none →
          s.completes (.fabricRequestArrival q) fun t =>
            t = replied u (.data ((List.range n).map fun i => u.mem.byte (pl.add i)) (u.mem.poisoned pl))))) ∧
    (k.remotes.find? (fun y => y.tag == n && y.reply.isNone && y.dev.isNone == false) = some r → replyFits r.op reply = true →
      (r.posted = false → r.aperture = false → s.completes (.fabricAcknowledgement n reply) fun t =>
        t = links s { k with remotes := k.remotes.map fun y => if y.tag = n then { y with reply := some reply } else y }) ∧
      (r.posted = true → reply ≠ .refused → s.completes (.fabricAcknowledgement n reply) fun t =>
        t = links s { k with remotes := k.remotes.filter fun y => y.tag != n })) ∧
    (up → s.completes (.ualinkPortDown p) fun t => ported t (s.sys.rst.linkup &&& ~~~(1#24 <<< p.val))) ∧
    (¬ up → s.sys.rst.fwOk = true → s.completes (.ualinkPortRetrain p true) fun t => ported t (s.sys.rst.linkup ||| 1#24 <<< p.val)) ∧
    (up → (s.completes (.dataLinkRetry p true) fun t => t = links s { k with retries := k.retries.set p 0 }) ∧
      (k.retries[p] < 15 → s.completes (.dataLinkRetry p false) fun t =>
        t = links s { k with retries := k.retries.set p (k.retries[p] + 1) }) ∧
      (15 ≤ k.retries[p] → s.completes (.dataLinkRetry p false) fun t => ported t (s.sys.rst.linkup &&& ~~~(1#24 <<< p.val)))) ∧
    (d.toNat ∉ k.lost → k.route d.toNat &&& s.sys.rst.linkup = 0 → (∀ y ∈ k.remotes, y.dev ≠ some d.toNat) →
      s.completes (.deviceLost d) fun t => t.sys.links.lost = d.toNat :: k.lost ∧ t.sys.links.remotes = k.remotes ∧
        t.sys.dorzin.events = ring 16384 (ev.events ++ [⟨#v[BitVec.ofNat 64 ev.eventSeq, BitVec.ofNat 64 (7 + d.toNat * 2 ^ 8), 0, 0]⟩]) ∧
        { t with sys := s.sys } = s)) ∧
  (∀ (s u : State) (p : Fin 8) (h : Hod) (at_ : Nat) (bs : List Byte) (i : Nat) (c : Coll) (parts : List (Nat × List Byte)) (u1 u2 : State)
    (ps qs : List (Nat × Loc)) (s1 s2 s3 s4 : State) (head list own : List Byte) (ds : List (Nat × Loc)) (k : Kind),
    let asid := Config.collAsid c.part
    let comp := c.word 5
    let closed (z : State) : State := { z with sys := { z.sys with links := { z.sys.links with
      colls := z.sys.links.colls.modify i fun y => { y with done := true } } } }
    let ends (z : State) (status : Nat) (mask : List Nat) : Prop :=
      State.homeReach c.part asid (comp + 0x40) 128 writing (closed z) = .ok (u1, ps) →
      State.homeReach c.part asid comp 8 writing
        (u1.homeStore c.part asid (comp + 0x40) ps (bytesLE 128 (mask.foldl (fun n r => n + 2 ^ r) 0)) false) = .ok (u2, qs) →
      s.completes (.collComplete i parts) fun t =>
        t = u2.homeStore c.part asid comp qs (bytesLE 8 (status + mask.length * 2 ^ 16 + c.tag * 2 ^ 32)) false
    let n := numLE head % 2 ^ 16
    let rank := numLE head / 2 ^ 16 % 2 ^ 16
    let all := byRank n (parts.map fun e => if e.1 = rank then (e.1, own) else e)
    let mask := (byRank n parts).map fun e => e.1
    let width := kindElem k / 8
    let sum := (collFold k c.redop (all.map fun e => elems width c.count e.2)).flatMap fun x => bytesLE width x
    (s.sys.parts[p].ring = some h → s.ringHeld p h.base = false →
      s.hodTake (collAsker p) ⟨p.val, Config.collAsid p.val, s.cores.length⟩ h = .ok (u, some (at_, bs, false)) →
      s.completes (.collRecordTake p) fun t => t = { u with sys := { u.sys with links := { u.sys.links with
        colls := u.sys.links.colls ++ [⟨p.val, bs, false, none, false, false, s.sys.health.clock⟩] } } }) ∧
    (s.sys.links.colls[i]? = some c → c.done = false →
      (c.tmo ≠ 0 → c.since + 2 ^ c.tmo ≤ s.sys.health.clock → s.completes (.collSealTimeout i) fun t => t = { s with sys := { s.sys with links := { s.sys.links with
        colls := s.sys.links.colls.set i { c with sealed := true } } } }) ∧
      (c.held = none → c.fatal = false → c.fieldsOk = false → ends s 4 []) ∧
      (c.held = none → c.fatal = false → c.fieldsOk = true → c.kind = some k → c.op = 0 →
        s.collRead c.part (c.word 2) 8 = .ok s1 head false → 2 ≤ n → n ≤ 1024 →
        s1.collRead c.part (c.word 2 + 8) (2 * n) = .ok s2 list false → c.groupOk s.sys.links.number (groupOf list) rank = true →
        c.partsOk n rank parts = true → s2.maskOk c (groupOf list) rank mask = true → rank ∈ mask →
        s2.collRead c.part (c.word 3) (c.count * width) = .ok s3 own false →
        State.homeReach c.part asid (c.word 4) sum.length writing s3 = .ok (s4, ds) →
        ends (s4.homeStore c.part asid (c.word 4) ds sum false) (if mask.length = n then 0 else 1) mask)))

/-! ## Resets and bring-up -/

/-- R460 to R465: a cold reset leaves no wave, no memory contents and no owner, keeps the fuses and the repoint entries, and resumes
signing above the fused mark; a warm reset keeps HBM and the logs besides, counts itself and logs KIND 0x01; one that falls into a reset
before ROM_DONE merges with it. Bring-up goes through firmware, channels and the scheduler in order; the queue table lies in HBM (R370).

The model's own: what a reset keeps where the spec does not say, that it merges before ROM_DONE, and where the queue table lies
(notes/assumptions/29.md, 33.md). -/
def Obligations.ResetsAndBringUp : Prop :=
  ∀ (s : State) (m : Master) (k : LinkReset) (version : Nat) (a b : BitVec 384),
    let r := s.sys.rst
    let f := s.sys.fuses
    let d := s.sys.dorzin
    let kept : Fuses := { f with repoint := f.repoint ++ s.sys.health.laneWaits, resets := f.resets + 1 }
    let fresh (t : State) : Prop := t.waves = [] ∧ t.teams = [] ∧ t.grids = [] ∧ t.jobs = [] ∧ t.offers = [] ∧ t.rays = [] ∧
      t.sys.contexts = [] ∧ t.sys.owner = State.reset.sys.owner ∧ t.sys.parts = State.reset.sys.parts ∧
      t.sys.attest = State.reset.sys.attest ∧ t.cores.map Core.retired = s.cores.map Core.retired ∧ ∀ c ∈ t.cores, c.l1 = [] ∧ c.cycles = 0
    let cold (i : Instr) : Prop := s.completes i fun t => fresh t ∧ t.mem = State.reset.mem ∧ t.sys.rst = State.reset.sys.rst ∧
      t.sys.dorzin = State.reset.sys.dorzin ∧ t.sys.fuses = { kept with dorzin := none, health := none, lmsLeaf := f.lmsMark + 4096 }
    let warm (i : Instr) : Prop := (r.romDone = false → s.completes i fun t => t = s) ∧ (r.romDone = true → s.completes i fun t =>
      fresh t ∧ t.sys.rst = { State.reset.sys.rst with wcount := r.wcount + 1, warmLast := true } ∧ t.sys.fuses = kept ∧
      t.sys.dorzin.errors = d.errors ∧ t.sys.dorzin.kept = d.kept ++ d.journal ∧ t.sys.dorzin.journal = [] ∧
      (∃ n, t.sys.dorzin.events = ring 16384 (d.events ++ [⟨#v[BitVec.ofNat 64 d.eventSeq, BitVec.ofNat 64 (1 + n * 2 ^ 8),
        BitVec.ofNat 64 (s.grids.filter fun g => !g.complete).length, 0]⟩])) ∧
      t.mem.carved = [] ∧ t.mem.llc = [] ∧ t.mem.leaves = [] ∧ t.mem.carveCur = 0 ∧
      ((∀ c ∈ s.cores, c.l1 = []) → (∀ x ∈ s.mem.llc, x.rc = none) → t.mem.hbm = s.mem.hbm ∧ t.mem.hbmPoison = s.mem.hbmPoison))
    let become (i : Instr) (r' : Rst) (f' : Fuses) : Prop := s.completes i fun t => t.sys.rst = r' ∧ t.sys.fuses = f' ∧
      { t with sys := s.sys, free := s.free } = s
    let allowed : Prop := (s.sys.owner.valid = true ∧ s.sys.owner.owner = m) ∨ (s.sys.owner.valid = false ∧ m = 0)
    cold .powerOn ∧ cold .perstAssert ∧ cold .i3cResetCommand ∧
    warm (.hostLinkReset k) ∧ warm .watchdogExpiry ∧ (allowed → warm (.rstStatusWarm m)) ∧
    (¬ allowed → s.completes (.rstStatusWarm m) fun t => t = s) ∧
    (r.fwOk = false → r.recovery = false → r.warmLast = false →
      (f.version ≤ version → become (.firmwareVerify version true true a b) { r with romDone := true, fwOk := true }
        { f with dorzin := some (a, version), health := some (b, version) }) ∧
      (version < f.version → become (.firmwareVerify version true true a b) { r with romDone := true, recovery := true } f)) ∧
    (r.fwOk = true → r.memReady = false → (∀ e ∈ f.repoint, e.getLsbD 61 = true) →
      become (.channelTraining []) { r with memReady := true } f) ∧
    (r.memReady = true → r.schedReady = false → become .schedulerStart { r with schedReady := true } f ∧
      s.completes .schedulerStart fun t => t.sys.dorzin.qtab + 4096 * 32 ≤ hbmSize)

/-! ## Encodings, steps, memory, reset -/

/-- Words that the spec writes out (spec/12 R309, R316; spec/13 to spec/15; spec/22 R472) decode to the instructions beside them. -/
def Obligations.DecodeWords : Prop :=
  let plain : LCtl := ⟨7, false, 0, false, false, false, false, 0, false, false⟩
  let rlx : Ann := ⟨.rlx, .d⟩
  decodeTableWord 32 0x00517F8B = some (.sadd 5 5 (.imm (-5))) ∧
  decodeTableWord 32 0xF0000061 = some (.xim 0x61) ∧
  decodeTableWord 32 0xF4000044 = some (.xhnt .rc 4) ∧
  decodeTableWord 32 0xA0051640 = some (.jcopyLoad 20 22 true) ∧
  decodeTableWord 32 0xA0051610 = some (.jcopyStore 20 22 false) ∧
  decodeTableWord 32 0xA9865003 = some (.cwait 24 25 false true false 3) ∧
  decodeTableWord 32 0xA5A00083 = some (.jstat 26 3) ∧
  decodeTableWord 32 0x60C29703 = some (.sld 12 10 ⟨.acq, .d⟩ .b4 false 3) ∧
  decodeTableWord 32 0x68B28110 = some (.satom 11 10 .add false true false ⟨.rlx, .p⟩) ∧
  decodeTableWord 32 0x50DFFFFF = some (.sloop 13 0xFFFFF) ∧
  decode [0x50380001, 0x00C00000, 0x00000000] = .ok (.lhdr false [⟨0, 3⟩]) ∧
  decode [0x60380084, 0x0300A243, 0x00000000] = .ok (.ld { plain with inc := true } .b32 .none rlx (.v 6) (.v 2) 0) ∧
  decode [0x60540005, 0x89028103, 0x00000000] = .ok (.st { plain with guard := 2, sense := true } .b64 .none rlx (.v 10) (.v 8) 0 0) ∧
  decode [0x80480001, 0x04426240, 0x89000000] = .ok (.pop { plain with guard := 1 } true false (.v 8) .xw none) ∧
  decode [0x20F8C040, 0x0401A020, 0x04000000] = .ok (.ffma { plain with stall := 3, wt := true } .f64 .rne (.v 8) (.v 6) (.t 1) (.v 8))

/-- R132 to R146: the words of an instruction whose fields its encoding admits decode to that instruction, with every operand at every
value, and each is a word of 32 bits. The steps of the device and the handler actions have no words. -/
def Obligations.DecodeOfEncode : Prop :=
  ∀ i : Instr, i.wf = true → encode i ≠ [] → decode (encode i) = .ok i ∧ ∀ w ∈ encode i, w < 2 ^ 32

/-- R132, R137, R139, R145: a step of a stream runs the instruction whose bytes stand at its PC, where its section holds them and each
word can be read: exec of it, on the state that the fetch leaves, with the wave and side as the ones that issue, the prefixes over, and
time passed. Whatever stands on the agenda acts first. Each clock of the device advances by a number of cycles of its own (R389), and a
slice that stops marks every context of an enabled partition LOST (R410).

The model's own: the agenda, and the free numbers of cycles that pass (notes/assumptions/1.md, 5.md). -/
def Obligations.StepRunsDecoded : Prop :=
  ∀ (s u u1 u2 : State) (i n n1 n2 : Nat) (d : Side) (w : Wave) (p : PcSide) (rest : List Agent) (ins e : Instr),
    let z : State := { s with agenda := rest }
    let v := s.viaOf w
    let got (x y : State) (a : Nat) (sec : Nat × Nat) (word : Nat) : Prop := sec.1 ≤ a ∧ a + 4 ≤ sec.1 + sec.2 ∧ a < 2 ^ 56 ∧
      x.sys.phys.icache = [] ∧ ∃ pl, x.request v.part v.asid a fetching = .ok (pl, y) ∧ pl.near = true ∧ y.mem.poisoned pl = false ∧
        word = numLE ((List.range 4).map fun b => y.mem.byte (pl.add b))
    let lane := s.laneSection w
    (∀ t : State, ∃ c : Nat → Nat, (∀ k, 0 < c k) ∧ t.elapse = { t with
      tick := t.tick + 1,
      cores := mapIx (fun k x => { x with cycles := x.cycles + c k }) 0 t.cores,
      teams := t.teams.map fun x => if x.st = .resident then { x with cycles := x.cycles + c x.core } else x,
      sys := { t.sys with dorzin := { t.sys.dorzin with count := t.sys.dorzin.count + c 64 },
                          health := { t.sys.health with clock := t.sys.health.clock + c 65 } } }) ∧
    (s.sys.phys.slices = [] → s.stopSlices = s) ∧
    (s.sys.phys.slices ≠ [] → s.stopSlices.sys.dorzin.sliceStopped = true ∧ ∀ x ∈ s.stopSlices.sys.contexts,
      (∃ y, s.sys.parts.toList[x.part]? = some y ∧ y.enabled = true) → x.lost = true) ∧
    (s.agenda = .event e :: rest → step s = match exec e z with
      | .next t => .next t.elapse.stopSlices
      | .fault r => .fault r
      | .refused r => .refused r) ∧
    (s.waves[i]? = some w → s.runs w = true → s.sys.power.trip = false →
      (s.agenda = .sStream i :: rest → w.ss.parkS = none → w.ss.yieldN = 0 → (w.priv.held = [] ∨ w.priv.handler = true) →
        (w.priv.handler = true ∨ (w.ss.yielded = none ∧ w.ss.acquire = none ∧ s.setHeld i w = false)) →
        got { z with cur := (i, .a), pfx := Pfx.none } u w.ss.pc (s.scalarSection w) n → (∀ r ∈ u.sys.links.remotes, r.wave ≠ i) →
        decode [n] = .ok ins → n / 2 ^ 26 ≠ 0x3C → n / 2 ^ 26 ≠ 0x3D →
        step s = match exec ins u with
          | .next t => .next (({ t with pfx := Pfx.none }).issuedScalar i).elapse.stopSlices
          | .fault r => .fault r
          | .refused r => .refused r) ∧
      (s.agenda = .lStream i d :: rest → w.priv.handler = false → w.ls.blk.phase = .ready → w.ls.parkHolds d = false → w.ls.away d = false →
        w.ls.side? d = some p → p.st = .running → p.mask ≠ 0 → w.ls.full = false → w.ls.yields d = false →
        got { z with cur := (i, d), pfx := Pfx.none } u p.pc lane n → got u u1 (p.pc + 4) lane n1 → got u1 u2 (p.pc + 8) lane n2 →
        (∀ r ∈ u2.sys.links.remotes, r.wave ≠ i) → decode [n, n1, n2] = .ok ins → (∀ b rs, ins ≠ .lhdr b rs) →
        step s = match exec ins u2 with
          | .next t => .next (t.issuedLane i d).elapse.stopSlices
          | .fault r => .fault r
          | .refused r => .refused r))

/-- R103, R109, R114, R115, R411: every operation over the memory of this device keeps its canonical form: a byte or bytes performed at
a home slice, a line written back or evicted, a line that loses its count, poison marked or cleared, a line of an L1 sent home, lines
flushed and recalled. A byte is read as it was last written, and a write leaves every other place alone.

The model's own: the canonical form, in which an unlisted byte reads as 0 (notes/assumptions/3.md). -/
def Obligations.MemoryKeepsItsForm : Prop :=
  ∀ (s : State) (m : Mem) (p q : Loc) (b : Byte) (bs : List Byte) (x : LlcLine) (c : Bool) (ov : Overlay) (sec : List Nat) (core : Nat)
    (sel : L1Line → Bool),
    (m.wf = true → (m.putByte p b).wf = true ∧ (m.putBytes p bs).wf = true ∧ (m.writeLine x).wf = true ∧ (m.evict x).wf = true ∧
      (m.uncount p).wf = true ∧ (m.setPoison p c).wf = true) ∧
    (s.mem.wf = true → (s.home p ov sec).mem.wf = true ∧ (s.flush core sel).mem.wf = true ∧ (s.recall p).mem.wf = true ∧
      (s.recallGathers p).mem.wf = true ∧ (s.readCount p).mem.wf = true) ∧
    (m.wf = true → p.near = true → m.counted? p = none → (m.putByte p b).byte p = b) ∧
    (m.wf = true → q ≠ p → (m.putByte p b).byte q = m.byte q)

/-- From every state that keeps memory's canonical form and whose clock the governor can set (R467), whatever stands on the agenda,
a step gives a state that keeps both.

The model's own: the canonical form (notes/assumptions/3.md). -/
def Obligations.StepsKeepInvariant : Prop :=
  ∀ s t : State, s.inv = true → step s = .next t → t.inv = true

/-- R461, R463, R438, R443, R407, R433, R467, R469: right after a cold reset nothing runs, no master owns the device, no partition is
enabled, no way is carved, and the registers hold the reset values of their tables. Memory is in its canonical form, the clock is one
that the governor can set. -/
def Obligations.ResetState : Prop :=
  let s := State.reset
  s.waves = [] ∧ s.teams = [] ∧ s.grids = [] ∧ s.jobs = [] ∧ s.rays = [] ∧ s.sys.contexts = [] ∧
  s.sys.rst = ⟨0, 0, false, false, false, false, false, false⟩ ∧ s.sys.owner.valid = false ∧ s.sys.owner.elect = false ∧
  (∀ m : Master, s.sys.owner.claims[m] = none) ∧ s.sys.attest.status = 0 ∧ (∀ p : Fin 8, s.sys.parts[p].enabled = false) ∧
  s.mem.carveBusy = false ∧ s.mem.carveCur = 0 ∧ s.sys.power.tlimit = 105 ∧ s.sys.power.plimit = 3000 ∧ s.sys.power.clk = 3600 ∧
  s.sys.power.trip = false ∧ s.cores.length = 64 ∧ (∀ c ∈ s.cores, c.l1 = [] ∧ c.watch = Vector.replicate 4 (0, 0)) ∧ s.mem.llc = [] ∧
  s.mem.leaves = [] ∧ s.mem.wf = true ∧ s.sys.power.legal = true

/-! ## Hard-wired registers and special operands -/

/-- R58: a write of s0 or of p7 is discarded, with no trap, by an S-op, by MOV and as the status of a port instruction, and s0 reads
0; a position of 32 bits that names t0 to t3 reads the low half of the snapshot, one of 64 bits all of it; 0x110 reads the lane's number,
0x111 the wave's, 0x112 zero, at either width. -/
def Obligations.SpecialOperands : Prop :=
  (∀ (s : State) (w : Wave) (a : SReg) (b : SrcB) (v : DWord) (act ok : Mask), s.waves[s.cur.1]? = some w →
    w.readS 0 = 0 ∧ w.writeS 0 v = w ∧ w.setStatus (some 7) act ok = w ∧
    s.completes (.sadd 0 a b) fun t => ∃ w', t.waves[s.cur.1]? = some w' ∧ w'.ss.s = w.ss.s ∧ w'.priv = w.priv ∧ w'.st = w.st ∧
      w'.ss.pc = s.opAddr w + 4) ∧
  (∀ (s : State) (w : Wave) (p : PcSide) (c : LCtl) (a : Opnd), s.LReady w p c (spanO a 1) [] →
    s.completes (.mov c (.toP 7 a)) fun t => ∃ w', t.waves[s.cur.1]? = some w' ∧ w'.ls.p = w.ls.p ∧ w'.priv = w.priv ∧ w'.st = w.st) ∧
  ∀ (s : State) (w : Wave) (p : PcSide) (c : LCtl) (D : Dst) (k : Fin 4), w.num < 64 →
    let x := w.ls.ticket.snaps[k]
    let reads (o : Opnd) (f g : Lane → Nat) : Prop :=
      (s.LReady w p c (spanD D 1) [] → s.lanesPut w w p c (.mov c (.b32 D o)) [] D 32 f) ∧
      (s.LReady w p c (spanD D 2) [] → s.lanesPut w w p c (.mov c (.b64 D o)) [] D 64 g)
    reads (.t k) (fun _ => x.toNat % 2 ^ 32) (fun _ => x.toNat) ∧
    reads .lane (fun l => l.val) (fun l => l.val) ∧
    reads .wave (fun _ => w.num) (fun _ => w.num) ∧
    reads .zero (fun _ => 0) (fun _ => 0)
end

