-- ==== Sys2Proof/Laws/Ops.lean ====
section
/-!
SUPPORT. What the shared operations over lists, waves and scalar registers do, said once for each.
-/

namespace Sys2Proof.Machine

/-! ## Positions of a list -/

theorem getElem?_modAt {α : Type} (l : List α) (i j : Nat) (f : α → α) :
    (modAt l i f)[j]? = if i = j then (l[j]?).map f else l[j]? := by
  unfold modAt
  by_cases hij : i = j
  · subst hij
    cases h : l[i]? with
    | none => simp [h]
    | some x =>
      have hlt : i < l.length := by
        rw [List.getElem?_eq_some_iff] at h; exact h.1
      simp [hlt]
  · cases h : l[i]? with
    | none => simp [hij]
    | some x => simp [hij]

theorem getElem?_set_same {α : Type} {l : List α} {i : Nat} {x : α} (h : l[i]? = some x) (y : α) :
    (l.set i y)[i]? = some y := by
  have hlt : i < l.length := by
    rw [List.getElem?_eq_some_iff] at h; exact h.1
  simp [hlt]

/-! ## What is beside waves and teams -/

theorem sameBeside_trans {s u t : State} (h : s.sameBeside u) (k : u.sameBeside t) : s.sameBeside t := by
  have e := congrArg (fun x : State => { x with waves := s.waves, teams := s.teams }) k
  exact e.trans h

theorem State.sameBeside.sys {s t : State} (h : s.sameBeside t) : t.sys = s.sys := by
  have e := congrArg State.sys (show { t with waves := s.waves, teams := s.teams } = s from h)
  exact e
theorem State.sameBeside.mem {s t : State} (h : s.sameBeside t) : t.mem = s.mem := by
  have e := congrArg State.mem (show { t with waves := s.waves, teams := s.teams } = s from h)
  exact e
theorem State.sameBeside.cores {s t : State} (h : s.sameBeside t) : t.cores = s.cores := by
  have e := congrArg State.cores (show { t with waves := s.waves, teams := s.teams } = s from h)
  exact e
theorem State.sameBeside.grids {s t : State} (h : s.sameBeside t) : t.grids = s.grids := by
  have e := congrArg State.grids (show { t with waves := s.waves, teams := s.teams } = s from h)
  exact e
theorem State.sameBeside.jobs {s t : State} (h : s.sameBeside t) : t.jobs = s.jobs := by
  have e := congrArg State.jobs (show { t with waves := s.waves, teams := s.teams } = s from h)
  exact e
theorem State.sameBeside.offers {s t : State} (h : s.sameBeside t) : t.offers = s.offers := by
  have e := congrArg State.offers (show { t with waves := s.waves, teams := s.teams } = s from h)
  exact e
theorem State.sameBeside.rays {s t : State} (h : s.sameBeside t) : t.rays = s.rays := by
  have e := congrArg State.rays (show { t with waves := s.waves, teams := s.teams } = s from h)
  exact e
theorem State.sameBeside.agenda {s t : State} (h : s.sameBeside t) : t.agenda = s.agenda := by
  have e := congrArg State.agenda (show { t with waves := s.waves, teams := s.teams } = s from h)
  exact e
theorem State.sameBeside.cur {s t : State} (h : s.sameBeside t) : t.cur = s.cur := by
  have e := congrArg State.cur (show { t with waves := s.waves, teams := s.teams } = s from h)
  exact e
theorem State.sameBeside.tick {s t : State} (h : s.sameBeside t) : t.tick = s.tick := by
  have e := congrArg State.tick (show { t with waves := s.waves, teams := s.teams } = s from h)
  exact e
theorem State.sameBeside.free {s t : State} (h : s.sameBeside t) : t.free = s.free := by
  have e := congrArg State.free (show { t with waves := s.waves, teams := s.teams } = s from h)
  exact e
theorem State.sameBeside.pfx {s t : State} (h : s.sameBeside t) : t.pfx = s.pfx := by
  have e := congrArg State.pfx (show { t with waves := s.waves, teams := s.teams } = s from h)
  exact e

/-! ## Scalar registers -/

/-- Register d takes the value (s0 discards it), every other register of the level keeps its own. -/
theorem readS_writeS (w : Wave) (d r : SReg) (v : DWord) :
    (w.writeS d v).readS r = if r = d ∧ d.val ≠ 0 then v else w.readS r := by
  unfold Wave.writeS
  by_cases hd : d.val = 0
  · simp [hd]
  · simp only [hd, if_false]
    by_cases hb : w.priv.handler = true ∧ 48 ≤ d.val
    · simp only [hb, and_self, dif_pos]
      unfold Wave.readS
      by_cases hr : r = d
      · subst hr
        have : (r.val - 48) < 16 := by have := r.isLt; omega
        simp [hd, hb, this]
      · by_cases h0 : r.val = 0
        · have : (0 : SReg) ≠ d := by
            intro e; apply hd; rw [← e]; rfl
          have h1 : r = 0 := Fin.ext h0
          simp [h0, hr]
        · by_cases h48 : 48 ≤ r.val
          · have hne : d.val - 48 ≠ r.val - 48 := by
              intro e; apply hr; apply Fin.ext; omega
            have hlt : r.val - 48 < 16 := by have := r.isLt; omega
            have hlt2 : d.val - 48 < 16 := by have := d.isLt; omega
            simp [h0, hr, hb.1, h48, hlt, hne]
          · simp [h0, hr, h48]
    · simp only [hb, dif_neg, not_false_iff]
      unfold Wave.readS
      by_cases hr : r = d
      · subst hr
        have : ¬ (w.priv.handler = true ∧ 48 ≤ r.val) := hb
        simp only [hd, if_false]
        by_cases hh : w.priv.handler = true
        · have h48 : ¬ 48 ≤ r.val := fun e => hb ⟨hh, e⟩
          simp [hh, h48, hd]
        · simp [hh, hd]
      · by_cases h0 : r.val = 0
        · simp [h0, hr]
        · have hne : d.val ≠ r.val := fun e => hr (Fin.ext e.symm)
          simp [h0, hr, hne]

/-- The other fields of the wave are untouched by a write of a scalar register, and so are the registers of the other level. -/
theorem writeS_scalarTo (w : Wave) (d : SReg) (v : DWord) (pc : Nat) :
    w.ScalarTo ((w.writeS d v).goTo pc) d v pc where
  pc := rfl
  wait := rfl
  regs r := by
    have := readS_writeS w d r v
    rw [← this]; rfl
  user hh r hr := by
    unfold Wave.writeS Wave.goTo
    by_cases hd : d.val = 0
    · simp [hd]
    · by_cases hb : 48 ≤ d.val
      · simp [hd, hh, hb]
      · have : d.val ≠ r.val := by omega
        simp [hd, hb, this]
  bank hh := by
    unfold Wave.writeS Wave.goTo
    by_cases hd : d.val = 0
    · simp [hd]
    · simp [hd, hh]
  rest := by
    unfold Wave.writeS Wave.goTo
    split
    · rfl
    · split <;> rfl

theorem writeS_pc (w : Wave) (d : SReg) (v : DWord) : (w.writeS d v).ss.pc = w.ss.pc := by
  unfold Wave.writeS
  split
  · rfl
  · split <;> rfl

theorem writeS_team (w : Wave) (d : SReg) (v : DWord) : (w.writeS d v).team = w.team := by
  unfold Wave.writeS
  split
  · rfl
  · split <;> rfl

/-! ## An S-op that is done -/

/-- All that ending an S-op changes: the wave, and its team's count. -/
theorem doneAt_issuedBy {s : State} {w w' : Wave} (pc : Nat) (h : s.waves[s.cur.1]? = some w) (ht : w'.team = w.team) :
    s.IssuedBy (s.doneAt w' pc) s.cur.1 w (w'.goTo pc) where
  beside := rfl
  others j hj := by
    simp [State.doneAt, State.setWave, State.putWave, State.countIssue, State.modTeam, hj.symm]
  count := by
    simp [State.doneAt, State.setWave, State.putWave, State.countIssue, State.modTeam, ht]
  wave := by
    simpa [State.doneAt, State.setWave, State.putWave, State.countIssue, State.modTeam] using getElem?_set_same h (w'.goTo pc)

/-- An instruction that changes wave i, and counts as issued. -/
theorem issuedBy_put {s : State} {w : Wave} {i : Nat} (h : s.waves[i]? = some w) (w' : Wave) :
    s.IssuedBy ((s.putWave i w').countIssue w.team) i w w' where
  beside := rfl
  others j hj := by simp [State.putWave, State.countIssue, State.modTeam, hj.symm]
  count := by simp [State.putWave, State.countIssue, State.modTeam]
  wave := by simpa [State.putWave, State.countIssue, State.modTeam] using getElem?_set_same h w'

theorem sOp_eq {s : State} {w : Wave} (h : s.waves[s.cur.1]? = some w) (f : Wave → State) : s.sOp f = f w := by
  simp [State.sOp, State.wave?, h]

/-- An S-op that writes one scalar register, changes its wave from w to w0 beside that, and goes on. -/
theorem scalarDoneAs_doneAt {s : State} {w w0 : Wave} (h : s.waves[s.cur.1]? = some w) (ht : w0.team = w.team) (d : SReg) (v : DWord)
    (pc : Nat) : s.ScalarDoneAs (s.doneAt (w0.writeS d v) pc) w w0 d v pc :=
  ⟨_, doneAt_issuedBy pc h ((writeS_team w0 d v).trans ht), writeS_scalarTo w0 d v pc⟩

/-- An S-op that writes one scalar register and goes on. -/
theorem scalarDone_doneAt {s : State} {w : Wave} (h : s.waves[s.cur.1]? = some w) (d : SReg) (v : DWord) (pc : Nat) :
    s.ScalarDone (s.doneAt (w.writeS d v) pc) w d v pc := scalarDoneAs_doneAt h rfl d v pc

/-- An S-op that writes no register, changes its wave from w to w0, and goes on after itself. -/
theorem scalarDoneAs_none {s : State} {w w0 : Wave} (h : s.waves[s.cur.1]? = some w) (ht : w0.team = w.team) (v : DWord) (pc : Nat) :
    s.ScalarDoneAs (s.doneAt w0 pc) w w0 0 v pc := scalarDoneAs_doneAt (w0 := w0) h ht 0 v pc

/-- An S-op that writes no register and goes on. -/
theorem scalarDone_none {s : State} {w : Wave} (h : s.waves[s.cur.1]? = some w) (v : DWord) (pc : Nat) :
    s.ScalarDone (s.doneAt w pc) w 0 v pc := scalarDoneAs_none h rfl v pc

/-- An S-op that writes one scalar register and goes on after itself. -/
theorem scalarDoneAs_done {s : State} {w w0 : Wave} (h : s.waves[s.cur.1]? = some w) (ht : w0.team = w.team)
    (hp : w0.ss.pc = w.ss.pc) (d : SReg) (v : DWord) : s.ScalarDoneAs (s.done (w0.writeS d v)) w w0 d v (s.opAddr w + 4) := by
  have : s.opAddr (w0.writeS d v) = s.opAddr w := by simp [State.opAddr, writeS_pc, hp]
  unfold State.done
  rw [this]
  exact scalarDoneAs_doneAt h ht d v _

theorem scalarDone_done {s : State} {w : Wave} (h : s.waves[s.cur.1]? = some w) (d : SReg) (v : DWord) :
    s.ScalarDone (s.done (w.writeS d v)) w d v (s.opAddr w + 4) := scalarDoneAs_done h rfl rfl d v

/-- A scalar operation of two sources, whole. -/
theorem alu_done {s : State} {w : Wave} (h : s.waves[s.cur.1]? = some w) (d a : SReg) (b : SrcB) (f : DWord → DWord → DWord) :
    s.ScalarDone (s.alu d a b f) w d (f (w.readS a) (s.opB w b)) (s.opAddr w + 4) := by
  unfold State.alu
  rw [sOp_eq h]
  exact scalarDone_done h _ _

/-- A user S-op of a wave at user level. -/
theorem userOp_eq {s : State} {w : Wave} (h : s.waves[s.cur.1]? = some w) (hu : w.priv.handler = false) (f : Wave → State) :
    s.userOp f = f w := by
  simp [State.userOp, sOp_eq h, hu]

end Sys2Proof.Machine
end

