-- ==== Sys2Proof/Laws/Lane.lean ====
section
/-!
SUPPORT. What the operations over the lane stream do: lanes and masks, the committed value, results that leave the window.
-/

namespace Sys2Proof.Machine

/-! ## Lanes and masks -/

@[simp] theorem getElem_lanes {α : Type} (f : Lane → α) (l : Nat) (h : l < 32) : (lanes f)[l] = f ⟨l, h⟩ := by
  unfold lanes
  rw [Vector.getElem_mk, List.getElem_toArray, List.getElem_ofFn]

theorem getElem_lanes_fin {α : Type} (f : Lane → α) (l : Lane) : (lanes f)[l] = f l := by
  simp

theorem getElem_blend {α : Type} (m : Mask) (new old : Lanes α) (l : Lane) :
    (blend m new old)[l] = if inMask m l then new[l] else old[l] := by
  simp [blend]

theorem getLsbD_maskOf (f : Lane → Bool) (l : Lane) : inMask (maskOf f) l = f l := by
  unfold inMask maskOf
  have hl := l.isLt
  rw [BitVec.getLsbD_setWidth, BitVec.getLsbD_ofBoolListLE, List.getD_eq_getElem?_getD, List.getElem?_ofFn]
  simp only [hl, decide_true, Bool.true_and, dite_true, Option.getD_some]

theorem inMask_and (m n : Mask) (l : Lane) : inMask (m &&& n) l = (inMask m l && inMask n l) := by
  simp [inMask]

theorem inMask_or (m n : Mask) (l : Lane) : inMask (m ||| n) l = (inMask m l || inMask n l) := by
  simp [inMask]

theorem inMask_not (m : Mask) (l : Lane) : inMask (~~~m) l = !inMask m l := by
  simp [inMask]

theorem mem_lanesIn (m : Mask) (l : Lane) : l ∈ lanesIn m ↔ inMask m l = true := by
  simp [lanesIn, allLanes, List.mem_filter, List.mem_finRange]

/-! ## Committed values -/

/-- Committing a result of a register blends it into that register's committed value, and changes no other's. -/
theorem committed_commit (x : LStream) (r : Nat) (m : Mask) (val : Lanes Word) (q : VReg) :
    (x.commit r m val).committed q = if q.val = r then blend m val (x.committed q) else x.committed q := by
  unfold LStream.commit
  split
  · rename_i hany
    unfold LStream.committed
    simp only
    have key : (x.staged.map fun g => if (g.reg == r) = true then { g with val := blend m val g.val, written := true } else g).find?
        (fun g => g.reg == q.val) =
        (x.staged.find? fun g => g.reg == q.val).map fun g =>
          if (g.reg == r) = true then { g with val := blend m val g.val, written := true } else g := by
      induction x.staged with
      | nil => rfl
      | cons g gs ih =>
        rw [List.map_cons, List.find?_cons, List.find?_cons]
        have hreg : (if (g.reg == r) = true then ({ g with val := blend m val g.val, written := true } : Staged) else g).reg = g.reg := by
          split <;> rfl
        rw [hreg]
        cases (g.reg == q.val) with
        | true => rfl
        | false => exact ih
    rw [key]
    cases hf : x.staged.find? fun g => g.reg == q.val with
    | none =>
      have hne : q.val ≠ r := by
        intro e
        rw [List.any_eq_true] at hany
        obtain ⟨g, hg, he⟩ := hany
        rw [List.find?_eq_none] at hf
        exact hf g hg (by rw [e]; exact he)
      simp [hne]
    | some g =>
      have hg : (g.reg == q.val) = true := by
        have := List.find?_some hf
        simpa using this
      have hg' : g.reg = q.val := by simpa using hg
      by_cases hq : q.val = r
      · simp [hq, hg']
      · simp [hq, hg']
  · rename_i hany
    have hnone (hq : q.val = r) : (x.staged.find? fun g => g.reg == q.val) = none := by
      rw [List.find?_eq_none]
      intro g hg he
      apply hany
      rw [List.any_eq_true]
      exact ⟨g, hg, by rw [← hq]; exact he⟩
    split
    · rename_i h256
      unfold LStream.committed
      simp only
      by_cases hq : q.val = r
      · subst hq
        rw [hnone rfl]
        simp
      · cases hf : x.staged.find? fun g => g.reg == q.val with
        | some g => simp [hq]
        | none =>
          have : r ≠ q.val := fun e => hq e.symm
          simp [hq, this]
    · rename_i h256
      have : q.val ≠ r := by
        intro e; have := q.isLt; omega
      simp [this]

/-- The committed value of one lane after a result has left the window. -/
theorem committed_leave (x : LStream) (all : Bool) (e : WinEnt) (q : VReg) (l : Lane) :
    ((x.leave all e).committed q)[l] =
      if q.val = e.reg ∧ inMask e.mask l ∧ (all ∨ !inMask e.dead l) then e.val[l] else (x.committed q)[l] := by
  unfold LStream.leave
  rw [committed_commit]
  by_cases hq : q.val = e.reg
  · simp only [hq, if_true, true_and]
    rw [getElem_blend]
    cases all with
    | true => simp
    | false => simp [inMask_and, inMask_not]
  · simp [hq]

theorem leave_win (x : LStream) (all : Bool) (e : WinEnt) : (x.leave all e).win = x.win := by
  unfold LStream.leave LStream.commit
  split
  · rfl
  · split <;> rfl

/-- Results that leave, oldest first: of a lane's results of one register, the youngest stands. -/
theorem committed_foldr_leave (x : LStream) (all : Bool) (es : List WinEnt) (q : VReg) (l : Lane) :
    ((es.foldr (fun e y => y.leave all e) x).committed q)[l] =
      match es.find? fun e => e.reg == q.val && inMask e.mask l && (all || !inMask e.dead l) with
      | some e => e.val[l]
      | none => (x.committed q)[l] := by
  induction es with
  | nil => rfl
  | cons e es ih =>
    rw [List.foldr_cons, committed_leave, List.find?_cons, ih]
    by_cases h : q.val = e.reg ∧ inMask e.mask l ∧ (all ∨ !inMask e.dead l)
    · have h' : (e.reg == q.val && inMask e.mask l && (all || !inMask e.dead l)) = true := by
        simp only [Bool.and_eq_true, beq_iff_eq, Bool.or_eq_true]
        exact ⟨⟨h.1.symm, h.2.1⟩, h.2.2⟩
      rw [if_pos h, h']
    · have h' : (e.reg == q.val && inMask e.mask l && (all || !inMask e.dead l)) = false := by
        rw [Bool.eq_false_iff]
        intro hc
        apply h
        simp only [Bool.and_eq_true, beq_iff_eq, Bool.or_eq_true] at hc
        exact ⟨hc.1.1.symm, hc.1.2, hc.2⟩
      rw [if_neg h, h']

/-- A drain for a trap, an eviction or a save keeps every lane's value of every register (R73). -/
theorem laneVal_drain (x : LStream) (q : VReg) (l : Lane) : (x.drain true).laneVal q l = x.laneVal q l := by
  unfold LStream.laneVal LStream.drain
  simp only [List.find?_nil]
  have h := committed_foldr_leave x true x.win q l
  simp only [Bool.true_or, Bool.and_true] at h
  exact h

/-- What leaves the window changes committed values only. -/
theorem leave_fields (x : LStream) (all : Bool) (e : WinEnt) : ∃ v st, x.leave all e = { x with v := v, staged := st } := by
  unfold LStream.leave LStream.commit
  split
  · exact ⟨x.v, _, rfl⟩
  · split
    · exact ⟨_, x.staged, rfl⟩
    · exact ⟨x.v, x.staged, rfl⟩

theorem foldr_leave_fields (x : LStream) (all : Bool) (es : List WinEnt) :
    ∃ v st, es.foldr (fun e y => y.leave all e) x = { x with v := v, staged := st } := by
  induction es with
  | nil => exact ⟨x.v, x.staged, rfl⟩
  | cons e es ih =>
    obtain ⟨v, st, h⟩ := ih
    rw [List.foldr_cons, h]
    obtain ⟨v', st', h'⟩ := leave_fields { x with v := v, staged := st } all e
    exact ⟨v', st', h'⟩

theorem drain_fields (x : LStream) (all : Bool) :
    ∃ v st, x.drain all = { x with v := v, staged := st, win := [], prods := x.prods.map Prod.stale, outs := x.outs.map Outst.late } := by
  obtain ⟨v, st, h⟩ := foldr_leave_fields x all x.win
  exact ⟨v, st, by unfold LStream.drain; rw [h]⟩

end Sys2Proof.Machine
end

