-- ==== Sys2Proof/Laws/Traps.lean ====
section
/-!
SUPPORT. Taking a precise trap, said once: the handler is entered with the report, and nothing else changes.
-/

namespace Sys2Proof.Machine

theorem enter_enteredTo (w : Wave) (c : Context) (strm : Strm) (imp : Bool) (t : Trap) (trappc : Nat) (tc : TrapCtx) :
    w.EnteredTo (w.enter c strm imp t trappc tc) c.hentry strm imp t.cause.code t.va t.aux trappc t.mask where
  level := rfl
  pc := rfl
  wait := rfl
  cause := by
    cases strm with
    | s => simp [Wave.enter, causeWord]
    | l d => cases d <;> simp [Wave.enter, causeWord]
  trappc := rfl
  trapva := rfl
  trapaux := rfl
  lanemask := rfl
  hret := rfl
  bank := rfl
  held := rfl
  regs := rfl
  vregs r l := laneVal_drain w.ls r l
  drained := rfl
  lane := by
    obtain ⟨v, st, h⟩ := drain_fields w.ls true
    refine ⟨v, st, ?_⟩
    show { w.ls.drain true with waitA := none, waitB := none } = _
    rw [h]
  soft := rfl
  region := rfl
  green := rfl

/-- A precise trap of a wave at user level with a handler, whose cause goes to the handler. -/
theorem take_entered {s : State} {w : Wave} {i : Nat} (h : s.waves[i]? = some w) (hu : w.priv.handler = false)
    (hh : (s.ctxOf w).hen = true) (strm : Strm) (hp : w.waitsForS strm = none) (t : Trap) (ht : t.cause ≠ .regionOverflow) (trappc : Nat)
    (tc : TrapCtx) : s.Entered (s.take i strm t trappc tc) i w strm false t.cause.code t.va t.aux trappc t.mask := by
  have hb : (t.cause == Cause.regionOverflow) = false := by simpa using ht
  have he : s.take i strm t trappc tc = s.putWave i (w.enter (s.ctxOf w) strm false t trappc tc) := by
    simp [State.take, h, hu, hb, hh, hp]
  rw [he]
  exact
    { beside := rfl
      others := fun j hj => by simp [State.putWave, hj.symm]
      teams := rfl
      wave := ⟨_, by simpa [State.putWave] using getElem?_set_same h _, enter_enteredTo w _ strm false t trappc tc⟩ }

/-- With no handler a precise trap kills the wave with its own cause (R350). -/
theorem take_kill {s : State} {w : Wave} {i : Nat} (h : s.waves[i]? = some w) (hu : w.priv.handler = false)
    (hh : (s.ctxOf w).hen = false) (strm : Strm) (t : Trap) (ht : t.cause ≠ .regionOverflow) (trappc : Nat) (tc : TrapCtx) :
    s.take i strm t trappc tc = s.kill i t.cause t.va t.aux := by
  have hb : (t.cause == Cause.regionOverflow) = false := by simpa using ht
  simp [State.take, h, hu, hb, hh]

/-- A precise trap of the S-op group that issues. -/
theorem trapS_entered {s : State} {w : Wave} (h : s.waves[s.cur.1]? = some w) (hu : w.priv.handler = false)
    (hh : (s.ctxOf w).hen = true) (t : Trap) (ht : t.cause ≠ .regionOverflow) :
    s.Entered (s.trapS w t) s.cur.1 w .s false t.cause.code t.va t.aux w.ss.pc t.mask := by
  have h1 : (s.setWave { w with ss := { w.ss with waitS := none } }).waves[s.cur.1]? = some { w with ss := { w.ss with waitS := none } } := by
    simpa [State.setWave, State.putWave] using getElem?_set_same h { w with ss := { w.ss with waitS := none } }
  have e := take_entered h1 hu (by exact hh) .s rfl t ht w.ss.pc
    { strm := .s, imprecise := false, nextPc := s.opAddr w + 4, sysc := none, lhdr := false, pc := w.ss.pc }
  obtain ⟨b, o, m, w', hw, x⟩ := e
  refine ⟨?_, ?_, m, w', hw, ?_⟩
  · exact sameBeside_trans (by rfl) b
  · intro j hj
    rw [State.trapS, o j hj]
    simp [State.setWave, State.putWave, hj.symm]
  · exact ⟨x.level, x.pc, x.wait, x.cause, x.trappc, x.trapva, x.trapaux, x.lanemask, x.hret, x.bank, x.held, x.regs, x.vregs, x.drained,
      x.lane, x.soft, x.region, x.green⟩

theorem trapSysc_entered {s : State} {w : Wave} (h : s.waves[s.cur.1]? = some w) (hu : w.priv.handler = false)
    (hh : (s.ctxOf w).hen = true) (t : Trap) (ht : t.cause ≠ .regionOverflow) (d : SReg) :
    s.Entered (s.trapSysc w t d) s.cur.1 w .s false t.cause.code t.va t.aux w.ss.pc t.mask := by
  have h1 : (s.setWave { w with ss := { w.ss with waitS := none } }).waves[s.cur.1]? = some { w with ss := { w.ss with waitS := none } } := by
    simpa [State.setWave, State.putWave] using getElem?_set_same h { w with ss := { w.ss with waitS := none } }
  have e := take_entered h1 hu (by exact hh) .s rfl t ht w.ss.pc
    { strm := .s, imprecise := false, nextPc := s.opAddr w + 4, sysc := some d, lhdr := false, pc := w.ss.pc }
  obtain ⟨b, o, m, w', hw, x⟩ := e
  refine ⟨?_, ?_, m, w', hw, ?_⟩
  · exact sameBeside_trans (by rfl) b
  · intro j hj
    rw [State.trapSysc, o j hj]
    simp [State.setWave, State.putWave, hj.symm]
  · exact ⟨x.level, x.pc, x.wait, x.cause, x.trappc, x.trapva, x.trapaux, x.lanemask, x.hret, x.bank, x.held, x.regs, x.vregs, x.drained,
      x.lane, x.soft, x.region, x.green⟩

end Sys2Proof.Machine
end

