-- ==== Sys2Proof/Laws/Retire.lean ====
section
/-!
SUPPORT. What retiring and killing a wave change: barriers settle, a team may retire, and nothing else beside the wave differs.
-/

namespace Sys2Proof.Machine

/-- t differs from s at most in the barriers of waves and teams, and in where teams stand. -/
structure State.BarsOnly (s t : State) : Prop where
  beside : s.sameBeside t
  gone : ∀ k : Nat, s.waves[k]? = none → t.waves[k]? = none
  waves : ∀ (k : Nat) (w : Wave), s.waves[k]? = some w →
    ∃ b c, t.waves[k]? = some { w with ss := { w.ss with bars := b, cbars := c } }
  teams : ∀ (k : Nat) (x : Team), s.teams[k]? = some x →
    ∃ b c st rq, t.teams[k]? = some { x with bars := b, cbars := c, st := st, request := rq }

theorem State.BarsOnly.refl (s : State) : s.BarsOnly s where
  beside := rfl
  gone _ h := h
  waves _ w h := ⟨w.ss.bars, w.ss.cbars, h⟩
  teams _ x h := ⟨x.bars, x.cbars, x.st, x.request, h⟩

theorem State.BarsOnly.trans {s u t : State} (h : s.BarsOnly u) (k : u.BarsOnly t) : s.BarsOnly t where
  beside := sameBeside_trans h.beside k.beside
  gone n e := k.gone n (h.gone n e)
  waves n w e := by
    obtain ⟨b, c, e1⟩ := h.waves n w e
    obtain ⟨b', c', e2⟩ := k.waves n _ e1
    exact ⟨b', c', e2⟩
  teams n x e := by
    obtain ⟨b, c, st, rq, e1⟩ := h.teams n x e
    obtain ⟨b', c', st', rq', e2⟩ := k.teams n _ e1
    exact ⟨b', c', st', rq', e2⟩

theorem barsOnly_modTeam (s : State) (t : Nat) (f : Team → Team)
    (hf : ∀ x, ∃ b c st rq, f x = { x with bars := b, cbars := c, st := st, request := rq }) : s.BarsOnly (s.modTeam t f) where
  beside := rfl
  gone _ h := h
  waves _ w h := ⟨w.ss.bars, w.ss.cbars, h⟩
  teams k x h := by
    simp only [State.modTeam, getElem?_modAt]
    by_cases e : t = k
    · obtain ⟨b, c, st, rq, hx⟩ := hf x
      exact ⟨b, c, st, rq, by simp [e, h, hx]⟩
    · exact ⟨x.bars, x.cbars, x.st, x.request, by simp [e, h]⟩

theorem barsOnly_modWave (s : State) (i : Nat) (f : Wave → Wave)
    (hf : ∀ w, ∃ b c, f w = { w with ss := { w.ss with bars := b, cbars := c } }) : s.BarsOnly (s.modWave i f) where
  beside := rfl
  gone k h := by
    simp only [State.modWave, getElem?_modAt, h]
    split <;> rfl
  waves k w h := by
    simp only [State.modWave, getElem?_modAt]
    by_cases e : i = k
    · obtain ⟨b, c, hw⟩ := hf w
      exact ⟨b, c, by simp [e, h, hw]⟩
    · exact ⟨w.ss.bars, w.ss.cbars, by simp [e, h]⟩
  teams _ x h := ⟨x.bars, x.cbars, x.st, x.request, h⟩

theorem barsOnly_foldl {α : Type} (f : State → α → State) (hf : ∀ (s : State) (a : α), s.BarsOnly (f s a)) (l : List α) (s : State) :
    s.BarsOnly (l.foldl f s) := by
  induction l generalizing s with
  | nil => exact .refl s
  | cons a l ih => exact (hf s a).trans (ih (f s a))

theorem barsOnly_settleBar (s : State) (t : Nat) (b : Fin 16) : s.BarsOnly (s.settleBar t b) := by
  unfold State.settleBar
  split
  · exact .refl s
  · rename_i x _
    simp only
    split
    · refine (barsOnly_modTeam s t _ fun y => ⟨_, y.cbars, y.st, y.request, rfl⟩).trans (barsOnly_foldl _ ?_ _ _)
      intro z k
      refine barsOnly_modWave z k _ fun w => ?_
      split
      · exact ⟨_, w.ss.cbars, rfl⟩
      · exact ⟨w.ss.bars, w.ss.cbars, rfl⟩
    · split
      · exact barsOnly_modTeam s t _ fun y => ⟨_, y.cbars, y.st, y.request, rfl⟩
      · exact .refl s

theorem barsOnly_settleCbar (s : State) (t : Nat) (b : Fin 4) : s.BarsOnly (s.settleCbar t b) := by
  unfold State.settleCbar
  simp only
  split
  · exact .refl s
  · rename_i x _
    split
    · refine (barsOnly_modTeam s _ _ fun y => ⟨y.bars, _, y.st, y.request, rfl⟩).trans (barsOnly_foldl _ ?_ _ _)
      intro z k
      refine barsOnly_modWave z k _ fun w => ?_
      split
      · exact ⟨w.ss.bars, _, rfl⟩
      · exact ⟨w.ss.bars, w.ss.cbars, rfl⟩
    · split
      · exact barsOnly_modTeam s _ _ fun y => ⟨y.bars, _, y.st, y.request, rfl⟩
      · exact .refl s

theorem barsOnly_settleBars (s : State) (t : Nat) : s.BarsOnly (s.settleBars t) := by
  unfold State.settleBars
  exact (barsOnly_foldl _ (fun z b => barsOnly_settleBar z t b) _ s).trans
    (barsOnly_foldl _ (fun z b => barsOnly_settleCbar z t b) _ _)

theorem barsOnly_abandonBars (s : State) (t : Nat) : s.BarsOnly (s.abandonBars t) := by
  unfold State.abandonBars
  simp only
  exact (barsOnly_modTeam s t _ fun y => ⟨_, y.cbars, y.st, y.request, rfl⟩).trans
    (barsOnly_modTeam _ _ _ fun y => ⟨y.bars, _, y.st, y.request, rfl⟩)

theorem barsOnly_retireTeam (s : State) (t : Nat) : s.BarsOnly (s.retireTeam t) := by
  unfold State.retireTeam
  split
  · exact .refl s
  · split
    · exact barsOnly_modTeam s t _ fun y => ⟨y.bars, y.cbars, _, _, rfl⟩
    · exact .refl s

/-! ## Rays that end -/

/-- A record delivered to a lane's outstanding L-op changes that wave's outstanding L-ops only. -/
structure State.OutsOnly (s t : State) : Prop where
  beside : { t with waves := s.waves, rays := s.rays } = s
  gone : ∀ k : Nat, s.waves[k]? = none → t.waves[k]? = none
  waves : ∀ (k : Nat) (w : Wave), s.waves[k]? = some w → ∃ o, t.waves[k]? = some { w with ls := { w.ls with outs := o } }

theorem State.OutsOnly.refl (s : State) : s.OutsOnly s := ⟨rfl, fun _ h => h, fun _ w h => ⟨w.ls.outs, h⟩⟩

theorem State.OutsOnly.trans {s u t : State} (h : s.OutsOnly u) (k : u.OutsOnly t) : s.OutsOnly t where
  beside := by
    have e := congrArg (fun x : State => { x with waves := s.waves, rays := s.rays }) k.beside
    exact e.trans h.beside
  gone n e := k.gone n (h.gone n e)
  waves n w e := by
    obtain ⟨o, e1⟩ := h.waves n w e
    obtain ⟨o', e2⟩ := k.waves n _ e1
    exact ⟨o', e2⟩

theorem outsOnly_deliver (s : State) (words : List DWord) (o : Nat × Nat × Lane) : s.OutsOnly (s.deliver words o) where
  beside := rfl
  gone k h := by
    simp only [State.deliver, State.modWave, getElem?_modAt, h]
    split <;> rfl
  waves k w h := by
    simp only [State.deliver, State.modWave, getElem?_modAt]
    by_cases e : o.1 = k
    · exact ⟨_, by simp only [e, if_true, h, Option.map_some]; rfl⟩
    · exact ⟨w.ls.outs, by simp [e, h]⟩

theorem outsOnly_dropRays (s : State) (i : Nat) (p : Ray → Bool) : s.OutsOnly (s.dropRays i p) := by
  unfold State.dropRays
  simp only
  generalize (s.rays.filter _).flatMap Ray.owes = l
  have h1 : s.OutsOnly { s with rays := s.rays.map fun r => if (r.wave == some i && p r && !r.freed) = true
      then { r with st := .dropped, freed := true, owes := [] } else r } :=
    ⟨rfl, fun _ h => h, fun _ w h => ⟨w.ls.outs, h⟩⟩
  refine h1.trans ?_
  generalize ({ s with rays := _ } : State) = z
  induction l generalizing z with
  | nil => exact .refl z
  | cons a l ih => exact (outsOnly_deliver z _ a).trans (ih _)

theorem State.OutsOnly.sys {s t : State} (h : s.OutsOnly t) : t.sys = s.sys := by
  have e := congrArg State.sys h.beside
  exact e
theorem State.OutsOnly.mem {s t : State} (h : s.OutsOnly t) : t.mem = s.mem := by
  have e := congrArg State.mem h.beside
  exact e
theorem State.OutsOnly.cores {s t : State} (h : s.OutsOnly t) : t.cores = s.cores := by
  have e := congrArg State.cores h.beside
  exact e
theorem State.OutsOnly.grids {s t : State} (h : s.OutsOnly t) : t.grids = s.grids := by
  have e := congrArg State.grids h.beside
  exact e
theorem State.OutsOnly.teams {s t : State} (h : s.OutsOnly t) : t.teams = s.teams := by
  have e := congrArg State.teams h.beside
  exact e
theorem State.OutsOnly.jobs {s t : State} (h : s.OutsOnly t) : t.jobs = s.jobs := by
  have e := congrArg State.jobs h.beside
  exact e
theorem State.OutsOnly.offers {s t : State} (h : s.OutsOnly t) : t.offers = s.offers := by
  have e := congrArg State.offers h.beside
  exact e
theorem State.OutsOnly.agenda {s t : State} (h : s.OutsOnly t) : t.agenda = s.agenda := by
  have e := congrArg State.agenda h.beside
  exact e
theorem State.OutsOnly.cur {s t : State} (h : s.OutsOnly t) : t.cur = s.cur := by
  have e := congrArg State.cur h.beside
  exact e
theorem State.OutsOnly.tick {s t : State} (h : s.OutsOnly t) : t.tick = s.tick := by
  have e := congrArg State.tick h.beside
  exact e
theorem State.OutsOnly.free {s t : State} (h : s.OutsOnly t) : t.free = s.free := by
  have e := congrArg State.free h.beside
  exact e
theorem State.OutsOnly.pfx {s t : State} (h : s.OutsOnly t) : t.pfx = s.pfx := by
  have e := congrArg State.pfx h.beside
  exact e

/-! ## A kill (R355) and a retirement (R33) -/

/-- The wave as a kill leaves it. -/
def Wave.killedBy (w : Wave) (c : Cause) (va aux : Nat) : Wave :=
  let priv := { w.priv with cause := causeWord c false false false w.region.isSome, trapva := BitVec.ofNat 64 va,
                            trapaux := BitVec.ofNat 64 aux, held := [], ctx := none }
  { w.leaveWith .killed with killCause := c.code, priv := priv, region := none, green := Green.empty }

/-- The machine when the wave has left and its requests are gone, before its team takes note. -/
def State.afterKill (s : State) (i core : Nat) (w1 : Wave) : State :=
  let s1 := (((s.putWave i w1).withdraw i core).dropRays i fun _ => true).forget i
  { s1 with offers := s1.offers.filter fun o => o.job.wave != i }

/-- The team takes note of a kill. -/
def Team.noteKill (num code tick : Nat) (t : Team) : Team :=
  { t with killed := t.killed ||| (1#64 <<< num), firstKill := if t.firstKill = 0 then code else t.firstKill,
           killedAt := if t.firstKill = 0 then tick else t.killedAt }

theorem kill_eq {s : State} {w : Wave} {i : Nat} (h : s.waves[i]? = some w) (hg : w.gone = false) (c : Cause) (va aux : Nat) :
    s.kill i c va aux =
      ((((s.afterKill i w.core (w.killedBy c va aux)).modTeam w.team (Team.noteKill w.num c.code s.tick)).abandonBars w.team).settleBars
        w.team).retireTeam w.team := by
  unfold State.kill
  rw [h]
  simp only [hg, Bool.false_eq_true, if_false]
  rfl

theorem afterKill_wave {s : State} {w : Wave} {i : Nat} (h : s.waves[i]? = some w) (core : Nat) (w1 : Wave) :
    ∃ o, (s.afterKill i core w1).waves[i]? = some { w1 with ls := { w1.ls with outs := o } } := by
  have hz : ((s.putWave i w1).withdraw i core).waves[i]? = some w1 := getElem?_set_same h w1
  exact (outsOnly_dropRays ((s.putWave i w1).withdraw i core) i (fun _ => true)).waves i w1 hz

theorem afterKill_fields (s : State) (i core : Nat) (w1 : Wave) :
    (s.afterKill i core w1).mem = s.mem ∧ (s.afterKill i core w1).teams = s.teams ∧ (s.afterKill i core w1).grids = s.grids ∧
    (s.afterKill i core w1).jobs = s.jobs := by
  have hd := outsOnly_dropRays ((s.putWave i w1).withdraw i core) i (fun _ => true)
  exact ⟨hd.mem, hd.teams, hd.grids, hd.jobs⟩

/-- A killed wave, its team, and what a kill leaves alone (R355). -/
theorem kill_spec {s : State} {w : Wave} {i : Nat} (h : s.waves[i]? = some w) (hg : w.gone = false) (c : Cause) (va aux : Nat) :
    (∃ w', (s.kill i c va aux).waves[i]? = some w' ∧ w'.st = .killed ∧ w'.killCause = c.code ∧ w'.ss.s = w.ss.s ∧ w'.ls.tickets = [] ∧
      w'.ls.results = [] ∧ w'.ss.blocks = 0 ∧ w'.region = none) ∧
    (∀ x, s.teams[w.team]? = some x → ∃ x', (s.kill i c va aux).teams[w.team]? = some x' ∧ x'.killed = x.killed ||| 1#64 <<< w.num ∧
      x'.firstKill = if x.firstKill = 0 then c.code else x.firstKill) ∧
    (s.kill i c va aux).mem = s.mem := by
  rw [kill_eq h hg]
  obtain ⟨o, ho⟩ := afterKill_wave h w.core (w.killedBy c va aux)
  obtain ⟨hm, ht, _, _⟩ := afterKill_fields s i w.core (w.killedBy c va aux)
  generalize s.afterKill i w.core (w.killedBy c va aux) = u at ho hm ht ⊢
  generalize s.tick = k
  have hb := ((barsOnly_abandonBars (u.modTeam w.team (Team.noteKill w.num c.code k)) w.team).trans
    (barsOnly_settleBars _ w.team)).trans (barsOnly_retireTeam _ w.team)
  refine ⟨?_, ?_, ?_⟩
  · obtain ⟨b, e, hw⟩ := hb.waves i _ ho
    exact ⟨_, hw, rfl, rfl, rfl, rfl, rfl, rfl, rfl⟩
  · intro x hx
    have hu : (u.modTeam w.team (Team.noteKill w.num c.code k)).teams[w.team]? = some (Team.noteKill w.num c.code k x) := by
      show (modAt u.teams w.team _)[w.team]? = _
      rw [getElem?_modAt, ht, hx]
      simp
    obtain ⟨b, e, st, rq, hx'⟩ := hb.teams w.team _ hu
    exact ⟨_, hx', rfl, rfl⟩
  · exact hb.beside.mem.trans hm

/-- A retired wave, and what retirement leaves alone (R33). -/
theorem retireWave_spec {s : State} {w : Wave} {i : Nat} (h : s.waves[i]? = some w) :
    (∃ b c o, (s.retireWave i).waves[i]? = some { w.leaveWith .retired with
        ss := { (w.leaveWith .retired).ss with bars := b, cbars := c }, ls := { (w.leaveWith .retired).ls with outs := o } }) ∧
    (s.retireWave i).mem = s.mem ∧ (s.retireWave i).cores.length = s.cores.length := by
  unfold State.retireWave
  rw [h]
  simp only
  have hd := outsOnly_dropRays ((s.putWave i (w.leaveWith .retired)).withdraw i w.core) i (fun r => r.hod.isNone)
  have hz : ((s.putWave i (w.leaveWith .retired)).withdraw i w.core).waves[i]? = some (w.leaveWith .retired) := getElem?_set_same h _
  obtain ⟨o, ho⟩ := hd.waves i _ hz
  have hm := hd.mem
  have hc := hd.cores
  generalize ((s.putWave i (w.leaveWith .retired)).withdraw i w.core).dropRays i (fun r => r.hod.isNone) = u at ho hm hc ⊢
  have hb := (barsOnly_settleBars u w.team).trans (barsOnly_retireTeam _ w.team)
  obtain ⟨b, c, hw⟩ := hb.waves i _ ho
  refine ⟨⟨b, c, o, hw⟩, hb.beside.mem.trans hm, ?_⟩
  rw [hb.beside.cores, hc]
  show (modAt s.cores w.core _).length = _
  unfold modAt
  split
  · rfl
  · simp

end Sys2Proof.Machine
end

