-- ==== Sys2Proof/Laws/Memory.lean ====
section
/-!
SUPPORT. What the operations over memory, caches and translation leave alone, and the laws of bytes: a read after a write, and the
canonical form that every operation keeps.
-/

namespace Sys2Proof.Machine

/-! ## Memory operations change memory, caches and what is sent -/

/-- t differs from s at most in memory, in cores and in the device. -/
def State.memOnly (s t : State) : Prop := { t with mem := s.mem, cores := s.cores, sys := s.sys } = s

theorem State.memOnly.refl (s : State) : s.memOnly s := rfl

theorem State.memOnly.trans {s u t : State} (h : s.memOnly u) (k : u.memOnly t) : s.memOnly t := by
  have e := congrArg (fun x : State => { x with mem := s.mem, cores := s.cores, sys := s.sys }) k
  exact e.trans h

theorem State.memOnly.waves {s t : State} (h : s.memOnly t) : t.waves = s.waves := by
  have e := congrArg State.waves (show { t with mem := s.mem, cores := s.cores, sys := s.sys } = s from h)
  exact e
theorem State.memOnly.teams {s t : State} (h : s.memOnly t) : t.teams = s.teams := by
  have e := congrArg State.teams (show { t with mem := s.mem, cores := s.cores, sys := s.sys } = s from h)
  exact e
theorem State.memOnly.grids {s t : State} (h : s.memOnly t) : t.grids = s.grids := by
  have e := congrArg State.grids (show { t with mem := s.mem, cores := s.cores, sys := s.sys } = s from h)
  exact e
theorem State.memOnly.cur {s t : State} (h : s.memOnly t) : t.cur = s.cur := by
  have e := congrArg State.cur (show { t with mem := s.mem, cores := s.cores, sys := s.sys } = s from h)
  exact e
theorem State.memOnly.pfx {s t : State} (h : s.memOnly t) : t.pfx = s.pfx := by
  have e := congrArg State.pfx (show { t with mem := s.mem, cores := s.cores, sys := s.sys } = s from h)
  exact e
theorem State.memOnly.jobs {s t : State} (h : s.memOnly t) : t.jobs = s.jobs := by
  have e := congrArg State.jobs (show { t with mem := s.mem, cores := s.cores, sys := s.sys } = s from h)
  exact e

theorem memOnly_foldl {α : Type} (f : State → α → State) (hf : ∀ (s : State) (a : α), s.memOnly (f s a)) (l : List α) (s : State) :
    s.memOnly (l.foldl f s) := by
  induction l generalizing s with
  | nil => exact .refl s
  | cons a l ih => exact (hf s a).trans (ih (f s a))

/-! ### Events of storage, and what they log -/

theorem memOnly_sys (s : State) (y : Sys) : s.memOnly { s with sys := y } := rfl

theorem memOnly_msix (s : State) (v : Nat) : s.memOnly (s.msix v) := rfl

theorem memOnly_logError (s : State) (ws : Vector DWord 8) : s.memOnly (s.logError ws) := by
  unfold State.logError
  simp only
  split
  · exact memOnly_sys s _
  · exact (memOnly_sys s _).trans (memOnly_msix _ 0)

theorem memOnly_restoreRail (s : State) (rail : Nat) (good : Bool) : s.memOnly (s.restoreRail rail good) := by
  unfold State.restoreRail
  split
  · simp only
    split
    · rfl
    · refine State.memOnly.trans ?_ (memOnly_logError _ _); rfl
  · exact .refl s

theorem memOnly_retireArray (s : State) (r : Report) : s.memOnly (s.retireArray r) := by
  unfold State.retireArray
  simp only
  split
  · split
    · rfl
    · refine State.memOnly.trans ?_ (memOnly_logError _ _); rfl
  · split
    · refine State.memOnly.trans ?_ (memOnly_logError _ _); rfl
    · split
      · rfl
      · exact memOnly_logError _ _

theorem memOnly_countEvent (s : State) (r : Report) : s.memOnly (s.countEvent r) := by
  have hr : ∀ (z : State) (k site : Nat) (g : Bool), z.memOnly (((railOf k site).map fun rail => z.restoreRail rail g).getD z) := by
    intro z k site g
    cases railOf k site with
    | none => exact .refl z
    | some x => exact memOnly_restoreRail z x g
  unfold State.countEvent
  simp only
  split
  · split
    · exact hr s _ _ _
    · exact .refl s
  · split
    · exact .refl s
    · have hn : ∀ y : Sys, s.memOnly { s with sys := y } := memOnly_sys s
      split <;> split <;>
        first
        | exact hn _
        | exact (hn _).trans (hr _ _ _ _)
        | exact (hn _).trans (memOnly_retireArray _ _)
        | exact ((hn _).trans (hr _ _ _ _)).trans (memOnly_retireArray _ _)

theorem memOnly_report (s : State) (i : Option Nat) (r : Report) : s.memOnly (s.report i r) :=
  (memOnly_logError s _).trans (memOnly_countEvent _ r)

theorem memOnly_hbmEvent (s : State) (k : Nat) (c : EccClass) : s.memOnly (s.hbmEvent k c) := by
  unfold State.hbmEvent
  split
  · exact .refl s
  · exact .refl s
  · exact memOnly_report s _ _
  · refine State.memOnly.trans ?_ (memOnly_report _ _ _); rfl

theorem memOnly_readHbm (s : State) (l : List Nat) : s.memOnly (s.readHbm l) := by
  unfold State.readHbm
  split
  · exact .refl s
  · refine State.memOnly.trans ?_ (memOnly_foldl _ (fun z q => memOnly_hbmEvent z _ _) _ _); rfl

theorem memOnly_fetchSectors (s : State) (p : Loc) (m : BitVec 4) : s.memOnly (s.fetchSectors p m) :=
  (memOnly_readHbm s _).trans rfl

/-! ### Requests that leave the device -/

theorem memOnly_askFor (s : State) (i : Nat) (strm : Strm) (out : Nat) (ls : List Lane) (va : Nat) (p : Loc) (op : FabOp) (bad : Bool) :
    s.memOnly (s.askFor i strm out ls va p op bad) := by
  unfold State.askFor
  cases p <;> rfl

theorem memOnly_sentVia {s z : State} (h : s.memOnly z) (part asid : Nat) : s.memOnly (s.sentVia z part asid) := by
  unfold State.sentVia
  simp only
  split
  · exact h
  · exact h.trans rfl

theorem memOnly_sendOut (s : State) (i : Nat) (strm : Strm) (out : Nat) (ls : List Lane) (h : Loc) (ov : Overlay) (bad : List Nat) :
    s.memOnly (s.sendOut i strm out ls h ov bad) := by
  have one : ∀ (z : State) (o : Overlay) (b : Bool), z.memOnly (match o, h with
      | [], _ => z
      | o, .host a => { z with sys := { z.sys with links := { z.sys.links with
          sent := z.sys.links.sent ++ (runs o).map fun e => .host (a + e.1 % 256) e.2 b } } }
      | o, _ => z.askFor i strm out ls (enables o).1 (h.add ((enables o).1 % 256)) (.write (enables o).2) b) := by
    intro z o b
    split
    · exact .refl z
    · rfl
    · exact memOnly_askFor z _ _ _ _ _ _ _ _
  exact (one s _ false).trans (one _ _ true)

theorem memOnly_home (s : State) (h : Loc) (ov : Overlay) (p : List Nat) : s.memOnly (s.home h ov p) := by
  unfold State.home
  split
  · exact .refl s
  · split
    · exact (memOnly_fetchSectors s h _).trans rfl
    · exact memOnly_sendOut s _ _ _ _ _ _ _

theorem memOnly_applyPartials (s : State) (x : L1Line) : s.memOnly (s.applyPartials x) := by
  unfold State.applyPartials
  split
  · exact .refl s
  · refine memOnly_foldl _ (fun z e => ?_) _ s
    simp only
    split
    · split
      · exact (memOnly_fetchSectors z _ _).trans (memOnly_report _ _ _)
      · exact (memOnly_fetchSectors z _ _).trans rfl
    · exact memOnly_askFor z _ _ _ _ _ _ _ _

theorem memOnly_modCore (s : State) (c : Nat) (f : Core → Core) : s.memOnly (s.modCore c f) := rfl

theorem memOnly_flush (s : State) (c : Nat) (sel : L1Line → Bool) : s.memOnly (s.flush c sel) := by
  unfold State.flush
  split
  · exact .refl s
  · simp only
    split
    · exact .refl s
    · exact (memOnly_foldl _ (fun z x => memOnly_sentVia ((memOnly_applyPartials z x).trans (memOnly_home _ _ _ _)) _ _) _ s).trans
        (memOnly_modCore _ _ _)

theorem memOnly_release (s : State) (c : Nat) (k : Scope) : s.memOnly (s.release c k) := by
  unfold State.release
  split
  · exact memOnly_flush s c _
  · exact .refl s

theorem memOnly_recallGathers (s : State) (h : Loc) : s.memOnly (s.recallGathers h) :=
  memOnly_foldl _ (fun z c => memOnly_flush z c _) _ s

theorem memOnly_recall (s : State) (h : Loc) : s.memOnly (s.recall h) :=
  memOnly_foldl _ (fun z c => memOnly_flush z c _) _ s

end Sys2Proof.Machine
end

