-- ==== Sys2Proof/Laws/Cells.lean ====
section
/-!
SUPPORT. The laws of bytes: a byte is read as it was last written, a write leaves every other place alone, and every operation over
memory keeps the canonical form.
-/

namespace Sys2Proof.Machine

/-! ## The canonical form of a list of bytes -/

theorem cellsAbove_mono {a b : Nat} {c : Cells} (h : cellsAbove b c = true) (hab : a ≤ b) : cellsAbove a c = true := by
  cases c with
  | nil => rfl
  | cons e t =>
    simp only [cellsAbove, Bool.and_eq_true, decide_eq_true_eq] at h ⊢
    exact ⟨⟨Nat.le_trans hab h.1.1, h.1.2⟩, h.2⟩

theorem cellsAbove_cellPut {lo : Nat} {c : Cells} {a : Nat} {b : Byte} (h : cellsAbove lo c = true) (ha : lo ≤ a) :
    cellsAbove lo (cellPut c a b) = true := by
  induction c generalizing lo with
  | nil => unfold cellPut; split <;> simp_all [cellsAbove]
  | cons e t ih =>
    simp only [cellsAbove, Bool.and_eq_true, decide_eq_true_eq] at h
    unfold cellPut
    split
    · split
      · simp_all [cellsAbove]
      · first | (simp_all [cellsAbove]; done) | (simp_all [cellsAbove]; omega)
    · split
      · split
        · exact cellsAbove_mono h.2 (by omega)
        · simp_all [cellsAbove]
      · simp only [cellsAbove, Bool.and_eq_true, decide_eq_true_eq]
        exact ⟨h.1, ih h.2 (by omega)⟩

theorem cellsAbove_filter {lo : Nat} {c : Cells} (p : Nat × Byte → Bool) (h : cellsAbove lo c = true) :
    cellsAbove lo (c.filter p) = true := by
  induction c generalizing lo with
  | nil => rfl
  | cons e t ih =>
    simp only [cellsAbove, Bool.and_eq_true, decide_eq_true_eq] at h
    rw [List.filter_cons]
    split
    · simp only [cellsAbove, Bool.and_eq_true, decide_eq_true_eq]
      exact ⟨h.1, ih h.2⟩
    · exact cellsAbove_mono (ih h.2) (by omega)

theorem wf_cellPut {c : Cells} (a : Nat) (b : Byte) (h : Cells.wf c = true) : Cells.wf (cellPut c a b) = true :=
  cellsAbove_cellPut h (Nat.zero_le a)

theorem wf_cellWrite {c : Cells} (a : Nat) (bs : List Byte) (h : Cells.wf c = true) : Cells.wf (cellWrite c a bs) = true := by
  induction bs generalizing c a with
  | nil => exact h
  | cons b bs ih => exact ih (a + 1) (wf_cellPut a b h)

theorem wf_filter {c : Cells} (p : Nat × Byte → Bool) (h : Cells.wf c = true) : Cells.wf (c.filter p) = true :=
  cellsAbove_filter p h

theorem wf_cellZero {c : Cells} (lo len : Nat) (h : Cells.wf c = true) : Cells.wf (cellZero c lo len) = true := wf_filter _ h

/-! ## A read after a write -/

theorem cellGet_above {lo a : Nat} {c : Cells} (h : cellsAbove lo c = true) (ha : a < lo) : cellGet c a = 0 := by
  cases c with
  | nil => rfl
  | cons e t =>
    simp only [cellsAbove, Bool.and_eq_true, decide_eq_true_eq] at h
    unfold cellGet
    rw [if_neg (by omega), if_pos (by omega)]

theorem cellGet_cellPut_above {lo : Nat} {c : Cells} (a x : Nat) (b : Byte) (h : cellsAbove lo c = true) :
    cellGet (cellPut c a b) x = if x = a then b else cellGet c x := by
  induction c generalizing lo with
  | nil => unfold cellPut; split <;> simp_all [cellGet]
  | cons e t ih =>
    obtain ⟨k, v⟩ := e
    simp only [cellsAbove, Bool.and_eq_true, decide_eq_true_eq] at h
    have ih := ih h.2
    have below : ∀ y, y < k + 1 → cellGet t y = 0 := fun y hy => cellGet_above h.2 hy
    unfold cellPut
    split
    · split
      · next ha hb =>
        subst hb
        by_cases hx : x = a
        · subst hx; rw [if_pos rfl]; simp only [cellGet]; rw [if_neg (by omega), if_pos (by omega)]
        · rw [if_neg hx]
      · by_cases hx : x = a
        · simp [cellGet, hx]
        · rw [if_neg hx]
          conv => lhs; unfold cellGet
          rw [if_neg hx]
          split
          · next h1 => simp only [cellGet]; rw [if_neg (by omega), if_pos (by omega)]
          · rfl
    · split
      · next h1 h2 =>
        subst h2
        split
        · next hb =>
          by_cases hx : x = a
          · rw [if_pos hx, hb]; exact below x (by omega)
          · rw [if_neg hx]
            conv => rhs; unfold cellGet
            rw [if_neg hx]
            split
            · next h3 => exact below x (by omega)
            · rfl
        · by_cases hx : x = a
          · simp [cellGet, hx]
          · simp [cellGet, hx]
      · next h1 h2 =>
        conv => lhs; unfold cellGet
        conv => rhs; unfold cellGet
        by_cases hx : x = a
        · subst hx
          rw [if_neg h2, if_neg h1, if_pos rfl, ih, if_pos rfl]
        · rw [if_neg hx, ih, if_neg hx]

theorem cellGet_cellPut {c : Cells} (a x : Nat) (b : Byte) (h : Cells.wf c = true) :
    cellGet (cellPut c a b) x = if x = a then b else cellGet c x := cellGet_cellPut_above a x b h

/-! ## Memory -/

theorem Mem.wf_iff (m : Mem) : m.wf = true ↔ Cells.wf m.hbm = true ∧ Cells.wf m.carved = true := by
  unfold Mem.wf; exact Bool.and_eq_true_iff

@[simp] theorem Mem.setPoison_hbm (m : Mem) (p : Loc) (b : Bool) : (m.setPoison p b).hbm = m.hbm := by cases p <;> rfl
@[simp] theorem Mem.setPoison_carved (m : Mem) (p : Loc) (b : Bool) : (m.setPoison p b).carved = m.carved := by cases p <;> rfl

theorem Mem.wf_setPoison {m : Mem} (p : Loc) (b : Bool) (h : m.wf = true) : (m.setPoison p b).wf = true := by
  rw [Mem.wf_iff] at h ⊢; simpa using h

theorem wf_foldl {α : Type} (f : Mem → α → Mem) (hf : ∀ (m : Mem) (a : α), m.wf = true → (f m a).wf = true) (l : List α) {m : Mem}
    (h : m.wf = true) : (l.foldl f m).wf = true := by
  induction l generalizing m with
  | nil => exact h
  | cons a l ih => exact ih (hf m a h)

theorem Mem.wf_putByte {m : Mem} (p : Loc) (b : Byte) (h : m.wf = true) : (m.putByte p b).wf = true := by
  rw [Mem.wf_iff] at h ⊢
  cases p with
  | hbm a => exact ⟨wf_cellPut a b h.1, h.2⟩
  | carved a => exact ⟨h.1, wf_cellPut a b h.2⟩
  | host a => exact h
  | fabric d r a => exact h

theorem Mem.wf_writeLine {m : Mem} (x : LlcLine) (h : m.wf = true) : (m.writeLine x).wf = true := by
  unfold Mem.writeLine
  split
  · refine wf_foldl _ (fun y k hy => Mem.wf_setPoison _ _ hy) _ ?_
    rw [Mem.wf_iff] at h ⊢
    exact ⟨wf_cellWrite _ _ h.1, h.2⟩
  · exact h

theorem Mem.wf_evict {m : Mem} (x : LlcLine) (h : m.wf = true) : (m.evict x).wf = true := Mem.wf_writeLine x h

theorem Mem.wf_uncount {m : Mem} (p : Loc) (h : m.wf = true) : (m.uncount p).wf = true := by
  unfold Mem.uncount
  split
  · exact h
  · exact Mem.wf_writeLine _ h

theorem Mem.wf_putBytes {m : Mem} (p : Loc) (bs : List Byte) (h : m.wf = true) : (m.putBytes p bs).wf = true :=
  wf_foldl _ (fun _ _ hy => Mem.wf_putByte _ _ hy) _ (Mem.wf_uncount p h)

theorem Mem.wf_zeroAt {m : Mem} (p : Loc) (len : Nat) (h : m.wf = true) : (m.zeroAt p len).wf = true := by
  rw [Mem.wf_iff] at h ⊢
  cases p with
  | hbm a => exact ⟨wf_cellZero a len h.1, h.2⟩
  | carved a => exact ⟨h.1, wf_cellZero a len h.2⟩
  | host a => exact h
  | fabric d r a => exact h

/-- Memory after reset lists nothing. -/
theorem Mem.wf_reset : State.reset.mem.wf = true := rfl

@[simp] theorem Mem.putByte_llc (m : Mem) (p : Loc) (b : Byte) : (m.putByte p b).llc = m.llc := by cases p <;> rfl

theorem Mem.byte_putByte_same {m : Mem} (p : Loc) (b : Byte) (h : m.wf = true) (hn : p.near = true) (hc : m.counted? p = none) :
    (m.putByte p b).byte p = b := by
  have hc' : (m.putByte p b).counted? p = none := by simpa [Mem.counted?] using hc
  unfold Mem.byte
  rw [hc']
  rw [Mem.wf_iff] at h
  cases p with
  | hbm a => exact (cellGet_cellPut a a b h.1).trans (if_pos rfl)
  | carved a => exact (cellGet_cellPut a a b h.2).trans (if_pos rfl)
  | host a => cases hn
  | fabric d r a => cases hn

end Sys2Proof.Machine
end

