-- ==== Sys2Proof/Laws/PerInstr.lean ====
section
/-!
SUPPORT. Laws of instructions as syntax, made per instruction: how many words an instruction has.
-/

namespace Sys2Proof.Laws.Encoding

/-- R132: an S-op is one word and an L-op three; a handler action and a step of the device have none. -/
def Statement (i : Instr) : Prop := (encode i).length = 0 ∨ (encode i).length = 1 ∨ (encode i).length = 3

theorem sadd (d a : SReg) (b : SrcB) : Statement (.sadd d a b) := by cases b <;> exact .inr (.inl rfl)
theorem ssub (d a : SReg) (b : SrcB) : Statement (.ssub d a b) := by cases b <;> exact .inr (.inl rfl)
theorem sand (d a : SReg) (b : SrcB) : Statement (.sand d a b) := by cases b <;> exact .inr (.inl rfl)
theorem sor (d a : SReg) (b : SrcB) : Statement (.sor d a b) := by cases b <;> exact .inr (.inl rfl)
theorem sxor (d a : SReg) (b : SrcB) : Statement (.sxor d a b) := by cases b <;> exact .inr (.inl rfl)
theorem sshl (d a : SReg) (b : SrcB) : Statement (.sshl d a b) := by cases b <;> exact .inr (.inl rfl)
theorem sshr (d a : SReg) (b : SrcB) : Statement (.sshr d a b) := by cases b <;> exact .inr (.inl rfl)
theorem ssar (d a : SReg) (b : SrcB) : Statement (.ssar d a b) := by cases b <;> exact .inr (.inl rfl)
theorem smul (d a : SReg) (b : SrcB) : Statement (.smul d a b) := by cases b <;> exact .inr (.inl rfl)
theorem smulh (d a : SReg) (b : SrcB) : Statement (.smulh d a b) := by cases b <;> exact .inr (.inl rfl)
theorem smulhU (d a : SReg) (b : SrcB) : Statement (.smulhU d a b) := by cases b <;> exact .inr (.inl rfl)
theorem sdiv (d a : SReg) (b : SrcB) : Statement (.sdiv d a b) := by cases b <;> exact .inr (.inl rfl)
theorem sdivU (d a : SReg) (b : SrcB) : Statement (.sdivU d a b) := by cases b <;> exact .inr (.inl rfl)
theorem srem (d a : SReg) (b : SrcB) : Statement (.srem d a b) := by cases b <;> exact .inr (.inl rfl)
theorem sremU (d a : SReg) (b : SrcB) : Statement (.sremU d a b) := by cases b <;> exact .inr (.inl rfl)
theorem smin (d a : SReg) (b : SrcB) : Statement (.smin d a b) := by cases b <;> exact .inr (.inl rfl)
theorem smax (d a : SReg) (b : SrcB) : Statement (.smax d a b) := by cases b <;> exact .inr (.inl rfl)
theorem sminU (d a : SReg) (b : SrcB) : Statement (.sminU d a b) := by cases b <;> exact .inr (.inl rfl)
theorem smaxU (d a : SReg) (b : SrcB) : Statement (.smaxU d a b) := by cases b <;> exact .inr (.inl rfl)
theorem scmp (c : Cond) (d a : SReg) (b : SrcB) : Statement (.scmp c d a b) := by cases b <;> exact .inr (.inl rfl)
theorem sselNz (d a : SReg) (b : SrcB) : Statement (.sselNz d a b) := by cases b <;> exact .inr (.inl rfl)
theorem sselZ (d a : SReg) (b : SrcB) : Statement (.sselZ d a b) := by cases b <;> exact .inr (.inl rfl)
theorem sli (d : SReg) (imm : BitVec 20) : Statement (.sli d imm) := .inr (.inl rfl)
theorem slui (d : SReg) (imm : BitVec 20) : Statement (.slui d imm) := .inr (.inl rfl)
theorem sbr (c : Cond) (a b : SReg) (off : BitVec 11) : Statement (.sbr c a b off) := .inr (.inl rfl)
theorem sjmp (off : BitVec 20) : Statement (.sjmp off) := .inr (.inl rfl)
theorem scall (d : SReg) (off : BitVec 20) : Statement (.scall d off) := .inr (.inl rfl)
theorem sret (a : SReg) : Statement (.sret a) := .inr (.inl rfl)
theorem sloop (d : SReg) (off : BitVec 20) : Statement (.sloop d off) := .inr (.inl rfl)
theorem sld (d a : SReg) (ann : Ann) (sz : SSize) (sx : Bool) (off : BitVec 6) : Statement (.sld d a ann sz sx off) := .inr (.inl rfl)
theorem sst (d a : SReg) (ann : Ann) (sz : SSize) (off : BitVec 6) : Statement (.sst d a ann sz off) := .inr (.inl rfl)
theorem satom (d a : SReg) (op : SAtomOp) (wide nr ordm : Bool) (ann : Ann) : Statement (.satom d a op wide nr ordm ann) := .inr (.inl rfl)
theorem sldk (d a : SReg) (sz : SSize) (sx : Bool) (off : BitVec 6) : Statement (.sldk d a sz sx off) := .inr (.inl rfl)
theorem lrun (a : SReg) (cnt : BitVec 3) (off : BitVec 17) : Statement (.lrun a cnt off) := .inr (.inl rfl)
theorem spop (d : SReg) : Statement (.spop d) := .inr (.inl rfl)
theorem ldrain : Statement (.ldrain) := .inr (.inl rfl)
theorem regxAcq (k : BitVec 10) : Statement (.regxAcq k) := .inr (.inl rfl)
theorem regxRel (k : BitVec 10) : Statement (.regxRel k) := .inr (.inl rfl)
theorem jcopyLoad (a b : SReg) (rel : Bool) : Statement (.jcopyLoad a b rel) := .inr (.inl rfl)
theorem jcopyStore (a b : SReg) (rel : Bool) : Statement (.jcopyStore a b rel) := .inr (.inl rfl)
theorem jcopyAdd (a b : SReg) (rel : Bool) : Statement (.jcopyAdd a b rel) := .inr (.inl rfl)
theorem jstat (d : SReg) (tag : BitVec 10) : Statement (.jstat d tag) := .inr (.inl rfl)
theorem cwait (a b : SReg) (tags y any : Bool) (off : BitVec 11) : Statement (.cwait a b tags y any off) := .inr (.inl rfl)
theorem ctest (d a b : SReg) (tags : Bool) : Statement (.ctest d a b tags) := .inr (.inl rfl)
theorem wcnt (d : SReg) : Statement (.wcnt d) := .inr (.inl rfl)
theorem rgnBeg (id : BitVec 10) : Statement (.rgnBeg id) := .inr (.inl rfl)
theorem rgnEnd (d : SReg) : Statement (.rgnEnd d) := .inr (.inl rfl)
theorem rgnIn (a b : SReg) : Statement (.rgnIn a b) := .inr (.inl rfl)
theorem rgnOut (a b : SReg) : Statement (.rgnOut a b) := .inr (.inl rfl)
theorem bond (a : SReg) : Statement (.bond a) := .inr (.inl rfl)
theorem barArr (id : BitVec 10) : Statement (.barArr id) := .inr (.inl rfl)
theorem barWait (d : SReg) (id : BitVec 10) : Statement (.barWait d id) := .inr (.inl rfl)
theorem cbarArr (id : BitVec 10) : Statement (.cbarArr id) := .inr (.inl rfl)
theorem cbarWait (d : SReg) (id : BitVec 10) : Statement (.cbarWait d id) := .inr (.inl rfl)
theorem trap (n : BitVec 10) : Statement (.trap n) := .inr (.inl rfl)
theorem sysc (d a : SReg) (n : BitVec 10) : Statement (.sysc d a n) := .inr (.inl rfl)
theorem srdx (d : SReg) (n : BitVec 10) : Statement (.srdx d n) := .inr (.inl rfl)
theorem swrx (a : SReg) (n : BitVec 10) : Statement (.swrx a n) := .inr (.inl rfl)
theorem nop : Statement (.nop) := .inr (.inl rfl)
theorem yield (n : BitVec 10) : Statement (.yield n) := .inr (.inl rfl)
theorem exit : Statement (.exit) := .inr (.inl rfl)
theorem rseed (a : SReg) : Statement (.rseed a) := .inr (.inl rfl)
theorem xim (payload : BitVec 26) : Statement (.xim payload) := .inr (.inl rfl)
theorem xhnt (kind : HintKind) (n : BitVec 8) : Statement (.xhnt kind n) := .inr (.inl rfl)
theorem iadd (c : LCtl) (ty : IntTy) (sat : Bool) (d : Dst) (a b : Opnd) : Statement (.iadd c ty sat d a b) := .inr (.inr rfl)
theorem iaddImm (c : LCtl) (ty : IntTy) (sat : Bool) (d : Dst) (a : Opnd) (imm : Word) : Statement (.iaddImm c ty sat d a imm) := .inr (.inr rfl)
theorem isub (c : LCtl) (ty : IntTy) (sat : Bool) (d : Dst) (a b : Opnd) : Statement (.isub c ty sat d a b) := .inr (.inr rfl)
theorem isubImm (c : LCtl) (ty : IntTy) (sat : Bool) (d : Dst) (a : Opnd) (imm : Word) : Statement (.isubImm c ty sat d a imm) := .inr (.inr rfl)
theorem imul (c : LCtl) (ty : IntTy) (sat : Bool) (d : Dst) (a b : Opnd) : Statement (.imul c ty sat d a b) := .inr (.inr rfl)
theorem imulImm (c : LCtl) (ty : IntTy) (sat : Bool) (d : Dst) (a : Opnd) (imm : Word) : Statement (.imulImm c ty sat d a imm) := .inr (.inr rfl)
theorem imulh (c : LCtl) (ty : IntTy) (d : Dst) (a b : Opnd) : Statement (.imulh c ty d a b) := .inr (.inr rfl)
theorem imulhImm (c : LCtl) (ty : IntTy) (d : Dst) (a : Opnd) (imm : Word) : Statement (.imulhImm c ty d a imm) := .inr (.inr rfl)
theorem imad (c : LCtl) (ty : IntTy) (sat : Bool) (d : Dst) (a b x : Opnd) : Statement (.imad c ty sat d a b x) := .inr (.inr rfl)
theorem idiv (c : LCtl) (ty : IntTy) (rem : Bool) (d : Dst) (a b : Opnd) : Statement (.idiv c ty rem d a b) := .inr (.inr rfl)
theorem idivImm (c : LCtl) (ty : IntTy) (rem : Bool) (d : Dst) (a : Opnd) (imm : Word) : Statement (.idivImm c ty rem d a imm) := .inr (.inr rfl)
theorem ilop (c : LCtl) (ty : IntTy) (op : LogicOp) (d : Dst) (a b : Opnd) : Statement (.ilop c ty op d a b) := .inr (.inr rfl)
theorem ilopImm (c : LCtl) (ty : IntTy) (op : LogicOp) (d : Dst) (a : Opnd) (imm : Word) : Statement (.ilopImm c ty op d a imm) := .inr (.inr rfl)
theorem ishf (c : LCtl) (ty : IntTy) (op : ShiftOp) (clamp : Bool) (d : Dst) (a b : Opnd) : Statement (.ishf c ty op clamp d a b) := .inr (.inr rfl)
theorem ishfImm (c : LCtl) (ty : IntTy) (op : ShiftOp) (clamp : Bool) (d : Dst) (a : Opnd) (imm : Word) : Statement (.ishfImm c ty op clamp d a imm) := .inr (.inr rfl)
theorem imin (c : LCtl) (ty : IntTy) (d : Dst) (a b : Opnd) : Statement (.imin c ty d a b) := .inr (.inr rfl)
theorem iminImm (c : LCtl) (ty : IntTy) (d : Dst) (a : Opnd) (imm : Word) : Statement (.iminImm c ty d a imm) := .inr (.inr rfl)
theorem imax (c : LCtl) (ty : IntTy) (d : Dst) (a b : Opnd) : Statement (.imax c ty d a b) := .inr (.inr rfl)
theorem imaxImm (c : LCtl) (ty : IntTy) (d : Dst) (a : Opnd) (imm : Word) : Statement (.imaxImm c ty d a imm) := .inr (.inr rfl)
theorem iabs (c : LCtl) (ty : IntTy) (sat : Bool) (d : Dst) (a : Opnd) : Statement (.iabs c ty sat d a) := .inr (.inr rfl)
theorem icmp (c : LCtl) (ty : IntTy) (cond : ICond) (d : Dst) (a b : Opnd) : Statement (.icmp c ty cond d a b) := .inr (.inr rfl)
theorem icmpImm (c : LCtl) (ty : IntTy) (cond : ICond) (d : Dst) (a : Opnd) (imm : Word) : Statement (.icmpImm c ty cond d a imm) := .inr (.inr rfl)
theorem isel (c : LCtl) (ty : IntTy) (z : Bool) (d : Dst) (a b : Opnd) : Statement (.isel c ty z d a b) := .inr (.inr rfl)
theorem iselImm (c : LCtl) (ty : IntTy) (z : Bool) (d : Dst) (a : Opnd) (imm : Word) : Statement (.iselImm c ty z d a imm) := .inr (.inr rfl)
theorem ipopc (c : LCtl) (ty : IntTy) (d : Dst) (a : Opnd) : Statement (.ipopc c ty d a) := .inr (.inr rfl)
theorem iclz (c : LCtl) (ty : IntTy) (d : Dst) (a : Opnd) : Statement (.iclz c ty d a) := .inr (.inr rfl)
theorem ibrev (c : LCtl) (ty : IntTy) (d : Dst) (a : Opnd) : Statement (.ibrev c ty d a) := .inr (.inr rfl)
theorem iprmt (c : LCtl) (ty : IntTy) (d : Dst) (a b : Opnd) : Statement (.iprmt c ty d a b) := .inr (.inr rfl)
theorem iprmtImm (c : LCtl) (ty : IntTy) (d : Dst) (a : Opnd) (imm : Word) : Statement (.iprmtImm c ty d a imm) := .inr (.inr rfl)
theorem iext (c : LCtl) (ty : IntTy) (d : Dst) (a b : Opnd) : Statement (.iext c ty d a b) := .inr (.inr rfl)
theorem iextImm (c : LCtl) (ty : IntTy) (d : Dst) (a : Opnd) (imm : Word) : Statement (.iextImm c ty d a imm) := .inr (.inr rfl)
theorem iins (c : LCtl) (ty : IntTy) (d : Dst) (a b x : Opnd) : Statement (.iins c ty d a b x) := .inr (.inr rfl)
theorem fadd (c : LCtl) (ty : FTy) (rnd : Rnd) (d : Dst) (a b : Opnd) : Statement (.fadd c ty rnd d a b) := .inr (.inr rfl)
theorem faddImm (c : LCtl) (ty : FTy) (rnd : Rnd) (d : Dst) (a : Opnd) (imm : Word) : Statement (.faddImm c ty rnd d a imm) := .inr (.inr rfl)
theorem fsub (c : LCtl) (ty : FTy) (rnd : Rnd) (d : Dst) (a b : Opnd) : Statement (.fsub c ty rnd d a b) := .inr (.inr rfl)
theorem fsubImm (c : LCtl) (ty : FTy) (rnd : Rnd) (d : Dst) (a : Opnd) (imm : Word) : Statement (.fsubImm c ty rnd d a imm) := .inr (.inr rfl)
theorem fmul (c : LCtl) (ty : FTy) (rnd : Rnd) (d : Dst) (a b : Opnd) : Statement (.fmul c ty rnd d a b) := .inr (.inr rfl)
theorem fmulImm (c : LCtl) (ty : FTy) (rnd : Rnd) (d : Dst) (a : Opnd) (imm : Word) : Statement (.fmulImm c ty rnd d a imm) := .inr (.inr rfl)
theorem ffma (c : LCtl) (ty : FTy) (rnd : Rnd) (d : Dst) (a b x : Opnd) : Statement (.ffma c ty rnd d a b x) := .inr (.inr rfl)
theorem fmin (c : LCtl) (ty : FTy) (nan : Bool) (d : Dst) (a b : Opnd) : Statement (.fmin c ty nan d a b) := .inr (.inr rfl)
theorem fminImm (c : LCtl) (ty : FTy) (nan : Bool) (d : Dst) (a : Opnd) (imm : Word) : Statement (.fminImm c ty nan d a imm) := .inr (.inr rfl)
theorem fmax (c : LCtl) (ty : FTy) (nan : Bool) (d : Dst) (a b : Opnd) : Statement (.fmax c ty nan d a b) := .inr (.inr rfl)
theorem fmaxImm (c : LCtl) (ty : FTy) (nan : Bool) (d : Dst) (a : Opnd) (imm : Word) : Statement (.fmaxImm c ty nan d a imm) := .inr (.inr rfl)
theorem fcmp (c : LCtl) (ty : FTy) (cond : FCond) (d : Dst) (a b : Opnd) : Statement (.fcmp c ty cond d a b) := .inr (.inr rfl)
theorem fcmpImm (c : LCtl) (ty : FTy) (cond : FCond) (d : Dst) (a : Opnd) (imm : Word) : Statement (.fcmpImm c ty cond d a imm) := .inr (.inr rfl)
theorem fclass (c : LCtl) (ty : FTy) (d : Dst) (a : Opnd) : Statement (.fclass c ty d a) := .inr (.inr rfl)
theorem fdiv (c : LCtl) (ty : FTy) (rnd : Rnd) (d : Dst) (a b : Opnd) : Statement (.fdiv c ty rnd d a b) := .inr (.inr rfl)
theorem fdivImm (c : LCtl) (ty : FTy) (rnd : Rnd) (d : Dst) (a : Opnd) (imm : Word) : Statement (.fdivImm c ty rnd d a imm) := .inr (.inr rfl)
theorem fsqrt (c : LCtl) (ty : FTy) (rnd : Rnd) (d : Dst) (a : Opnd) : Statement (.fsqrt c ty rnd d a) := .inr (.inr rfl)
theorem frcp (c : LCtl) (ty : FTy) (d : Dst) (a : Opnd) : Statement (.frcp c ty d a) := .inr (.inr rfl)
theorem frsq (c : LCtl) (ty : FTy) (d : Dst) (a : Opnd) : Statement (.frsq c ty d a) := .inr (.inr rfl)
theorem fscale (c : LCtl) (ty : FTy) (rnd : Rnd) (d : Dst) (a b : Opnd) : Statement (.fscale c ty rnd d a b) := .inr (.inr rfl)
theorem fscaleImm (c : LCtl) (ty : FTy) (rnd : Rnd) (d : Dst) (a : Opnd) (imm : Word) : Statement (.fscaleImm c ty rnd d a imm) := .inr (.inr rfl)
theorem frnd (c : LCtl) (ty : FTy) (rnd : Rnd) (d : Dst) (a : Opnd) : Statement (.frnd c ty rnd d a) := .inr (.inr rfl)
theorem fcvt (c : LCtl) (k : Cvt) (d : Dst) (a : Opnd) : Statement (.fcvt c k d a) := .inr (.inr rfl)
theorem fpack (c : LCtl) (k : Cvt) (d : Dst) (a b : Opnd) : Statement (.fpack c k d a b) := .inr (.inr rfl)
theorem funpk (c : LCtl) (k : Cvt) (elem : BitVec 3) (d : Dst) (a b : Opnd) : Statement (.funpk c k elem d a b) := .inr (.inr rfl)
theorem fexp2 (c : LCtl) (ty : FTy) (d : Dst) (a : Opnd) : Statement (.fexp2 c ty d a) := .inr (.inr rfl)
theorem flog2 (c : LCtl) (ty : FTy) (d : Dst) (a : Opnd) : Statement (.flog2 c ty d a) := .inr (.inr rfl)
theorem fsin (c : LCtl) (ty : FTy) (d : Dst) (a : Opnd) : Statement (.fsin c ty d a) := .inr (.inr rfl)
theorem fcos (c : LCtl) (ty : FTy) (d : Dst) (a : Opnd) : Statement (.fcos c ty d a) := .inr (.inr rfl)
theorem lhdr (z : Bool) (ranges : List RangeDesc) : Statement (.lhdr z ranges) := .inr (.inr rfl)
theorem mov (c : LCtl) (op : MovOp) : Statement (.mov c op) := by cases op <;> exact .inr (.inr rfl)
theorem movImm (c : LCtl) (w64 : Bool) (d : Dst) (imm : Word) : Statement (.movImm c w64 d imm) := .inr (.inr rfl)
theorem shfl (c : LCtl) (mode : ShflMode) (w64 : Bool) (d : Dst) (a : Opnd) (sel : ShflSel) : Statement (.shfl c mode w64 d a sel) := by cases sel <;> exact .inr (.inr rfl)
theorem vote (c : LCtl) (mode : VoteMode) (a : Opnd) : Statement (.vote c mode a) := .inr (.inr rfl)
theorem lred (c : LCtl) (ty : RedTy) (op : RedOp) (l : Bool) (d : Dst) (a : Opnd) : Statement (.lred c ty op l d a) := .inr (.inr rfl)
theorem lbr (c : LCtl) (taken join : BitVec 16) : Statement (.lbr c taken join) := .inr (.inr rfl)
theorem ljoin (c : LCtl) : Statement (.ljoin c) := .inr (.inr rfl)
theorem lend (c : LCtl) : Statement (.lend c) := .inr (.inr rfl)
theorem lkill (c : LCtl) : Statement (.lkill c) := .inr (.inr rfl)
theorem ld (c : LCtl) (sz : MSize) (hint : LHint) (ann : Ann) (d : Dst) (a : Opnd) (off : BitVec 23) : Statement (.ld c sz hint ann d a off) := .inr (.inr rfl)
theorem st (c : LCtl) (sz : MSize) (hint : LHint) (ann : Ann) (a b : Opnd) (rc : BitVec 8) (off : BitVec 23) : Statement (.st c sz hint ann a b rc off) := .inr (.inr rfl)
theorem lds (c : LCtl) (sz : MSize) (ann : Ann) (d : Dst) (a : Opnd) (off : BitVec 23) : Statement (.lds c sz ann d a off) := .inr (.inr rfl)
theorem sts (c : LCtl) (sz : MSize) (ann : Ann) (a b : Opnd) (off : BitVec 23) : Statement (.sts c sz ann a b off) := .inr (.inr rfl)
theorem ldr (c : LCtl) (sz : MSize) (ann : Ann) (d : Dst) (a : Opnd) (off : BitVec 23) : Statement (.ldr c sz ann d a off) := .inr (.inr rfl)
theorem str (c : LCtl) (sz : MSize) (ann : Ann) (a b : Opnd) (off : BitVec 23) : Statement (.str c sz ann a b off) := .inr (.inr rfl)
theorem atom (c : LCtl) (op : AtomOp) (ordm : Bool) (ann : Ann) (d : Dst) (a b x : Opnd) (off : BitVec 23) : Statement (.atom c op ordm ann d a b x off) := .inr (.inr rfl)
theorem red (c : LCtl) (op : AtomOp) (ordm : Bool) (ann : Ann) (a b : Opnd) (off : BitVec 23) : Statement (.red c op ordm ann a b off) := .inr (.inr rfl)
theorem push (c : LCtl) (w64 rel : Bool) (port : Port) (b : Opnd) (st : Option PReg) : Statement (.push c w64 rel port b st) := .inr (.inr rfl)
theorem pop (c : LCtl) (w64 acq : Bool) (d : Dst) (port : Port) (st : Option PReg) : Statement (.pop c w64 acq d port st) := .inr (.inr rfl)
theorem peek (c : LCtl) (w64 acq : Bool) (d : Dst) (port : Port) (st : Option PReg) : Statement (.peek c w64 acq d port st) := .inr (.inr rfl)
theorem pstat (c : LCtl) (d : Dst) (port : Port) : Statement (.pstat c d port) := .inr (.inr rfl)
theorem rsvUpd (c : LCtl) (n : ZReg) (a b x : Opnd) : Statement (.rsvUpd c n a b x) := .inr (.inr rfl)
theorem rsvMrg (c : LCtl) (n s : ZReg) (b : Opnd) (cap : BitVec 23) : Statement (.rsvMrg c n s b cap) := .inr (.inr rfl)
theorem rsvFin (c : LCtl) (n : ZReg) (d : Dst) : Statement (.rsvFin c n d) := .inr (.inr rfl)
theorem rsvSet (c : LCtl) (n : ZReg) (f : ZField) (a : Opnd) : Statement (.rsvSet c n f a) := .inr (.inr rfl)
theorem rsvGet (c : LCtl) (n : ZReg) (f : ZField) (d : Dst) : Statement (.rsvGet c n f d) := .inr (.inr rfl)
theorem rsvClr (c : LCtl) (mask : BitVec 8) : Statement (.rsvClr c mask) := .inr (.inr rfl)
theorem mldw (c : LCtl) (a b x : Opnd) (tag : BitVec 6) : Statement (.mldw c a b x tag) := .inr (.inr rfl)
theorem mma (c : LCtl) (ovw rowp acca : Bool) (a b x : Opnd) : Statement (.mma c ovw rowp acca a b x) := .inr (.inr rfl)
theorem mzero (c : LCtl) (a : Opnd) : Statement (.mzero c a) := .inr (.inr rfl)
theorem mdrain (c : LCtl) (add : Bool) (a b x : Opnd) (tag : BitVec 6) : Statement (.mdrain c add a b x tag) := .inr (.inr rfl)
theorem mdrainFence (c : LCtl) (tag : BitVec 6) : Statement (.mdrainFence c tag) := .inr (.inr rfl)
theorem trav (c : LCtl) (log q : Bool) (d : Dst) (a b x : Opnd) (hod : BitVec 6) : Statement (.trav c log q d a b x hod) := .inr (.inr rfl)
theorem tres (c : LCtl) (q : Bool) (d : Dst) (a : Opnd) (hod : BitVec 6) : Statement (.tres c q d a hod) := .inr (.inr rfl)
theorem tresume (c : LCtl) (a b x : Opnd) (st : Option PReg) : Statement (.tresume c a b x st) := .inr (.inr rfl)
theorem tlog (c : LCtl) (d : Dst) (a b : Opnd) : Statement (.tlog c d a b) := .inr (.inr rfl)
theorem ticketTakeUp (w : Nat) : Statement (.ticketTakeUp w) := .inl rfl
theorem stagingComplete (w : Nat) : Statement (.stagingComplete w) := .inl rfl
theorem ticketComplete (w : Nat) : Statement (.ticketComplete w) := .inl rfl
theorem fastFileEviction (w : Nat) : Statement (.fastFileEviction w) := .inl rfl
theorem reservoirSlotEviction (w : Nat) : Statement (.reservoirSlotEviction w) := .inl rfl
theorem regxGrant (core : Nat) : Statement (.regxGrant core) := .inl rfl
theorem loadDataReturn (w n : Nat) : Statement (.loadDataReturn w n) := .inl rfl
theorem storePerformed (w n : Nat) : Statement (.storePerformed w n) := .inl rfl
theorem streamDeadlock (w : Nat) : Statement (.streamDeadlock w) := .inl rfl
theorem yieldExpiry (w : Nat) : Statement (.yieldExpiry w) := .inl rfl
theorem gridCompletion (g : Nat) : Statement (.gridCompletion g) := .inl rfl
theorem portStall (w : Nat) (side : Side) : Statement (.portStall w side) := .inl rfl
theorem bondStall (w : Nat) (side : Side) : Statement (.bondStall w side) := .inl rfl
theorem travStall (w : Nat) (side : Side) : Statement (.travStall w side) := .inl rfl
theorem jobStall (w : Nat) (strm : Strm) : Statement (.jobStall w strm) := .inl rfl
theorem cwaitStall (w : Nat) : Statement (.cwaitStall w) := .inl rfl
theorem yieldedWaveReactivate (w : Nat) : Statement (.yieldedWaveReactivate w) := .inl rfl
theorem impreciseTrapDelivery (w : Nat) : Statement (.impreciseTrapDelivery w) := .inl rfl
theorem nongreenWritebackTimeout (core line : Nat) : Statement (.nongreenWritebackTimeout core line) := .inl rfl
theorem gatherLineTimeout (core line : Nat) : Statement (.gatherLineTimeout core line) := .inl rfl
theorem jobAccept (w : Nat) (strm : Strm) : Statement (.jobAccept w strm) := .inl rfl
theorem copyChunkLanded (j k : Nat) : Statement (.copyChunkLanded j k) := .inl rfl
theorem copyJobComplete (j : Nat) : Statement (.copyJobComplete j) := .inl rfl
theorem matrixJobComplete (j : Nat) : Statement (.matrixJobComplete j) := .inl rfl
theorem regionCure (w : Nat) : Statement (.regionCure w) := .inl rfl
theorem regionReplayDispatch (w : Nat) (places : List Placement) : Statement (.regionReplayDispatch w places) := .inl rfl
theorem rayNodeFetch (r : Nat) : Statement (.rayNodeFetch r) := .inl rfl
theorem rayHodTake (core g : Nat) : Statement (.rayHodTake core g) := .inl rfl
theorem translationWalk (part asid va : Nat) (write fetch : Bool) : Statement (.translationWalk part asid va write fetch) := .inl rfl
theorem faultAnswerResolve (id : Word) : Statement (.faultAnswerResolve id) := .inl rfl
theorem faultAnswerFatal (id : Word) : Statement (.faultAnswerFatal id) := .inl rfl
theorem parkedLaneReplay (w : Nat) (strm : Strm) : Statement (.parkedLaneReplay w strm) := .inl rfl
theorem controllerBatchOpen (ch : Nat) : Statement (.controllerBatchOpen ch) := .inl rfl
theorem launchKick (v : Word) : Statement (.launchKick v) := .inl rfl
theorem teamPlacement (g : Nat) (places : List Placement) : Statement (.teamPlacement g places) := .inl rfl
theorem preemptionRequest (g t : Nat) (deadline : Nat) : Statement (.preemptionRequest g t deadline) := .inl rfl
theorem drainDeadlineExpiry (g t : Nat) : Statement (.drainDeadlineExpiry g t) := .inl rfl
theorem contextSave (g t : Nat) : Statement (.contextSave g t) := .inl rfl
theorem contextRestore (g t : Nat) (places : List Placement) : Statement (.contextRestore g t places) := .inl rfl
theorem contextCreate (id : BitVec 16) (record : List Byte) : Statement (.contextCreate id record) := .inl rfl
theorem invalidationRequest (part asid lo hi : Nat) : Statement (.invalidationRequest part asid lo hi) := .inl rfl
theorem invalidationEnd (n : Nat) : Statement (.invalidationEnd n) := .inl rfl
theorem watchpointLoad (ctx : BitVec 16) (n : Fin 4) (waddr wctl : DWord) : Statement (.watchpointLoad ctx n waddr wctl) := .inl rfl
theorem watchEngineReport (n : Nat) : Statement (.watchEngineReport n) := .inl rfl
theorem hbmScrub (sector : Nat) (lo hi : EccClass) : Statement (.hbmScrub sector lo hi) := .inl rfl
theorem laneRepointApply (n : Nat) : Statement (.laneRepointApply n) := .inl rfl
theorem rowCopyComplete (n : Nat) : Statement (.rowCopyComplete n) := .inl rfl
theorem llcCarveWrite (m : Master) (v : DWord) : Statement (.llcCarveWrite m v) := .inl rfl
theorem partCfgEnable (m : Master) (p : Fin 8) (v : DWord) : Statement (.partCfgEnable m p v) := .inl rfl
theorem partCfgDisable (m : Master) (p : Fin 8) : Statement (.partCfgDisable m p) := .inl rfl
theorem ctrlClaimClaim (m : Master) (prio : BitVec 4) (nonce : BitVec 16) : Statement (.ctrlClaimClaim m prio nonce) := .inl rfl
theorem ctrlClaimRelease (m : Master) : Statement (.ctrlClaimRelease m) := .inl rfl
theorem ctrlClaimHandover (m target : Master) : Statement (.ctrlClaimHandover m target) := .inl rfl
theorem ctrlAttestGo (m : Master) : Statement (.ctrlAttestGo m) := .inl rfl
theorem firmwareImageLoad (m : Master) (version : Nat) (ecdsa lms : Bool) (digest : BitVec 384) : Statement (.firmwareImageLoad m version ecdsa lms digest) := .inl rfl
theorem fusedCounterAdvance (m : Master) : Statement (.fusedCounterAdvance m) := .inl rfl
theorem fabricWindowCommit (m : Master) (p : Fin 8) (w : BitVec 8) (hi : Word) : Statement (.fabricWindowCommit m p w hi) := .inl rfl
theorem fabRouteWrite (m : Master) (d : BitVec 10) (v : DWord) : Statement (.fabRouteWrite m d v) := .inl rfl
theorem controlRegisterWrite (m : Master) (off : Nat) (v : DWord) : Statement (.controlRegisterWrite m off v) := .inl rfl
theorem hostApertureRead (off width : Nat) : Statement (.hostApertureRead off width) := .inl rfl
theorem hostApertureWrite (off : Nat) (bytes : List Byte) (poison : Bool) : Statement (.hostApertureWrite off bytes poison) := .inl rfl
theorem hostWindowCompletion (tag : Nat) (reply : Reply) : Statement (.hostWindowCompletion tag reply) := .inl rfl
theorem msixUnmask (v : BitVec 11) : Statement (.msixUnmask v) := .inl rfl
theorem fabricRequestArrival (req : FabReq) : Statement (.fabricRequestArrival req) := .inl rfl
theorem fabricAcknowledgement (tag : Nat) (reply : Reply) : Statement (.fabricAcknowledgement tag reply) := .inl rfl
theorem ualinkPortDown (p : Fin 24) : Statement (.ualinkPortDown p) := .inl rfl
theorem ualinkPortRetrain (p : Fin 24) (ok : Bool) : Statement (.ualinkPortRetrain p ok) := .inl rfl
theorem deviceLost (d : BitVec 10) : Statement (.deviceLost d) := .inl rfl
theorem collRecordTake (p : Fin 8) : Statement (.collRecordTake p) := .inl rfl
theorem collSealTimeout (n : Nat) : Statement (.collSealTimeout n) := .inl rfl
theorem collComplete (n : Nat) (parts : List (Nat × List Byte)) : Statement (.collComplete n parts) := .inl rfl
theorem rstStatusWarm (m : Master) : Statement (.rstStatusWarm m) := .inl rfl
theorem hostLinkReset (k : LinkReset) : Statement (.hostLinkReset k) := .inl rfl
theorem firmwareVerify (version : Nat) (ecdsa lms : Bool) (dorzin health : BitVec 384) : Statement (.firmwareVerify version ecdsa lms dorzin health) := .inl rfl
theorem channelTraining (failed : List Nat) : Statement (.channelTraining failed) := .inl rfl
theorem governorTick (pwr temp : BitVec 16) : Statement (.governorTick pwr temp) := .inl rfl
theorem railVoltageStep (rail : Fin 8) (lower : Bool) : Statement (.railVoltageStep rail lower) := .inl rfl
theorem systemKill (g : Nat) (team : Option Nat) : Statement (.systemKill g team) := .inl rfl
theorem contextDestroy (id : BitVec 16) : Statement (.contextDestroy id) := .inl rfl
theorem podDeviceNumberSet (n : BitVec 10) : Statement (.podDeviceNumberSet n) := .inl rfl
theorem dataLinkRetry (p : Fin 24) (ok : Bool) : Statement (.dataLinkRetry p ok) := .inl rfl
theorem hactRetry : Statement (.hactRetry) := .inl rfl
theorem hactNext : Statement (.hactNext) := .inl rfl
theorem hactKill : Statement (.hactKill) := .inl rfl
theorem hactKilllanes : Statement (.hactKilllanes) := .inl rfl
theorem launchAccept : Statement (.launchAccept) := .inl rfl
theorem schedulerTakeover : Statement (.schedulerTakeover) := .inl rfl
theorem electionWindowClose : Statement (.electionWindowClose) := .inl rfl
theorem ownerLapse : Statement (.ownerLapse) := .inl rfl
theorem attestFinish : Statement (.attestFinish) := .inl rfl
theorem carveConversionEnd : Statement (.carveConversionEnd) := .inl rfl
theorem powerOn : Statement (.powerOn) := .inl rfl
theorem perstAssert : Statement (.perstAssert) := .inl rfl
theorem i3cResetCommand : Statement (.i3cResetCommand) := .inl rfl
theorem watchdogExpiry : Statement (.watchdogExpiry) := .inl rfl
theorem schedulerStart : Statement (.schedulerStart) := .inl rfl
theorem configurationRequest : Statement (.configurationRequest) := .inl rfl

end Sys2Proof.Laws.Encoding
end

