-- ==== Sys2Proof/Laws/State.lean ====
section
/-!
SUPPORT. One lemma for each field of State under each named update of it, so that a proof unfolds no record update; and the same for the
updates of a wave's streams.
-/

namespace Sys2Proof.Machine

/-! ## State.putWave -/

@[simp] theorem State.putWave_sys (s : State) (i : Nat) (w : Wave) : (s.putWave i w).sys = s.sys := rfl
@[simp] theorem State.putWave_mem (s : State) (i : Nat) (w : Wave) : (s.putWave i w).mem = s.mem := rfl
@[simp] theorem State.putWave_cores (s : State) (i : Nat) (w : Wave) : (s.putWave i w).cores = s.cores := rfl
@[simp] theorem State.putWave_grids (s : State) (i : Nat) (w : Wave) : (s.putWave i w).grids = s.grids := rfl
@[simp] theorem State.putWave_teams (s : State) (i : Nat) (w : Wave) : (s.putWave i w).teams = s.teams := rfl
@[simp] theorem State.putWave_waves (s : State) (i : Nat) (w : Wave) : (s.putWave i w).waves = s.waves.set i w := rfl
@[simp] theorem State.putWave_jobs (s : State) (i : Nat) (w : Wave) : (s.putWave i w).jobs = s.jobs := rfl
@[simp] theorem State.putWave_offers (s : State) (i : Nat) (w : Wave) : (s.putWave i w).offers = s.offers := rfl
@[simp] theorem State.putWave_rays (s : State) (i : Nat) (w : Wave) : (s.putWave i w).rays = s.rays := rfl
@[simp] theorem State.putWave_agenda (s : State) (i : Nat) (w : Wave) : (s.putWave i w).agenda = s.agenda := rfl
@[simp] theorem State.putWave_cur (s : State) (i : Nat) (w : Wave) : (s.putWave i w).cur = s.cur := rfl
@[simp] theorem State.putWave_tick (s : State) (i : Nat) (w : Wave) : (s.putWave i w).tick = s.tick := rfl
@[simp] theorem State.putWave_free (s : State) (i : Nat) (w : Wave) : (s.putWave i w).free = s.free := rfl
@[simp] theorem State.putWave_pfx (s : State) (i : Nat) (w : Wave) : (s.putWave i w).pfx = s.pfx := rfl

/-! ## State.setWave -/

@[simp] theorem State.setWave_sys (s : State) (w : Wave) : (s.setWave w).sys = s.sys := rfl
@[simp] theorem State.setWave_mem (s : State) (w : Wave) : (s.setWave w).mem = s.mem := rfl
@[simp] theorem State.setWave_cores (s : State) (w : Wave) : (s.setWave w).cores = s.cores := rfl
@[simp] theorem State.setWave_grids (s : State) (w : Wave) : (s.setWave w).grids = s.grids := rfl
@[simp] theorem State.setWave_teams (s : State) (w : Wave) : (s.setWave w).teams = s.teams := rfl
@[simp] theorem State.setWave_waves (s : State) (w : Wave) : (s.setWave w).waves = s.waves.set s.cur.1 w := rfl
@[simp] theorem State.setWave_jobs (s : State) (w : Wave) : (s.setWave w).jobs = s.jobs := rfl
@[simp] theorem State.setWave_offers (s : State) (w : Wave) : (s.setWave w).offers = s.offers := rfl
@[simp] theorem State.setWave_rays (s : State) (w : Wave) : (s.setWave w).rays = s.rays := rfl
@[simp] theorem State.setWave_agenda (s : State) (w : Wave) : (s.setWave w).agenda = s.agenda := rfl
@[simp] theorem State.setWave_cur (s : State) (w : Wave) : (s.setWave w).cur = s.cur := rfl
@[simp] theorem State.setWave_tick (s : State) (w : Wave) : (s.setWave w).tick = s.tick := rfl
@[simp] theorem State.setWave_free (s : State) (w : Wave) : (s.setWave w).free = s.free := rfl
@[simp] theorem State.setWave_pfx (s : State) (w : Wave) : (s.setWave w).pfx = s.pfx := rfl

/-! ## State.modWave -/

@[simp] theorem State.modWave_sys (s : State) (i : Nat) (f : Wave → Wave) : (s.modWave i f).sys = s.sys := rfl
@[simp] theorem State.modWave_mem (s : State) (i : Nat) (f : Wave → Wave) : (s.modWave i f).mem = s.mem := rfl
@[simp] theorem State.modWave_cores (s : State) (i : Nat) (f : Wave → Wave) : (s.modWave i f).cores = s.cores := rfl
@[simp] theorem State.modWave_grids (s : State) (i : Nat) (f : Wave → Wave) : (s.modWave i f).grids = s.grids := rfl
@[simp] theorem State.modWave_teams (s : State) (i : Nat) (f : Wave → Wave) : (s.modWave i f).teams = s.teams := rfl
@[simp] theorem State.modWave_waves (s : State) (i : Nat) (f : Wave → Wave) : (s.modWave i f).waves = modAt s.waves i f := rfl
@[simp] theorem State.modWave_jobs (s : State) (i : Nat) (f : Wave → Wave) : (s.modWave i f).jobs = s.jobs := rfl
@[simp] theorem State.modWave_offers (s : State) (i : Nat) (f : Wave → Wave) : (s.modWave i f).offers = s.offers := rfl
@[simp] theorem State.modWave_rays (s : State) (i : Nat) (f : Wave → Wave) : (s.modWave i f).rays = s.rays := rfl
@[simp] theorem State.modWave_agenda (s : State) (i : Nat) (f : Wave → Wave) : (s.modWave i f).agenda = s.agenda := rfl
@[simp] theorem State.modWave_cur (s : State) (i : Nat) (f : Wave → Wave) : (s.modWave i f).cur = s.cur := rfl
@[simp] theorem State.modWave_tick (s : State) (i : Nat) (f : Wave → Wave) : (s.modWave i f).tick = s.tick := rfl
@[simp] theorem State.modWave_free (s : State) (i : Nat) (f : Wave → Wave) : (s.modWave i f).free = s.free := rfl
@[simp] theorem State.modWave_pfx (s : State) (i : Nat) (f : Wave → Wave) : (s.modWave i f).pfx = s.pfx := rfl

/-! ## State.modTeam -/

@[simp] theorem State.modTeam_sys (s : State) (i : Nat) (f : Team → Team) : (s.modTeam i f).sys = s.sys := rfl
@[simp] theorem State.modTeam_mem (s : State) (i : Nat) (f : Team → Team) : (s.modTeam i f).mem = s.mem := rfl
@[simp] theorem State.modTeam_cores (s : State) (i : Nat) (f : Team → Team) : (s.modTeam i f).cores = s.cores := rfl
@[simp] theorem State.modTeam_grids (s : State) (i : Nat) (f : Team → Team) : (s.modTeam i f).grids = s.grids := rfl
@[simp] theorem State.modTeam_teams (s : State) (i : Nat) (f : Team → Team) : (s.modTeam i f).teams = modAt s.teams i f := rfl
@[simp] theorem State.modTeam_waves (s : State) (i : Nat) (f : Team → Team) : (s.modTeam i f).waves = s.waves := rfl
@[simp] theorem State.modTeam_jobs (s : State) (i : Nat) (f : Team → Team) : (s.modTeam i f).jobs = s.jobs := rfl
@[simp] theorem State.modTeam_offers (s : State) (i : Nat) (f : Team → Team) : (s.modTeam i f).offers = s.offers := rfl
@[simp] theorem State.modTeam_rays (s : State) (i : Nat) (f : Team → Team) : (s.modTeam i f).rays = s.rays := rfl
@[simp] theorem State.modTeam_agenda (s : State) (i : Nat) (f : Team → Team) : (s.modTeam i f).agenda = s.agenda := rfl
@[simp] theorem State.modTeam_cur (s : State) (i : Nat) (f : Team → Team) : (s.modTeam i f).cur = s.cur := rfl
@[simp] theorem State.modTeam_tick (s : State) (i : Nat) (f : Team → Team) : (s.modTeam i f).tick = s.tick := rfl
@[simp] theorem State.modTeam_free (s : State) (i : Nat) (f : Team → Team) : (s.modTeam i f).free = s.free := rfl
@[simp] theorem State.modTeam_pfx (s : State) (i : Nat) (f : Team → Team) : (s.modTeam i f).pfx = s.pfx := rfl

/-! ## State.modGrid -/

@[simp] theorem State.modGrid_sys (s : State) (i : Nat) (f : Grid → Grid) : (s.modGrid i f).sys = s.sys := rfl
@[simp] theorem State.modGrid_mem (s : State) (i : Nat) (f : Grid → Grid) : (s.modGrid i f).mem = s.mem := rfl
@[simp] theorem State.modGrid_cores (s : State) (i : Nat) (f : Grid → Grid) : (s.modGrid i f).cores = s.cores := rfl
@[simp] theorem State.modGrid_grids (s : State) (i : Nat) (f : Grid → Grid) : (s.modGrid i f).grids = modAt s.grids i f := rfl
@[simp] theorem State.modGrid_teams (s : State) (i : Nat) (f : Grid → Grid) : (s.modGrid i f).teams = s.teams := rfl
@[simp] theorem State.modGrid_waves (s : State) (i : Nat) (f : Grid → Grid) : (s.modGrid i f).waves = s.waves := rfl
@[simp] theorem State.modGrid_jobs (s : State) (i : Nat) (f : Grid → Grid) : (s.modGrid i f).jobs = s.jobs := rfl
@[simp] theorem State.modGrid_offers (s : State) (i : Nat) (f : Grid → Grid) : (s.modGrid i f).offers = s.offers := rfl
@[simp] theorem State.modGrid_rays (s : State) (i : Nat) (f : Grid → Grid) : (s.modGrid i f).rays = s.rays := rfl
@[simp] theorem State.modGrid_agenda (s : State) (i : Nat) (f : Grid → Grid) : (s.modGrid i f).agenda = s.agenda := rfl
@[simp] theorem State.modGrid_cur (s : State) (i : Nat) (f : Grid → Grid) : (s.modGrid i f).cur = s.cur := rfl
@[simp] theorem State.modGrid_tick (s : State) (i : Nat) (f : Grid → Grid) : (s.modGrid i f).tick = s.tick := rfl
@[simp] theorem State.modGrid_free (s : State) (i : Nat) (f : Grid → Grid) : (s.modGrid i f).free = s.free := rfl
@[simp] theorem State.modGrid_pfx (s : State) (i : Nat) (f : Grid → Grid) : (s.modGrid i f).pfx = s.pfx := rfl

/-! ## State.modCore -/

@[simp] theorem State.modCore_sys (s : State) (i : Nat) (f : Core → Core) : (s.modCore i f).sys = s.sys := rfl
@[simp] theorem State.modCore_mem (s : State) (i : Nat) (f : Core → Core) : (s.modCore i f).mem = s.mem := rfl
@[simp] theorem State.modCore_cores (s : State) (i : Nat) (f : Core → Core) : (s.modCore i f).cores = modAt s.cores i f := rfl
@[simp] theorem State.modCore_grids (s : State) (i : Nat) (f : Core → Core) : (s.modCore i f).grids = s.grids := rfl
@[simp] theorem State.modCore_teams (s : State) (i : Nat) (f : Core → Core) : (s.modCore i f).teams = s.teams := rfl
@[simp] theorem State.modCore_waves (s : State) (i : Nat) (f : Core → Core) : (s.modCore i f).waves = s.waves := rfl
@[simp] theorem State.modCore_jobs (s : State) (i : Nat) (f : Core → Core) : (s.modCore i f).jobs = s.jobs := rfl
@[simp] theorem State.modCore_offers (s : State) (i : Nat) (f : Core → Core) : (s.modCore i f).offers = s.offers := rfl
@[simp] theorem State.modCore_rays (s : State) (i : Nat) (f : Core → Core) : (s.modCore i f).rays = s.rays := rfl
@[simp] theorem State.modCore_agenda (s : State) (i : Nat) (f : Core → Core) : (s.modCore i f).agenda = s.agenda := rfl
@[simp] theorem State.modCore_cur (s : State) (i : Nat) (f : Core → Core) : (s.modCore i f).cur = s.cur := rfl
@[simp] theorem State.modCore_tick (s : State) (i : Nat) (f : Core → Core) : (s.modCore i f).tick = s.tick := rfl
@[simp] theorem State.modCore_free (s : State) (i : Nat) (f : Core → Core) : (s.modCore i f).free = s.free := rfl
@[simp] theorem State.modCore_pfx (s : State) (i : Nat) (f : Core → Core) : (s.modCore i f).pfx = s.pfx := rfl

/-! ## State.modJob -/

@[simp] theorem State.modJob_sys (s : State) (i : Nat) (f : Job → Job) : (s.modJob i f).sys = s.sys := rfl
@[simp] theorem State.modJob_mem (s : State) (i : Nat) (f : Job → Job) : (s.modJob i f).mem = s.mem := rfl
@[simp] theorem State.modJob_cores (s : State) (i : Nat) (f : Job → Job) : (s.modJob i f).cores = s.cores := rfl
@[simp] theorem State.modJob_grids (s : State) (i : Nat) (f : Job → Job) : (s.modJob i f).grids = s.grids := rfl
@[simp] theorem State.modJob_teams (s : State) (i : Nat) (f : Job → Job) : (s.modJob i f).teams = s.teams := rfl
@[simp] theorem State.modJob_waves (s : State) (i : Nat) (f : Job → Job) : (s.modJob i f).waves = s.waves := rfl
@[simp] theorem State.modJob_jobs (s : State) (i : Nat) (f : Job → Job) : (s.modJob i f).jobs = modAt s.jobs i f := rfl
@[simp] theorem State.modJob_offers (s : State) (i : Nat) (f : Job → Job) : (s.modJob i f).offers = s.offers := rfl
@[simp] theorem State.modJob_rays (s : State) (i : Nat) (f : Job → Job) : (s.modJob i f).rays = s.rays := rfl
@[simp] theorem State.modJob_agenda (s : State) (i : Nat) (f : Job → Job) : (s.modJob i f).agenda = s.agenda := rfl
@[simp] theorem State.modJob_cur (s : State) (i : Nat) (f : Job → Job) : (s.modJob i f).cur = s.cur := rfl
@[simp] theorem State.modJob_tick (s : State) (i : Nat) (f : Job → Job) : (s.modJob i f).tick = s.tick := rfl
@[simp] theorem State.modJob_free (s : State) (i : Nat) (f : Job → Job) : (s.modJob i f).free = s.free := rfl
@[simp] theorem State.modJob_pfx (s : State) (i : Nat) (f : Job → Job) : (s.modJob i f).pfx = s.pfx := rfl

/-! ## State.modRay -/

@[simp] theorem State.modRay_sys (s : State) (i : Nat) (f : Ray → Ray) : (s.modRay i f).sys = s.sys := rfl
@[simp] theorem State.modRay_mem (s : State) (i : Nat) (f : Ray → Ray) : (s.modRay i f).mem = s.mem := rfl
@[simp] theorem State.modRay_cores (s : State) (i : Nat) (f : Ray → Ray) : (s.modRay i f).cores = s.cores := rfl
@[simp] theorem State.modRay_grids (s : State) (i : Nat) (f : Ray → Ray) : (s.modRay i f).grids = s.grids := rfl
@[simp] theorem State.modRay_teams (s : State) (i : Nat) (f : Ray → Ray) : (s.modRay i f).teams = s.teams := rfl
@[simp] theorem State.modRay_waves (s : State) (i : Nat) (f : Ray → Ray) : (s.modRay i f).waves = s.waves := rfl
@[simp] theorem State.modRay_jobs (s : State) (i : Nat) (f : Ray → Ray) : (s.modRay i f).jobs = s.jobs := rfl
@[simp] theorem State.modRay_offers (s : State) (i : Nat) (f : Ray → Ray) : (s.modRay i f).offers = s.offers := rfl
@[simp] theorem State.modRay_rays (s : State) (i : Nat) (f : Ray → Ray) : (s.modRay i f).rays = modAt s.rays i f := rfl
@[simp] theorem State.modRay_agenda (s : State) (i : Nat) (f : Ray → Ray) : (s.modRay i f).agenda = s.agenda := rfl
@[simp] theorem State.modRay_cur (s : State) (i : Nat) (f : Ray → Ray) : (s.modRay i f).cur = s.cur := rfl
@[simp] theorem State.modRay_tick (s : State) (i : Nat) (f : Ray → Ray) : (s.modRay i f).tick = s.tick := rfl
@[simp] theorem State.modRay_free (s : State) (i : Nat) (f : Ray → Ray) : (s.modRay i f).free = s.free := rfl
@[simp] theorem State.modRay_pfx (s : State) (i : Nat) (f : Ray → Ray) : (s.modRay i f).pfx = s.pfx := rfl

/-! ## State.modSys -/

@[simp] theorem State.modSys_sys (s : State) (f : Sys → Sys) : (s.modSys f).sys = f s.sys := rfl
@[simp] theorem State.modSys_mem (s : State) (f : Sys → Sys) : (s.modSys f).mem = s.mem := rfl
@[simp] theorem State.modSys_cores (s : State) (f : Sys → Sys) : (s.modSys f).cores = s.cores := rfl
@[simp] theorem State.modSys_grids (s : State) (f : Sys → Sys) : (s.modSys f).grids = s.grids := rfl
@[simp] theorem State.modSys_teams (s : State) (f : Sys → Sys) : (s.modSys f).teams = s.teams := rfl
@[simp] theorem State.modSys_waves (s : State) (f : Sys → Sys) : (s.modSys f).waves = s.waves := rfl
@[simp] theorem State.modSys_jobs (s : State) (f : Sys → Sys) : (s.modSys f).jobs = s.jobs := rfl
@[simp] theorem State.modSys_offers (s : State) (f : Sys → Sys) : (s.modSys f).offers = s.offers := rfl
@[simp] theorem State.modSys_rays (s : State) (f : Sys → Sys) : (s.modSys f).rays = s.rays := rfl
@[simp] theorem State.modSys_agenda (s : State) (f : Sys → Sys) : (s.modSys f).agenda = s.agenda := rfl
@[simp] theorem State.modSys_cur (s : State) (f : Sys → Sys) : (s.modSys f).cur = s.cur := rfl
@[simp] theorem State.modSys_tick (s : State) (f : Sys → Sys) : (s.modSys f).tick = s.tick := rfl
@[simp] theorem State.modSys_free (s : State) (f : Sys → Sys) : (s.modSys f).free = s.free := rfl
@[simp] theorem State.modSys_pfx (s : State) (f : Sys → Sys) : (s.modSys f).pfx = s.pfx := rfl

/-! ## State.modPhys -/

@[simp] theorem State.modPhys_sys (s : State) (f : Phys → Phys) : (s.modPhys f).sys = { s.sys with phys := f s.sys.phys } := rfl
@[simp] theorem State.modPhys_mem (s : State) (f : Phys → Phys) : (s.modPhys f).mem = s.mem := rfl
@[simp] theorem State.modPhys_cores (s : State) (f : Phys → Phys) : (s.modPhys f).cores = s.cores := rfl
@[simp] theorem State.modPhys_grids (s : State) (f : Phys → Phys) : (s.modPhys f).grids = s.grids := rfl
@[simp] theorem State.modPhys_teams (s : State) (f : Phys → Phys) : (s.modPhys f).teams = s.teams := rfl
@[simp] theorem State.modPhys_waves (s : State) (f : Phys → Phys) : (s.modPhys f).waves = s.waves := rfl
@[simp] theorem State.modPhys_jobs (s : State) (f : Phys → Phys) : (s.modPhys f).jobs = s.jobs := rfl
@[simp] theorem State.modPhys_offers (s : State) (f : Phys → Phys) : (s.modPhys f).offers = s.offers := rfl
@[simp] theorem State.modPhys_rays (s : State) (f : Phys → Phys) : (s.modPhys f).rays = s.rays := rfl
@[simp] theorem State.modPhys_agenda (s : State) (f : Phys → Phys) : (s.modPhys f).agenda = s.agenda := rfl
@[simp] theorem State.modPhys_cur (s : State) (f : Phys → Phys) : (s.modPhys f).cur = s.cur := rfl
@[simp] theorem State.modPhys_tick (s : State) (f : Phys → Phys) : (s.modPhys f).tick = s.tick := rfl
@[simp] theorem State.modPhys_free (s : State) (f : Phys → Phys) : (s.modPhys f).free = s.free := rfl
@[simp] theorem State.modPhys_pfx (s : State) (f : Phys → Phys) : (s.modPhys f).pfx = s.pfx := rfl

/-! ## State.modContext -/

@[simp] theorem State.modContext_sys (s : State) (id : BitVec 16) (f : Context → Context) : (s.modContext id f).sys = { s.sys with contexts := s.sys.contexts.map fun c => if c.id == id then f c else c } := rfl
@[simp] theorem State.modContext_mem (s : State) (id : BitVec 16) (f : Context → Context) : (s.modContext id f).mem = s.mem := rfl
@[simp] theorem State.modContext_cores (s : State) (id : BitVec 16) (f : Context → Context) : (s.modContext id f).cores = s.cores := rfl
@[simp] theorem State.modContext_grids (s : State) (id : BitVec 16) (f : Context → Context) : (s.modContext id f).grids = s.grids := rfl
@[simp] theorem State.modContext_teams (s : State) (id : BitVec 16) (f : Context → Context) : (s.modContext id f).teams = s.teams := rfl
@[simp] theorem State.modContext_waves (s : State) (id : BitVec 16) (f : Context → Context) : (s.modContext id f).waves = s.waves := rfl
@[simp] theorem State.modContext_jobs (s : State) (id : BitVec 16) (f : Context → Context) : (s.modContext id f).jobs = s.jobs := rfl
@[simp] theorem State.modContext_offers (s : State) (id : BitVec 16) (f : Context → Context) : (s.modContext id f).offers = s.offers := rfl
@[simp] theorem State.modContext_rays (s : State) (id : BitVec 16) (f : Context → Context) : (s.modContext id f).rays = s.rays := rfl
@[simp] theorem State.modContext_agenda (s : State) (id : BitVec 16) (f : Context → Context) : (s.modContext id f).agenda = s.agenda := rfl
@[simp] theorem State.modContext_cur (s : State) (id : BitVec 16) (f : Context → Context) : (s.modContext id f).cur = s.cur := rfl
@[simp] theorem State.modContext_tick (s : State) (id : BitVec 16) (f : Context → Context) : (s.modContext id f).tick = s.tick := rfl
@[simp] theorem State.modContext_free (s : State) (id : BitVec 16) (f : Context → Context) : (s.modContext id f).free = s.free := rfl
@[simp] theorem State.modContext_pfx (s : State) (id : BitVec 16) (f : Context → Context) : (s.modContext id f).pfx = s.pfx := rfl

/-! ## State.modDorzin -/

@[simp] theorem State.modDorzin_sys (s : State) (f : Dorzin → Dorzin) : (s.modDorzin f).sys = { s.sys with dorzin := f s.sys.dorzin } := rfl
@[simp] theorem State.modDorzin_mem (s : State) (f : Dorzin → Dorzin) : (s.modDorzin f).mem = s.mem := rfl
@[simp] theorem State.modDorzin_cores (s : State) (f : Dorzin → Dorzin) : (s.modDorzin f).cores = s.cores := rfl
@[simp] theorem State.modDorzin_grids (s : State) (f : Dorzin → Dorzin) : (s.modDorzin f).grids = s.grids := rfl
@[simp] theorem State.modDorzin_teams (s : State) (f : Dorzin → Dorzin) : (s.modDorzin f).teams = s.teams := rfl
@[simp] theorem State.modDorzin_waves (s : State) (f : Dorzin → Dorzin) : (s.modDorzin f).waves = s.waves := rfl
@[simp] theorem State.modDorzin_jobs (s : State) (f : Dorzin → Dorzin) : (s.modDorzin f).jobs = s.jobs := rfl
@[simp] theorem State.modDorzin_offers (s : State) (f : Dorzin → Dorzin) : (s.modDorzin f).offers = s.offers := rfl
@[simp] theorem State.modDorzin_rays (s : State) (f : Dorzin → Dorzin) : (s.modDorzin f).rays = s.rays := rfl
@[simp] theorem State.modDorzin_agenda (s : State) (f : Dorzin → Dorzin) : (s.modDorzin f).agenda = s.agenda := rfl
@[simp] theorem State.modDorzin_cur (s : State) (f : Dorzin → Dorzin) : (s.modDorzin f).cur = s.cur := rfl
@[simp] theorem State.modDorzin_tick (s : State) (f : Dorzin → Dorzin) : (s.modDorzin f).tick = s.tick := rfl
@[simp] theorem State.modDorzin_free (s : State) (f : Dorzin → Dorzin) : (s.modDorzin f).free = s.free := rfl
@[simp] theorem State.modDorzin_pfx (s : State) (f : Dorzin → Dorzin) : (s.modDorzin f).pfx = s.pfx := rfl

/-! ## State.modLinks -/

@[simp] theorem State.modLinks_sys (s : State) (f : Links → Links) : (s.modLinks f).sys = { s.sys with links := f s.sys.links } := rfl
@[simp] theorem State.modLinks_mem (s : State) (f : Links → Links) : (s.modLinks f).mem = s.mem := rfl
@[simp] theorem State.modLinks_cores (s : State) (f : Links → Links) : (s.modLinks f).cores = s.cores := rfl
@[simp] theorem State.modLinks_grids (s : State) (f : Links → Links) : (s.modLinks f).grids = s.grids := rfl
@[simp] theorem State.modLinks_teams (s : State) (f : Links → Links) : (s.modLinks f).teams = s.teams := rfl
@[simp] theorem State.modLinks_waves (s : State) (f : Links → Links) : (s.modLinks f).waves = s.waves := rfl
@[simp] theorem State.modLinks_jobs (s : State) (f : Links → Links) : (s.modLinks f).jobs = s.jobs := rfl
@[simp] theorem State.modLinks_offers (s : State) (f : Links → Links) : (s.modLinks f).offers = s.offers := rfl
@[simp] theorem State.modLinks_rays (s : State) (f : Links → Links) : (s.modLinks f).rays = s.rays := rfl
@[simp] theorem State.modLinks_agenda (s : State) (f : Links → Links) : (s.modLinks f).agenda = s.agenda := rfl
@[simp] theorem State.modLinks_cur (s : State) (f : Links → Links) : (s.modLinks f).cur = s.cur := rfl
@[simp] theorem State.modLinks_tick (s : State) (f : Links → Links) : (s.modLinks f).tick = s.tick := rfl
@[simp] theorem State.modLinks_free (s : State) (f : Links → Links) : (s.modLinks f).free = s.free := rfl
@[simp] theorem State.modLinks_pfx (s : State) (f : Links → Links) : (s.modLinks f).pfx = s.pfx := rfl

/-! ## State.countIssue -/

@[simp] theorem State.countIssue_sys (s : State) (i : Nat) : (s.countIssue i).sys = s.sys := rfl
@[simp] theorem State.countIssue_mem (s : State) (i : Nat) : (s.countIssue i).mem = s.mem := rfl
@[simp] theorem State.countIssue_cores (s : State) (i : Nat) : (s.countIssue i).cores = s.cores := rfl
@[simp] theorem State.countIssue_grids (s : State) (i : Nat) : (s.countIssue i).grids = s.grids := rfl
@[simp] theorem State.countIssue_teams (s : State) (i : Nat) : (s.countIssue i).teams = modAt s.teams i fun x => { x with issued := x.issued + 1 } := rfl
@[simp] theorem State.countIssue_waves (s : State) (i : Nat) : (s.countIssue i).waves = s.waves := rfl
@[simp] theorem State.countIssue_jobs (s : State) (i : Nat) : (s.countIssue i).jobs = s.jobs := rfl
@[simp] theorem State.countIssue_offers (s : State) (i : Nat) : (s.countIssue i).offers = s.offers := rfl
@[simp] theorem State.countIssue_rays (s : State) (i : Nat) : (s.countIssue i).rays = s.rays := rfl
@[simp] theorem State.countIssue_agenda (s : State) (i : Nat) : (s.countIssue i).agenda = s.agenda := rfl
@[simp] theorem State.countIssue_cur (s : State) (i : Nat) : (s.countIssue i).cur = s.cur := rfl
@[simp] theorem State.countIssue_tick (s : State) (i : Nat) : (s.countIssue i).tick = s.tick := rfl
@[simp] theorem State.countIssue_free (s : State) (i : Nat) : (s.countIssue i).free = s.free := rfl
@[simp] theorem State.countIssue_pfx (s : State) (i : Nat) : (s.countIssue i).pfx = s.pfx := rfl

/-! ## LStream.setSide -/

@[simp] theorem LStream.setSide_tickets (x : LStream) (d : Side) (y : Option PcSide) : (x.setSide d y).tickets = x.tickets := by cases d <;> rfl
@[simp] theorem LStream.setSide_results (x : LStream) (d : Side) (y : Option PcSide) : (x.setSide d y).results = x.results := by cases d <;> rfl
@[simp] theorem LStream.setSide_blk (x : LStream) (d : Side) (y : Option PcSide) : (x.setSide d y).blk = x.blk := by cases d <;> rfl
@[simp] theorem LStream.setSide_sideA_same (x : LStream) (y : Option PcSide) : (x.setSide .a y).sideA = y := rfl
@[simp] theorem LStream.setSide_sideA_other (x : LStream) (y : Option PcSide) : (x.setSide .b y).sideA = x.sideA := rfl
@[simp] theorem LStream.setSide_sideB_same (x : LStream) (y : Option PcSide) : (x.setSide .b y).sideB = y := rfl
@[simp] theorem LStream.setSide_sideB_other (x : LStream) (y : Option PcSide) : (x.setSide .a y).sideB = x.sideB := rfl
@[simp] theorem LStream.setSide_stack (x : LStream) (d : Side) (y : Option PcSide) : (x.setSide d y).stack = x.stack := by cases d <;> rfl
@[simp] theorem LStream.setSide_live (x : LStream) (d : Side) (y : Option PcSide) : (x.setSide d y).live = x.live := by cases d <;> rfl
@[simp] theorem LStream.setSide_v (x : LStream) (d : Side) (y : Option PcSide) : (x.setSide d y).v = x.v := by cases d <;> rfl
@[simp] theorem LStream.setSide_staged (x : LStream) (d : Side) (y : Option PcSide) : (x.setSide d y).staged = x.staged := by cases d <;> rfl
@[simp] theorem LStream.setSide_p (x : LStream) (d : Side) (y : Option PcSide) : (x.setSide d y).p = x.p := by cases d <;> rfl
@[simp] theorem LStream.setSide_w (x : LStream) (d : Side) (y : Option PcSide) : (x.setSide d y).w = x.w := by cases d <;> rfl
@[simp] theorem LStream.setSide_win (x : LStream) (d : Side) (y : Option PcSide) : (x.setSide d y).win = x.win := by cases d <;> rfl
@[simp] theorem LStream.setSide_prods (x : LStream) (d : Side) (y : Option PcSide) : (x.setSide d y).prods = x.prods := by cases d <;> rfl
@[simp] theorem LStream.setSide_outs (x : LStream) (d : Side) (y : Option PcSide) : (x.setSide d y).outs = x.outs := by cases d <;> rfl
@[simp] theorem LStream.setSide_parkA (x : LStream) (d : Side) (y : Option PcSide) : (x.setSide d y).parkA = x.parkA := by cases d <;> rfl
@[simp] theorem LStream.setSide_parkB (x : LStream) (d : Side) (y : Option PcSide) : (x.setSide d y).parkB = x.parkB := by cases d <;> rfl
@[simp] theorem LStream.setSide_waitA (x : LStream) (d : Side) (y : Option PcSide) : (x.setSide d y).waitA = x.waitA := by cases d <;> rfl
@[simp] theorem LStream.setSide_waitB (x : LStream) (d : Side) (y : Option PcSide) : (x.setSide d y).waitB = x.waitB := by cases d <;> rfl
@[simp] theorem LStream.setSide_sinceA (x : LStream) (d : Side) (y : Option PcSide) : (x.setSide d y).sinceA = x.sinceA := by cases d <;> rfl
@[simp] theorem LStream.setSide_sinceB (x : LStream) (d : Side) (y : Option PcSide) : (x.setSide d y).sinceB = x.sinceB := by cases d <;> rfl
@[simp] theorem LStream.setSide_slot (x : LStream) (d : Side) (y : Option PcSide) : (x.setSide d y).slot = x.slot := by cases d <;> rfl
@[simp] theorem LStream.setSide_last (x : LStream) (d : Side) (y : Option PcSide) : (x.setSide d y).last = x.last := by cases d <;> rfl
@[simp] theorem LStream.setSide_issuedL (x : LStream) (d : Side) (y : Option PcSide) : (x.setSide d y).issuedL = x.issuedL := by cases d <;> rfl
@[simp] theorem LStream.setSide_usedZ (x : LStream) (d : Side) (y : Option PcSide) : (x.setSide d y).usedZ = x.usedZ := by cases d <;> rfl

/-! ## LStream.setWait -/

@[simp] theorem LStream.setWait_tickets (x : LStream) (d : Side) (y : Option Wait) : (x.setWait d y).tickets = x.tickets := by cases d <;> rfl
@[simp] theorem LStream.setWait_results (x : LStream) (d : Side) (y : Option Wait) : (x.setWait d y).results = x.results := by cases d <;> rfl
@[simp] theorem LStream.setWait_blk (x : LStream) (d : Side) (y : Option Wait) : (x.setWait d y).blk = x.blk := by cases d <;> rfl
@[simp] theorem LStream.setWait_sideA (x : LStream) (d : Side) (y : Option Wait) : (x.setWait d y).sideA = x.sideA := by cases d <;> rfl
@[simp] theorem LStream.setWait_sideB (x : LStream) (d : Side) (y : Option Wait) : (x.setWait d y).sideB = x.sideB := by cases d <;> rfl
@[simp] theorem LStream.setWait_stack (x : LStream) (d : Side) (y : Option Wait) : (x.setWait d y).stack = x.stack := by cases d <;> rfl
@[simp] theorem LStream.setWait_live (x : LStream) (d : Side) (y : Option Wait) : (x.setWait d y).live = x.live := by cases d <;> rfl
@[simp] theorem LStream.setWait_v (x : LStream) (d : Side) (y : Option Wait) : (x.setWait d y).v = x.v := by cases d <;> rfl
@[simp] theorem LStream.setWait_staged (x : LStream) (d : Side) (y : Option Wait) : (x.setWait d y).staged = x.staged := by cases d <;> rfl
@[simp] theorem LStream.setWait_p (x : LStream) (d : Side) (y : Option Wait) : (x.setWait d y).p = x.p := by cases d <;> rfl
@[simp] theorem LStream.setWait_w (x : LStream) (d : Side) (y : Option Wait) : (x.setWait d y).w = x.w := by cases d <;> rfl
@[simp] theorem LStream.setWait_win (x : LStream) (d : Side) (y : Option Wait) : (x.setWait d y).win = x.win := by cases d <;> rfl
@[simp] theorem LStream.setWait_prods (x : LStream) (d : Side) (y : Option Wait) : (x.setWait d y).prods = x.prods := by cases d <;> rfl
@[simp] theorem LStream.setWait_outs (x : LStream) (d : Side) (y : Option Wait) : (x.setWait d y).outs = x.outs := by cases d <;> rfl
@[simp] theorem LStream.setWait_parkA (x : LStream) (d : Side) (y : Option Wait) : (x.setWait d y).parkA = x.parkA := by cases d <;> rfl
@[simp] theorem LStream.setWait_parkB (x : LStream) (d : Side) (y : Option Wait) : (x.setWait d y).parkB = x.parkB := by cases d <;> rfl
@[simp] theorem LStream.setWait_waitA_same (x : LStream) (y : Option Wait) : (x.setWait .a y).waitA = y := rfl
@[simp] theorem LStream.setWait_waitA_other (x : LStream) (y : Option Wait) : (x.setWait .b y).waitA = x.waitA := rfl
@[simp] theorem LStream.setWait_waitB_same (x : LStream) (y : Option Wait) : (x.setWait .b y).waitB = y := rfl
@[simp] theorem LStream.setWait_waitB_other (x : LStream) (y : Option Wait) : (x.setWait .a y).waitB = x.waitB := rfl
@[simp] theorem LStream.setWait_sinceA (x : LStream) (d : Side) (y : Option Wait) : (x.setWait d y).sinceA = x.sinceA := by cases d <;> rfl
@[simp] theorem LStream.setWait_sinceB (x : LStream) (d : Side) (y : Option Wait) : (x.setWait d y).sinceB = x.sinceB := by cases d <;> rfl
@[simp] theorem LStream.setWait_slot (x : LStream) (d : Side) (y : Option Wait) : (x.setWait d y).slot = x.slot := by cases d <;> rfl
@[simp] theorem LStream.setWait_last (x : LStream) (d : Side) (y : Option Wait) : (x.setWait d y).last = x.last := by cases d <;> rfl
@[simp] theorem LStream.setWait_issuedL (x : LStream) (d : Side) (y : Option Wait) : (x.setWait d y).issuedL = x.issuedL := by cases d <;> rfl
@[simp] theorem LStream.setWait_usedZ (x : LStream) (d : Side) (y : Option Wait) : (x.setWait d y).usedZ = x.usedZ := by cases d <;> rfl

/-! ## LStream.setSince -/

@[simp] theorem LStream.setSince_tickets (x : LStream) (d : Side) (n : Nat) : (x.setSince d n).tickets = x.tickets := by cases d <;> rfl
@[simp] theorem LStream.setSince_results (x : LStream) (d : Side) (n : Nat) : (x.setSince d n).results = x.results := by cases d <;> rfl
@[simp] theorem LStream.setSince_blk (x : LStream) (d : Side) (n : Nat) : (x.setSince d n).blk = x.blk := by cases d <;> rfl
@[simp] theorem LStream.setSince_sideA (x : LStream) (d : Side) (n : Nat) : (x.setSince d n).sideA = x.sideA := by cases d <;> rfl
@[simp] theorem LStream.setSince_sideB (x : LStream) (d : Side) (n : Nat) : (x.setSince d n).sideB = x.sideB := by cases d <;> rfl
@[simp] theorem LStream.setSince_stack (x : LStream) (d : Side) (n : Nat) : (x.setSince d n).stack = x.stack := by cases d <;> rfl
@[simp] theorem LStream.setSince_live (x : LStream) (d : Side) (n : Nat) : (x.setSince d n).live = x.live := by cases d <;> rfl
@[simp] theorem LStream.setSince_v (x : LStream) (d : Side) (n : Nat) : (x.setSince d n).v = x.v := by cases d <;> rfl
@[simp] theorem LStream.setSince_staged (x : LStream) (d : Side) (n : Nat) : (x.setSince d n).staged = x.staged := by cases d <;> rfl
@[simp] theorem LStream.setSince_p (x : LStream) (d : Side) (n : Nat) : (x.setSince d n).p = x.p := by cases d <;> rfl
@[simp] theorem LStream.setSince_w (x : LStream) (d : Side) (n : Nat) : (x.setSince d n).w = x.w := by cases d <;> rfl
@[simp] theorem LStream.setSince_win (x : LStream) (d : Side) (n : Nat) : (x.setSince d n).win = x.win := by cases d <;> rfl
@[simp] theorem LStream.setSince_prods (x : LStream) (d : Side) (n : Nat) : (x.setSince d n).prods = x.prods := by cases d <;> rfl
@[simp] theorem LStream.setSince_outs (x : LStream) (d : Side) (n : Nat) : (x.setSince d n).outs = x.outs := by cases d <;> rfl
@[simp] theorem LStream.setSince_parkA (x : LStream) (d : Side) (n : Nat) : (x.setSince d n).parkA = x.parkA := by cases d <;> rfl
@[simp] theorem LStream.setSince_parkB (x : LStream) (d : Side) (n : Nat) : (x.setSince d n).parkB = x.parkB := by cases d <;> rfl
@[simp] theorem LStream.setSince_waitA (x : LStream) (d : Side) (n : Nat) : (x.setSince d n).waitA = x.waitA := by cases d <;> rfl
@[simp] theorem LStream.setSince_waitB (x : LStream) (d : Side) (n : Nat) : (x.setSince d n).waitB = x.waitB := by cases d <;> rfl
@[simp] theorem LStream.setSince_sinceA_same (x : LStream) (n : Nat) : (x.setSince .a n).sinceA = n := rfl
@[simp] theorem LStream.setSince_sinceA_other (x : LStream) (n : Nat) : (x.setSince .b n).sinceA = x.sinceA := rfl
@[simp] theorem LStream.setSince_sinceB_same (x : LStream) (n : Nat) : (x.setSince .b n).sinceB = n := rfl
@[simp] theorem LStream.setSince_sinceB_other (x : LStream) (n : Nat) : (x.setSince .a n).sinceB = x.sinceB := rfl
@[simp] theorem LStream.setSince_slot (x : LStream) (d : Side) (n : Nat) : (x.setSince d n).slot = x.slot := by cases d <;> rfl
@[simp] theorem LStream.setSince_last (x : LStream) (d : Side) (n : Nat) : (x.setSince d n).last = x.last := by cases d <;> rfl
@[simp] theorem LStream.setSince_issuedL (x : LStream) (d : Side) (n : Nat) : (x.setSince d n).issuedL = x.issuedL := by cases d <;> rfl
@[simp] theorem LStream.setSince_usedZ (x : LStream) (d : Side) (n : Nat) : (x.setSince d n).usedZ = x.usedZ := by cases d <;> rfl

/-! ## LStream.setPark -/

@[simp] theorem LStream.setPark_tickets (x : LStream) (d : Side) (y : Option Park) : (x.setPark d y).tickets = x.tickets := by cases d <;> rfl
@[simp] theorem LStream.setPark_results (x : LStream) (d : Side) (y : Option Park) : (x.setPark d y).results = x.results := by cases d <;> rfl
@[simp] theorem LStream.setPark_blk (x : LStream) (d : Side) (y : Option Park) : (x.setPark d y).blk = x.blk := by cases d <;> rfl
@[simp] theorem LStream.setPark_sideA (x : LStream) (d : Side) (y : Option Park) : (x.setPark d y).sideA = x.sideA := by cases d <;> rfl
@[simp] theorem LStream.setPark_sideB (x : LStream) (d : Side) (y : Option Park) : (x.setPark d y).sideB = x.sideB := by cases d <;> rfl
@[simp] theorem LStream.setPark_stack (x : LStream) (d : Side) (y : Option Park) : (x.setPark d y).stack = x.stack := by cases d <;> rfl
@[simp] theorem LStream.setPark_live (x : LStream) (d : Side) (y : Option Park) : (x.setPark d y).live = x.live := by cases d <;> rfl
@[simp] theorem LStream.setPark_v (x : LStream) (d : Side) (y : Option Park) : (x.setPark d y).v = x.v := by cases d <;> rfl
@[simp] theorem LStream.setPark_staged (x : LStream) (d : Side) (y : Option Park) : (x.setPark d y).staged = x.staged := by cases d <;> rfl
@[simp] theorem LStream.setPark_p (x : LStream) (d : Side) (y : Option Park) : (x.setPark d y).p = x.p := by cases d <;> rfl
@[simp] theorem LStream.setPark_w (x : LStream) (d : Side) (y : Option Park) : (x.setPark d y).w = x.w := by cases d <;> rfl
@[simp] theorem LStream.setPark_win (x : LStream) (d : Side) (y : Option Park) : (x.setPark d y).win = x.win := by cases d <;> rfl
@[simp] theorem LStream.setPark_prods (x : LStream) (d : Side) (y : Option Park) : (x.setPark d y).prods = x.prods := by cases d <;> rfl
@[simp] theorem LStream.setPark_outs (x : LStream) (d : Side) (y : Option Park) : (x.setPark d y).outs = x.outs := by cases d <;> rfl
@[simp] theorem LStream.setPark_parkA_same (x : LStream) (y : Option Park) : (x.setPark .a y).parkA = y := rfl
@[simp] theorem LStream.setPark_parkA_other (x : LStream) (y : Option Park) : (x.setPark .b y).parkA = x.parkA := rfl
@[simp] theorem LStream.setPark_parkB_same (x : LStream) (y : Option Park) : (x.setPark .b y).parkB = y := rfl
@[simp] theorem LStream.setPark_parkB_other (x : LStream) (y : Option Park) : (x.setPark .a y).parkB = x.parkB := rfl
@[simp] theorem LStream.setPark_waitA (x : LStream) (d : Side) (y : Option Park) : (x.setPark d y).waitA = x.waitA := by cases d <;> rfl
@[simp] theorem LStream.setPark_waitB (x : LStream) (d : Side) (y : Option Park) : (x.setPark d y).waitB = x.waitB := by cases d <;> rfl
@[simp] theorem LStream.setPark_sinceA (x : LStream) (d : Side) (y : Option Park) : (x.setPark d y).sinceA = x.sinceA := by cases d <;> rfl
@[simp] theorem LStream.setPark_sinceB (x : LStream) (d : Side) (y : Option Park) : (x.setPark d y).sinceB = x.sinceB := by cases d <;> rfl
@[simp] theorem LStream.setPark_slot (x : LStream) (d : Side) (y : Option Park) : (x.setPark d y).slot = x.slot := by cases d <;> rfl
@[simp] theorem LStream.setPark_last (x : LStream) (d : Side) (y : Option Park) : (x.setPark d y).last = x.last := by cases d <;> rfl
@[simp] theorem LStream.setPark_issuedL (x : LStream) (d : Side) (y : Option Park) : (x.setPark d y).issuedL = x.issuedL := by cases d <;> rfl
@[simp] theorem LStream.setPark_usedZ (x : LStream) (d : Side) (y : Option Park) : (x.setPark d y).usedZ = x.usedZ := by cases d <;> rfl

/-! ## Wave.goTo -/

@[simp] theorem Wave.goTo_grid (w : Wave) (pc : Nat) : (w.goTo pc).grid = w.grid := rfl
@[simp] theorem Wave.goTo_team (w : Wave) (pc : Nat) : (w.goTo pc).team = w.team := rfl
@[simp] theorem Wave.goTo_num (w : Wave) (pc : Nat) : (w.goTo pc).num = w.num := rfl
@[simp] theorem Wave.goTo_core (w : Wave) (pc : Nat) : (w.goTo pc).core = w.core := rfl
@[simp] theorem Wave.goTo_quarter (w : Wave) (pc : Nat) : (w.goTo pc).quarter = w.quarter := rfl
@[simp] theorem Wave.goTo_pos (w : Wave) (pc : Nat) : (w.goTo pc).pos = w.pos := rfl
@[simp] theorem Wave.goTo_st (w : Wave) (pc : Nat) : (w.goTo pc).st = w.st := rfl
@[simp] theorem Wave.goTo_killCause (w : Wave) (pc : Nat) : (w.goTo pc).killCause = w.killCause := rfl
@[simp] theorem Wave.goTo_imagePoisoned (w : Wave) (pc : Nat) : (w.goTo pc).imagePoisoned = w.imagePoisoned := rfl
@[simp] theorem Wave.goTo_ls (w : Wave) (pc : Nat) : (w.goTo pc).ls = w.ls := rfl
@[simp] theorem Wave.goTo_soft (w : Wave) (pc : Nat) : (w.goTo pc).soft = w.soft := rfl
@[simp] theorem Wave.goTo_priv (w : Wave) (pc : Nat) : (w.goTo pc).priv = w.priv := rfl
@[simp] theorem Wave.goTo_region (w : Wave) (pc : Nat) : (w.goTo pc).region = w.region := rfl
@[simp] theorem Wave.goTo_green (w : Wave) (pc : Nat) : (w.goTo pc).green = w.green := rfl
@[simp] theorem Wave.goTo_arrival (w : Wave) (pc : Nat) : (w.goTo pc).arrival = w.arrival := rfl
@[simp] theorem Wave.goTo_ss_pc (w : Wave) (pc : Nat) : (w.goTo pc).ss.pc = pc := rfl
@[simp] theorem Wave.goTo_ss_s (w : Wave) (pc : Nat) : (w.goTo pc).ss.s = w.ss.s := rfl
@[simp] theorem Wave.goTo_ss_parkS (w : Wave) (pc : Nat) : (w.goTo pc).ss.parkS = w.ss.parkS := rfl
@[simp] theorem Wave.goTo_ss_waitS (w : Wave) (pc : Nat) : (w.goTo pc).ss.waitS = none := rfl
@[simp] theorem Wave.goTo_ss_sinceS (w : Wave) (pc : Nat) : (w.goTo pc).ss.sinceS = w.ss.sinceS := rfl
@[simp] theorem Wave.goTo_ss_waitLen (w : Wave) (pc : Nat) : (w.goTo pc).ss.waitLen = w.ss.waitLen := rfl
@[simp] theorem Wave.goTo_ss_yieldN (w : Wave) (pc : Nat) : (w.goTo pc).ss.yieldN = w.ss.yieldN := rfl
@[simp] theorem Wave.goTo_ss_yieldAt (w : Wave) (pc : Nat) : (w.goTo pc).ss.yieldAt = w.ss.yieldAt := rfl
@[simp] theorem Wave.goTo_ss_issuedS (w : Wave) (pc : Nat) : (w.goTo pc).ss.issuedS = w.ss.issuedS := rfl
@[simp] theorem Wave.goTo_ss_yielded (w : Wave) (pc : Nat) : (w.goTo pc).ss.yielded = w.ss.yielded := rfl
@[simp] theorem Wave.goTo_ss_blocks (w : Wave) (pc : Nat) : (w.goTo pc).ss.blocks = w.ss.blocks := rfl
@[simp] theorem Wave.goTo_ss_release (w : Wave) (pc : Nat) : (w.goTo pc).ss.release = w.ss.release := rfl
@[simp] theorem Wave.goTo_ss_acquire (w : Wave) (pc : Nat) : (w.goTo pc).ss.acquire = w.ss.acquire := rfl
@[simp] theorem Wave.goTo_ss_ins (w : Wave) (pc : Nat) : (w.goTo pc).ss.ins = w.ss.ins := rfl
@[simp] theorem Wave.goTo_ss_outs (w : Wave) (pc : Nat) : (w.goTo pc).ss.outs = w.ss.outs := rfl
@[simp] theorem Wave.goTo_ss_begun (w : Wave) (pc : Nat) : (w.goTo pc).ss.begun = w.ss.begun := rfl
@[simp] theorem Wave.goTo_ss_bars (w : Wave) (pc : Nat) : (w.goTo pc).ss.bars = w.ss.bars := rfl
@[simp] theorem Wave.goTo_ss_cbars (w : Wave) (pc : Nat) : (w.goTo pc).ss.cbars = w.ss.cbars := rfl
@[simp] theorem Wave.goTo_ss_unwatched (w : Wave) (pc : Nat) : (w.goTo pc).ss.unwatched = w.ss.unwatched := rfl

end Sys2Proof.Machine
end

