-- ==== Sys2Proof/Laws/Stream.lean ====
section
/-!
SUPPORT. What an L-op does around its own effect: when it may issue, what it reads, and what its end changes.
-/

namespace Sys2Proof.Machine

/-! ## Before an L-op -/

theorem least_none {l : List Nat} (h : l = []) : least l = none := by subst h; rfl

/-- A ready L-op issues with its wave's own values. -/
theorem lStart_ready {s : State} {w : Wave} {p : PcSide} {c : LCtl} {regs : List Nat} {zs : List ZReg} {u : LUse}
    (h : s.LReady w p c regs zs) (hr : ∀ r ∈ u.readRegs ++ u.writeRegs, r ∈ regs) (hz : u.zs = zs) :
    s.lStart c u = .ok ⟨s, s.cur.1, w, s.cur.2, p, w.active p c, w.ls.ticket, []⟩ := by
  have e1 : u.unstaged w.ls.blk = none := by
    unfold LUse.unstaged
    have : (u.readRegs ++ u.writeRegs).filter (fun r => !w.ls.blk.names r) = [] := by
      rw [List.filter_eq_nil_iff]
      intro r hm
      simp [h.staged r (hr r hm)]
    rw [this]
    simp only [least]
    cases hb : w.ls.blk.z with
    | true => simp
    | false =>
      have : zs = [] := by
        cases zs with
        | nil => rfl
        | cons z zs => rw [h.slot (List.cons_ne_nil z zs)] at hb; cases hb
      simp [hz, this, least]
  have e2 : w.ls.hazard s.cur.2 u = none := by
    unfold LStream.hazard
    have r74 : (u.readRegs ++ u.writeRegs).filter (fun r => w.ls.prods.any fun p => p.open_ s.cur.2 && p.regs.any fun e => e.1 == r) = [] := by
      rw [List.filter_eq_nil_iff]
      intro r hm hc
      rw [List.any_eq_true] at hc
      obtain ⟨q, hq, hc⟩ := hc
      simp only [Prod.open_, Bool.and_eq_true, beq_iff_eq, decide_eq_true_eq, List.any_eq_true] at hc
      obtain ⟨⟨h1, h2⟩, x, hx, h3⟩ := hc
      exact (h.covered q hq h1 h2).1 r (hr r hm) x hx h3
    have r78 : (u.readRegs ++ u.writeRegs).filter (fun r => w.ls.outs.any fun o => o.owes r) = [] := by
      rw [List.filter_eq_nil_iff]
      intro r hm hc
      rw [List.any_eq_true] at hc
      obtain ⟨o, ho, hc⟩ := hc
      simp only [Outst.owes, Bool.and_eq_true, Bool.not_eq_true', beq_iff_eq, List.any_eq_true] at hc
      obtain ⟨⟨h1, h2⟩, x, hx, h3⟩ := hc
      exact h.landed o ho h1 h2 r (hr r hm) x hx h3
    have rz : (u.zs.map Fin.val).filter (fun n => w.ls.prods.any fun p => p.open_ s.cur.2 && p.zs.any fun e => e.1 == n) = [] := by
      rw [List.filter_eq_nil_iff]
      intro n hm hc
      rw [List.mem_map] at hm
      obtain ⟨k, hk, rfl⟩ := hm
      rw [List.any_eq_true] at hc
      obtain ⟨q, hq, hc⟩ := hc
      simp only [Prod.open_, Bool.and_eq_true, beq_iff_eq, decide_eq_true_eq, List.any_eq_true] at hc
      obtain ⟨⟨h1, h2⟩, x, hx, h3⟩ := hc
      rw [hz] at hk
      exact (h.covered q hq h1 h2).2 k hk x hx h3
    simp only [r74, r78, rz, List.append_nil, least, Option.map_none]
  have e3 (act : Mask) : s.parityHit s.cur.1 u act = none := by
    unfold State.parityHit
    rw [h.sound]
    rfl
  have e4 : ((c.wt && w.ls.w[c.cnt] != 0) || (c.inc && !c.wt && w.ls.w[c.cnt] == 63)) = false := by
    cases hw : c.wt with
    | true => simp only [h.counter hw]; simp
    | false =>
      cases hi : c.inc with
      | true => have := h.room hi hw; simpa using this
      | false => simp
  unfold State.lStart
  simp only [State.wave?, h.wave, h.side, e1, e2, e3, e4, Bool.false_eq_true, if_false, Option.isSome_none]

/-- What a ready L-op reads. -/
theorem read_operand {s : State} {i : Nat} {w : Wave} {d : Side} {p : PcSide} {act : Mask} (pos : Nat) (o : Opnd) (bits : Nat) (l : Lane) :
    (⟨s, i, w, d, p, act, w.ls.ticket, []⟩ : LIss).read pos o bits l = w.operand o bits l := by
  cases o with
  | v r =>
    have key (k : Nat) : ((⟨s, i, w, d, p, act, w.ls.ticket, []⟩ : LIss).lane pos k l).toNat =
        if h : k < 256 then (w.ls.laneVal ⟨k, h⟩ l).toNat else 0 := by
      unfold LIss.lane
      simp only [List.find?_nil]
      split <;> rfl
    unfold LIss.read Wave.operand
    simp only [key]
  | t k => rfl
  | lane => rfl
  | wave => rfl
  | zero => rfl

/-! ## The window -/

theorem laneVal_filter (x : LStream) (r : VReg) (l : Lane) :
    x.laneVal r l = match (x.win.filter fun e => e.of r l).head? with
      | some e => e.val[l]
      | none => (x.committed r)[l] := by
  unfold LStream.laneVal
  rw [List.head?_filter]
  rfl

theorem committed_win (x : LStream) (ws : List WinEnt) (r : VReg) : ({ x with win := ws } : LStream).committed r = x.committed r := rfl

/-- A list of which one entry satisfies p, cut at that entry. -/
theorem filter_map_of {f : WinEnt → WinEnt} {p : WinEnt → Bool} (hf : ∀ e, p (f e) = p e) (l : List WinEnt) :
    (l.map f).filter p = (l.filter p).map f := by
  rw [List.filter_map]
  congr 1
  exact List.filter_congr fun e _ => hf e

/-- Two windows that differ in marks only, as one lane of one register sees them. -/
def sameButDead (a b : List WinEnt) : Prop := a.map (fun e => { e with dead := 0 }) = b.map fun e => { e with dead := 0 }

theorem markDead_same (r : Nat) (q : VReg) (l : Lane) (m : Mask) (win : List WinEnt) :
    sameButDead ((markDead r m win).filter fun e => e.of q l) (win.filter fun e => e.of q l) := by
  induction win generalizing m with
  | nil => rfl
  | cons e es ih =>
    unfold markDead sameButDead
    split
    · rw [List.filter_cons, List.filter_cons]
      have : ({ e with dead := e.dead ||| e.mask &&& m } : WinEnt).of q l = e.of q l := rfl
      rw [this]
      split
      · rw [List.map_cons, List.map_cons, ih]
      · exact ih _
    · rw [List.filter_cons, List.filter_cons]
      split
      · rw [List.map_cons, List.map_cons, ih]
      · exact ih _

theorem foldl_markDead_same (rs : List Nat) (q : VReg) (l : Lane) (m : Mask) (win : List WinEnt) :
    sameButDead ((rs.foldl (fun z r => markDead r m z) win).filter fun e => e.of q l) (win.filter fun e => e.of q l) := by
  induction rs generalizing win with
  | nil => rfl
  | cons r rs ih => exact (ih (markDead r m win)).trans (markDead_same r q l m win)

/-- The mark of a lone result. -/
theorem markDead_lone (r : Nat) (q : VReg) (l : Lane) (m : Mask) (win : List WinEnt) (e : WinEnt)
    (h : win.filter (fun e => e.of q l) = [e]) :
    ∃ g : Mask, (markDead r m win).filter (fun e => e.of q l) = [{ e with dead := g }] ∧
      inMask g l = (inMask e.dead l || (decide (r = q.val) && inMask m l)) := by
  induction win generalizing m with
  | nil => cases h
  | cons x xs ih =>
    rw [List.filter_cons] at h
    by_cases hx : x.of q l = true
    · rw [if_pos hx] at h
      injection h with h1 h2
      subst h1
      unfold WinEnt.of at hx
      simp only [Bool.and_eq_true, beq_iff_eq] at hx
      have hxs (m : Mask) : (markDead r m xs).filter (fun e => e.of q l) = [] := by
        have := markDead_same r q l m xs
        rw [h2] at this
        exact List.map_eq_nil_iff.1 this
      unfold markDead
      split
      · rename_i hr
        have hr : x.reg = r := by simpa using hr
        rw [List.filter_cons]
        have hof : ({ x with dead := x.dead ||| x.mask &&& m } : WinEnt).of q l = true := by
          unfold WinEnt.of; simp [hx.1, hx.2]
        rw [hof, if_pos rfl, hxs]
        refine ⟨_, rfl, ?_⟩
        rw [inMask_or, inMask_and, hx.2]
        have : r = q.val := by rw [← hr, hx.1]
        simp [this]
      · rename_i hr
        rw [List.filter_cons]
        have hof : x.of q l = true := by unfold WinEnt.of; simp [hx.1, hx.2]
        rw [hof, if_pos rfl, hxs]
        refine ⟨x.dead, rfl, ?_⟩
        have : r ≠ q.val := by
          intro e
          apply hr
          simp [e, hx.1]
        simp [this]
    · rw [if_neg hx] at h
      unfold markDead
      split
      · rename_i hr
        have hr : x.reg = r := by simpa using hr
        rw [List.filter_cons]
        have hof : ({ x with dead := x.dead ||| x.mask &&& m } : WinEnt).of q l = x.of q l := rfl
        rw [hof, if_neg hx]
        obtain ⟨g, h1, h2⟩ := ih (m &&& ~~~x.mask) h
        refine ⟨g, h1, ?_⟩
        rw [h2, inMask_and, inMask_not]
        by_cases hq : r = q.val
        · have : inMask x.mask l = false := by
            unfold WinEnt.of at hx
            simp only [hr, hq, beq_self_eq_true, Bool.true_and] at hx
            simpa using hx
          simp [hq, this]
        · simp [hq]
      · rw [List.filter_cons, if_neg hx]
        exact ih m h

theorem foldl_markDead_lone (rs : List Nat) (q : VReg) (l : Lane) (m : Mask) (win : List WinEnt) (e : WinEnt)
    (h : win.filter (fun e => e.of q l) = [e]) :
    ∃ g : Mask, (rs.foldl (fun z r => markDead r m z) win).filter (fun e => e.of q l) = [{ e with dead := g }] ∧
      (inMask g l = true ↔ inMask e.dead l = true ∨ (q.val ∈ rs ∧ inMask m l = true)) := by
  induction rs generalizing win e with
  | nil => exact ⟨e.dead, h, by simp⟩
  | cons r rs ih =>
    obtain ⟨g, h1, h2⟩ := markDead_lone r q l m win e h
    obtain ⟨g', h3, h4⟩ := ih (markDead r m win) _ h1
    refine ⟨g', h3, ?_⟩
    rw [h4, h2]
    simp only [Bool.or_eq_true, Bool.and_eq_true, decide_eq_true_eq, List.mem_cons, eq_comm (a := r)]
    constructor
    · rintro ((h | h) | h)
      · exact .inl h
      · exact .inr ⟨.inl h.1, h.2⟩
      · exact .inr ⟨.inr h.1, h.2⟩
    · rintro (h | ⟨h | h, k⟩)
      · exact .inl (.inl h)
      · exact .inl (.inr ⟨h, k⟩)
      · exact .inr ⟨h, k⟩

theorem older_of (e : WinEnt) (d : Side) (q : VReg) (l : Lane) : (e.older d).of q l = e.of q l := by
  unfold WinEnt.older
  split <;> rfl

theorem older_val (e : WinEnt) (d : Side) : (e.older d).val = e.val := by
  unfold WinEnt.older
  split <;> rfl

/-- What leaves the window at an issue of side d. -/
def LStream.leaving (x : LStream) (d : Side) : List WinEnt := (x.win.map (·.older d)).filter WinEnt.over

theorem age_eq (x : LStream) (d : Side) : ∃ v st, x.age d = { x with
    v := v, staged := st, win := (x.win.map (·.older d)).filter fun e => !e.over,
    outs := x.outs.map fun o => if o.side == d then { o with age := o.age + 1 } else o } ∧
    ∀ q : VReg, ∀ l : Lane, (({ x with v := v, staged := st } : LStream).committed q)[l] =
      (((x.leaving d).find? fun e => e.of q l && !inMask e.dead l).map fun e => e.val[l]).getD (x.committed q)[l] := by
  obtain ⟨v, st, h⟩ := foldr_leave_fields x false (x.leaving d)
  refine ⟨v, st, ?_, ?_⟩
  · show ({ ((x.leaving d).foldr (fun e z => z.leave false e) x) with
      win := (x.win.map (·.older d)).filter fun e => !e.over,
      outs := ((x.leaving d).foldr (fun e z => z.leave false e) x).outs.map fun o =>
        if o.side == d then { o with age := o.age + 1 } else o } : LStream) = _
    rw [h]
  · intro q l
    have := committed_foldr_leave x false (x.leaving d) q l
    rw [h] at this
    rw [this]
    simp only [Bool.false_or]
    show _ = (((x.leaving d).find? fun e => e.reg == q.val && inMask e.mask l && !inMask e.dead l).map fun e => e.val[l]).getD _
    cases (x.leaving d).find? fun e => e.reg == q.val && inMask e.mask l && !inMask e.dead l <;> rfl

theorem older_filter (x : List WinEnt) (d : Side) (q : VReg) (l : Lane) :
    (x.map (·.older d)).filter (fun e => e.of q l) = (x.filter fun e => e.of q l).map (·.older d) :=
  filter_map_of (fun e => older_of e d q l) x

theorem filter_comm {α : Type} (p q : α → Bool) (l : List α) : (l.filter p).filter q = (l.filter q).filter p := by
  rw [List.filter_filter, List.filter_filter]
  exact List.filter_congr fun x _ => Bool.and_comm _ _

/-- A value of which no result leaves reads as before. -/
theorem age_kept (x : LStream) (d : Side) (q : VReg) (l : Lane)
    (h : ∀ e ∈ x.win.filter (fun e => e.of q l), (e.older d).over = false) : (x.age d).laneVal q l = x.laneVal q l := by
  obtain ⟨v, st, he, hc⟩ := age_eq x d
  have hall : ∀ e ∈ (x.win.filter fun e => e.of q l).map (·.older d), e.over = false := by
    intro e hm
    rw [List.mem_map] at hm
    obtain ⟨e0, h0, rfl⟩ := hm
    exact h e0 h0
  have hnone : (x.leaving d).find? (fun e => e.of q l && !inMask e.dead l) = none := by
    rw [List.find?_eq_none]
    intro e hm hp
    unfold LStream.leaving at hm
    rw [List.mem_filter] at hm
    simp only [Bool.and_eq_true] at hp
    have : e ∈ (x.win.filter fun e => e.of q l).map (·.older d) := by
      rw [← older_filter, List.mem_filter]
      exact ⟨hm.1, hp.1⟩
    have h1 := hall e this
    exact absurd hm.2 (by simp [h1])
  rw [laneVal_filter, laneVal_filter, he]
  simp only
  rw [filter_comm, older_filter, List.filter_eq_self.2 (fun e hm => by
    simp [hall e hm])]
  cases hw : x.win.filter fun e => e.of q l with
  | nil =>
    simp only [List.map_nil, List.head?_nil]
    have := hc q l
    rw [hnone] at this
    exact this
  | cons e es =>
    simp only [List.map_cons, List.head?_cons, older_val]

/-- A lone result that leaves is committed, unless it is marked dead. -/
theorem age_left (x : LStream) (d : Side) (q : VReg) (l : Lane) (e : WinEnt)
    (h : x.win.filter (fun e => e.of q l) = [e]) (ha : (e.older d).over = true) :
    (x.age d).laneVal q l = if inMask e.dead l = true then (x.committed q)[l] else e.val[l] := by
  obtain ⟨v, st, he, hc⟩ := age_eq x d
  have hdead : (e.older d).dead = e.dead := by unfold WinEnt.older; split <;> rfl
  have hlv : (x.leaving d).find? (fun e => e.of q l && !inMask e.dead l) = if inMask e.dead l = true then none else some (e.older d) := by
    have h1 : (x.leaving d).filter (fun e => e.of q l) = [e.older d] := by
      unfold LStream.leaving
      rw [filter_comm, older_filter, h]
      simp [ha]
    have h2 : (x.leaving d).find? (fun e => e.of q l && !inMask e.dead l) = (((x.leaving d).filter fun e => e.of q l).filter fun e =>
        !inMask e.dead l).head? := by
      rw [List.filter_filter, List.head?_filter]
      congr 1
      funext y
      exact Bool.and_comm _ _
    rw [h2, h1, List.filter_cons, hdead]
    cases inMask e.dead l <;> simp
  rw [laneVal_filter, he]
  simp only
  rw [filter_comm, older_filter, h]
  simp only [List.map_cons, List.map_nil, List.filter_cons, ha, Bool.not_true, Bool.false_eq_true, if_false, List.filter_nil,
    List.head?_nil]
  have := hc q l
  rw [hlv] at this
  refine Eq.trans this ?_
  split
  · rfl
  · simp [older_val]

/-! ## The end of an L-op -/

theorem goTo_laneVal (x : LStream) (d : Side) (pc : Nat) (q : VReg) (l : Lane) : (x.goTo d pc).laneVal q l = x.laneVal q l := by
  cases d <;> rfl

theorem cover_laneVal (x : LStream) (d : Side) (n : Nat) (new : List Prod) (q : VReg) (l : Lane) :
    (x.cover d n new).laneVal q l = x.laneVal q l := by
  let f (e : WinEnt) : WinEnt := if e.side == d then { e with due := e.due - (n + 1) } else e
  have hf (e : WinEnt) : (f e).reg = e.reg ∧ (f e).mask = e.mask ∧ (f e).val = e.val := by
    show (if _ then _ else _ : WinEnt).reg = _ ∧ (if _ then _ else _ : WinEnt).mask = _ ∧ (if _ then _ else _ : WinEnt).val = _
    cases e.side == d <;> exact ⟨rfl, rfl, rfl⟩
  show (match (x.win.map f).find? fun e => e.reg == q.val && inMask e.mask l with | some e => e.val[l] | none => (x.committed q)[l]) = _
  rw [List.find?_map]
  have : ((fun e : WinEnt => e.reg == q.val && inMask e.mask l) ∘ f) = fun e => e.reg == q.val && inMask e.mask l := by
    funext e
    simp only [Function.comp, (hf e).1, (hf e).2.1]
  rw [this]
  unfold LStream.laneVal
  cases x.win.find? fun e => e.reg == q.val && inMask e.mask l with
  | none => rfl
  | some e => simp [(hf e).2.2]

/-- Results that enter the window: the first of a register stands in the active lanes. -/
theorem push_laneVal (x : LStream) (d : Side) (act : Mask) (lud : Bool) (lat : Nat) (res : List (Nat × Lanes Word)) (q : VReg) (l : Lane) :
    (x.push d act lud lat res).laneVal q l =
      if inMask act l = true then ((res.find? fun e => e.1 == q.val).map fun e => e.2[l]).getD (x.laneVal q l) else x.laneVal q l := by
  by_cases h0 : act = 0
  · have : inMask act l = false := by simp [h0, inMask]
    unfold LStream.push
    simp [h0, inMask]
  · unfold LStream.push
    rw [if_neg h0, laneVal_filter, laneVal_filter]
    simp only [List.filter_append]
    have hres : ((res.map fun e => (⟨e.1, d, e.2, act, if lud then act else 0, 0, lat⟩ : WinEnt)).filter fun e => e.of q l) =
        if inMask act l = true then (res.filter fun e => e.1 == q.val).map fun e => (⟨e.1, d, e.2, act, if lud then act else 0, 0, lat⟩ : WinEnt)
        else [] := by
      induction res with
      | nil => simp
      | cons e es ih =>
        simp only [List.map_cons, List.filter_cons, ih]
        show (if (e.1 == q.val && inMask act l) = true then _ else _) = _
        cases inMask act l <;> cases e.1 == q.val <;> simp
    rw [hres]
    by_cases hm : inMask act l = true
    · rw [if_pos hm, if_pos hm, ← List.head?_filter]
      cases res.filter fun e => e.1 == q.val with
      | nil => rfl
      | cons e es => rfl
    · rw [if_neg hm, if_neg hm]
      rfl

theorem side?_setSide_other (x : LStream) (d : Side) (p : Option PcSide) : (x.setSide d p).side? (Side.other d) = x.side? (Side.other d) := by
  cases d <;> rfl

theorem side?_setSide_same (x : LStream) (d : Side) (p : Option PcSide) : (x.setSide d p).side? d = p := by
  cases d <;> rfl

theorem find_destRegs_none (D : Dst) (bits : Nat) (g : Lane → DWord) (q : VReg) (h : q.val ∉ spanD D (regsOf bits)) :
    (destRegs D bits g).find? (fun e => e.1 == q.val) = none := by
  unfold destRegs
  cases D with
  | zero => rfl
  | v r =>
    unfold spanD regsOf at h
    simp only
    by_cases hb : bits = 64
    · simp only [hb, if_true] at h ⊢
      have h1 : r.val ≠ q.val := fun e => h (by simp [List.range_succ, e])
      have h2 : r.val + 1 ≠ q.val := fun e => h (by simp [List.range_succ, e])
      simp [h1, h2]
    · simp only [hb, if_false] at h ⊢
      have h1 : r.val ≠ q.val := fun e => h (by simp [List.range_succ, e])
      simp [h1]

/-- The wave after an L-op with results `g`, whose other effect has made w0 of it. -/
theorem stream_laneTo (x : LIss) (w0 : Wave) (hs : w0.ls.side? x.d = some x.p) (c : LCtl) (u : LUse) (lat : Nat) (D : Dst) (bits : Nat)
    (g : Lane → Nat) (dead : List Nat) (hd : ∀ r, r ∈ (u.reads.filter fun e => e.2.2).flatMap (fun e => spanO e.1 e.2.1) ↔ r ∈ dead) :
    w0.LaneTo { w0 with ls := x.stream c u lat (destRegs D bits fun l => BitVec.ofNat 64 (g l)) w0.ls } x.d x.p x.act dead D bits g := by
  let win := ((u.reads.filter fun e => e.2.2).flatMap fun e => spanO e.1 e.2.1).foldl (fun z r => markDead r x.act z) w0.ls.win
  let z0 : LStream := { w0.ls with win := win }
  let res := destRegs D bits fun l => BitVec.ofNat 64 (g l)
  have hval (q : VReg) (l : Lane) : (x.stream c u lat res w0.ls).laneVal q l =
      if inMask x.act l = true then ((res.find? fun e => e.1 == q.val).map fun e => e.2[l]).getD ((z0.age x.d).laneVal q l)
      else (z0.age x.d).laneVal q l := by
    unfold LIss.stream
    simp only
    rw [goTo_laneVal, cover_laneVal, push_laneVal]
  have hsame (q : VReg) (l : Lane) : sameButDead (win.filter fun e => e.of q l) (w0.ls.win.filter fun e => e.of q l) :=
    foldl_markDead_same _ q l x.act w0.ls.win
  have hmarked (q : VReg) (l : Lane) : z0.laneVal q l = w0.ls.laneVal q l := by
    rw [laneVal_filter, laneVal_filter]
    show (match (win.filter fun e => e.of q l).head? with | some e => e.val[l] | none => (w0.ls.committed q)[l]) = _
    have := hsame q l
    unfold sameButDead at this
    cases h1 : win.filter fun e => e.of q l with
    | nil =>
      rw [h1] at this
      rw [List.map_eq_nil_iff.1 this.symm]
    | cons e es =>
      rw [h1] at this
      cases h2 : w0.ls.win.filter fun e => e.of q l with
      | nil => rw [h2] at this; cases this
      | cons e2 es2 =>
        rw [h2, List.map_cons, List.map_cons] at this
        injection this with h3 h4
        have : e.val = e2.val := by have e1 := congrArg WinEnt.val h3; exact e1
        simp [this]
  have hout (q : VReg) (l : Lane) (h : q.val ∉ spanD D (regsOf bits) ∨ inMask x.act l = false) :
      (x.stream c u lat res w0.ls).laneVal q l = (z0.age x.d).laneVal q l := by
    rw [hval]
    split
    · rename_i hm
      rcases h with h | h
      · rw [find_destRegs_none D bits _ q h]; rfl
      · rw [hm] at h; cases h
    · rfl
  have hage := age_eq z0 x.d
  exact {
    side := by
      show (x.stream c u lat res w0.ls).side? x.d = _
      obtain ⟨v, st, he, _⟩ := hage
      unfold LIss.stream LStream.goTo
      simp only
      have h1 : ((((z0.age x.d).push x.d x.act u.lud lat res).cover x.d c.stall.toNat
          (if res.isEmpty then [] else [(⟨x.d, lat, c.stall.toNat + 1, w0.ls.before (res.map (·.1)), [], true⟩ : Prod)])).side? x.d) = some x.p := by
        rw [← hs, he]
        unfold LStream.push
        split <;> cases x.d <;> rfl
      have h2 (y : LStream) (n : Option Wait) (d e : Side) : (y.setWait d n).side? e = y.side? e := by cases d <;> cases e <;> rfl
      rw [h2, side?_setSide_same]
      exact congrArg (Option.map _) h1
    other := by
      show (x.stream c u lat res w0.ls).side? (Side.other x.d) = _
      obtain ⟨v, st, he, _⟩ := hage
      unfold LIss.stream LStream.goTo
      simp only
      have h2 (y : LStream) (n : Option Wait) (d e : Side) : (y.setWait d n).side? e = y.side? e := by cases d <;> cases e <;> rfl
      rw [h2, side?_setSide_other]
      show ((z0.age x.d).push x.d x.act u.lud lat res).side? (Side.other x.d) = _
      rw [he]
      unfold LStream.push
      split <;> cases x.d <;> rfl
    low := by
      intro r l hD hm
      show (x.stream c u lat res w0.ls).laneVal r l = _
      rw [hval, if_pos hm]
      have : res.find? (fun e => e.1 == r.val) = some (r.val, lanes fun l => (BitVec.ofNat 64 (g l)).setWidth 32) := by
        show (destRegs D bits _).find? _ = _
        rw [hD]
        unfold destRegs
        simp only
        split <;> simp
      rw [this]
      simp
    high := by
      intro r q l hD hb hq hm
      show (x.stream c u lat res w0.ls).laneVal q l = _
      rw [hval, if_pos hm]
      have : res.find? (fun e => e.1 == q.val) = some (q.val, lanes fun l => ((BitVec.ofNat 64 (g l)) >>> 32).setWidth 32) := by
        show (destRegs D bits _).find? _ = _
        rw [hD, hq]
        unfold destRegs
        simp [hb]
      rw [this]
      simp only [Option.map_some, Option.getD_some, getElem_lanes_fin]
      apply BitVec.eq_of_toNat_eq
      simp only [BitVec.toNat_setWidth, BitVec.toNat_ushiftRight, BitVec.toNat_ofNat, Nat.shiftRight_eq_div_pow]
      omega
    kept := by
      intro q l h hk
      show (x.stream c u lat res w0.ls).laneVal q l = _
      rw [hout q l h, age_kept, hmarked]
      intro e he
      have := hsame q l
      unfold sameButDead at this
      have hmem : ({ e with dead := 0 } : WinEnt) ∈ (win.filter fun e => e.of q l).map fun e => { e with dead := 0 } :=
        List.mem_map.2 ⟨e, he, rfl⟩
      rw [this, List.mem_map] at hmem
      obtain ⟨e2, h2, h3⟩ := hmem
      rw [List.mem_filter] at h2
      have h4 := hk e2 h2.1 h2.2
      have hs : e2.side = e.side := by have e1 := congrArg WinEnt.side h3; exact e1
      have ha : e2.age = e.age := by have e1 := congrArg WinEnt.age h3; exact e1
      have hu : e2.due = e.due := by have e1 := congrArg WinEnt.due h3; exact e1
      unfold WinEnt.older WinEnt.over at h4 ⊢
      rw [hs] at h4
      split <;> rename_i hc <;> simp only [hc, if_true, ha, hu] at h4 <;> simpa [ha, hu] using h4
    left := by
      intro q l e h he ha
      show (x.stream c u lat res w0.ls).laneVal q l = _
      obtain ⟨m, h1, h2⟩ := foldl_markDead_lone ((u.reads.filter fun e => e.2.2).flatMap fun e => spanO e.1 e.2.1) q l x.act w0.ls.win e he
      have ha' : (({ e with dead := m } : WinEnt).older x.d).over = true := by
        unfold WinEnt.older WinEnt.over at ha ⊢
        split <;> rename_i hc <;> simp only [hc] at ha <;> simpa using ha
      rw [hout q l h, age_left z0 x.d q l _ h1 ha']
      have h3 : inMask m l = true ↔ inMask e.dead l = true ∨ (q.val ∈ dead ∧ inMask x.act l = true) := by
        rw [h2, hd]
      simp only [h3]
      rfl
    outs := by
      show (x.stream c u lat res w0.ls).outs.map Outst.ageless = _
      have : (x.stream c u lat res w0.ls).outs = (z0.age x.d).outs := by
        unfold LIss.stream LStream.push
        simp only
        cases x.d <;> (split <;> rfl)
      obtain ⟨v, st, he, _⟩ := hage
      rw [this, he]
      simp only [List.map_map]
      apply List.map_congr_left
      intro o _
      unfold Outst.ageless
      simp only [Function.comp]
      split <;> rfl
    rest := by
      obtain ⟨v, st, he, _⟩ := hage
      show ({ w0 with ls := { (x.stream c u lat res w0.ls) with
        v := w0.ls.v, staged := w0.ls.staged, win := w0.ls.win, prods := w0.ls.prods, outs := w0.ls.outs,
        sideA := w0.ls.sideA, sideB := w0.ls.sideB, waitA := w0.ls.waitA, waitB := w0.ls.waitB } } : Wave) = w0
      have : ({ (x.stream c u lat res w0.ls) with
        v := w0.ls.v, staged := w0.ls.staged, win := w0.ls.win, prods := w0.ls.prods, outs := w0.ls.outs,
        sideA := w0.ls.sideA, sideB := w0.ls.sideB, waitA := w0.ls.waitA, waitB := w0.ls.waitB } : LStream) = w0.ls := by
        unfold LIss.stream
        simp only
        show ({ (((z0.age x.d).push x.d x.act u.lud lat res).cover x.d _ _).goTo x.d _ with
          v := w0.ls.v, staged := w0.ls.staged, win := w0.ls.win, prods := w0.ls.prods, outs := w0.ls.outs,
          sideA := w0.ls.sideA, sideB := w0.ls.sideB, waitA := w0.ls.waitA, waitB := w0.ls.waitB } : LStream) = w0.ls
        rw [he]
        unfold LStream.push
        cases x.d <;> (split <;> rfl)
      rw [this] }

/-- The L-op that a ready side issues. -/
abbrev State.issuing (s : State) (w : Wave) (p : PcSide) (c : LCtl) : LIss := ⟨s, s.cur.1, w, s.cur.2, p, w.active p c, w.ls.ticket, []⟩

/-- An L-op that ends with results `g` in its destination, and makes w0 of its wave beside that. -/
theorem lanesPut_done {s : State} {w w0 : Wave} {p : PcSide} {c : LCtl} {regs : List Nat} {zs : List ZReg} (h : s.LReady w p c regs zs)
    {i : Instr} {u : LUse} {lat : Nat} {D : Dst} {bits : Nat} {g : Lane → Nat} {dead : List Nat} {f : Wave → Wave}
    (hex : exec i s = .next ((s.issuing w p c).done c u lat (destRegs D bits fun l => BitVec.ofNat 64 (g l)) f))
    (hf : f w = w0) (hs : w0.ls.side? s.cur.2 = some p)
    (hd : ∀ r, r ∈ (u.reads.filter fun e => e.2.2).flatMap (fun e => spanO e.1 e.2.1) ↔ r ∈ dead) :
    s.lanesPut w w0 p c i dead D bits g := by
  refine ⟨_, hex, _, ?_, stream_laneTo (s.issuing w p c) w0 hs c u lat D bits g dead hd⟩
  unfold LIss.done
  simp only [hf]
  exact issuedBy_put h.wave _

/-- A lane instruction that computes one result a lane. -/
theorem lanesPut_laneOp {s : State} {w : Wave} {p : PcSide} {c : LCtl} {regs : List Nat} {zs : List ZReg} (h : s.LReady w p c regs zs)
    {i : Instr} {u : LUse} {lat : Nat} {D : Dst} {bits : Nat} {F : LIss → Lane → Nat} {g : Lane → Nat} {dead : List Nat}
    (hex : exec i s = .next (s.laneOp c u lat D bits F)) (hr : ∀ r ∈ u.readRegs ++ u.writeRegs, r ∈ regs) (hz : u.zs = zs)
    (hg : ∀ l, F (s.issuing w p c) l = g l)
    (hd : ∀ r, r ∈ (u.reads.filter fun e => e.2.2).flatMap (fun e => spanO e.1 e.2.1) ↔ r ∈ dead) :
    s.lanesPut w w p c i dead D bits g := by
  refine lanesPut_done h (u := u) (lat := lat) (f := id) ?_ rfl h.side hd
  rw [hex]
  unfold State.laneOp
  rw [lStart_ready h hr hz]
  simp only
  rw [funext hg]

/-- No residue check finds a difference in a sound machine. -/
theorem residue_sound {s : State} {w : Wave} {p : PcSide} {c : LCtl} {regs : List Nat} {zs : List ZReg} (h : s.LReady w p c regs zs)
    (b : Bool) : (s.issuing w p c).residue b = .ok s := by
  unfold LIss.residue State.residueHit
  rw [h.sound]
  cases b <;> rfl

theorem lanesPut_checkedOp {s : State} {w : Wave} {p : PcSide} {c : LCtl} {regs : List Nat} {zs : List ZReg} (h : s.LReady w p c regs zs)
    {i : Instr} {u : LUse} {lat : Nat} {D : Dst} {bits : Nat} {F : LIss → Lane → Nat} {g : Lane → Nat} {dead : List Nat}
    (hex : exec i s = .next (s.checkedOp c u lat D bits F)) (hr : ∀ r ∈ u.readRegs ++ u.writeRegs, r ∈ regs) (hz : u.zs = zs)
    (hg : ∀ l, F (s.issuing w p c) l = g l)
    (hd : ∀ r, r ∈ (u.reads.filter fun e => e.2.2).flatMap (fun e => spanO e.1 e.2.1) ↔ r ∈ dead) :
    s.lanesPut w w p c i dead D bits g := by
  refine lanesPut_done h (u := u) (lat := lat) (f := id) ?_ rfl h.side hd
  rw [hex]
  unfold State.checkedOp
  rw [lStart_ready h hr hz]
  simp only [residue_sound h]
  rw [funext hg]

/-- A float instruction: `g` gives each lane's result and flags. -/
theorem lanesPut_floatOp {s : State} {w : Wave} {p : PcSide} {c : LCtl} {regs : List Nat} {zs : List ZReg} (h : s.LReady w p c regs zs)
    {i : Instr} {u : LUse} {lat : Nat} {D : Dst} {bits : Nat} {ck : Bool} {rnd : Rnd} {F : LIss → Lane → Nat → Nat × Flags}
    {g : Lane → Nat × Flags} {dead : List Nat}
    (hex : exec i s = .next (s.floatOp c u lat D bits ck rnd F)) (hr : ∀ r ∈ u.readRegs ++ u.writeRegs, r ∈ regs) (hz : u.zs = zs)
    (hg : ∀ l, F (s.issuing w p c) l (if rnd == Rnd.sr then (s.issuing w p c).draw l 0 else 0) = g l)
    (hd : ∀ r, r ∈ (u.reads.filter fun e => e.2.2).flatMap (fun e => spanO e.1 e.2.1) ↔ r ∈ dead) :
    s.lanesPut w (w.drew (w.active p c) (if rnd == Rnd.sr then 1 else 0) (activeFlags (w.active p c) fun l => (g l).2)) p c i dead D bits
      fun l => (g l).1 := by
  refine lanesPut_done h (u := u) (lat := lat) (f := fun w => w.drew (s.issuing w p c).act (if rnd == Rnd.sr then 1 else 0)
    (activeFlags (w.active p c) fun l => (g l).2)) ?_ rfl h.side hd
  rw [hex]
  unfold State.floatOp
  rw [lStart_ready h hr hz]
  simp only [residue_sound h]
  have : (fun l => F (s.issuing w p c) l (if rnd == Rnd.sr then (s.issuing w p c).draw l 0 else 0)) = g := funext hg
  have e (l : Lane) : F (s.issuing w p c) l (if (rnd == Rnd.sr) = true then (s.issuing w p c).draw l 0 else 0) = g l := hg l
  simp only [e]
  rfl

/-- A conversion. -/
theorem lanesPut_convOp {s : State} {w : Wave} {p : PcSide} {c : LCtl} {regs : List Nat} {zs : List ZReg} (h : s.LReady w p c regs zs)
    {i : Instr} {u : LUse} {lat : Nat} {D : Dst} {k : Cvt} {bits n : Nat} {F : LIss → Lane → Nat × Flags}
    {g : Lane → Nat × Flags} {dead : List Nat}
    (hex : exec i s = .next (s.convOp c u lat D k bits n F)) (hr : ∀ r ∈ u.readRegs ++ u.writeRegs, r ∈ regs) (hz : u.zs = zs)
    (hg : ∀ l, F (s.issuing w p c) l = g l)
    (hd : ∀ r, r ∈ (u.reads.filter fun e => e.2.2).flatMap (fun e => spanO e.1 e.2.1) ↔ r ∈ dead) :
    s.lanesPut w (w.drew (w.active p c) (drawsOf k.rnd n) (activeFlags (w.active p c) fun l => (g l).2)) p c i dead D bits
      fun l => (g l).1 := by
  refine lanesPut_done h (u := u) (lat := lat) (f := fun w => w.drew (s.issuing w p c).act (drawsOf k.rnd n)
    (activeFlags (w.active p c) fun l => (g l).2)) ?_ rfl h.side hd
  rw [hex]
  unfold State.convOp
  rw [lStart_ready h hr hz]
  simp only [hg]
  rfl

end Sys2Proof.Machine
end

