-- ==== Sys2Proof/Tests/Slice0.lean ====
section
/-!
SUPPORT. Tests of the decoder against words written out bit by bit from the encodings of spec/06 to spec/12, ill-formed terms for each
check of WellFormed, one step of some instructions on a small state, and for every statement of Obligations.lean a state and operands
that meet its hypotheses.
-/

namespace Sys2Proof.Tests

open Sys2Proof Sys2Proof.Machine

/-! ## A small machine: one wave of one team on core 0 -/

/-- A context whose handler is installed. -/
def ctx : Context := { Context.empty with hentry := 2 ^ 30 + 0x800, hbase := 2 ^ 30, hsize := 0x1000, ctxctl := 1#64 }

/-- The launch of the one grid. -/
def launch : Launch := { slotLaunch with regs := 8 }

/-- The leaf of the slot's GiB in the units of the channels of some lines (R395, R397). -/
def leavesOf (as : List Nat) : List Leaf := as.map fun a => ⟨channelOf a, 0, 0, 1, true, 0x4000000F#64⟩

/-- The machine with waves `ws` of its one team. -/
def mk (ws : List Wave) : State :=
  { State.reset with
    sys := { Sys.reset with
      contexts := [ctx],
      parts := Sys.reset.parts.set 0 { Partition.reset with enabled := true, ways := 0xFFFFFF#24, bays := 1,
                                                             mem := Vector.replicate 4 0x8004000000000000#64 } },
    mem := { Mem.reset with leaves := slotLeaves ++ leavesOf [slotBase + 0x100, slotBase + 0x200, slotBase + 0x300, slotBase + 0x2000, slotBase + 0x3000] },
    grids := [⟨0, 0, 0, launch, 0, false, false, false⟩],
    teams := [Team.start 0 0 false 0 0 0],
    waves := ws }

/-- A wave at the start of its section. -/
def sw : Wave := Wave.start 0 0 0 0 0 0 0xFFFFFFFF#32 slotBase (Vector.replicate 64 0) 0

/-- The wave with a value in a scalar register. -/
def sr (r : SReg) (v : DWord) (w : Wave := sw) : Wave := { w with ss := { w.ss with s := w.ss.s.set r v } }

/-- The wave with its block ready: v0 to v95 are staged, side A runs in every lane. -/
def lw : Wave := slotWave 0 0 true false 0

/-- The wave's side A. -/
def side : PcSide := ⟨slotLane + 12, 0xFFFFFFFF#32, none, .running⟩

/-- No control field set: no guard. -/
def ctl : LCtl := ⟨7, false, 0, false, false, false, false, 0, false, false⟩

/-! ## Witnesses: scalar instructions -/

theorem witness_ScalarArithmetic : (mk [sw]).waves[(mk [sw]).cur.1]? = some sw := rfl

/-- Register 1 is 1 and register 2 is 0: both sides of every comparison and of both selections occur. -/
theorem witness_ScalarSelectAndImmediates :
    (mk [sr 1 1]).waves[(mk [sr 1 1]).cur.1]? = some (sr 1 1) ∧ (sr 1 1).readS 1 ≠ (mk [sr 1 1]).opB (sr 1 1) (.reg 2) ∧
    ((sr 1 1).readS 2).toInt < ((mk [sr 1 1]).opB (sr 1 1) (.reg 1)).toInt ∧ (sr 1 1).readS 1 ≠ 0 ∧ (sr 1 1).readS 2 = 0 ∧
    (mk [sw]).pfx.xim = none ∧ ({ mk [sw] with pfx := ⟨some 5, none, 1⟩ }).pfx.xim = some 5 := ⟨rfl, by decide⟩

theorem witness_ScalarBranches :
    (mk [sr 1 (2 ^ 30 + 0x10)]).waves[(mk [sr 1 (2 ^ 30 + 0x10)]).cur.1]? = some (sr 1 (2 ^ 30 + 0x10)) ∧
    Cond.holds .eq (sw.readS 1) (sw.readS 2) = true ∧ Cond.holds .ne (sw.readS 1) (sw.readS 2) = false ∧
    (mk [sw]).scalarSection sw = (2 ^ 30, 0x1000) ∧ (mk [sw]).target sw 20 1023 = 2 ^ 30 + 0xFFC ∧
    (mk [sw]).target sw 20 0 = 2 ^ 30 ∧ (mk [sw]).target sw 20 1024 = 2 ^ 30 + 0x1000 ∧
    (mk [sw]).target sw 11 1023 = 2 ^ 30 + 0xFFC ∧ (mk [sw]).target sw 11 2047 = 2 ^ 30 - 4 ∧
    (mk [sw]).target sw 20 0xFFFFF = 2 ^ 30 - 4 ∧ ((sr 1 (2 ^ 30 + 0x10)).readS 1).toNat % 4 = 0 ∧ 1 < ((sr 1 2).readS 1).toNat ∧
    ((sr 1 1).readS 1).toNat ≤ 1 ∧ sw.priv.handler = false ∧ ((mk [sw]).ctxOf sw).hen = true ∧
    ((sr 1 (2 ^ 30 + 0xFFE)).readS 1).toNat % 4 ≠ 0 := ⟨rfl, by decide⟩

/-! ## Witnesses: traps, handlers, special registers -/

/-- The machine whose context installs no handler. -/
def bare (ws : List Wave) : State := { mk ws with sys := Sys.reset }

/-- A prefix XIM before the S-op. -/
def ximmed (y : BitVec 26) (s : State) : State := { s with pfx := ⟨some y, none, 1⟩ }

theorem witness_TrapAndSystemCall :
    (mk [sw]).waves[(mk [sw]).cur.1]? = some sw ∧ sw.priv.handler = false ∧ ((mk [sw]).ctxOf sw).hen = true ∧
    (mk [sw]).number 0 = 0 ∧ (ximmed 63 (mk [sw])).number 0x3FF = 65535 := ⟨rfl, by decide⟩

theorem witness_WavesLeave :
    (bare [sw]).waves[(bare [sw]).cur.1]? = some sw ∧ (bare [sw]).teams[sw.team]? = some (Team.start 0 0 false 0 0 0) ∧ sw.gone = false ∧
    sw.priv.handler = false ∧ ((bare [sw]).ctxOf sw).hen = false ∧ (bare [sw]).number 5 = 5 ∧ sw.region = none ∧ sw.ls.tickets = [] :=
  ⟨rfl, rfl, rfl, rfl, rfl, rfl, rfl, rfl⟩

/-- Traps of each kind: of an S-op, of the L-op of side A, imprecise. -/
def trapS : TrapCtx := ⟨.s, false, 2 ^ 30 + 8, some 5, false, 2 ^ 30 + 4⟩
def trapL : TrapCtx := ⟨.l .a, false, slotLane + 24, none, false, 2 ^ 30 + 4⟩
def trapI : TrapCtx := ⟨.s, true, 0, none, false, 2 ^ 30 + 4⟩

/-- A wave in its handler after a trap of a cause; lane 0 is marked. -/
def hw (c : TrapCtx) (cause : DWord) (w : Wave := lw) : Wave :=
  { w with priv := { w.priv with handler := true, ctx := some c, cause := cause, lanemask := 1 } }

/-- The same wave with its L-op parked while its side stands on the divergence stack. -/
def spilledPark : Park := ⟨slotLane + 12, none, [], 0, 0, 0, 0, false, false, true, slotLane + 24⟩
def spw : Wave :=
  { hw trapL 0x24 with
    ls := { lw.ls with parkA := some spilledPark, stack := [⟨side, .a, true⟩] } }

theorem witness_HandlerActions_parked :
    (mk [spw]).waves[(mk [spw]).cur.1]? = some spw ∧ spw.priv.handler = true ∧ spw.priv.ctx = some trapL ∧
    (spw.trapParked = true ∧ ∃ k, spw.ls.park? .a = some k ∧ k.stacked = true) ∧ trapL.imprecise = false ∧ trapL.lhdr = false ∧
    ¬ ((hw trapL 0x24).trapParked = true ∧ ∃ k, (hw trapL 0x24).ls.park? .a = some k ∧ k.stacked = true) ∧
    ¬ ((hw trapL 0x25).trapParked = true ∧ ∃ k, (hw trapL 0x25).ls.park? .a = some k ∧ k.stacked = true) :=
  ⟨rfl, rfl, rfl, ⟨by decide, spilledPark, rfl, rfl⟩, rfl, rfl, fun ⟨_, k, h, _⟩ => (nomatch h), fun ⟨_, k, h, _⟩ => (nomatch h)⟩

theorem witness_HandlerActions :
    (mk [hw trapS 0x22]).waves[(mk [hw trapS 0x22]).cur.1]? = some (hw trapS 0x22) ∧ (hw trapS 0x22).priv.handler = true ∧
    (hw trapS 0x22).priv.ctx = some trapS ∧ (hw trapI 0x27).priv.ctx = some trapI ∧ (hw trapL 0x24).priv.ctx = some trapL ∧
    (hw trapL 0x24).ls.side? .a = some side ∧ (hw trapS 0x22).trapCode = Cause.userTrap.code ∧ (hw trapS 0x22).gone = false ∧
    (hw trapL 0x24).trapCode = 0x24 ∧ (hw trapL 0x25).trapCode = 0x25 ∧
    ∀ e q, (hw trapL 0x24).ls.side? e = some q → q.st = .running ∧ q.mask &&& ~~~(hw trapL 0x24).priv.lanemask ≠ 0 := by
  refine ⟨rfl, rfl, rfl, rfl, rfl, rfl, rfl, rfl, rfl, rfl, fun e q h => ?_⟩
  cases e
  · cases (show some side = some q from h); decide
  · cases (show none = some q from h)

theorem witness_SpecialRegisters :
    (mk [sw]).waves[(mk [sw]).cur.1]? = some sw ∧ (mk [sw]).number 0 = 0x000 ∧ (mk [sw]).number 6 = 0x006 ∧
    sw.priv.handler = false ∧ ((mk [sw]).ctxOf sw).hen = true ∧ (mk [sw]).number 0x100 = 0x100 ∧
    (ximmed 0 (mk [sw])).number 0x3FF = 0x3FF ∧ (hw trapS 0x22).priv.handler = true ∧
    (mk [hw trapS 0x22]).number 0x105 = 0x105 ∧ (mk [hw trapS 0x22]).number 0x10B = 0x10B ∧
    (mk [hw trapS 0x22]).number 0x106 = 0x106 ∧ (mk [hw trapS 0x22]).number 0x10C = 0x10C ∧
    (ximmed 0 (mk [hw trapS 0x22])).number 0x200 = 0x200 + ((0 : SReg).val : Int) ∧
    (ximmed 0 (mk [hw trapS 0x22])).number 0x23F = 0x200 + ((63 : SReg).val : Int) := ⟨rfl, by decide⟩

theorem witness_ScalarSmallOps :
    (mk [sw]).waves[(mk [sw]).cur.1]? = some sw ∧ sw.priv.handler = false ∧ (mk [sw]).number 0 = 0 ∧
    (ximmed 0 (mk [sw])).number 0x3FF = 1023 := ⟨rfl, by decide⟩

/-! ## Witnesses: dispatch, blocks, bonds, footprints, barriers -/

/-- A wave with n tickets. -/
def ticketed (n : Nat) : Wave := { sw with ls := { sw.ls with tickets := List.replicate n slotTicket } }

theorem witness_LaneDispatch :
    (mk [ticketed 7]).waves[(mk [ticketed 7]).cur.1]? = some (ticketed 7) ∧ (ticketed 7).priv.handler = false ∧
    (mk [ticketed 7]).pfx.xim = none ∧ (ticketed 7).ls.tickets.length < 8 ∧
    ((mk [ticketed 7]).launchOf (ticketed 7)).lbase + 4 * (1023 : BitVec 17).toNat + 4 ≤
      ((mk [ticketed 7]).launchOf (ticketed 7)).lbase + ((mk [ticketed 7]).launchOf (ticketed 7)).lsize ∧
    ({ sw.ls with results := [3, 4] }).results = 3 :: [4] ∧ sw.ls.tickets = [] := ⟨rfl, by decide⟩

/-- A wave that holds k blocks. -/
def holding (k : Nat) : Wave := { sw with soft := { sw.soft with ext := k }, ss := { sw.ss with blocks := k } }

theorem witness_RegisterBlocks :
    (mk [holding 7]).waves[(mk [holding 7]).cur.1]? = some (holding 7) ∧ (holding 7).priv.handler = false ∧ (mk [holding 7]).number 7 = 7 ∧
    7 + 1 ≤ ((mk [holding 7]).launchOf (holding 7)).regs ∧ 7 ≤ (holding 7).soft.ext ∧ (holding 0).soft.ext < 7 ∧
    (holding 0).ss.acquire = none ∧ (holding 0).ss.release = [] ∧ (mk [holding 0]).grantsOf (holding 0).core = [] ∧
    (mk [holding 0]).blocksUsed (holding 0).core + (7 - (holding 0).ss.blocks) ≤ 512 ∧ 0 < (holding 7).soft.ext ∧
    (holding 7).ls.tickets = [] := ⟨rfl, by decide⟩

/-- A wave with n ranges on each pending list. -/
def ranged (n : Nat) (w : Wave := sw) : Wave :=
  { w with ss := { w.ss with ins := List.replicate n ⟨0, 8⟩, outs := List.replicate n ⟨0, 8⟩ } }


theorem witness_FootprintsAndBonds :
    (mk [ranged 7]).waves[(mk [ranged 7]).cur.1]? = some (ranged 7) ∧ (ranged 7).priv.handler = false ∧ (ranged 7).region = none ∧
    ((ranged 7).readS 2).toNat = 0 ∧ 0 < ((sr 1 1).readS 1).toNat ∧ (ranged 7).ss.ins.length < 8 ∧ (ranged 7).ss.outs.length < 8 ∧
    8 ≤ (ranged 8).ss.ins.length ∧ ((mk [ranged 8]).ctxOf (ranged 8)).hen = true ∧
    ((sr 1 (2 ^ 56 - 1)).readS 1).toNat + 1 ≤ 2 ^ 56 ∧ (sw.readS 1) = 0 := ⟨rfl, by decide⟩

/-- The value 1 is no bond: it is not 0 and names no member. -/
theorem witness_noBond : (sr 1 1).readS 1 ≠ 0 ∧ ((sr 1 1).readS 1).toNat / 2 ^ 36 % 8 < 2 ∧ ((mk [sr 1 1]).ctxOf (sr 1 1)).hen = true := by
  decide

/-- A launch of n waves to a team. -/
def wide (n : Nat) (s : State) : State := { s with grids := [⟨0, 0, 0, { launch with waves := n }, 0, false, false, false⟩] }

/-- The bond of waves 0 to 5. -/
def bond6 : DWord := BitVec.ofNat 64 (2 ^ 6 + 2 * 2 ^ 12 + 3 * 2 ^ 18 + 4 * 2 ^ 24 + 5 * 2 ^ 30 + 6 * 2 ^ 36)

theorem witness_bond : bond6.toNat / 2 ^ 36 % 8 = 6 ∧ bond6.toNat < 2 ^ 39 ∧
    (∀ k, k < 6 → 6 ≤ k → bond6.toNat / 2 ^ (6 * k) % 64 = 0) ∧
    (∀ k, k < 5 → bond6.toNat / 2 ^ (6 * k) % 64 < bond6.toNat / 2 ^ (6 * (k + 1)) % 64) ∧
    (∀ k, k < 6 → bond6.toNat / 2 ^ (6 * k) % 64 < ((wide 6 (mk [sw])).launchOf sw).waves) ∧
    ∃ k, k < 6 ∧ bond6.toNat / 2 ^ (6 * k) % 64 = sw.num := by decide

/-- A wave with a barrier in a state, and as wave n of its team. -/
def barred (b : Fin 16) (x : BarSt) : Wave := { sw with ss := { sw.ss with bars := sw.ss.bars.set b x } }
def cbarred (b : Fin 4) (x : BarSt) : Wave := { sw with ss := { sw.ss with cbars := sw.ss.cbars.set b x } }
def second : Wave := { sw with num := 1 }

/-- Of two waves the other is missing; a lone wave misses nobody. -/
theorem witness_TeamAndClusterBarriers :
    (mk [sw, second]).teams[sw.team]? = some (Team.start 0 0 false 0 0 0) ∧ sw.priv.handler = false ∧
    (mk [sw]).number 15 = ((15 : Fin 16).val : Int) ∧ (mk [sw]).number 3 = ((3 : Fin 4).val : Int) ∧ sw.region = none ∧ sw.ls.tickets = [] ∧
    sw.ss.bars[(15 : Fin 16)] = .idle ∧ sw.ss.cbars[(3 : Fin 4)] = .idle ∧
    (barred 15 (.ended true)).ss.bars[(15 : Fin 16)] = .ended true ∧ (cbarred 3 (.ended false)).ss.cbars[(3 : Fin 4)] = .ended false ∧
    (barred 15 .arrived).ss.bars[(15 : Fin 16)] ≠ .idle ∧ ((mk [sw]).ctxOf sw).hen = true ∧
    (mk [sw]).teams[(mk [sw]).clusterHead sw.team]? = some (Team.start 0 0 false 0 0 0) ∧ sw.team ∈ (mk [sw]).clusterOf sw.team ∧
    ((1 : Nat) ≠ (mk [sw, second]).cur.1 ∧ (mk [sw, second]).waves[1]? = some second ∧ second.team = sw.team ∧ second.gone = false ∧
      second.ss.bars[(15 : Fin 16)] ≠ .arrived ∧ second.ss.cbars[(3 : Fin 4)] ≠ .arrived ∧
      second.team ∈ (mk [sw, second]).clusterOf sw.team) ∧
    ¬ ∃ k y, k ≠ (mk [sw]).cur.1 ∧ (mk [sw]).waves[k]? = some y := by
  refine ⟨rfl, rfl, by decide, by decide, rfl, rfl, by decide, by decide, by decide, by decide, by decide, by decide, rfl, by decide,
    ⟨by decide, rfl, rfl, rfl, by decide, by decide, by decide⟩, ?_⟩
  rintro ⟨k, y, hk, h⟩
  cases k with
  | zero => exact hk rfl
  | succ k => cases h

/-! ## Witnesses: lane instructions -/

theorem names_staged : ∀ r, r < 96 → lw.ls.blk.names r = true := by decide

/-- The wave with its block ready can issue an L-op that names registers below v96, and reservoirs where its block asks for them. -/
theorem ready (regs : List Nat) (zs : List ZReg) (h : ∀ r ∈ regs, r < 96) : (mk [lw]).LReady lw side ctl regs zs where
  wave := rfl
  side := rfl
  staged r hr := names_staged r (h r hr)
  slot _ := rfl
  counter := by decide
  room := by decide
  covered e he := by cases he
  landed e he := by cases he
  sound := rfl

/-- Two operands, three operands and a destination, as pairs and as single registers: up to v95. -/
theorem witness_LaneIntegerArithmetic :
    (mk [lw]).LReady lw side ctl (spanO (.v 0) 2 ++ spanO (.v 92) 2 ++ spanO .lane 2 ++ spanD (.v 94) 2) [] :=
  ready _ _ (by decide)

theorem witness_LaneLogicAndShifts : (mk [lw]).LReady lw side ctl (spanO (.v 95) 1 ++ spanO (.t 3) 1 ++ spanD (.v 95) 1) [] :=
  ready _ _ (by decide)

theorem witness_LaneCompareAndSelect : (mk [lw]).LReady lw side ctl (spanO (.v 94) 2 ++ spanO .zero 2 ++ spanD .zero 2) [] :=
  ready _ _ (by decide)

theorem witness_LaneBitFields :
    (mk [lw]).LReady lw side ctl (spanO (.v 94) 2 ++ spanO (.v 0) 2 ++ spanO (.v 2) 2 ++ spanD (.v 0) 2) [] := ready _ _ (by decide)

/-- The largest values of 64 and of 16 bits, and the type without a sign. -/
theorem witness_BitFunctions :
    2 ^ 64 - 1 < 2 ^ IntTy.n64.bits ∧ 2 ^ 16 - 1 < 2 ^ IntTy.n16.bits ∧ IntTy.n16.signed = false ∧ (0 : Nat) < 2 ^ IntTy.i32.bits := by
  decide

theorem witness_LaneFloatArithmetic :
    (mk [lw]).LReady lw side ctl (spanO (.v 0) 2 ++ spanO (.v 2) 2 ++ spanO (.v 94) 2 ++ spanD (.v 4) 2) [] := ready _ _ (by decide)

theorem witness_LaneFloatFunctions : (mk [lw]).LReady lw side ctl (spanO (.v 0) 1 ++ spanO .wave 1 ++ spanD (.v 95) 1) [] :=
  ready _ _ (by decide)

/-- The least subnormal, the largest finite value and the zeros of three formats read as finite values. -/
theorem witness_FloatRoundingAndSpecials :
    fp32 ∈ [fp64, fp32, fr19, bf16, fp16, e5m2] ∧ 0xFF7FFFFF < 2 * fp32.signBit ∧
    (∃ x, fp32.decode 0xFF7FFFFF = .fin x ∧ x.m ≠ 0 ∧ x.neg = true) ∧ (∃ x, fp64.decode 1 = .fin x ∧ x.m ≠ 0) ∧
    (∃ x, fp16.decode 0x8000 = .fin x ∧ x.m = 0) ∧ fp16 ∈ [fp64, fp32, fp16] ∧ (Val.nan false).isSignalling = false := by
  refine ⟨by decide, by decide, ⟨_, rfl, by decide, by decide⟩, ⟨_, rfl, by decide⟩, ⟨_, rfl, by decide⟩, by decide, rfl⟩

/-- A plain and a scaled destination. -/
theorem witness_LaneConversions :
    (mk [lw]).LReady lw side ctl (spanO (.v 0) 2 ++ spanO (.v 2) 2 ++ spanD (.v 95) 1) [] ∧
    (true && ((Kind.fmt .e4m3).scalable || (Kind.fmt .e4m3).four)) = true ∧ (false && (Kind.fmt .fp32).scalable) = false :=
  ⟨ready _ _ (by decide), by decide, by decide⟩

theorem witness_LaneMoves :
    (mk [lw]).LReady lw side ctl (spanO (.v 94) 2 ++ spanO (.v 0) 1 ++ spanD (.v 0) 2) [] ∧ (7 : PReg).val = 7 ∧ (6 : PReg).val ≠ 7 ∧
    ∀ l, inMask 0xFFFFFFFE#32 l = if inMask (lw.active side ctl) l then lw.operand .lane 32 l != 0 else inMask lw.ls.p[(6 : PReg)] l :=
  ⟨ready _ _ (by decide), rfl, by decide, by decide⟩

theorem witness_SpecialOperands :
    (mk [lw]).LReady lw side ctl (spanO (.v 0) 1) [] ∧ (mk [lw]).LReady lw side ctl (spanD (.v 0) 1) [] ∧
    (mk [lw]).LReady lw side ctl (spanD (.v 0) 2) [] ∧ lw.num < 64 ∧ (mk [sw]).waves[(mk [sw]).cur.1]? = some sw :=
  ⟨ready _ _ (by decide), ready _ _ (by decide), ready _ _ (by decide), by decide, rfl⟩

/-- A wave with n entries in its result queue. -/
def resulted (n : Nat) : Wave := { lw with ls := { lw.ls with results := List.replicate n 5 } }

/-- The lanes' numbers differ and some are not 0; zeros are alike and all 0; 1s are alike and none is 0. -/
theorem witness_LaneVotes :
    (resulted 7).ls.results.length < 8 ∧ (mk [lw]).LReady lw side ctl (spanO (.v 94) 2 ++ spanD (.v 0) 2) [] ∧
    (∃ l ∈ lanesIn (lw.active side ctl), lw.operand .lane 32 l ≠ 0) ∧ (¬ ∃ l ∈ lanesIn (lw.active side ctl), lw.operand .zero 32 l ≠ 0) ∧
    (∀ l ∈ lanesIn (lw.active side ctl), ({ lw with num := 1 }).operand .wave 32 l ≠ 0) ∧
    (¬ ∀ l ∈ lanesIn (lw.active side ctl), lw.operand .lane 32 l ≠ 0) ∧
    (∀ l ∈ lanesIn (lw.active side ctl), ∀ j ∈ lanesIn (lw.active side ctl), lw.operand .zero 32 l = lw.operand .zero 32 j) ∧
    (¬ ∀ l ∈ lanesIn (lw.active side ctl), ∀ j ∈ lanesIn (lw.active side ctl), lw.operand .lane 32 l = lw.operand .lane 32 j) ∧
    ∀ l, inMask 0xFFFFFFFE#32 l = (inMask (lw.active side ctl) l && lw.operand .lane 32 l != 0) :=
  ⟨by decide, ready _ _ (by decide), by decide, by decide, by decide, by decide, by decide, by decide, by decide⟩

/-- A wave whose side A stands at `p` beside side B, and whose predicate p0 holds in some lanes. -/
def split (p : PcSide) (q : Option PcSide) (m : Mask := 0) : Wave :=
  { lw with ls := { lw.ls with sideA := some p, sideB := q, p := lw.ls.p.set 0 m } }

/-- L-ops guarded by p0. -/
def ctl0 : LCtl := { ctl with guard := 0 }

/-- Half a wave at an L-op that is its join target. -/
def half : PcSide := ⟨slotLane + 12, 0xFFFF#32, some (slotLane + 12), .running⟩

theorem witness_LaneSteering :
    (mk [lw]).LReady lw side ctl [] [] ∧ (split side none).active side ctl0 = 0 ∧
    lw.active side ctl ≠ 0 ∧ side.mask &&& ~~~(lw.active side ctl) = 0 ∧
    (split side none 1).active side ctl0 ≠ 0 ∧ side.mask &&& ~~~((split side none 1).active side ctl0) ≠ 0 ∧
    (mk [lw]).laneSection lw = (slotLane, 0x1000) ∧ (side.pc : Int) + 12 * (-1 : BitVec 16).toInt = slotLane ∧
    (side.pc : Int) + 12 * (0x8000 : BitVec 16).toInt < slotLane ∧ lw.priv.handler = false ∧ ((mk [lw]).ctxOf lw).hen = true ∧
    lw.ls.side? (Side.other .a) = none ∧ lw.ls.stack = [] ∧ side.join ≠ some side.pc ∧ half.join = some half.pc ∧
    (split half (some { half with mask := 0xFFFF0000#32 })).ls.side? (Side.other .a) = some { half with mask := 0xFFFF0000#32 } ∧
    half.mask ≠ 0 ∧ ({ half with mask := 0xFFFF0000#32 } : PcSide).mask ≠ 0 ∧ half.st = .running ∧
    (List.replicate 255 (⟨half, .b, false⟩ : Spilled)).length < 256 ∧ lw.ss.parkS = none ∧ side.st = .running ∧
    ∀ q, lw.ls.side? (Side.other .a) = some q → q.mask &&& ~~~((split side none 1).active side ctl0) ≠ 0 :=
  ⟨ready _ _ (by decide), by decide, by decide, by decide, by decide, by decide, by decide, by decide, by decide, rfl, rfl, rfl, rfl,
    by decide, by decide, rfl, by decide, by decide, rfl, by rw [List.length_replicate]; decide, rfl, rfl, fun q h => by cases h⟩

/-- Side A meets a split beside a sibling that is parked, or whose slot holds the record of a side on the stack; an LKILL of p0's lanes
leaves lanes of the sibling. -/
def freeHalf : PcSide := { half with join := none }
def beside (stacked : Bool) : Wave :=
  let w := split freeHalf (some { half with mask := 0xFFFF0000#32 }) 1
  { w with ls := { w.ls with parkB := some { spilledPark with stacked := stacked }, stack := if stacked then [⟨half, .b, true⟩] else [] } }

theorem witness_LaneSteering_sibling : ∀ b : Bool,
    (mk [beside b]).LReady (beside b) freeHalf ctl0 [] [] ∧ (beside b).active freeHalf ctl0 = 1 ∧ freeHalf.mask &&& ~~~(1 : Mask) ≠ 0 ∧
    (beside b).ls.side? (Side.other .a) = some { half with mask := 0xFFFF0000#32 } ∧
    (beside b).ls.park? (Side.other .a) = some { spilledPark with stacked := b } ∧ (beside b).ls.stack.length < 256 ∧
    freeHalf.st = .running ∧ (0xFFFF0000#32 : Mask) &&& ~~~(1 : Mask) ≠ 0 := by
  intro b
  cases b <;>
  exact ⟨⟨rfl, rfl, fun _ h => (nomatch h), fun _ => rfl, (by decide), (by decide), fun _ h => (nomatch h), fun _ h => (nomatch h), rfl⟩,
    by decide, by decide, rfl, rfl, by decide, rfl, by decide⟩

/-! ## Witnesses: memory -/

/-- The state that requests of wave w reach. -/
def reached (s : State) (w : Wave) (k : Kindly) (rs : List LaneReq) : State := (State.reach (s.viaOf w) k s rs).1

/-- The request of one lane at an address of the slot's page. -/
def oneReq (n : Nat) (data : List Byte := []) : LaneReq := ⟨0, 2 ^ 30 + n, data, 0⟩

/-- The last doubleword of a line, and the lane address at its start. -/
def sm : Wave := sr 1 (2 ^ 30 + 0xF8)
def am : Wave := { lw with
  ls := { lw.ls with staged := [⟨0, Vector.replicate 32 0xF8, false⟩, ⟨1, Vector.replicate 32 0, false⟩,
                                ⟨2, Vector.replicate 32 0x40000000, false⟩, ⟨3, Vector.replicate 32 0, false⟩] } }

/-- Annotations. -/
def rlx : Ann := ⟨.rlx, .d⟩
def rel : Ann := ⟨.rel, .t⟩

theorem reaches_one (s : State) (w : Wave) (k : Kindly) (m n : Nat) (data : List Byte) (p : Loc)
    (h : (2 ^ 30 + n) < 2 ^ 56 ∧ (2 ^ 30 + n) % m = 0)
    (hr : State.reach (s.viaOf w) k s [oneReq n data] = (reached s w k [oneReq n data], [(oneReq n data, p)], [])) (hn : p.near = true) :
    s.Reaches w m k [oneReq n data] [(oneReq n data, p)] (reached s w k [oneReq n data]) where
  range := by intro r hm; rw [List.mem_singleton.mp hm]; exact h
  reach := hr
  near := by intro e he; rw [List.mem_singleton.mp he]; exact hn

/-- The state after the load at 0xF8 of the slot's page. -/
def loaded : State := reached (mk [sm]) sm (reading.hinted (mk [sm]).pfx.retention) [oneReq 0xF8]

set_option maxRecDepth 4000 in
theorem witness_ScalarLoads :
    (mk [sm]).waves[(mk [sm]).cur.1]? = some sm ∧ (mk [sm]).sys.phys = ⟨[], [], [], [], [], [], [], []⟩ ∧
    (sm.readS 1 + (mk [sm]).pfx.imm 6 0 * BitVec.ofNat 64 (SSize.bytes .b8)).toNat = (oneReq 0xF8).addr ∧
    (mk [sm]).Reaches sm (SSize.bytes .b8) (reading.hinted (mk [sm]).pfx.retention) [oneReq 0xF8]
      [(oneReq 0xF8, .hbm (2 ^ 30 + 0xF8))] loaded ∧
    (mk [sm]).l1Holds ((mk [sm]).viaOf sm) 8 (oneReq 0xF8) = none ∧
    (loaded.meetHomes 0 false [.hbm (2 ^ 30)]).mem.counted? (.hbm (2 ^ 30 + 0xF8)) = none ∧
    (loaded.meetHomes 0 false [.hbm (2 ^ 30)]).poisonFor sm (2 ^ 30 + 0xF8) 8 (.hbm (2 ^ 30 + 0xF8)) = false :=
  ⟨rfl, rfl, by decide, reaches_one _ _ _ _ _ _ _ (by decide) rfl rfl, rfl, rfl, rfl⟩

/-- The L1 holds the doubleword at 0xF8: an access that does not acquire, or acquires at scope .t, makes no line request. -/
def heldLine : L1Line := ⟨0, 0, 2 ^ 22, .hbm (2 ^ 30), mapIx (fun k x => (2 ^ 30 + 0xF8 + k, x)) 0 (bytesLE 8 0x0123456789ABCDEF), [], none, []⟩
def holdsL1 : State := { mk [sm] with cores := (mk [sm]).cores.set 0 { Core.reset with l1 := [heldLine] } }

set_option maxRecDepth 4000 in
theorem witness_ScalarLoads_held :
    holdsL1.waves[holdsL1.cur.1]? = some sm ∧ holdsL1.l1Holds (holdsL1.viaOf sm) 8 (oneReq 0xF8) = some (.hbm (2 ^ 30 + 0xF8)) ∧
    holdsL1.poisonFor sm (2 ^ 30 + 0xF8) 8 (.hbm (2 ^ 30 + 0xF8)) = false ∧
    (annAcq ⟨.acq, .t⟩ && scopeWide (holdsL1.scopeOf sm .t)) = false ∧ (annAcq ⟨.acq, .d⟩ && scopeWide (holdsL1.scopeOf sm .d)) = true ∧
    holdsL1.Reaches sm 8 (reading.hinted holdsL1.pfx.retention) [oneReq 0xF8] [(oneReq 0xF8, .hbm (2 ^ 30 + 0xF8))]
      (reached holdsL1 sm (reading.hinted holdsL1.pfx.retention) [oneReq 0xF8]) ∧
    ((reached holdsL1 sm (reading.hinted holdsL1.pfx.retention) [oneReq 0xF8]).meetHomes 0 true [.hbm (2 ^ 30)]).mem.counted?
      (.hbm (2 ^ 30 + 0xF8)) = none ∧
    ((reached holdsL1 sm (reading.hinted holdsL1.pfx.retention) [oneReq 0xF8]).meetHomes 0 true [.hbm (2 ^ 30)]).poisonFor sm
      (2 ^ 30 + 0xF8) 8 (.hbm (2 ^ 30 + 0xF8)) = false :=
  ⟨rfl, by decide, by decide, by decide, by decide, reaches_one _ _ _ _ _ _ _ (by decide) rfl rfl, rfl, rfl⟩

/-- A wave inside a region. -/
def region : Region := ⟨0, slotBase + 0x100, [], [], 0, 0, 0, false, none, ⟨slotBase, sw.ss.s, sw.soft⟩, 0, 0, [0]⟩
def inside (w : Wave) : Wave := { w with region := some region }

theorem mayWrite (w : Wave) (hc : w.core = 0) (hr : w.region = none) (hg : w.grid = 0) (at_ : Bool) (a : Ann) :
    (mk [w]).MayWrite w at_ a where
  region := by unfold regionIllegal Wave.inRegion; rw [hr]; rfl
  twin := by
    unfold State.twinIllegal State.launchOf
    rw [hg]; rfl
  watch := by
    refine .inr fun c h => ?_
    rw [hc] at h
    cases (show some Core.reset = some c from h)
    intro x hx
    rw [List.eq_of_mem_replicate (show x ∈ List.replicate 4 ((0 : DWord), (0 : DWord)) from hx)]
    rfl
  acked _ _ := rfl

theorem gathersNone_reset (s : State) (h : ∀ c ∈ s.cores, c.l1 = []) (k : Nat) : s.gathersNone k := by
  intro c hc x hx
  rw [h c (List.mem_of_getElem? hc)] at hx
  cases hx

/-- The state before the store: a release has sent home what the L1 held. -/
def stored (w : Wave) (a : Ann) : State :=
  reached ((mk [w]).released w a) w (writing.hinted (mk [w]).pfx.retention) [oneReq 0xF8 (bytesLE 8 0)]

theorem greenFull_one (w : Wave) (hw : w.green = Green.empty) (s : State) (h : s.waves = [w]) (g : Green)
    (hg : g.sectors ≤ w.green.sectors + 1) : s.greenFull w g = false := by
  have h0 : w.green.sectors = 0 := by rw [hw]; rfl
  have hz : ∀ c, s.greenOf c = 0 := by
    intro c; unfold State.greenOf; rw [h]; simp [h0]
  have hb : ∀ c : Nat, (s.greenOf c + (if c == w.core then g.sectors - w.green.sectors else 0)) - 4096 = 0 := by
    intro c; rw [hz, h0]; split <;> omega
  unfold State.greenFull
  simp only [hb, Nat.add_zero]
  exact Bool.and_eq_false_imp.mpr fun _ => by decide

/-- The L1s of a machine hold fewer than 32 lines. -/
theorem l1Room_few (s : State) (h : ∀ c ∈ s.cores, c.l1.length ≤ 32) (k n : Nat) (hn : n ≤ 32) : s.l1Room k n := by
  intro c hc
  have h1 := h c (List.mem_of_getElem? hc)
  unfold l1Lines
  omega

/-- The same store with the hint .nol1. -/
def nol1S : State := { mk [sm] with pfx := ⟨none, some (.nol1, 0), 1⟩ }
def storedN : State := reached (nol1S.released sm rlx) sm (writing.hinted nol1S.pfx.retention) [oneReq 0xF8 (bytesLE 8 0)]

theorem witness_ScalarStores_nol1 :
    nol1S.pfx.retention = .nol1 ∧ nol1S.pfx.rcCount = none ∧
    (nol1S.released sm rlx).Reaches sm 8 (writing.hinted nol1S.pfx.retention) [oneReq 0xF8 (bytesLE 8 0)]
      [(oneReq 0xF8 (bytesLE 8 0), .hbm (2 ^ 30 + 0xF8))] storedN ∧
    storedN.l1Line? 0 0 0 ((2 ^ 30 + 0xF8) / 256) = none ∧ (∀ c, storedN.gathersNone c) ∧
    storedN.mem.counted? (.hbm (2 ^ 30 + 0xF8)) = none ∧ storedN.mem.wf = true :=
  ⟨rfl, rfl, reaches_one _ _ _ _ _ _ _ (by decide) rfl rfl, by decide, gathersNone_reset _ (by decide), by decide, by decide⟩

theorem witness_ScalarStores :
    (mk [sm]).waves[(mk [sm]).cur.1]? = some sm ∧ sm.core < (mk [sm]).cores.length ∧ (mk [sm]).MayWrite sm false rel ∧
    sm.ls.tickets = [] ∧ (mk [sm]).pfx.rcCount = none ∧ sm.isGreen = false ∧ (inside sm).isGreen = true ∧
    ((mk [sm]).released sm rel).Reaches sm (SSize.bytes .b8) (writing.hinted (mk [sm]).pfx.retention)
      [oneReq 0xF8 (bytesLE 8 0)] [(oneReq 0xF8 (bytesLE 8 0), .hbm (2 ^ 30 + 0xF8))] (stored sm rel) ∧
    (mk [sm]).pfx.retention ≠ .nol1 ∧ (stored sm rel).l1Room 0 1 ∧
    (stored sm rel).gathersNone 0 ∧ regionIllegal (inside sm) false rlx = false ∧
    ∀ g : Green, g.sectors ≤ (inside sm).green.sectors + 1 → (mk [inside sm]).greenFull (inside sm) g = false :=
  ⟨rfl, by decide, mayWrite sm rfl rfl rfl _ _, rfl, rfl, rfl, rfl, reaches_one _ _ _ _ _ _ _ (by decide) rfl rfl,
    by decide, l1Room_few _ (by decide) _ _ (by decide), gathersNone_reset _ (by decide) 0, by decide, greenFull_one _ rfl _ rfl⟩

theorem witness_ScalarAtomics :
    (mk [sm]).MayWrite sm true rel ∧ sm.ls.tickets = [] ∧ sm.isGreen = false ∧ ((5 : SReg).val + 1 < 64 ∧ ¬ (63 : SReg).val + 1 < 64) ∧
    ((mk [sm]).released sm rel).Reaches sm 8 (writing.hinted (mk [sm]).pfx.retention)
      [oneReq 0xF8 (bytesLE 8 0)] [(oneReq 0xF8 (bytesLE 8 0), .hbm (2 ^ 30 + 0xF8))] (stored sm rel) ∧
    (∀ c, (stored sm rel).gathersNone c) ∧ (stored sm rel).l1Line? 0 0 0 ((2 ^ 30 + 0xF8) / 256) = none ∧
    (stored sm rel).mem.counted? (.hbm (2 ^ 30 + 0xF8)) = none ∧
    (stored sm rel).l1Room 0 1 ∧
    (stored sm rel).poisonFor sm (2 ^ 30 + 0xF8) 8 (.hbm (2 ^ 30 + 0xF8)) = false ∧ (stored sm rel).mem.wf = true ∧
    scopeWide ((mk [sm]).scopeOf sm .t) = false ∧ scopeWide ((mk [sm]).scopeOf sm .b) = true :=
  ⟨mayWrite sm rfl rfl rfl _ _, rfl, rfl, by decide, reaches_one _ _ _ _ _ _ _ (by decide) rfl rfl,
    gathersNone_reset _ (by decide), by decide, by decide, l1Room_few _ (by decide) _ _ (by decide), by decide, by decide, by decide,
    by decide⟩

/-- The same for a wave that differs from it in registers and results only. -/
theorem readyAs (w : Wave) (regs : List Nat) (zs : List ZReg) (h : ∀ r ∈ regs, r < 96) (hb : w.ls.blk = lw.ls.blk)
    (hs : w.ls.sideA = some side) (hp : w.ls.prods = []) (ho : w.ls.outs = []) (c : LCtl := ctl) (hw : c.wt = false := by rfl)
    (hi : c.inc = false := by rfl) : (mk [w]).LReady w side c regs zs where
  wave := rfl
  side := hs
  staged r hr := by rw [hb]; exact names_staged r (h r hr)
  slot _ := by rw [hb]; rfl
  counter h := by rw [hw] at h; cases h
  room h := by rw [hi] at h; cases h
  covered e he := by rw [hp] at he; cases he
  landed e he := by rw [ho] at he; cases he
  sound := rfl

/-- Every lane of the wave loads the same word. -/
def laneReqs : List LaneReq := (lanesIn (am.active side ctl)).map fun l => ⟨l, 2 ^ 30, [], 0⟩
def laneStores : List LaneReq := (lanesIn (am.active side ctl)).map fun l => ⟨l, 2 ^ 30, am.storeData (.v 0) .b32 l, 0⟩
def laneLoaded : State := reached (mk [am]) am (reading.hinted .none) laneReqs
def laneStored : State := reached ((mk [am]).released am rel) am (writing.hinted .none) laneStores

/-- One lane, lane 5, is active under p0. -/
def al : Wave := { am with ls := { am.ls with p := am.ls.p.set 0 32#32 } }
def laneAtomic : List LaneReq := [⟨5, 2 ^ 30, bytesLE 4 0xF8, 0⟩]
def laneDone : State := reached ((mk [al]).released al rel) al writing laneAtomic

set_option maxRecDepth 4000 in
theorem witness_LaneLoads :
    (mk [am]).LReady am side ctl (spanO (.v 2) 2 ++ spanD (.v 95) 1) [] ∧
    (∀ l : Lane, (BitVec.ofNat 64 (am.operand (.v 2) 64 l) + (0 : BitVec 23).signExtend 64).toNat = 2 ^ 30) ∧
    (mk [am]).Reaches am 4 (reading.hinted .none) laneReqs
      ((lanesIn (am.active side ctl)).map fun l => (⟨l, 2 ^ 30, [], 0⟩, .hbm (2 ^ 30))) laneLoaded ∧
    am.ls.park? .a = none ∧ (mk [am]).l1Holds ((mk [am]).viaOf am) 4 ⟨0, 2 ^ 30, [], 0⟩ = none ∧
    lineHomes ((lanesIn (am.active side ctl)).map fun l => (⟨l, 2 ^ 30, [], 0⟩, .hbm (2 ^ 30))) = [.hbm (2 ^ 30)] ∧
    (laneLoaded.meetHomes 0 false [.hbm (2 ^ 30)]).mem.counted? (.hbm (2 ^ 30)) = none ∧
    (laneLoaded.meetHomes 0 false [.hbm (2 ^ 30)]).poisonFor am (2 ^ 30) 4 (.hbm (2 ^ 30)) = false :=
  ⟨readyAs am _ _ (by decide) rfl rfl rfl rfl, by decide, ⟨by decide, rfl, by decide⟩, rfl, rfl, rfl, rfl, rfl⟩

/-- The L1 holds the word that lane 5 loads: nothing is asked for. -/
def heldA : L1Line := ⟨0, 0, 2 ^ 22, .hbm (2 ^ 30), mapIx (fun k x => (2 ^ 30 + k, x)) 0 (bytesLE 4 7), [], none, []⟩

theorem witness_LaneStores :
    (mk [am]).LReady am side ctl (spanO (.v 2) 2 ++ spanO (.v 0) 1) [] ∧ (mk [am]).MayWrite am false rel ∧ am.isGreen = false ∧
    am.core < (mk [am]).cores.length ∧
    ((mk [am]).released am rel).Reaches am 4 (writing.hinted .none) laneStores
      ((lanesIn (am.active side ctl)).map fun l => (⟨l, 2 ^ 30, am.storeData (.v 0) .b32 l, 0⟩, .hbm (2 ^ 30))) laneStored ∧
    am.ls.park? .a = none ∧ laneStored.l1Room am.core 32 ∧ laneStored.gathersNone am.core :=
  ⟨readyAs am _ _ (by decide) rfl rfl rfl rfl, mayWrite am rfl rfl rfl _ _, rfl, by decide, ⟨by decide, rfl, by decide⟩,
    rfl, l1Room_few _ (by decide) _ _ (by decide), gathersNone_reset _ (by decide) _⟩

/-- The same store with the hint .nol1: no L1 line is allocated. -/
theorem witness_LaneStores_nol1 :
    ((mk [am]).released am rel).Reaches am 4 (writing.hinted .nol1) laneStores
      ((lanesIn (am.active side ctl)).map fun l => (⟨l, 2 ^ 30, am.storeData (.v 0) .b32 l, 0⟩, .hbm (2 ^ 30)))
      (reached ((mk [am]).released am rel) am (writing.hinted .nol1) laneStores) ∧
    (∀ c, (reached ((mk [am]).released am rel) am (writing.hinted .nol1) laneStores).gathersNone c) ∧
    (reached ((mk [am]).released am rel) am (writing.hinted .nol1) laneStores).mem.wf = true ∧
    (reached ((mk [am]).released am rel) am (writing.hinted .nol1) laneStores).l1Line? 0 0 0 (2 ^ 30 / 256) = none ∧
    (reached ((mk [am]).released am rel) am (writing.hinted .nol1) laneStores).mem.counted? (.hbm (2 ^ 30)) = none :=
  ⟨⟨by decide, rfl, by decide⟩, gathersNone_reset _ (by decide), by decide, by decide, by decide⟩

/-- The last doubleword of the team's 4,096 bytes; LDR's q of the team's own rank 0. -/
theorem witness_ScratchpadAccess :
    (∀ l : Lane, inMask (am.active side ctl) l = true →
      ((am.operand (.v 0) 32 l : Int) + (0xF00 : BitVec 23).toInt) % 8 = 0 ∧
      (mk [am]).spotOf am false ((am.operand (.v 0) 32 l : Int) + (0xF00 : BitVec 23).toInt) 8 = some ⟨0, false, 0xFF8⟩ ∧
      (mk [am]).spotOf am true ((am.operand (.v 0) 32 l : Int) + (0xF00 : BitVec 23).toInt) 8 = some ⟨0, false, 0xFF8⟩ ∧
      (mk [am]).scratchPoisoned am ⟨0, false, 0xFF8⟩ 8 = false) ∧
    (mk [am]).spotOf am false 0xFF9 8 = none ∧ (mk [am]).spotOf am false (-1) 1 = none ∧
    (mk [am]).LReady am side ctl (spanO (.v 0) 1 ++ spanD (.v 94) 2) [] ∧
    (mk [am]).LReady am side ctl (spanO (.v 0) 1 ++ spanO (.v 94) 2) [] ∧ regionIllegal am false rel = false ∧ am.isGreen = false ∧
    ∀ (j : Nat) (x : Team), (mk [am]).teams[j]? = some x → Cells.wf x.lo.scratch = true ∧ Cells.wf x.hi.scratch = true := by
  refine ⟨by decide, by decide, by decide, readyAs am _ _ (by decide) rfl rfl rfl rfl, readyAs am _ _ (by decide) rfl rfl rfl rfl, by decide,
    rfl, fun j x h => ?_⟩
  cases j with
  | zero => cases (show some (Team.start 0 0 false 0 0 0) = some x from h); decide
  | succ j => cases h

theorem witness_LaneAtomics :
    lanesIn (al.active side ctl0) = [5] ∧ (mk [al]).MayWrite al true rel ∧ al.isGreen = false ∧ al.core < (mk [al]).cores.length ∧
    ((mk [al]).released al rel).Reaches al (AtomOp.bytes (.add false)) writing laneAtomic
      [(⟨5, 2 ^ 30, bytesLE 4 0xF8, 0⟩, .hbm (2 ^ 30))] laneDone ∧
    (∀ k, laneDone.gathersNone k) ∧ laneDone.l1Line? 0 0 0 (2 ^ 30 / 256) = none ∧ laneDone.mem.counted? (.hbm (2 ^ 30)) = none ∧
    laneDone.poisonFor al (2 ^ 30) 4 (.hbm (2 ^ 30)) = false ∧ laneDone.mem.wf = true ∧
    (mk [al]).LReady al side ctl0 (spanO (.v 2) 2 ++ spanO (.v 0) 1 ++ spanO .zero 1 ++ spanD (.v 95) 1) [] ∧
    al.ls.park? .a = none ∧ laneDone.l1Room 0 1 ∧
    laneDone.mem.poisoned (.hbm (2 ^ 30)) = false ∧ scopeWide ((mk [al]).scopeOf al .d) = true ∧ scopeWide ((mk [al]).scopeOf al .w) = false :=
  ⟨by decide, mayWrite al rfl rfl rfl _ _, rfl, by decide, ⟨by decide, rfl, by decide⟩, gathersNone_reset _ (by decide), by decide, by decide,
    by decide, by decide, readyAs al _ _ (by decide) rfl rfl rfl rfl ctl0, rfl, l1Room_few _ (by decide) _ _ (by decide), by decide,
    by decide, by decide⟩

theorem witness_LaneLoads_held :
    let s : State := { mk [al] with cores := (mk [al]).cores.set 0 { Core.reset with l1 := [heldA] } }
    s.l1Holds (s.viaOf al) 4 ⟨5, 2 ^ 30, [], 0⟩ = some (.hbm (2 ^ 30)) ∧ lanesIn (al.active side ctl0) = [5] ∧
    s.Reaches al 4 (reading.hinted .none) [] [] s ∧ lineHomes [] = [] ∧ s.poisonFor al (2 ^ 30) 4 (.hbm (2 ^ 30)) = false :=
  ⟨by decide, by decide, ⟨fun _ h => (nomatch h), rfl, fun _ h => (nomatch h)⟩, rfl, rfl⟩

/-! ## Witnesses: ports, reservoirs, jobs, rays -/

/-- Every receive queue of the wave holds n entries. -/
def queued (n : Nat) : Wave := { lw with soft := { lw.soft with rx := Vector.replicate 32 (Vector.replicate 5 (List.replicate n 7)) } }

theorem witness_NeighbourPorts :
    (∀ e ∈ (mk [lw]).mapped lw, e.1 ≠ Port.xe ∧ e.1 ≠ Port.opp .xe) ∧ lw.ls.live = BitVec.allOnes 32 ∧
    (31 : Lane).val = ((30 : Lane).val + 1) % 32 ∧ (0 : Lane).val = ((31 : Lane).val + 1) % 32 ∧
    (mk [lw]).LReady lw side ctl (spanO (.v 94) 2 ++ spanD (.v 0) 2) [] ∧
    (∀ l, inMask 0xFFFFFFFF#32 l = (inMask (lw.active side ctl) l && ((mk [lw]).farEnd 0 lw .xe l).isSome)) ∧
    (∀ l, ((mk [lw]).farEnd 0 lw .xe l).all (fun e => (mk [lw]).freeAt .xe e != 0) = true) ∧
    (∃ l e, inMask ((queued 4).active side ctl) l = true ∧ (mk [queued 4]).farEnd 0 (queued 4) .xe l = some e ∧
      (mk [queued 4]).freeAt .xe e = 0) ∧
    (∀ l, inMask ((queued 1).active side ctl) l = true → (queued 1).queue .xe l ≠ []) ∧
    ∀ l, inMask 0xFFFFFFFF#32 l = (inMask ((queued 1).active side ctl) l && !((queued 1).queue .xe l).isEmpty) :=
  ⟨by decide, rfl, rfl, rfl, ready _ _ (by decide), by decide, by decide, ⟨0, ⟨0, 1, 4⟩, by decide, rfl, by decide⟩, by decide, by decide⟩

/-- The reservoirs after RSV.set of M of reservoir 3 to the lane's number. -/
def numbered : Vector (Lanes Rsv) 8 :=
  lw.soft.z.set 3 (lanes fun l => ⟨0, 0, 0, BitVec.ofNat 32 (lw.operand .lane 32 l), 0⟩)

/-- RSV.clr of reservoirs 0 and 7, and RSV.set of M of reservoir 3 to the lane's number. -/
theorem witness_Reservoirs :
    (mk [lw]).LReady lw side ctl (spanO (.v 94) 2 ++ spanO .lane 1 ++ spanO .zero 1) [3, 0, 7] ∧
    (∀ (m : ZReg) (l : Lane), (0x81 : BitVec 8).getLsbD m.val = true → lw.soft.z[m][l] = ⟨0, 0, 0, 0, 0⟩) ∧
    (∀ (m : ZReg) (l : Lane), m = 3 → inMask (lw.active side ctl) l = true →
      numbered[m][l] = ⟨0, 0, 0, BitVec.ofNat 32 (lw.operand .lane 32 l), 0⟩) ∧
    ∀ (m : ZReg) (l : Lane), ¬ m = 3 ∨ inMask (lw.active side ctl) l = false → numbered[m][l] = lw.soft.z[m][l] :=
  ⟨ready _ _ (by decide), by decide, by decide, by decide⟩

/-- Tracker and engine queues of a machine without jobs have room. -/
theorem room_empty (s : State) (h : s.jobs = []) (J : Job) : s.room J = true := by
  have ht : s.trackerFull J.bay = false := by unfold State.trackerFull; rw [h]; rfl
  have hq : ∀ c, s.queueFull c = false := by intro c; unfold State.queueFull; rw [h]; rfl
  unfold State.room
  simp [ht, hq]

/-- The ticket whose snapshots are an FP16 format word, an A descriptor of K 32 and pitch 64, a descriptor 0 of 32 x 32, and the
address of a record. -/
def mticket (bond : DWord) : Ticket := { slotTicket with snaps := #v[0x44, BitVec.ofNat 64 (3 * 2 ^ 40 + 4 * 2 ^ 21), 0, 2 ^ 30 + 0x40], bond := bond }
def mw (bond : DWord := 0) : Wave := { lw with ls := { lw.ls with tickets := [mticket bond] } }

/-- The record's read by a job of the wave. -/
def offered (k : JobKind) (f : Job → Job) : State :=
  { mk [mw] with offers := [⟨.l .a, f ((mw).newJob 0 k (some 5) 0), 2 ^ 30 + 0x40, none, false, false⟩] }
def recordRead (z : State) : Except XFault (Loc × State) := z.request 0 0 (2 ^ 30 + 0x40) reading

/-- MZERO descriptors: nothing, and all 4,096 bytes. -/
def zall : DWord := BitVec.ofNat 64 (16 * 2 ^ 18)

/-- The bond of waves 0 and 1, a wave that has arrived, and its companion. -/
def bond2 : DWord := BitVec.ofNat 64 (2 ^ 6 + 2 * 2 ^ 36)
def arrival : Arrival :=
  ⟨.a, bond2, List.replicate 32 0x44, some (BitVec.ofNat 64 (3 * 2 ^ 40 + 4 * 2 ^ 21), 0), 0, false, false, false, ctl, .t 0, .t 1, .t 2⟩
def fellow : Wave := { mw bond2 with num := 1 }
def arrived : Wave := { fellow with arrival := some arrival }
def two (a b : Wave) : State := wide 2 (mk [a, b])
def arrivedBoth : List (Nat × Arrival) := [(0, arrival), (1, arrival)]
def bothIn : State := (two (mw bond2) arrived).putWave 0 { mw bond2 with arrival := some arrival }

theorem witness_MatrixInstructions :
    (split side none).active side ctl0 = 0 ∧ (mw).arrival = none ∧ (mw).inRegion = false ∧ (mk [mw]).twinIllegal mw = false ∧
    (mw).ls.ticket.bond = 0 ∧ lowest ((mw).active side ctl) = some 0 ∧ (mk [mw]).offers = [] ∧ (mw).isGreen = false ∧
    (mk [mw]).LReady mw side ctl (spanO (.t 3) 2 ++ spanO (.t 1) 2 ++ spanO (.t 2) 2) [] ∧
    ((ZDesc.ofWord zall).reserved = false ∧ (ZDesc.ofWord zall).off % 256 = 0 ∧ (ZDesc.ofWord zall).pair = false ∧
      (ZDesc.ofWord zall).off + (ZDesc.ofWord zall).len ≤ (mk [mw]).accBytes mw ∧ (ZDesc.ofWord zall).len ≠ 0 ∧ (ZDesc.ofWord 0).len = 0) ∧
    (∀ J : Job, (mk [mw]).room J = true) ∧ (mk [mw]).tagDone mw 5 = true ∧ (mw).operand (.t 3) 64 0 % 64 = 0 ∧
    ((WDesc.ofWord 0).reserved = false ∧ (WDesc.ofWord 0).off % 64 = 0 ∧ (WDesc.ofWord 0).pair = false) ∧
    drainDescBad (FmtW.ofWord 0x44) (NDesc.ofWord 0) ((mk [mw]).paired mw) ((mk [mw]).accBytes mw) = false ∧
    ((∃ u, recordRead ((mk [mw]).release 0 .d) = .ok (.hbm (2 ^ 30 + 0x40), u) ∧ u.mem.counted? (.hbm (2 ^ 30 + 0x40)) = none ∧
      ∀ k, u.gathersNone k) ∧
     (∃ u, recordRead (offered (.mdrain true) id) = .ok (.hbm (2 ^ 30 + 0x40), u) ∧ u.mem.counted? (.hbm (2 ^ 30 + 0x40)) = none ∧
      ∀ k, u.gathersNone k) ∧ ∀ J : Job, (mk [mw]).recordBlocked ⟨.l .a, J, 2 ^ 30 + 0x40, none, false, false⟩ = false) ∧
    ((FmtW.ofWord 0x44).valid = true ∧ mmaDescBad (FmtW.ofWord 0x44) (ADesc.ofWord (BitVec.ofNat 64 (3 * 2 ^ 40 + 4 * 2 ^ 21))) (DDesc.ofWord 0)
      false false ((mk [mw]).paired mw) ((mk [mw]).scratchSize mw) ((mk [mw]).accBytes mw) ((mk [mw]).wbufBytes mw) = false) ∧
    (∀ m, inMask ((mw).active side ctl) m = true → (mw).operand (.t 0) 32 m = (mw).operand (.t 0) 32 0) := by
  refine ⟨by decide, rfl, rfl, rfl, rfl, by decide, rfl, rfl, readyAs mw _ _ (by decide) rfl rfl rfl rfl, by decide,
    room_empty _ rfl, by decide, by decide, by decide, by decide, ⟨⟨_, rfl, by decide, gathersNone_reset _ (by decide)⟩,
    ⟨_, rfl, by decide, gathersNone_reset _ (by decide)⟩, fun J => rfl⟩, by decide, by decide⟩

/-- Two bonded waves: the other has not arrived; it has, and the last arrival starts the joint operation. -/
theorem witness_MatrixBond :
    bond2 ≠ 0 ∧ (two (mw bond2) fellow).bonded 0 (mw bond2) bond2 = [some 0, some 1] ∧
    (two (mw bond2) fellow).bondGone [some 0, some 1] = false ∧
    (∃ k, some k ∈ [some 0, some 1] ∧ k ≠ 0 ∧ (two (mw bond2) fellow).waves[k]? = some fellow ∧ fellow.arrival = none) ∧
    bothIn.arrivals [some 0, some 1] bond2 = some arrivedBoth ∧ (arrivedBoth.map Prod.fst).Nodup ∧
    arrivedBoth.head?.map Prod.fst = some 0 ∧ bothIn.waves[0]? = some { mw bond2 with arrival := some arrival } ∧
    ({ mw bond2 with arrival := some arrival } : Wave).ls.side? .a = some side ∧ arrived.ls.side? .a = some side ∧
    (arrivedBoth.head?.any fun e => e.2.rowp == false && e.2.acca == false) = true ∧
    ∀ e ∈ arrivedBoth, (∀ g ∈ e.2.fmts, g = 0x44) ∧ e.2.bc = some (BitVec.ofNat 64 (3 * 2 ^ 40 + 4 * 2 ^ 21), 0) :=
  ⟨by decide, by decide, by decide, ⟨1, by decide, by decide, rfl, rfl⟩, rfl, by decide, rfl, rfl, rfl, rfl, by decide, fun e he => by
    have h : e.2 = arrival := by simp [arrivedBoth] at he; rcases he with h | h <;> rw [h]
    rw [h]; exact ⟨fun g hg => List.eq_of_mem_replicate hg, rfl⟩⟩

/-! ## Witnesses: rays, copies, regions -/

/-- The same machine with other launch fields, rays, or one core's fields. -/
def launched (f : Launch → Launch) (s : State) : State := { s with grids := s.grids.map fun g => { g with launch := f g.launch } }
def withHod (s : State) : State := launched (fun l => { l with hods := [⟨slotBase + 0x2000, 0, true⟩] }) s

/-- A suspended and an ended ray of the wave. -/
def ray (h : Nat) (st : RaySt) (status : BitVec 4) : Ray :=
  { Ray.start 0 0 (some 0) 5 0 h (fun _ => 0) 0 0 0 with st := st, status := status }
def rayed (s : State) : State := { s with rays := [ray 0xF8 .ended 1, ray 1 .suspended 2] }

set_option maxRecDepth 2000 in
theorem witness_TraversalInstructions :
    (mk [am]).LReady am side ctl (spanO (.v 0) 18 ++ spanO (.v 18) 2 ++ spanO .zero 1 ++ spanD (.v 84) 12) [] ∧ am.inRegion = false ∧
    (withHod (mk [am])).hodOf am.grid 0 = some ⟨slotBase + 0x2000, 0, true⟩ ∧ (mk [am]).twinIllegal am = false ∧
    (mk [am]).slotsUsed am.core + (lanesIn (am.active side ctl)).length ≤ 2047 ∧
    ((rayed (mk [am])).rayNamed am (am.operand (.v 0) 32 5) false = some 0 ∧ (rayed (mk [am])).rays[0]? = some (ray 0xF8 .ended 1) ∧
      (rayed (mk [am])).rayNamed am 7 false = none) ∧
    (∃ u got, State.TakesAll 0 .a al.ls.outs.length ((withHod (mk [al])).viaOf al) ⟨slotBase + 0x2000, 0, true⟩ (withHod (mk [al])) [5] u got) ∧
    al.ls.park? .a = none ∧
    (∀ l m, inMask (al.active side ctl0) l = true → inMask (al.active side ctl0) m = true → l = m) ∧
    ((rayed (mk [al])).rayNamed al 1 true = some 1 ∧ (ray 1 .suspended 2).decide 2 0 =
      some { ray 1 .suspended 2 with st := .dropped, freed := true, owes := [] } ∧ (ray 1 .suspended 2).decide 7 0 = none) ∧
    (mw).operand (.t 3) 64 0 < 2 ^ 56 ∧ (mw).operand (.t 3) 64 0 % 64 = 0 ∧ (mw).operand .zero 32 0 % 64 = 0 ∧
    (mw).operand .zero 32 0 ≤ 65536 :=
  ⟨readyAs am _ _ (by decide) rfl rfl rfl rfl, rfl, rfl, rfl, by decide, ⟨by decide, rfl, by decide⟩,
    ⟨_, _, _, _, _, rfl, rfl, fun e h => (nomatch h), rfl, rfl, rfl⟩, rfl, by decide, ⟨by decide, by decide, by decide⟩, by decide, by decide, by decide, by decide⟩

/-- s1 holds 7, the last chunk of the scratchpad, or the record's address; s2 a mask, or a descriptor of tag 3 and pitch 16. -/
def copier (a m : DWord) : Wave := sr 2 m (sr 1 a)
def tileWord : DWord := BitVec.ofNat 64 (3 * 2 ^ 58 + 2 ^ 21 + 0xE00)
/-- The wave's tag 63 is that of a job which has not completed; chunk 7 is still to land. -/
def tagged (w : Wave) : Wave := { w with soft := { w.soft with tags := w.soft.tags.set 63 ⟨true, false, 0, none⟩ } }
def landing (s : State) : State :=
  { s with teams := s.teams.map fun t => { t with lo := { t.lo with pending := [(7, 0)] } } }

set_option maxRecDepth 2000 in
theorem witness_CopiesAndCompletions :
    sw.priv.handler = false ∧ (mk [sw]).teams[sw.team]? = some (Team.start 0 0 false 0 0 0) ∧
    (ximmed 0 (mk [sw])).number 63 = ((63 : Fin 64).val : Int) ∧
    (512 * ((copier 7 1).readS 1).toNat < (mk [sw]).scratchSize sw) ∧
    (mk [sw]).cwaitHolds (copier 7 1) false false 7 1 = true ∧ (landing (mk [sw])).cwaitHolds (copier 7 1) false false 7 1 = false ∧
    (mk [sw]).cwaitHolds (copier 0 0) true true 0 0 = true ∧ (mk [sw]).cwaitHolds (tagged sw) true true 0 (2 ^ 63) = false ∧
    ((mk [sw]).scalarSection sw = (2 ^ 30, 0x1000) ∧ (mk [sw]).target sw 11 1023 = 2 ^ 30 + 0xFFC) ∧
    (tileBad tileWord 0 = false ∧ (Tile.ofWord tileWord).off < (mk [sw]).scratchSize sw ∧ (Tile.ofWord tileWord).tag = 3) ∧
    sw.inRegion = false ∧ (mk [sw]).twinIllegal sw = false ∧ sw.ls.tickets = [] ∧ (mk [sw]).offers = [] ∧
    (mk [sw]).tagDone sw 3 = true ∧ (mk [sw]).trackerFull 0 = false ∧ sw.isGreen = false ∧
    ∃ u, ({ (mk [sw]).release 0 .d with offers :=
        [⟨.s, { sw.newJob 0 .load (some 3) 0 with a := tileWord, b := 0 }, 2 ^ 30 + 0x40, none, false, false⟩] } : State).request 0 0
          (2 ^ 30 + 0x40) reading = .ok (.hbm (2 ^ 30 + 0x40), u) ∧ u.mem.counted? (.hbm (2 ^ 30 + 0x40)) = none ∧ (∀ k, u.gathersNone k) ∧
      ∀ J : Job, (mk [sw]).recordBlocked ⟨.s, J, 2 ^ 30 + 0x40, none, false, false⟩ = false :=
  ⟨rfl, rfl, by decide, by decide, by decide, by decide, by decide, by decide, by decide, by decide, rfl, rfl, rfl, rfl, by decide, by decide,
    rfl, _, rfl, by decide, gathersNone_reset _ (by decide), fun J => rfl⟩

/-- A region that begins at the section's start, with an input and an output of which s1 tells the base words. -/
def entry : RegEnt := ⟨0, 0x100, [(0, false, 64), (8, true, 2 ^ 56)]⟩
def begins : State := launched (fun l => { l with regions := [entry] }) (mk [sm])
def baseReqs : List LaneReq := [⟨0, 2 ^ 30 + 0xF8, [], 0⟩, ⟨0, 2 ^ 30 + 0x100, [], 0⟩]

theorem neighbours_one (s : State) (w : Wave) (h : s.waves = [w]) (x : Team) (hx : s.teams[w.team]? = some x)
    (he : (s.launchOf w).edges = []) (k : Nat) : s.neighbours k = [] := by
  unfold State.neighbours
  rw [h]
  cases k with
  | zero =>
    show (match s.teams[w.team]? with | none => [] | some t => _) = []
    rw [hx, he]; rfl
  | succ k => rfl

/-- The region's end. -/
def ending : Wave := { sw with region := some { region with endPc := slotBase } }

/-- The two lines of the base words, and the state after their reads. -/
def baseHomes : List Loc := [.hbm (2 ^ 30), .hbm (2 ^ 30 + 0x100)]
def basesRead : State := (reached begins sm reading baseReqs).meetHomes 0 false baseHomes

set_option maxRecDepth 4000 in
theorem witness_RegionBeginAndEnd :
    begins.waves[begins.cur.1]? = some sm ∧ sm.priv.handler = false ∧ sm.ls.tickets = [] ∧ (∀ k, begins.neighbours k = []) ∧
    sm.gone = false ∧ sm.region = none ∧ sm.ss.begun = none ∧ begins.number 0 = 0 ∧ (begins.launchOf sm).regions[0]? = some entry ∧
    (begins.launchOf sm).sbase + entry.beg = begins.opAddr sm ∧ begins.sys.phys = ⟨[], [], [], [], [], [], [], []⟩ ∧
    begins.sys.links.remotes = [] ∧ sm.rangeReqs entry = baseReqs ∧ (baseReqs.map LaneReq.addr).Nodup ∧
    begins.Reaches sm 8 reading baseReqs
      [(⟨0, 2 ^ 30 + 0xF8, [], 0⟩, .hbm (2 ^ 30 + 0xF8)), (⟨0, 2 ^ 30 + 0x100, [], 0⟩, .hbm (2 ^ 30 + 0x100))]
      (reached begins sm reading baseReqs) ∧ (∀ r ∈ baseReqs, begins.l1Holds (begins.viaOf sm) 8 r = none) ∧
    lineHomes [(⟨0, 2 ^ 30 + 0xF8, [], 0⟩, .hbm (2 ^ 30 + 0xF8)), (⟨0, 2 ^ 30 + 0x100, [], 0⟩, .hbm (2 ^ 30 + 0x100))] = baseHomes ∧
    (∀ r ∈ baseReqs, basesRead.mem.counted? (.hbm r.addr) = none ∧ basesRead.poisonFor sm r.addr 8 (.hbm r.addr) = false) ∧
    numLE (basesRead.bytesFor sm (2 ^ 30 + 0x100) 8 (.hbm (2 ^ 30 + 0x100))) + 2 ^ 56 ≤ 2 ^ 56 ∧
    ending.region = some { region with endPc := (mk [ending]).opAddr ending } ∧ ((mk [ending]).launchOf ending).twin = false ∧
    ∀ j ∈ (mk [ending]).jobs, j.inRegionOf 0 = true → j.complete = true :=
  ⟨rfl, rfl, rfl, neighbours_one _ sm rfl _ rfl rfl, rfl, rfl, rfl, by decide, rfl, rfl, rfl, rfl, rfl, by decide, ⟨by decide, rfl, by decide⟩,
    by decide, rfl, by decide, by decide, rfl, rfl, fun j hj => by cases hj⟩

/-! ## Witnesses: tickets, completions, stalls, yields -/

/-- Words that decode to LHDR of v0 to v7: the machine whose oldest ticket has its header there. -/
def headed : State := State.reset.withFetchWord 96 (0x50380001 + 0x00C00000 * 2 ^ 32)
def fresh : Wave := slotWave 0 0 true true 0

/-- A wave whose block fills the fast file, idle for 256 cycles, and one whose block asks for eight registers. -/
def filler : Wave := { am with ls := { am.ls with staged := List.replicate 512 ⟨0, Vector.replicate 32 0, false⟩ } }
def wants : Wave := { fresh with ls := { fresh.ls with blk := ⟨.staging, false, [⟨0, 7⟩], 0⟩ } }
def crowded : State := { mk [filler, wants] with cores := [{ Core.reset with cycles := 256 }] }

/-- Waves at each phase of a block. -/
def phased (p : BlkPhase) (w : Wave := fresh) : Wave := { w with ls := { w.ls with blk := { w.ls.blk with phase := p } } }

set_option maxRecDepth 8000 in
theorem witness_TicketsAndBlocks :
    (mk [fresh]).waves[0]? = some fresh ∧ fresh.ls.tickets = [slotTicket] ∧
    (∀ g ∈ [(⟨24, 7⟩ : RangeDesc)], g.first + g.count = 32 * (slotTicket.extent + 1)) ∧ fresh.ls.live ≠ 0 ∧
    ({ fresh with ls := { fresh.ls with live := 0 } } : Wave).ls.live = 0 ∧
    (headed.waves[0]? = some fresh ∧ headed.runs fresh = true ∧ fresh.priv.handler = false ∧ fresh.ls.blk.phase = .none ∧
      fresh.ls.parkA = none ∧ slotTicket.epoch = fresh.soft.lastEpoch ∧
      ∃ u, ({ headed.putWave 0 fresh with cur := (0, .a) } : State).lOp 0 fresh .a slotLane true = .ok (u, .lhdr false [⟨0, 3⟩]) ∧
        u.waves[0]? = some fresh ∧ u.cur = (0, .a)) ∧
    ((mk [phased .staging]).runs (phased .staging) = true ∧ (mk [phased .staging]).slotFree (phased .staging) = true ∧
      (mk [phased .staging]).stagedOn (phased .staging) + (phased .staging).ls.blk.regs.length ≤ 512 ∧
      (phased .staging).ls.sideA = none ∧ (phased .staging).ls.sideB = none) ∧
    ((phased .ended).st = .resident ∧ (phased .ended).ls.outs = [] ∧ (mk [phased .ended]).sys.phys.parity = []) ∧
    (crowded.runs filler = true ∧ filler.ls.blk.phase = .ready ∧ filler.ls.staged ≠ [] ∧ crowded.spaceWanted filler = true ∧
      256 ≤ crowded.cyclesOf filler.core - filler.ls.issuedL) ∧
    (slotTicket :: []).length = 1 ∧ ∀ e ∈ (phased .ended).ss.release, e.1 = 1 → (phased .ended).soft.ext ≤ e.2 := by
  refine ⟨rfl, rfl, by decide, by decide, rfl, ⟨rfl, by decide, rfl, rfl, rfl, rfl, _, rfl, rfl, rfl⟩, ?_, ⟨rfl, rfl, rfl⟩, ?_, rfl,
    by decide⟩
  · exact ⟨by decide, by decide, by decide, rfl, rfl⟩
  · exact ⟨by decide, rfl, List.cons_ne_nil _ _, by decide, by decide⟩

/-- Sixteen waves whose blocks are over hold slots of their quarter; one stages a block that needs a slot. -/
def holder : Wave := { fresh with ls := { fresh.ls with slot := true } }
def stager : Wave := { fresh with ls := { fresh.ls with blk := ⟨.staging, true, [], 0⟩ } }
def slotted : State := mk (List.replicate 16 holder ++ [stager])
/-- The same with slots whose holders all run a Z block and have been idle for 256 cycles. -/
def zholder : Wave := lw
def slottedZ : State := { mk (List.replicate 16 zholder ++ [stager]) with cores := [{ Core.reset with cycles := 256 }] }
/-- A core on whose order wave 0 stands, which asks for block 7. -/
def asker : Wave := { sw with ss := { sw.ss with acquire := some 7 } }
def granting : State := { mk [asker] with cores := [{ Core.reset with grants := [0] }] }
/-- A load that has not returned, and a store that is not performed. -/
def outLoad : Outst := Outst.fresh { ctl with inc := true } .a true none [(4, Vector.replicate 32 9)] 0xFFFFFFFF#32
def outStore : Outst := Outst.fresh ctl .a false none [] 0

theorem witness_CompletionsAndGrants :
    (slotted.waves[0]? = some holder ∧ holder.ls.slot = true ∧ holder.st = .resident ∧ holder.ls.blk.phase ≠ .ready ∧
      slotted.onQuarter holder (fun y => y.ls.blk.phase == .staging && y.ls.blk.z && !y.ls.slot) ≠ [] ∧
      (slotted.slotVictim holder).map Prod.fst = some 0 ∧
      slotted.slotFree { holder with ls := { holder.ls with slot := false } } = false) ∧
    (slottedZ.waves[0]? = some zholder ∧ zholder.ls.blk.phase = .ready ∧ zholder.ls.blk.z = true ∧
      slottedZ.onQuarter zholder (fun y => y.ls.blk.phase == .staging && y.ls.blk.z && !y.ls.slot) ≠ [] ∧
      (slottedZ.slotVictim zholder).map Prod.fst = some 0 ∧
      slottedZ.slotFree { zholder with ls := { zholder.ls with slot := false } } = false) ∧
    (granting.cores[0]? = some { Core.reset with grants := [0] } ∧ granting.waves[0]? = some asker ∧ asker.ss.acquire = some 7 ∧
      granting.covers asker 7 = true) ∧
    outLoad.done = false ∧ outLoad.parked = 0 ∧ outLoad.remote = 0 ∧ outLoad.load = true ∧ outLoad.lud = false ∧
    (∀ a b, a ∈ outLoad.regs → b ∈ outLoad.regs → a.1 = b.1 → a = b) ∧ (mk [sw]).sys.links.remotes = [] ∧ outStore.load = false ∧
    outStore.done = false ∧ outStore.mask = 0 := by
  refine ⟨⟨rfl, rfl, rfl, by decide, List.cons_ne_nil _ _, by decide, by decide⟩,
    ⟨rfl, rfl, rfl, List.cons_ne_nil _ _, by decide, by decide⟩, ⟨rfl, rfl, rfl, by decide⟩, rfl, rfl, rfl, rfl, rfl, ?_, rfl, rfl, rfl, rfl⟩
  intro a b ha hb _
  rw [List.mem_singleton.mp ha, List.mem_singleton.mp hb]

/-- A wave whose side A, or S-stream, has waited for one cycle, the limit 2^0 of its context. -/
def waiting (x : Wait) : Wave := { lw with ls := { lw.ls with waitA := some x, results := List.replicate 8 0 } }
def waitingS (x : Wait) : Wave := { waiting .result with ss := { lw.ss with waitS := some x } }
def eightTickets (x : Wait) : Wave := { waitingS x with ls := { (waitingS x).ls with tickets := List.replicate 8 slotTicket } }
def later (s : State) : State := { s with cores := [{ Core.reset with cycles := 1 }] }

theorem witness_StallTraps :
    (later (mk [waiting .port])).waves[0]? = some (waiting .port) ∧ (later (mk [waiting .port])).runs (waiting .port) = true ∧
    (waiting .port).priv.handler = false ∧ ((later (mk [waiting .port])).ctxOf (waiting .port)).hen = true ∧
    (waiting .port).ls.side? .a = some side ∧ (later (mk [waiting .port])).offers = [] ∧ (waiting .port).ls.wait? .a = some .port ∧
    2 ^ ((later (mk [waiting .port])).ctxOf (waiting .port)).pstall = (later (mk [waiting .port])).waited (waiting .port) (.l .a) ∧
    (waitingS .cwait).ss.waitS = some .cwait ∧
    2 ^ ((later (mk [waitingS .cwait])).ctxOf (waitingS .cwait)).pstall ≤ (later (mk [waitingS .cwait])).waited (waitingS .cwait) .s ∧
    (waiting .port).ss.parkS = none ∧ (waitingS .join).ss.waitS = some .join ∧ (waitingS .join).ls.tickets ≠ [] ∧
    (waitingS .join).ls.wait? .a = some .result ∧ 8 ≤ (waitingS .join).ls.results.length ∧
    (eightTickets .ticket).ss.waitS = some .ticket ∧ 8 ≤ (eightTickets .ticket).ls.tickets.length ∧
    (eightTickets .ticket).ls.wait? .a = some .result ∧ 8 ≤ (eightTickets .ticket).ls.results.length :=
  ⟨rfl, by decide, rfl, by decide, rfl, rfl, rfl, by decide, rfl, by decide, rfl, rfl, by decide, rfl, by decide, rfl, by decide, rfl, by decide⟩

/-- A wave that yielded at a CWAIT .y of an empty mask; one that holds POISON_CONSUMED. -/
def yielder : Wave := { sw with ss := { sw.ss with yielded := some ⟨true, false, 0, 0, slotBase + 8, slotBase + 4⟩ } }
def holdsTrap : Wave := { sw with priv := { sw.priv with held := [⟨.poisonConsumed, 5, 6, 0⟩] } }

theorem witness_YieldsAndHeldTraps :
    (mk [yielder]).waves[0]? = some yielder ∧ (mk [yielder]).runs yielder = true ∧ yielder.priv.handler = false ∧
    (mk [yielder]).cwaitHolds yielder true false 0 0 = true ∧ yielder.ss.yieldN ≤ (mk [yielder]).cyclesOf 0 - yielder.ss.yieldAt ∧ (mk [holdsTrap]).runs holdsTrap = true ∧
    ((mk [holdsTrap]).ctxOf holdsTrap).hen = true ∧ holdsTrap.ss.parkS = none ∧ holdsTrap.ss.acquire = none ∧ (mk [holdsTrap]).offers = [] ∧
    holdsTrap.priv.held = ⟨.poisonConsumed, 5, 6, 0⟩ :: [] ∧ Cause.poisonConsumed ≠ .watchEngine ∧ (Cause.watchEngine).code = 0x27 :=
  ⟨rfl, by decide, rfl, by decide, by decide, by decide, by decide, rfl, rfl, rfl, rfl, by decide, by decide⟩

/-! ## Witnesses: memory system and engines -/

/-- A line of core 0's L1 with four dirty bytes, one that gathers one partial result of an addition, and a machine with one of them. -/
def dirtyLine : L1Line := ⟨0, 0, 2 ^ 22, .hbm (2 ^ 30), [(2 ^ 30, 1), (2 ^ 30 + 255, 2)], [2 ^ 24], none, []⟩
def gatherLine : L1Line := ⟨0, 0, 2 ^ 22, .hbm (2 ^ 30), [], [], some (.add true), [(2 ^ 30 + 248, 3)]⟩
def cached (x : L1Line) : State := { mk [sw] with cores := [{ Core.reset with l1 := [x] }] }
def keyed (x y : L1Line) : Bool := y.part == x.part && y.asid == x.asid && y.line == x.line

theorem witness_LinesInvalidationsWatchpoints :
    (cached dirtyLine).cores[0]? = some { Core.reset with l1 := [dirtyLine] } ∧ [dirtyLine].filter (keyed dirtyLine) = [dirtyLine] ∧
    dirtyLine.home.near = true ∧ dirtyLine.home.line = dirtyLine.home ∧ (cached dirtyLine).mem.counted? dirtyLine.home = none ∧
    (cached dirtyLine).mem.wf = true ∧ dirtyLine.gather = none ∧ dirtyLine.bytes.Pairwise (fun a b => a.1 < b.1) ∧
    (∀ b ∈ dirtyLine.bytes, b.1 / 256 = dirtyLine.line) ∧ gatherLine.gather = some (.add true) ∧ gatherLine.bytes = [] ∧
    gatherLine.partials = [(2 ^ 30 + 248, 3)] ∧ (2 ^ 30 + 248) % AtomOp.bytes (.add true) = 0 ∧
    (cached gatherLine).mem.poisoned (gatherLine.home.add ((2 ^ 30 + 248) % 256)) = false ∧
    (({ (mk [sw]).mem with invals := [⟨0, 0, 2 ^ 30, 2 ^ 31⟩] } : Mem).invals[0]? = some ⟨0, 0, 2 ^ 30, 2 ^ 31⟩ ∧
      ∀ r ∈ (mk [sw]).sys.links.remotes, r.reply = none → 2 ^ 31 ≤ r.va ∨ r.va + FabOp.width r.op ≤ 2 ^ 30 ∨
        ∃ w, (mk [sw]).waves[r.wave]? = some w ∧ (((mk [sw]).ctxOf w).part ≠ 0 ∨ ((mk [sw]).ctxOf w).asid ≠ 0)) ∧
    (cached dirtyLine).sys.phys.ecc = [] ∧
    ((mk [sw]).sys.contexts.find? (fun c => c.id == 0) = some ctx ∧ ({ Core.reset with watchCtx := some 0 } : Core).watchCtx = some 0 ∧
      ∃ y ∈ (mk [sw]).teamsOn [] 0, ((mk [sw]).grids[y.grid]?).map Grid.ctx = some 0) ∧
    (sw.gone = false ∧ ((mk [sw]).ctxOf sw).hen = true ∧ sw.priv.held.length < 4 ∧
      ({ (mk [sw]).sys with watchHits := [⟨some 0, 0, 3, 2 ^ 30, 1, 2, 0⟩] } : Sys).watchHits[0]? = some ⟨some 0, 0, 3, 2 ^ 30, 1, 2, 0⟩) :=
  ⟨rfl, by decide, rfl, by decide, by decide, by decide, rfl, by decide, by decide, rfl, rfl, rfl, by decide, by decide,
    ⟨rfl, fun r hr => by cases hr⟩, rfl, ⟨by decide, rfl, _, List.mem_cons_self, rfl⟩, ⟨rfl, by decide, by decide, rfl⟩⟩

/-- A machine without cached leaves whose tables map the second GiB. -/
def walkable : State :=
  { mk [sw] with
    sys := { (mk [sw]).sys with parts := (mk [sw]).sys.parts.set 0 { (mk [sw]).sys.parts[0] with asidTable := 0x10000 } },
    mem := { Mem.reset with hbm := [(0x10000, 0x01), (0x10001, 0x10), (0x10002, 0x01), (0x11000, 0x01), (0x11001, 0x20), (0x11002, 0x01),
      (0x12000, 0x01), (0x12001, 0x30), (0x12002, 0x01), (0x13008, 0x0F), (0x1300B, 0x40)] } }

theorem ok_of {ε α : Type} {e : Except ε α} {x : α} (h : e.toOption = some x) : e = .ok x := by
  cases e with
  | error f => cases h
  | ok y => cases h; rfl

theorem error_of {ε α : Type} {e : Except ε α} (h : e.toOption.isNone = true) : ∃ f, e = .error f := by
  cases e with
  | error f => exact ⟨f, rfl⟩
  | ok y => cases h

/-- A record that waits for Dorzin, and what it holds: a job, or the load of side A. -/
def faultRec (h : Holder) : FaultRec := ⟨0, 9, 0x2#64, 2 ^ 30, 0, h, false⟩
def heldJob : Job := { sw.newJob 0 .load (some 3) 0 with held := some 9 }
def loadInstr : Instr := .ld ctl .b32 .none rlx (.v 95) (.v 2) 0
def park (resolved : Bool) (i : Option Instr := some loadInstr) : Park :=
  ⟨slotLane + 12, i, laneReqs, 0, 2 ^ 30, 0x2#64, 9, resolved, false, false, slotLane + 24⟩
def parked (k : Park) : Wave := { am with ls := { am.ls with parkA := some k, outs := [Outst.fresh ctl .a true none [(95, Vector.replicate 32 0)] 0] } }
def faulted (h : Holder) (s : State) : State := { s with mem := { s.mem with faults := [faultRec h] }, jobs := [heldJob] }

/-- The parked load's read once its record is resolved. -/
def resumed : Wave := { parked (park true) with ls := (parked (park true)).ls.unpark .a (park true).resume }
def resumedRead : Got :=
  State.readAll { mk [parked (park true)] with waves := [resumed] } 0 resumed 4 rlx .none (park true).reqs

set_option maxRecDepth 4000 in
theorem witness_WalksAndAnswers :
    walkable.mem.cached 0 0 (2 ^ 30) = none ∧ walkable.translate 0 0 (2 ^ 30) writing = .ok (.hbm (2 ^ 30)) ∧
    walkable.walk 0 0 (2 ^ 30) = .ok (0x4000000F, true) ∧ (∃ f, walkable.walk 0 0 (2 ^ 31) = .error f) ∧
    walkable.mem.cached 0 0 (2 ^ 31) = none ∧
    (faulted (.job 0) (mk [sw])).mem.faults.find? (fun y => y.id == 9 && !y.answered) = some (faultRec (.job 0)) ∧
    (faulted (.job 0) (mk [sw])).sys.links.remotes = [] ∧ (faulted (.job 0) (mk [sw])).jobs[0]? = some heldJob ∧ heldJob.held = some 9 ∧
    (faulted (.wave 0 (.l .a)) (mk [parked (park false)])).mem.faults.find? (fun y => y.id == 9 && !y.answered) =
      some (faultRec (.wave 0 (.l .a))) ∧
    (parked (park false)).ls.park? .a = some (park false) ∧ (park false).id = 9 ∧ (parked (park false)).ss.parkS = none ∧
    (mk [parked (park false)]).runs (parked (park false)) = true ∧ (parked (park false)).priv.handler = false ∧
    ((mk [parked (park false)]).ctxOf (parked (park false))).hen = true ∧ (park true).resolved = true ∧
    ({ sw with ss := { sw.ss with parkS := some (park true) } } : Wave).ss.parkS = some (park true) ∧ (park true none).instr = none ∧
    (park true).instr = some loadInstr ∧ (mk [parked (park true)]).sys.phys = ⟨[], [], [], [], [], [], [], []⟩ ∧
    (resumedRead.bad = [] ∧ resumedRead.away = [] ∧ resumedRead.poisoned = []) :=
  ⟨by decide, ok_of (by decide), ok_of (by decide), error_of (by decide), by decide, by decide, rfl, rfl, rfl, by decide, rfl, rfl, rfl, by decide, rfl, by decide, rfl, rfl, rfl, rfl,
    rfl, ⟨rfl, rfl, rfl⟩⟩

/-- Offers of a store, and jobs of each kind that are alone: a refused record, a load of one row, MZERO, a fence, MMA. -/
def offerJob : Job := sw.newJob 0 .store (some 3) 0
def offering : State := { mk [sw] with offers := [⟨.s, offerJob, 2 ^ 30 + 0x40, none, false, false⟩] }
def aJob (k : JobKind) : Job := { mw.newJob 0 k (some 63) 0 with a := zall, fmt := 0, b := 0 }
def working (k : JobKind) (bad : Bool := false) : State := { mk [mw] with jobs := [{ aJob k with recPoisoned := bad }] }

/-- The record of a tensor of two FP32 elements in one row at 0x200 of the slot's page, and a load of it to the scratchpad's start. -/
def tensor : List Byte := [0, 2, 0, 0x40, 0, 0, 0, 0] ++ List.replicate 8 0 ++ [2, 0, 0, 0, 1, 0, 0, 0, 1, 0, 0, 0, 1, 0, 0, 0, 1, 0, 0, 0] ++
  [16, 0, 0, 0, 16, 0, 0, 0, 16, 0, 0, 0, 16, 0, 0, 0] ++ [2, 0, 1, 0, 1, 0, 1, 0, 1, 0] ++ [1, 0]
def tileLoad : DWord := BitVec.ofNat 64 (63 * 2 ^ 58 + 2 ^ 53 + 2 ^ 21)
def loadJob : Job := { aJob .load with record := tensor, a := tileLoad }
def loading : State := { mk [mw] with jobs := [loadJob] }
def tensorRead (sel : Nat → Bool) : Eng := State.engineReach 0 (loading.viaJob loadJob) reading loading 
    (lineHeads (((copyElems (Rec.ofBytes tensor) (Tile.ofWord tileLoad) 0 (kindElem (.fmt .fp32)) (kindElem (.fmt .fp32))).filter
      fun x => x.inside && sel x.chunk).flatMap fun x => spanBits x.glob (kindElem (.fmt .fp32))))
def moved (sel : Nat → Bool) : Overlay × List Nat × Flags :=
  (tensorRead sel).s.loadMove loadJob false (tensorRead sel).lines (Rec.ofBytes tensor) (Tile.ofWord tileLoad) (.fmt .fp32) (.fmt .fp32)
    sel
/-- What is left of the tile, and its part in chunk 0. -/
def selected (one : Bool) (k : Nat) : Bool := !loadJob.landed.contains k && (!one || k == 0)

set_option maxRecDepth 4000 in
set_option exponentiation.threshold 600 in
theorem witness_CopyLoad :
    copyBad .load (Rec.ofBytes tensor) (Tile.ofWord tileLoad) 0 (loading.scratchSize mw) = false ∧
    copyKinds (Rec.ofBytes tensor) (Tile.ofWord tileLoad) = some (.fmt .fp32, .fmt .fp32) ∧ loadJob.landed = [] ∧
    loading.jobBlocked 0 loadJob = false ∧ ∀ one : Bool,
      (tensorRead (selected one)).fault.isNone = true ∧ (tensorRead (selected one)).waiting = false ∧
      (∀ l ∈ (tensorRead (selected one)).lines, (tensorRead (selected one)).s.mem.counted? l.home = none) ∧
      (moved (selected one)).1.Pairwise (fun x y => x.1 < y.1) ∧ (moved (selected one)).1.map Prod.fst = [0, 1, 2, 3, 4, 5, 6, 7] :=
  ⟨by decide, by decide, rfl, by decide, by decide⟩

theorem witness_EngineJobs :
    (offering.offers = [⟨.s, offerJob, 2 ^ 30 + 0x40, none, false, false⟩] ∧ offering.waves[offerJob.wave]? = some sw ∧
      offering.runs sw = true ∧ sw.priv.handler = false ∧ sw.isGreen = false ∧ offering.room offerJob = true ∧ offerJob.kind = .store ∧
      offerJob.fatal = false ∧ offerJob.region = false ∧ offerJob.tag = some 3 ∧ (2 ^ 30 + 0x40) % 64 = 0 ∧
      ∃ u, offering.request 0 0 (2 ^ 30 + 0x40) reading = .ok (.hbm (2 ^ 30 + 0x40), u) ∧ (∀ k, u.gathersNone k) ∧
        u.mem.counted? (.hbm (2 ^ 30 + 0x40)) = none ∧
        offering.recordBlocked ⟨.s, offerJob, 2 ^ 30 + 0x40, none, false, false⟩ = false) ∧
    (working .load true).jobs[0]? = some { aJob .load with recPoisoned := true } ∧ (working .fence).waves[(aJob .fence).wave]? = some mw ∧
    (mw).st = .resident ∧ (mw).team = (aJob .fence).team ∧ (working .fence).teams[(aJob .fence).team]? = some (Team.start 0 0 false 0 0 0) ∧
    (aJob .fence).members = [(aJob .fence).wave] ∧ (aJob .fence).complete = false ∧ (aJob .fence).held = none ∧
    (working .load).jobBlocked 0 (aJob .load) = false ∧ (working .mzero).jobBlocked 0 (aJob .mzero) = false ∧
    (working .mma).jobBlocked 0 (aJob .mma) = false ∧ (working .fence).sys.links.remotes = [] ∧ (aJob .fence).pair = false ∧
    (aJob .load).fatal = false ∧ (aJob .load).ending = none ∧ ({ aJob .load with recPoisoned := true } : Job).recPoisoned = true ∧
    Cells.wf ((Team.start 0 0 false 0 0 0).half (mw).odd).acc = true ∧ (working .mma).sys.phys = ⟨[], [], [], [], [], [], [], []⟩ ∧
    (working .mma).poisonRead (aJob .mma) (mw).odd (mmaReads (aJob .mma) (FmtW.ofWord 0) (ADesc.ofWord 0) (DDesc.ofWord 0)
      ((working .mma).wbufBytes mw) (mw).odd ((working .mma).mmaMem (aJob .mma) ((working .mma).wbufBytes mw) (mw).odd)) = (none, none) ∧
    shadowed (FmtW.ofWord 0) = false := by
  refine ⟨⟨rfl, rfl, by decide, rfl, rfl, room_empty _ rfl _, rfl, rfl, rfl, rfl, by decide, _, rfl, gathersNone_reset _ (by decide), by decide, by decide⟩,
    rfl, rfl, rfl, rfl, rfl, rfl, rfl, rfl, ?_⟩
  exact ⟨by decide, by decide, by decide, rfl, rfl, rfl, rfl, rfl, rfl, rfl, by decide, by decide⟩

/-! ## Witnesses: regions, rays, launches -/

/-- The region's wave has issued RGN.end. -/
def cured : Wave := { sw with region := some { region with ended := some (3, slotBase + 4) } }
/-- The one team waits for its replay, and a core is named for it. -/
def away : Team := { Team.start 0 0 false 0 0 0 with st := .waitingReplay }
/-- The pages of the image of a team of one wave whose save area begins at the slot's page, as cached leaves. -/
def imageLeaves : List Leaf :=
  leavesOf ((slotBase :: (List.range 32).map fun k => slotBase + 0x20000 + 4096 * k) ++ (List.range 3).map fun k => slotBase + 0x820000 + 4096 * k)
/-- A context with one save slot. -/
def slotted1 : Context := { ctx with nslot := 1, slotsize := 0x1000, savebase := 2 ^ 30 }
def replaying : State :=
  let s := mk [{ inside sw with st := .saved }]
  { s with teams := [away], sys := { s.sys with contexts := [slotted1] }, mem := { s.mem with leaves := imageLeaves } }
def place : List Placement := [⟨0, false, 0, 0⟩]
/-- A walk from the root 0, of which memory holds a node without children. -/
def rootEnt : RayEnt := ⟨2 ^ 30, false, 1, 0, true, []⟩
def walk (stack : List RayEnt) (bad : Bool) : Ray :=
  { ray 1 .running 0 with d := #v[if bad then 0 else 0x3FF0000000000000#64, 0, 0], tmax := 0x4000000000000000#64, tb := 0x4000000000000000#64,
                          remain := 1, stack := stack }
def walks (stack : List RayEnt) (bad : Bool := false) : State := { mk [sw] with rays := [walk stack bad] }
/-- The ray while its root is read; one that has ended and whose record an L-op awaits. -/
def visited : Ray := { walk [rootEnt] false with remain := 0, stack := [], node := some rootEnt }
def recorded : Ray := { walk [] false with due := some (.ended, false), owes := [(0, 0, 5)] }

/-- A bound grid whose input hod holds one record. -/
def inHod : Hod := ⟨slotBase + 0x2000, 0, false⟩
def hods : State := { launched (fun l => { l with bind := true, hods := [inHod, ⟨slotBase + 0x4000, 0, true⟩], outhod := 1 }) (mk [sw]) with
  mem := { (mk [sw]).mem with hbm := [(2 ^ 30 + 0x2040, 1)] } }

set_option maxRecDepth 4000 in
set_option exponentiation.threshold 2000 in
theorem witness_RegionsAndRays :
    ((mk [cured]).waves[0]? = some cured ∧ ((mk [cured]).launchOf cured).twin = false ∧ (∀ k, (mk [cured]).neighbours k = []) ∧
      ∀ j ∈ (mk [cured]).jobs, j.inRegionOf 0 = true → j.complete = true) ∧
    (replaying.teams[0]? = some away ∧ replaying.replayGroup 0 = [0] ∧ replaying.heldTeam 0 = false ∧ replaying.savable [0] = true ∧
      ∃ a, matchPlaces ([0].filterMap replaying.wantOf) place = some [((a, 0), 0)] ∧ replaying.replayOk [0] [(a, 0)] = true ∧
        replaying.replayTurn [0] 0 = true) ∧
    replaying.unpoisoned ∧ ((replaying.wavesOf [0]).foldl State.hold replaying).saveFaults [0] = false ∧
    ((walk [] true).bad = true ∧ (walk [] false).bad = false ∧ (walk [rootEnt] false).bad = false ∧
      ltVal (walk [rootEnt] false).tb rootEnt.entry = false ∧ (walks [rootEnt]).rayRuns (walk [rootEnt] false) = true ∧
      (walk [rootEnt] false).st = .running ∧ (walk [rootEnt] false).freed = false ∧ (walk [rootEnt] false).held = none ∧
      (walk [rootEnt] false).logging = false ∧ (walk [rootEnt] false).logBuf = [] ∧ (walk [rootEnt] false).due = none ∧
      (walk [rootEnt] false).best = none ∧ (walk [rootEnt] false).node = none ∧ (walk [rootEnt] false).leaf = [] ∧
      0 < (walk [rootEnt] false).remain) ∧
    (∃ u, ({ walks [rootEnt] with rays := (walks [rootEnt]).rays.set 0 visited } : State).rayRead 0 visited rootEnt.addr = .ok (u, 0, false) ∧
      u.rays = (walks [rootEnt]).rays.set 0 visited) ∧
    nodeBad 0 = false ∧ visited.pushes 0 = [] ∧
    (recorded.hod = none ∧ recorded.hodSlot = none ∧ (mk [sw]).unperformed (recorded.asker 0) = false ∧ recorded.owes ≠ []) ∧
    ((∃ y ∈ hods.teams, y.grid = 0 ∧ y.st = .resident ∧ y.core = 0) ∧ hods.slotsUsed 0 < 2047 ∧ hods.ringHeld 0 inHod.base = false ∧
      ∃ u at_ bs, hods.hodTake (unitAsker 0 0) ⟨0, 0, 0⟩ inHod = .ok (u, some (at_, bs, false))) := by
  refine ⟨⟨rfl, rfl, neighbours_one _ cured rfl _ rfl rfl, fun j hj => by cases hj⟩, ⟨rfl, by decide, by decide, by decide, _, rfl, by decide, by decide⟩,
    ?_, by decide, by decide, ?_, by decide, by decide, by decide, ⟨by decide, by decide, by decide, ?_⟩⟩
  · exact ⟨rfl, rfl, by decide, by decide, by decide, by decide, rfl⟩
  · exact ⟨_, rfl, rfl⟩
  · exact ⟨_, _, _, rfl⟩

/-- The scheduler is ready; queue 0 holds one record, at the slot's page, of context 0. -/
def ready_ (s : State) : State :=
  { s with sys := { s.sys with rst := { s.sys.rst with romDone := true, fwOk := true, memReady := true, schedReady := true } } }
def kicked : State :=
  { ready_ (mk []) with
    mem := { (mk []).mem with hbm := [(3, 0x40), (8, 1), (0x1F, 0x80)] },
    sys := { (ready_ (mk [])).sys with dorzin := { (mk []).sys.dorzin with kicks := [0] } } }
def served : State := kicked.modDorzin fun y => { y with kicks := [], lastServed := 0 }
/-- A context record: the limits of R346 and R369 hold. -/
def contextRecord : List Byte := List.replicate 0x37 0 ++ [0x20] ++ List.replicate 8 0 ++ [1, 0] ++ List.replicate 62 0
def done : JEnt := JEnt.of 0 4 0 0 0 0 0
def doneGrid : Grid := ⟨0, 0, 0, launch, 0, false, false, true⟩
/-- The active scheduler core has stopped. -/
def stopped : State := kicked.modDorzin fun y => { y with failed := true }
def empties : Grid := ⟨0, 0, 0, launch, 0, false, false, false⟩

set_option maxRecDepth 8000 in
theorem witness_LaunchesAndContexts :
    (kicked.sys.rst.romDone = true ∧ kicked.sys.dorzin.kicks = [0] ∧ kicked.sys.rst.schedReady = true ∧ kicked.sys.dorzin.sliceStopped = false ∧
      kicked.queueAt 0 + 32 ≤ hbmSize ∧ (∀ y ∈ kicked.cores, ∀ z ∈ y.l1, z.home ≠ (Loc.hbm (kicked.queueAt 0)).line) ∧
      (kicked.queue 0).enable = true ∧ (kicked.queue 0).tail = ((kicked.queue 0).head + 1) % 2 ^ 64 ∧
      (kicked.queue 0).head ≠ (kicked.queue 0).tail ∧
      ((kicked.queue 0).tail + 2 ^ 64 - (kicked.queue 0).head) % 2 ^ 64 ≤ 2 ^ (kicked.queue 0).log2 ∧
      kicked.sys.contexts.find? (fun y => y.id == (kicked.queue 0).ctx) = some ctx ∧
      (∃ p, kicked.sys.parts.toList[ctx.part]? = some p ∧ p.enabled = true ∧ p.disabling = false) ∧
      (∃ bs, kicked.systemRead ctx (2 ^ 30) 1024 = some bs) ∧ (kicked.queue 0).ring = 2 ^ 30) ∧
    (((served.acceptRecord 0 (kicked.queue 0) ctx).queue 0).head = (kicked.queue 0).tail ∧
      ((served.acceptRecord 0 (kicked.queue 0) ctx).queue 0).tail = (kicked.queue 0).tail) ∧
    ((mk []).grids[0]? = some empties ∧ empties.complete = false ∧ empties.ending = false ∧ ({ mk [] with teams := [] } : State).quiet 0 = true ∧
      ({ mk [] with teams := [] } : State).retiredCount 0 launch = launch.size) ∧
    (contextOk contextRecord = true ∧ (∃ p, (mk []).sys.parts.toList[0]? = some p ∧ p.enabled = true) ∧ ∀ c ∈ (mk []).sys.contexts, c.id ≠ 1) ∧
    (∀ g ∈ (mk []).grids, g.ctx = 1 → g.complete = true) ∧ (∀ k : Fin 8, (mk []).sys.parts[k].disabling = false) ∧
    (kicked.sys.dorzin.failed = false ∧ kicked.sys.dorzin.takenOver = false ∧ kicked.sys.dorzin.journal = [] ∧ kicked.sys.dorzin.runs = true ∧
      stopped.sys.dorzin.failed = true ∧ stopped.sys.dorzin.takenOver = false ∧ stopped.sys.rst.schedReady = true ∧
      [done].getLast? = some done ∧ done.kind = 4 ∧ (JEnt.of 0 1 0 0 0 0 0).kind ≠ 4 ∧
      [doneGrid].find? (fun y => y.seq == done.launch && y.complete) = some doneGrid ∧
      [empties].find? (fun y => y.seq == done.launch && y.complete) = none) ∧
    (∃ bs l, served.systemRead ctx ((kicked.queue 0).ring + 1024 * ((kicked.queue 0).head % 2 ^ (kicked.queue 0).log2)) 1024 = some bs ∧
      served.checkRecord ctx (kicked.queue 0).minclass bs = (l, 1)) := by
  refine ⟨⟨rfl, rfl, rfl, rfl, by decide, by decide, by decide, by decide, by decide, by decide, rfl, ⟨_, rfl, rfl, rfl⟩, ⟨_, rfl⟩, by decide⟩, ?_,
    ⟨rfl, rfl, rfl, by decide, by decide⟩, ⟨by decide, ⟨_, rfl, rfl⟩, by decide⟩, by decide, by decide,
    ⟨rfl, rfl, rfl, rfl, rfl, rfl, rfl, rfl, by decide, by decide, rfl, rfl⟩, ⟨_, _, rfl, rfl⟩⟩
  decide

/-- A grid of one team of one wave that is still to be placed. -/
def oneTeam (s : State) : State :=
  { s with mem := { s.mem with leaves := imageLeaves }, sys := { s.sys with contexts := [slotted1] }, grids := [⟨0, 0, 0, { launch with size := 1, s0 := 1 }, 0, false, false, false⟩] }
def unplaced : State := { oneTeam (mk []) with teams := [] }

set_option maxRecDepth 8000 in
theorem witness_TeamPlacement :
    (∃ a, matchPlaces (unplaced.nextWants 0) [⟨0, false, 0, 0⟩] = some [((a, 0), 0)] ∧ placesOk (unplaced.fits []) [(a, 0)] [] = true) ∧
    unplaced.inTurn 0 = true ∧ unplaced.replayWaits (unplaced.partOf 0) = false ∧ 0 ∈ unplaced.freeSlots 0 :=
  ⟨⟨_, rfl, by decide⟩, by decide, by decide, by decide⟩

/-- The one team under request, with or without an estimate; a wave in a region; a team that has left its core. -/
def req (d : Bool) (st : TeamSt := .resident) : Team := { Team.start 0 0 false 0 0 0 with request := some (if d then 0 else 5), draining := d, st := st }
def asked (T : Team) (w : Wave) : State := { oneTeam (mk [w]) with teams := [T] }
def steady : Team := { Team.start 0 0 false 0 0 0 with issued := 1, cycles := 1 }
def estimated : State := launched (fun l => { l with expect := 2 }) (asked steady sw)

set_option maxRecDepth 8000 in
theorem witness_PreemptionAndSaves :
    ((asked (req false) sw).liveTeams ((asked (req false) sw).wholeGroup 0 0) = [0] ∧
      ∀ w ∈ (asked (req false) sw).waves, w.team = 0 → ∀ x, w.region = some x → x.ended = none) ∧
    (steady.issued ≠ 0 ∧ steady.issued < 2 ∧ ((2 - steady.issued) * steady.cycles + steady.issued - 1) / steady.issued ≤
      (1 - estimated.sys.dorzin.count) * estimated.sys.power.clk / 1800 ∧ steady.request = none) ∧
    (¬ (∀ w ∈ (mk [sw]).waves, w.team = 0 → w.gone = true ∨ w.region.isSome = true)) ∧
    ((∀ w ∈ (asked steady (inside sw)).waves, w.team = 0 → w.gone = true ∨ w.region.isSome = true) ∧
      (∀ w ∈ (asked steady (inside sw)).waves, w.team = 0 → ∀ x, w.region = some x → x.ended = none) ∧
      (asked steady (inside sw)).lostWork ((asked steady (inside sw)).wavesOf [0]) ≤
        ((asked steady (inside sw)).saveBytes 0 true + 511) / 512 + 2048) ∧
    ((req true).request = some 0 ∧ (req true).draining = true ∧ 0 ≤ (asked (req true) sw).sys.dorzin.count) ∧
    ((req false).request.isSome = true ∧ (asked (req false) sw).savable [0] = true ∧ (asked (req false) sw).saveFaults [0] = false ∧
      (asked (req false) sw).sys.phys = ⟨[], [], [], [], [], [], [], []⟩ ∧ (req false).mirror = false ∧ (req false).st = .resident) ∧
    (asked (req false .saved) { sw with st := .saved }).mem.llc = [] ∧
    (∃ a, matchPlaces ([0].filterMap (asked (req false .saved) { sw with st := .saved }).wantOf) place = some [((a, 0), 0)] ∧
      placesOk ((asked (req false .saved) { sw with st := .saved }).fits [0]) [(a, 0)] [] = true ∧
      (asked (req false .saved) { sw with st := .saved }).restoreTurn [0] 0 = true) :=
  ⟨⟨by decide, by decide⟩, by decide, by decide, ⟨by decide, by decide, by decide⟩, by decide, ⟨rfl, by decide, by decide, rfl, rfl, rfl⟩,
    rfl, ⟨_, rfl, by decide, by decide⟩⟩

/-! ## Witnesses: the management core, control masters, the links, resets -/

/-- A repoint entry that waits for quarter 0 of core 1; a copy of a row; a conversion that is under way. -/
def repairing : State :=
  { mk [sw] with sys := { (mk [sw]).sys with health := { (mk [sw]).sys.health with laneWaits := [BitVec.ofNat 64 (4 * 2 ^ 43)], rowCopies := [0] } } }
/-- Master 1 owns the device; K ways are carved. -/
def owned (s : State) : State := { s with sys := { s.sys with owner := { s.sys.owner with valid := true, owner := 1 } } }
def carved (k : Nat) (busy : Bool) : State := { owned (mk []) with mem := { (mk []).mem with carveCur := k, carveK := k, carveBusy := busy } }
/-- The partition has a range of carved frames beyond 23. -/
def carvedPart : State :=
  { carved 2 false with sys := { (carved 2 false).sys with parts := (mk []).sys.parts.set 0 { (mk []).sys.parts[0] with
      mem := Vector.replicate 4 (BitVec.ofNat 64 (3 * 2 ^ 62 + 40 * 2 ^ 32)) } } }

/-- The error log holds an entry for the same site, which is younger than 4,096 cycles. -/
def scrubbed : ErrEnt := ⟨#v[0, 1, 1, BitVec.ofNat 64 (hbmSite 5), 0, 0, 0, 0], 0⟩
def merging : State := (mk []).modDorzin fun d => { d with errors := [scrubbed] }

theorem witness_RepairCarvingAndPower :
    (64 * 5 < hbmSize ∧ (mk []).mem.hbmPoison.contains 5 = false ∧ (mk []).sys.health.counts = [] ∧ (mk []).sys.phys.ecc = [] ∧
      (mk []).sys.dorzin.errors = [] ∧ (merging.sys.dorzin.errors = [scrubbed] ∧ scrubbed.words[1].toNat % 2 ^ 8 = 1 ∧
        scrubbed.words[3] = BitVec.ofNat 64 (hbmSite 5) ∧ merging.sys.health.clock - scrubbed.since < 4096)) ∧
    (repairing.sys.health.laneWaits[0]? = some (BitVec.ofNat 64 (4 * 2 ^ 43)) ∧ repairing.sys.health.rowCopies[0]? = some 0 ∧
      (∀ q ∈ repairing.sys.phys.ecc, hbmSite q.1 ≠ 0) ∧
      ∀ w ∈ repairing.waves, w.core = 1 → w.quarter = 0 → repairing.placedWave w = false) ∧
    ((owned (mk [])).sys.owner.valid = true ∧ (owned (mk [])).sys.owner.owner = 1 ∧ (mk []).sys.owner.valid = false ∧
      (carved 2 false).mem.carveBusy = false ∧ (carved 2 false).mem.carveCur < 3 ∧ 1 < (carved 2 false).mem.carveCur ∧
      carvedPart.carveBlocked (512 * 1 / 22) = some 0 ∧ (carved 2 false).carveBlocked (512 * 1 / 22) = none ∧
      Cells.wf (carved 2 false).mem.carved = true ∧ (carved 2 true).mem.carveBusy = true) ∧
    ∀ rail : Fin 8, let p := { (mk []).sys.power with nominal := Vector.replicate 8 750, minimum := Vector.replicate 8 690 }
      p.locked[rail] = false ∧ p.held[rail] = false ∧ 100 * (5 * (11 + 1)) ≤ 8 * p.nominal[rail] ∧
        p.minimum[rail] + 5 * (11 + 1) ≤ p.nominal[rail] :=
  ⟨⟨by decide, by decide, rfl, rfl, rfl, rfl, by decide, rfl, by decide⟩, ⟨rfl, rfl, by decide, by decide⟩, by decide, by decide⟩

/-- Two masters claim; one partition is enabled, and another shares a bay with it; an image; a request for attestation. -/
def claims : Vector (Option Claim) 4 := #v[none, some ⟨3, 7⟩, some ⟨3, 1⟩, none]
def claiming (v : Bool) : Owner := { (mk []).sys.owner with valid := v, elect := true, owner := 1, claims := claims }
def asks (ctl : DWord) (leaf : Nat) : State :=
  { mk [] with sys := { (mk []).sys with fuses := { (mk []).sys.fuses with lmsLeaf := leaf },
                                         attest := { (mk []).sys.attest with status := 1, taken := (Vector.replicate 6 0).set 5 ctl } } }

set_option maxRecDepth 4000 in
theorem witness_OwnershipPartitionsAttestation :
    ((claiming true).valid = true ∧ (claiming true).owner = 1 ∧ (claiming true).owner ≠ 2 ∧ (claiming true).claims[(2 : Master)] = some ⟨3, 1⟩ ∧
      (claiming true).claims[(3 : Master)] = none ∧ (claiming false).elect = true ∧ (claiming false).claims[(1 : Master)] = some ⟨3, 7⟩ ∧
      (∀ (n : Master) (x : Claim), (claiming false).claims[n] = some x → x.prio < 3 ∨ (x.prio = 3 ∧ 1 ≤ n)) ∧
      (Vector.replicate 4 (none : Option Claim)).toList.any Option.isSome = false) ∧
    ((mk []).sys.parts[(0 : Fin 8)].enabled = true ∧ (mk []).sys.parts[(1 : Fin 8)].enabled = false ∧ (mk []).sys.parts[(0 : Fin 8)].bays &&& 1 ≠ 0 ∧
      (∃ c ∈ (mk []).sys.contexts, c.part = (0 : Fin 8).val) ∧ (∀ c ∈ (mk []).sys.contexts, c.part ≠ (1 : Fin 8).val) ∧
      -- a new partition that no rule forbids
      ((2#8 : BitVec 8) ≠ 0 ∧ (mk []).sys.parts[(0 : Fin 8)].bays &&& 2#8 = 0 ∧ 0xFFFFFF / 2 ^ 12 ≠ 0 ∧
        ∀ a ∈ (mk []).sys.parts[(0 : Fin 8)].mem.toList, rangesMeet a 0 = false) ∧
      (mk []).sys.rst.recovery = false ∧ (mk []).sys.fuses.version ≤ 1) ∧
    ((mk []).sys.attest.status ≠ 1 ∧ (asks 0x300000 0).sys.attest.status = 1 ∧
      (asks 0x300000 0).sys.attest.taken[5].toNat / 2 ^ 20 % 4 = 3 ∧ (asks 0x200000 0).sys.attest.taken[5].toNat / 2 ^ 20 % 4 = 2 ∧
      (asks 0x200000 0).sys.attest.taken[5].toNat / 2 ^ 22 = 0 ∧ 2 ^ 20 ≤ (asks 0x200000 (2 ^ 20)).sys.fuses.lmsLeaf) := by
  refine ⟨⟨rfl, rfl, by decide, rfl, rfl, rfl, rfl, ?_, rfl⟩,
    ⟨rfl, rfl, by decide, ⟨_, List.mem_singleton_self _, rfl⟩, List.forall_mem_singleton.mpr (by decide), ⟨by decide, by decide, by decide, fun a h => by rw [List.eq_of_mem_replicate (h : a ∈ List.replicate 4 _)]; rfl⟩, rfl, by decide⟩,
    ⟨by decide, rfl, by decide, by decide, by decide, by decide⟩⟩
  intro n x h
  match n, h with
  | 0, h => cases h
  | 1, h => cases h; decide
  | 2, h => cases h; decide
  | 3, h => cases h

/-- An acknowledged request, an admitted read, and one that is not admitted. -/
def fabRead (tag : Nat) : FabReq := ⟨5, 2, tag, 0, 0, 2 ^ 30 + 0x40, .read 4, false⟩
def admitting : Partition := { (mk []).sys.parts[0] with imports := [(0, BitVec.ofNat 64 (2 ^ 63 + 5 * 2 ^ 48 + 2 * 2 ^ 40))] }
def linked (mask : BitVec 24) (s : State) : State :=
  { ready_ s with sys := { (ready_ s).sys with rst := { (ready_ s).sys.rst with linkup := mask } } }
def fabric (k : Links → Links) : State :=
  let s := linked 1 (mk [sw])
  { s with sys := { s.sys with parts := s.sys.parts.set 0 admitting, links := k s.sys.links } }
def rem (dev : Option Nat) : Remote := ⟨none, none, 7, dev, 0, 0, .read 4, 0, .s, 0, [0], 0, false, none, none⟩

/-- A write of device 5's memory that no instruction waits for. -/
def postedWrite : Remote := ⟨none, none, 7, some 5, 0, 0, .write [some 1], noWave, .s, 0, [], 0, false, none, some (0, 0)⟩

/-- The aperture is on and leads to the slot's page; a read of the host waits for its completion. -/
def aperture (cfg : Nat) : State :=
  let s := ready_ (owned (mk []))
  { s with sys := { s.sys with links := { s.sys.links with aperCfg := BitVec.ofNat 64 cfg, aperBase := BitVec.ofNat 64 (2 ^ 30) } } }
def on : Nat := 3 * 2 ^ 62

theorem witness_RegistersAndHostLink :
    ((owned (mk [])).sys.owner.owner = 1 ∧ (mk []).sys.parts[(0 : Fin 8)].enabled = true ∧ (mk []).sys.parts[(1 : Fin 8)].enabled = false ∧
      (mk []).sys.parts[(1 : Fin 8)].stagedWords 3 = (0, 0, 0) ∧ (0xF00000001#64 : DWord).getLsbD 63 = false) ∧
    (((aperture on).sys.rst.memReady = true ∧ (aperture on).sys.links.aperCfg.getLsbD 63 = true ∧
        (aperture on).sys.links.aperCfg.getLsbD 62 = true ∧ (aperture (2 ^ 63)).sys.links.aperCfg.getLsbD 62 = false) ∧
      (2 ^ 30 + 0x40 = (aperture on).sys.links.aperBase.toNat + 0x40 ∧ 0x40 + 4 ≤ 2 ^ 36 ∧ (2 ^ 30 + 0x40) / 64 = (2 ^ 30 + 0x40 + 3) / 64) ∧
      (∃ u, (aperture on).request 0 0 (2 ^ 30 + 0x40) reading = .ok (.hbm (2 ^ 30 + 0x40), u) ∧ (∀ c, u.gathersNone c) ∧
        u.mem.counted? (.hbm (2 ^ 30 + 0x40)) = none) ∧
      (∃ u, (aperture on).request 0 0 (2 ^ 30 + 0x40) writing = .ok (.hbm (2 ^ 30 + 0x40), u) ∧ (∀ c, u.gathersNone c) ∧
        u.mem.counted? (.hbm (2 ^ 30 + 0x40)) = none ∧ u.mem.wf = true ∧ u.sys.phys.ecc = [])) ∧
    ([rem none].find? (fun y => y.tag == 7 && y.reply.isNone && y.dev.isNone == true) = some (rem none) ∧ (rem none).op = .read [1, 2, 3, 4].length ∧
      (rem none).lanes ≠ []) ∧
    5 ∉ (mk []).sys.links.unmasked ∧ (aperture on).sys.rst.fwOk = true :=
  ⟨⟨rfl, rfl, rfl, rfl, rfl⟩, ⟨by decide, by decide, ⟨_, rfl, gathersNone_reset _ (by decide), by decide⟩,
    ⟨_, rfl, gathersNone_reset _ (by decide), by decide, by decide, rfl⟩⟩, by decide, by decide, rfl⟩

set_option maxRecDepth 4000 in
theorem witness_ResetsAndBringUp :
    (mk [sw]).sys.rst.romDone = false ∧ (ready_ (mk [sw])).sys.rst.romDone = true ∧
    ((owned (mk [])).sys.owner.valid = true ∧ (owned (mk [])).sys.owner.owner = 1 ∧ (mk []).sys.owner.valid = false) ∧
    (State.reset.sys.rst.fwOk = false ∧ State.reset.sys.rst.recovery = false ∧ State.reset.sys.rst.warmLast = false ∧
      State.reset.sys.fuses.version ≤ 1) ∧
    (({ (ready_ (mk [])).sys.rst with memReady := false } : Rst).fwOk = true ∧ ({ (ready_ (mk [])).sys.rst with memReady := false } : Rst).memReady = false) ∧
    (∀ e ∈ State.reset.sys.fuses.repoint, e.getLsbD 61 = true) ∧
    ((∀ c ∈ (mk [sw]).cores, c.l1 = []) ∧ ∀ x ∈ (mk [sw]).mem.llc, x.rc = none) :=
  ⟨by decide, by decide, by decide, by decide, by decide, List.forall_mem_nil _, by decide⟩

/-! ## Witnesses: encodings, steps, memory -/

theorem witness_DecodeOfEncode : (Instr.sadd 5 5 (.imm (-5))).wf = true ∧ encode (.sadd 5 5 (.imm (-5))) ≠ [] := by decide

/-- SADD s3, s1, s2, or FFMA.f64 of R186's kind, stands where the machine fetches. -/
def fetched (nbits w : Nat) : State := State.reset.withFetchWord nbits w
def fetchedS : State := fetched 32 0x00304200
def fetchedL : State := fetched 96 (0x20F8C040 + 0x0401A020 * 2 ^ 32 + 0x04000000 * 2 ^ 64)

/-- One word of code is fetched in state x: it stands in HBM, in a section, unpoisoned, and x goes on as y. -/
def gets (x y : State) (w : Wave) (a : Nat) (sec : Nat × Nat) (word : Nat) : Prop :=
  sec.1 ≤ a ∧ a + 4 ≤ sec.1 + sec.2 ∧ a < 2 ^ 56 ∧ x.sys.phys.icache = [] ∧
    ∃ pl, x.request (x.viaOf w).part (x.viaOf w).asid a fetching = .ok (pl, y) ∧ pl.near = true ∧ y.mem.poisoned pl = false ∧
      word = numLE ((List.range 4).map fun b => y.mem.byte (pl.add b))

theorem gets_of (x y : State) (w : Wave) (a : Nat) (sec : Nat × Nat) (word : Nat)
    (hs : sec.1 ≤ a ∧ a + 4 ≤ sec.1 + sec.2 ∧ a < 2 ^ 56 ∧ x.sys.phys.icache = [])
    (hr : x.request (x.viaOf w).part (x.viaOf w).asid a fetching = .ok (.hbm a, y)) (hp : y.mem.poisoned (.hbm a) = false)
    (hw : word = numLE ((List.range 4).map fun b => y.mem.byte ((Loc.hbm a).add b))) : gets x y w a sec word :=
  ⟨hs.1, hs.2.1, hs.2.2.1, hs.2.2.2, _, hr, rfl, hp, hw⟩

set_option maxRecDepth 4000 in
theorem witness_StepRunsDecoded_scalar :
    fetchedS.agenda = [.sStream 0] ∧ fetchedS.waves[0]? = some (slotWave 0 0 false false 0) ∧
    fetchedS.runs (slotWave 0 0 false false 0) = true ∧ fetchedS.sys.power.trip = false ∧ sw.ss.parkS = none ∧ sw.ss.yieldN = 0 ∧
    sw.priv.held = [] ∧ sw.priv.handler = false ∧ sw.ss.yielded = none ∧ sw.ss.acquire = none ∧
    fetchedS.setHeld 0 (slotWave 0 0 false false 0) = false ∧
    (∃ u, gets { fetchedS with agenda := [], cur := (0, .a), pfx := Pfx.none } u (slotWave 0 0 false false 0) (2 ^ 30)
        (fetchedS.scalarSection (slotWave 0 0 false false 0)) 0x00304200 ∧ u.sys.links.remotes = []) ∧
    decode [0x00304200] = .ok (.sadd 3 1 (.reg 2)) ∧ 0x00304200 / 2 ^ 26 = 0 :=
  ⟨rfl, rfl, by decide, rfl, rfl, rfl, rfl, rfl, rfl, rfl, by decide, ⟨_, gets_of _ _ _ _ _ _ (by decide) rfl (by decide) (by decide), rfl⟩,
    by rfl, by decide⟩

set_option maxRecDepth 4000 in
theorem witness_StepRunsDecoded_lane :
    fetchedL.agenda = [.lStream 0 .a] ∧ fetchedL.waves[0]? = some lw ∧ fetchedL.runs lw = true ∧ lw.ls.blk.phase = .ready ∧
    lw.ls.parkHolds .a = false ∧ lw.ls.away .a = false ∧ lw.ls.side? .a = some side ∧ side.st = .running ∧ side.mask ≠ 0 ∧
    lw.ls.full = false ∧ lw.ls.yields .a = false ∧
    (∃ u u1 u2, gets { fetchedL with agenda := [], cur := (0, .a) } u lw side.pc (fetchedL.laneSection lw) 0x20F8C040 ∧
      gets u u1 lw (side.pc + 4) (fetchedL.laneSection lw) 0x0401A020 ∧
      gets u1 u2 lw (side.pc + 8) (fetchedL.laneSection lw) 0x04000000 ∧ u2.sys.links.remotes = []) ∧
    decode [0x20F8C040, 0x0401A020, 0x04000000] = .ok (.ffma { ctl with stall := 3, wt := true } .f64 .rne (.v 8) (.v 6) (.t 1) (.v 8)) :=
  ⟨rfl, rfl, by decide, rfl, rfl, by decide, rfl, rfl, by decide, by decide, by decide,
    ⟨_, _, _, gets_of _ _ _ _ _ _ (by decide) rfl (by decide) (by decide), gets_of _ _ _ _ _ _ (by decide) rfl (by decide) (by decide),
      gets_of _ _ _ _ _ _ (by decide) rfl (by decide) (by decide), rfl⟩, by rfl⟩

/-- No slice has failed, or one has; a step of the device stands on the agenda. -/
theorem witness_StepRunsDecoded_device :
    State.reset.sys.phys.slices = [] ∧ (State.reset.modPhys fun p => { p with slices := [3] }).sys.phys.slices ≠ [] ∧
    ({ State.reset with agenda := [.event .powerOn] } : State).agenda = .event .powerOn :: [] := ⟨rfl, List.cons_ne_nil _ _, rfl⟩

theorem witness_MemoryKeepsItsForm : Mem.reset.wf = true ∧ (Loc.hbm 5).near = true ∧ Mem.reset.counted? (.hbm 5) = none ∧ Loc.hbm 6 ≠ .hbm 5 := by
  decide

theorem witness_StepsKeepInvariant : State.reset.inv = true ∧ ∃ t, step State.reset = .next t := ⟨by decide, _, rfl⟩

/-! ## Witnesses: collectives, whose address space is a free value -/

/-- A machine without cores or cached lines in which partition 0 has its memory and address space `a` the slot's page. Its one collective is
an all-reduce of one I32 element with a sealed mask: group at 0, SRC at 0x100, DST at 0x140 and completion area at 0x180 of the page;
the ring of records is at 0x1000 of it. -/
def collLeaves (a : Nat) : List Leaf := (List.range 384).map fun c => ⟨c, 0, a, 1, true, 0x4000000F#64⟩
def collRecord : List Byte :=
  [0, 0x10, 0, 0, 0, 0, 0, 0] ++ [1, 0, 0, 0, 0, 0, 0, 0] ++ bytesLE 8 (2 ^ 30) ++ bytesLE 8 (2 ^ 30 + 0x100) ++ bytesLE 8 (2 ^ 30 + 0x140) ++
    bytesLE 8 (2 ^ 30 + 0x180) ++ List.replicate 80 0
def coll (record : List Byte) : Coll := ⟨0, record, true, none, false, false, 0⟩
def collParts : List (Nat × List Byte) := [(0, []), (1, [1, 0, 0, 0])]
def collState (a : Nat) (h : Mem) (l : List Coll) : State :=
  { mk [] with
    cores := [], mem := { h with leaves := collLeaves a, llc := [] },
    sys := { (mk []).sys with
      parts := (mk []).sys.parts.set 0 { (mk []).sys.parts[0] with ways := 0, collRing := 0x0400000040001000#64 },
      links := { (mk []).sys.links with colls := l } } }
/-- The group's size is 2, this device is its rank 0, and its number 0; SRC holds 5; one record stands on the ring. -/
def collMem : Mem := { Mem.reset with hbm := [(2 ^ 30, 2), (2 ^ 30 + 10, 1), (2 ^ 30 + 0x100, 5), (2 ^ 30 + 0x1040, 1)] }

theorem coll_fill (a : Nat) (h : Mem) (l : List Coll) (va : Nat) (k : Kindly) (secs : BitVec 4) :
    (collState a h l).fill 0 a va (.hbm va) k secs = .ok (collState a h l) := by
  have hw : (collState a h l).allowedWays 0 (sliceOf va) false = [] := by
    refine List.filter_eq_nil_iff.mpr fun w _ => ?_
    show ¬(((0#24).getLsbD w && _ && _ && _) = true)
    simp
  have ha : (collState a h l).allocate 0 a va (.hbm va) k.retention none [] [] 0 0 = collState a h l := by
    unfold State.allocate
    simp only [Option.isSome_none, hw]
    rfl
  show Except.ok (((collState a h l).allocate 0 a va (.hbm va) k.retention none [] [] 0 0).fetchSectors (.hbm va) secs) = _
  rw [ha]
  rfl

theorem coll_cached (a : Nat) (h : Mem) (l : List Coll) (va : Nat) (hv : va / 2 ^ 30 = 1) :
    (collState a h l).mem.cached 0 a va = some (0x4000000F, true) := by
  have hc : channelOf va < 384 := by unfold channelOf sliceOf; omega
  show ((collLeaves a).find? _).map _ = _
  unfold collLeaves
  rw [List.find?_map]
  cases hf : (List.range 384).find? ((fun x : Leaf => x.chan == channelOf va && x.part == 0 && x.asid == a &&
      if x.big then x.page == va / 2 ^ 30 else x.page == va / 2 ^ 21) ∘ fun c => ⟨c, 0, a, 1, true, 0x4000000F#64⟩) with
  | none =>
    refine absurd ?_ (List.find?_eq_none.mp hf (channelOf va) (List.mem_range.mpr hc))
    show (channelOf va == channelOf va && (0 : Nat) == 0 && a == a && (1 : Nat) == va / 2 ^ 30) = true
    rw [hv]
    simp
  | some c => rfl

theorem coll_request (a : Nat) (h : Mem) (l : List Coll) (va : Nat) (k : Kindly) (hv : va / 2 ^ 30 = 1)
    (hp : (collState a h l).placeOf 0 va k 0x4000000F true = .ok (.hbm va)) :
    (collState a h l).request 0 a va k = .ok (.hbm va, collState a h l) := by
  have hc := coll_cached a h l va hv
  simp only [State.request, State.requestLine, State.translate, State.leafOf, State.keepLeaf, hc, hp, coll_fill]

theorem coll_reach (a : Nat) (h : Mem) (l : List Coll) (va n : Nat) (k : Kindly) (hs : sectors va n = [va / 64]) (hv : va / 2 ^ 30 = 1)
    (hm : max va (64 * (va / 64)) = va)
    (hp : (collState a h l).placeOf 0 va k 0x4000000F true = .ok (.hbm va)) :
    State.homeReach 0 a va n k (collState a h l) = .ok (collState a h l, [(va, .hbm va)]) := by
  have hb : addrBad va = false := by simp only [addrBad, decide_eq_false_iff_not]; omega
  unfold State.homeReach
  simp only [hs, List.foldl_cons, List.foldl_nil, hm, hb, coll_request a h l va k hv hp]
  rfl

theorem coll_read (h : Mem) (l : List Coll) (va n : Nat) (bs : List Byte) (hs : sectors va n = [va / 64]) (hv : va / 2 ^ 30 = 1)
    (hm : max va (64 * (va / 64)) = va)
    (hp : (collState (Config.collAsid 0) h l).placeOf 0 va reading 0x4000000F true = .ok (.hbm va))
    (hb : (collState (Config.collAsid 0) h l).homeBytes [(va, .hbm va)] va n = bs)
    (hq : (collState (Config.collAsid 0) h l).homePoison [(va, .hbm va)] = false) :
    (collState (Config.collAsid 0) h l).collRead 0 va n = .ok (collState (Config.collAsid 0) h l) bs false := by
  unfold State.collRead
  simp only [coll_reach _ h l va n reading hs hv hm hp, hb, hq]
  rfl

theorem coll_reach_two (a : Nat) (h : Mem) (l : List Coll) (va n : Nat) (k : Kindly) (hs : sectors va n = [va / 64, va / 64 + 1])
    (hv : va / 2 ^ 30 = 1) (hw : (va + 64) / 2 ^ 30 = 1) (hm : va % 64 = 0)
    (hp : (collState a h l).placeOf 0 va k 0x4000000F true = .ok (.hbm va))
    (hp' : (collState a h l).placeOf 0 (va + 64) k 0x4000000F true = .ok (.hbm (va + 64))) :
    State.homeReach 0 a va n k (collState a h l) = .ok (collState a h l, [(va, .hbm va), (va + 64, .hbm (va + 64))]) := by
  have hb : addrBad va = false := by simp only [addrBad, decide_eq_false_iff_not]; omega
  have hb' : addrBad (va + 64) = false := by simp only [addrBad, decide_eq_false_iff_not]; omega
  have h1 : max va (64 * (va / 64)) = va := by omega
  have h2 : max va (64 * (va / 64 + 1)) = va + 64 := by omega
  have hr (p : Loc) : (collState a h l).recallGathers p = collState a h l := rfl
  unfold State.homeReach
  simp only [hs, List.foldl_cons, List.foldl_nil, h1, h2, hb, hb', coll_request a h l va k hv hp, hr,
    Bool.false_eq_true, if_false, coll_request a h l (va + 64) k hw hp', List.nil_append, List.cons_append]

theorem coll_put (l : List Leaf) (at_ : Nat × Byte → Nat) (ov : Overlay) : ∀ h : Mem, ∃ h' : Mem,
    ov.foldl (fun y e => y.putByte (.hbm (at_ e)) e.2) { h with leaves := l, llc := [] } = { h' with leaves := l, llc := [] } := by
  induction ov with
  | nil => exact fun h => ⟨h, rfl⟩
  | cons e ov ih => exact fun h => ih { h with hbm := cellPut h.hbm (at_ e) e.2 }

theorem coll_mark (l : List Leaf) (at_ : Nat → Nat) (bad : Nat → Bool) (ks : List Nat) : ∀ h : Mem, ∃ h' : Mem,
    ks.foldl (fun y k => y.setPoison (.hbm (at_ k)) (bad k)) { h with leaves := l, llc := [] } = { h' with leaves := l, llc := [] } := by
  induction ks with
  | nil => exact fun h => ⟨h, rfl⟩
  | cons k ks ih => exact fun h => ih { h with hbmPoison := putIn h.hbmPoison (at_ k / 64) (bad k) }

/-- What is written at the home slices changes memory alone. -/
theorem coll_store (a : Nat) (l : List Coll) (v : Via) (x : Nat) (ov : Overlay) (p : List Nat) (h : Mem) :
    ∃ h', (collState a h l).homeWrite v (.hbm x) ov p = collState a h' l := by
  cases ov with
  | nil => exact ⟨h, rfl⟩
  | cons e ov =>
    have hf (sel : L1Line → Bool) : (collState a h l).flush v.core sel = collState a h l := by
      unfold State.flush
      have : (collState a h l).cores[v.core]? = none := rfl
      rw [this]
    have hr (q : Loc) : (collState a h l).recallGathers q = collState a h l := rfl
    unfold State.homeWrite
    simp only [hf, hr]
    obtain ⟨h1, e1⟩ := coll_put (collLeaves a) (fun e => x / 256 * 256 + e.1 % 256) (e :: ov) h
    obtain ⟨h2, e2⟩ := coll_mark (collLeaves a) (fun k => x / 256 * 256 + k % 4 * 64)
      (fun k => p.contains k || (!(fullSectors (e :: ov)).contains k &&
        (collState a h l).mem.poisoned ((Loc.hbm (x / 256 * 256)).add (k % 4 * 64)))) (dedup ((e :: ov).map fun e => e.1 / 64)) h1
    refine ⟨h2, ?_⟩
    have e3 : (collState a h l).home (.hbm (x / 256 * 256)) (e :: ov) p = { collState a h l with
        mem := (((dedup ((e :: ov).map fun (e : Nat × Byte) => e.1 / 64)).foldl (fun (y : Mem) k => y.setPoison (.hbm (x / 256 * 256 + k % 4 * 64))
            (p.contains k || (!(fullSectors (e :: ov)).contains k &&
              (collState a h l).mem.poisoned ((Loc.hbm (x / 256 * 256)).add (k % 4 * 64)))))
          ((e :: ov).foldl (fun (y : Mem) (e : Nat × Byte) => y.putByte (.hbm (x / 256 * 256 + e.1 % 256)) e.2)
            { h with leaves := collLeaves a, llc := [] })).take
            (.hbm (x / 256 * 256)) (secMask (e :: ov)) true) } := rfl
    rw [e1, e2] at e3
    exact e3

/-- What is written to places in HBM changes memory alone. -/
theorem coll_puts (a : Nat) (l : List Coll) (va : Nat) (bs : List Byte) (ps : List (Nat × Nat)) : ∀ h : Mem, ∃ h',
    (collState a h l).homeStore 0 a va (ps.map fun e => (e.1, .hbm e.2)) bs false = collState a h' l := by
  unfold State.homeStore State.homePut
  generalize enabled va _ = ov
  induction ps with
  | nil => exact fun h => ⟨h, rfl⟩
  | cons e ps ih =>
    intro h
    obtain ⟨g, hg⟩ := coll_store a l ((collState a h l).viaNone 0 a) (e.2 / 256 * 256) (ov.filter fun b => b.1 / 64 == e.1 / 64) [] h
    obtain ⟨g', hg'⟩ := ih g
    refine ⟨g', ?_⟩
    rw [← hg', ← hg]
    rfl

/-- The completion of the collective: its mask and its status word can be written. -/
theorem coll_ends (h : Mem) (l : List Coll) (mask : List Byte) :
    ∃ u1 ps u2 qs, State.homeReach 0 (Config.collAsid 0) (2 ^ 30 + 0x1C0) 128 writing (collState (Config.collAsid 0) h l) = .ok (u1, ps) ∧
      State.homeReach 0 (Config.collAsid 0) (2 ^ 30 + 0x180) 8 writing
        (u1.homeStore 0 (Config.collAsid 0) (2 ^ 30 + 0x1C0) ps mask false) = .ok (u2, qs) := by
  obtain ⟨g, hg⟩ := coll_puts (Config.collAsid 0) l (2 ^ 30 + 0x1C0) mask
    [(2 ^ 30 + 0x1C0, 2 ^ 30 + 0x1C0), (2 ^ 30 + 0x1C0 + 64, 2 ^ 30 + 0x1C0 + 64)] h
  exact ⟨_, _, _, _, coll_reach_two _ h l (2 ^ 30 + 0x1C0) 128 writing (by decide) (by decide) (by decide) (by decide) rfl rfl, by
    simp only [List.map_cons, List.map_nil] at hg
    rw [hg]
    exact coll_reach _ g l (2 ^ 30 + 0x180) 8 writing (by decide) (by decide) (by decide) rfl⟩

set_option maxRecDepth 8000 in
theorem witness_FabricAndCollectives :
    ((fabric id).sys.rst.linkup ≠ 0 ∧ (fabric id).sys.rst.memReady = true ∧
      (fabric fun k => { k with kept := [(5, 9, .done)] }).sys.links.kept.find? (fun y => y.1 == 5 && y.2.1 == 9) = some (5, 9, .done) ∧
      (fabric id).sys.links.kept.find? (fun y => y.1 == 5 && y.2.1 == 9) = none ∧ (fabric id).sys.parts.toList[0]? = some admitting ∧
      (∃ y ∈ admitting.imports, y.2.getLsbD 63 = true ∧ y.2.toNat / 2 ^ 48 % 2 ^ 10 = 5 ∧ y.2.toNat / 2 ^ 40 % 8 = 2 ∧ y.2.toNat % 2 ^ 16 = 0) ∧
      (¬ ∃ y ∈ (mk []).sys.parts[0].imports, y.2.getLsbD 63 = true) ∧
      (∃ u, (fabric id).request 0 0 (2 ^ 30 + 0x40) reading = .ok (.hbm (2 ^ 30 + 0x40), u) ∧ (∀ c, u.gathersNone c) ∧
        u.mem.counted? (.hbm (2 ^ 30 + 0x40)) = none)) ∧
    ([rem (some 5)].find? (fun y => y.tag == 7 && y.reply.isNone && y.dev.isNone == false) = some (rem (some 5)) ∧
      replyFits (.read 4) (.data [1, 2, 3, 4] false) = true ∧ (rem (some 5)).posted = false ∧ (rem (some 5)).aperture = false ∧
      postedWrite.posted = true ∧ replyFits postedWrite.op .done = true ∧ postedWrite.reply = none) ∧
    (fabric id).ringHeld 0 (2 ^ 30 + 0x1000) = false ∧
    ((fabric id).sys.rst.linkup.getLsbD (0 : Fin 24).val = true ∧ (fabric id).sys.rst.linkup.getLsbD (1 : Fin 24).val = false ∧
      (fabric id).sys.rst.fwOk = true ∧ (fabric id).sys.links.retries[(0 : Fin 24)] < 15 ∧
      15 ≤ (fabric fun k => { k with retries := Vector.replicate 24 15 }).sys.links.retries[(0 : Fin 24)] ∧
      (linked 0 (mk [])).sys.links.route 5 &&& (linked 0 (mk [])).sys.rst.linkup = 0) ∧
    ((collState 0 collMem []).sys.parts[(0 : Fin 8)].ring = some ⟨2 ^ 30 + 0x1000, 4, false⟩) ∧
    ((coll (List.replicate 128 0)).fieldsOk = false ∧ (coll collRecord).fieldsOk = true ∧ (coll collRecord).kind = some .i32 ∧
      (coll collRecord).op = 0 ∧ ({ coll (collRecord.set 56 20) with sealed := false } : Coll).tmo ≠ 0 ∧
      (coll (collRecord.set 56 20)).since + 2 ^ (coll (collRecord.set 56 20)).tmo ≤
        ({ (mk []).sys.health with clock := 2 ^ 20 } : Health).clock) := by
  refine ⟨⟨by decide, rfl, rfl, rfl, rfl, ⟨_, List.mem_singleton_self _, by decide⟩, by decide, ⟨_, rfl, gathersNone_reset _ (by decide), by decide⟩⟩,
    by decide, by decide, ⟨by decide, by decide, rfl, by decide, by decide, by decide⟩, by decide, by decide⟩

/-- The collective completes: each of its reads and writes succeeds. -/
theorem witness_collective_fields :
    let c := coll collRecord
    c.word 2 = 2 ^ 30 ∧ c.word 3 = 2 ^ 30 + 0x100 ∧ c.word 4 = 2 ^ 30 + 0x140 ∧ c.word 5 = 2 ^ 30 + 0x180 ∧ c.part = 0 ∧ c.count = 1 ∧
    c.groupOk 0 (groupOf [0, 0, 1, 0]) 0 = true ∧ c.partsOk 2 0 collParts = true ∧ (byRank 2 collParts).map (fun e => e.1) = [0, 1] ∧
    (collState 0 collMem [c]).maskOk c (groupOf [0, 0, 1, 0]) 0 [0, 1] = true := by
  decide

theorem witness_Collective (l : List Coll) :
    let s := collState (Config.collAsid 0) collMem l
    s.collRead 0 (2 ^ 30) 8 = .ok s [2, 0, 0, 0, 0, 0, 0, 0] false ∧ s.collRead 0 (2 ^ 30 + 8) 4 = .ok s [0, 0, 1, 0] false ∧
    s.collRead 0 (2 ^ 30 + 0x100) 4 = .ok s [5, 0, 0, 0] false ∧
    State.homeReach 0 (Config.collAsid 0) (2 ^ 30 + 0x140) 4 writing s = .ok (s, [(2 ^ 30 + 0x140, .hbm (2 ^ 30 + 0x140))]) :=
  ⟨coll_read _ _ (2 ^ 30) 8 _ (by decide) (by decide) (by decide) rfl rfl rfl,
    coll_read _ _ (2 ^ 30 + 8) 4 _ (by decide) (by decide) (by decide) rfl rfl rfl,
    coll_read _ _ (2 ^ 30 + 0x100) 4 _ (by decide) (by decide) (by decide) rfl rfl rfl,
    coll_reach _ _ _ (2 ^ 30 + 0x140) 4 writing (by decide) (by decide) (by decide) rfl⟩

/-- What it writes: the sum 6, its mask and its status word. -/
theorem witness_Collective_writes (l : List Coll) : ∃ g u1 ps u2 qs,
    (collState (Config.collAsid 0) collMem l).homeStore 0 (Config.collAsid 0) (2 ^ 30 + 0x140) [(2 ^ 30 + 0x140, .hbm (2 ^ 30 + 0x140))]
      [6, 0, 0, 0] false = collState (Config.collAsid 0) g l ∧
    State.homeReach 0 (Config.collAsid 0) (2 ^ 30 + 0x1C0) 128 writing (collState (Config.collAsid 0) g l) = .ok (u1, ps) ∧
    State.homeReach 0 (Config.collAsid 0) (2 ^ 30 + 0x180) 8 writing
      (u1.homeStore 0 (Config.collAsid 0) (2 ^ 30 + 0x1C0) ps (bytesLE 128 3) false) = .ok (u2, qs) := by
  obtain ⟨g, hg⟩ := coll_puts (Config.collAsid 0) l (2 ^ 30 + 0x140) [6, 0, 0, 0] [(2 ^ 30 + 0x140, 2 ^ 30 + 0x140)] collMem
  exact ⟨g, (coll_ends g l (bytesLE 128 3)).imp fun u1 h => h.imp fun ps h => h.imp fun u2 h => h.imp fun qs h => ⟨hg, h⟩⟩

theorem coll_hodRead (a : Nat) (h : Mem) (l : List Coll) (k : Asker) (va n : Nat) (hv : va / 2 ^ 30 = 1)
    (hp : (collState a h l).placeOf 0 va reading 0x4000000F true = .ok (.hbm va)) :
    ∃ bs bad, (collState a h l).hodRead k ⟨0, a, 0⟩ va n = .ok (collState a h l, bs, bad) ∧
      bs = ((List.range n).map fun i => (collState a h l).mem.byte ((Loc.hbm va).add i)) ∧
      bad = (sectors va n).any fun q => (collState a h l).mem.poisoned ((Loc.hbm va).add (max va (64 * q) - va)) := by
  refine ⟨_, _, ?_, rfl, rfl⟩
  have hr : (collState a h l).requestLine 0 a va reading (secsAt va n) = .ok (.hbm va, collState a h l) := by
    have hc := coll_cached a h l va hv
    simp only [State.requestLine, State.translate, State.leafOf, State.keepLeaf, hc, hp, coll_fill]
  unfold State.hodRead
  simp only [hr]
  rfl

theorem coll_word (a : Nat) (h : Mem) (l : List Coll) (k : Asker) (va n : Nat) (hv : va / 2 ^ 30 = 1)
    (hp : (collState a h l).placeOf 0 va reading 0x4000000F true = .ok (.hbm va))
    (hn : numLE ((List.range 8).map fun i => (collState a h l).mem.byte ((Loc.hbm va).add i)) = n) :
    (collState a h l).hodWord k ⟨0, a, 0⟩ va = .ok (collState a h l, n) := by
  obtain ⟨bs, bad, h1, h2, -⟩ := coll_hodRead a h l k va 8 hv hp
  unfold State.hodWord
  rw [h1, ← hn, ← h2]
  rfl

/-- The oldest record of the ring is taken. -/
theorem witness_Collective_take : ∃ u at_ bs,
    (collState (Config.collAsid 0) collMem []).hodTake (collAsker 0) ⟨0, Config.collAsid 0, 0⟩ ⟨2 ^ 30 + 0x1000, 4, false⟩ =
      .ok (u, some (at_, bs, false)) := by
  have h1 := coll_word (Config.collAsid 0) collMem [] (collAsker 0) (2 ^ 30 + 0x1080) 0 (by decide) (by rfl) (by decide)
  have h2 := coll_word (Config.collAsid 0) collMem [] (collAsker 0) (2 ^ 30 + 0x1040) 1 (by decide) (by rfl) (by decide)
  obtain ⟨bs, bad, h3, hbs, hbad⟩ := coll_hodRead (Config.collAsid 0) collMem [] (collAsker 0) (2 ^ 30 + 0x2000) 128 (by decide) (by rfl)
  have hb : bad = false := hbad.trans (by decide)
  have h4 := coll_request (Config.collAsid 0) collMem [] (2 ^ 30 + 0x1080) writing (by decide) (by rfl)
  have e1 : 2 ^ 30 + 0x1000 + 0x80 = 2 ^ 30 + 0x1080 := rfl
  have e2 : 2 ^ 30 + 0x1000 + 0x40 = 2 ^ 30 + 0x1040 := rfl
  have e3 : hodSlot ⟨2 ^ 30 + 0x1000, 4, false⟩ 0 = 2 ^ 30 + 0x2000 := rfl
  have e4 : hodSize ⟨2 ^ 30 + 0x1000, 4, false⟩ = 128 := rfl
  have ha : ∃ z, (collState (Config.collAsid 0) collMem []).hodAtomic (collAsker 0) ⟨0, Config.collAsid 0, 0⟩ (2 ^ 30 + 0x1080) (.cas true)
      (BitVec.ofNat 64 0) (BitVec.ofNat 64 (0 + 1)) = .ok (z, 0) := by
    refine ⟨(collState (Config.collAsid 0) collMem []).homeWrite ⟨0, Config.collAsid 0, 0⟩ (Loc.hbm (2 ^ 30 + 0x1080)).line
      (ovWrite [] (2 ^ 30 + 0x1080) (bytesLE 8 (atomNew (.cas true) 0 0 1))) [], ?_⟩
    unfold State.hodAtomic
    simp only [h4]
    rfl
  obtain ⟨z, hz⟩ := ha
  refine ⟨z.dropAsked (collAsker 0), 2 ^ 30 + 0x2000, bs, ?_⟩
  unfold State.hodTake
  simp only [bind, Except.bind, e1, e2, e3, e4, h1, h2, h3, hz, hb]
  rfl

/-! ## Decoding: words written out field by field from the tables of the spec -/

/-- A word of fields, each with its lowest bit and its value. -/
def word (fields : List (Nat × Nat)) : Nat := fields.foldl (fun n f => n + f.2 * 2 ^ f.1) 0

/-- Format SR of R132: rb and lo hold an immediate's upper and lower bits where I is 1. -/
def fSR (op rd ra rb i sub lo : Nat) : Nat := word [(26, op), (20, rd), (14, ra), (8, rb), (7, i), (4, sub), (0, lo)]
/-- Formats SU and SJ; SB; SM; SA; SL; SP. -/
def fSU (op rd imm : Nat) : Nat := word [(26, op), (20, rd), (0, imm)]
def fSB (op ra rb cond off : Nat) : Nat := word [(26, op), (20, ra), (14, rb), (11, cond), (0, off)]
def fSM (op rd ra ord scope sz sx off : Nat) : Nat := word [(26, op), (20, rd), (14, ra), (12, ord), (9, scope), (7, sz), (6, sx), (0, off)]
def fSA (op rd ra aop wide nr ordm ord scope : Nat) : Nat :=
  word [(26, op), (20, rd), (14, ra), (10, aop), (9, wide), (8, nr), (7, ordm), (5, ord), (2, scope)]

def decodes (nbits : Nat) (l : List (Nat × Instr)) : Bool := l.all fun e => decodeTableWord nbits e.1 == some e.2

/-- R138, R157 to R160. -/
theorem test_decode_scalar_arithmetic : decodes 32 [
    (fSR 0x00 3 1 2 0 0 0, .sadd 3 1 (.reg 2)), (fSR 0x00 3 1 0x3F 1 0 0xB, .sadd 3 1 (.imm (-5))), (fSR 0x01 63 1 2 0 0 0, .ssub 63 1 (.reg 2)),
    (fSR 0x02 3 1 2 0 0 0, .sand 3 1 (.reg 2)), (fSR 0x03 3 1 2 0 0 0, .sor 3 1 (.reg 2)), (fSR 0x04 3 1 2 0 0 0, .sxor 3 1 (.reg 2)),
    (fSR 0x05 3 1 2 0 0 0, .sshl 3 1 (.reg 2)), (fSR 0x06 3 1 2 0 0 0, .sshr 3 1 (.reg 2)), (fSR 0x06 3 1 2 0 1 0, .ssar 3 1 (.reg 2)),
    (fSR 0x07 3 1 2 0 0 0, .smul 3 1 (.reg 2)), (fSR 0x07 3 1 2 0 1 0, .smulh 3 1 (.reg 2)), (fSR 0x07 3 1 2 0 2 0, .smulhU 3 1 (.reg 2)),
    (fSR 0x08 3 1 2 0 0 0, .sdiv 3 1 (.reg 2)), (fSR 0x08 3 1 2 0 1 0, .sdivU 3 1 (.reg 2)), (fSR 0x09 3 1 2 0 0 0, .srem 3 1 (.reg 2)),
    (fSR 0x09 3 1 2 0 1 0, .sremU 3 1 (.reg 2)), (fSR 0x0A 3 1 2 0 0 0, .smin 3 1 (.reg 2)), (fSR 0x0A 3 1 2 0 1 0, .smax 3 1 (.reg 2)),
    (fSR 0x0A 3 1 2 0 2 0, .sminU 3 1 (.reg 2)), (fSR 0x0A 3 1 2 0 3 0, .smaxU 3 1 (.reg 2)), (fSR 0x0B 3 1 2 0 4 0, .scmp .ltu 3 1 (.reg 2)),
    (fSR 0x0C 3 1 2 0 0 0, .sselNz 3 1 (.reg 2)), (fSR 0x0C 3 1 2 0 1 0, .sselZ 3 1 (.reg 2)), (fSU 0x0D 3 0xFFFFF, .sli 3 0xFFFFF),
    (fSU 0x0E 3 0x80001, .slui 3 0x80001)] = true := by decide

/-- R138, R161 to R168. -/
theorem test_decode_scalar_control_and_memory : decodes 32 [
    (fSB 0x10 1 2 5 0x7FF, .sbr .geu 1 2 0x7FF), (fSU 0x11 0 0x80000, .sjmp 0x80000), (fSU 0x12 3 5, .scall 3 5), (fSR 0x13 0 9 0 0 0 0, .sret 9),
    (fSU 0x14 3 0xFFFFF, .sloop 3 0xFFFFF), (fSM 0x18 3 1 1 4 2 1 0x3F, .sld 3 1 ⟨.acq, .p⟩ .b4 true 0x3F),
    (fSM 0x19 3 1 2 1 3 0 5, .sst 3 1 ⟨.rel, .t⟩ .b8 5), (fSA 0x1A 4 1 9 1 1 1 2 3, .satom 4 1 .cas true true true ⟨.rel, .d⟩),
    (fSM 0x1B 3 1 0 0 1 1 7, .sldk 3 1 .b2 true 7), (word [(26, 0x20), (20, 8), (17, 4), (0, 0x1FFFF)], .lrun 8 4 0x1FFFF),
    (fSR 0x21 3 0 0 0 0 0, .spop 3), (fSR 0x22 0 0 0 0 0 0, .ldrain), (fSR 0x23 0 0 0 1 0 7, .regxAcq 7), (fSR 0x24 0 0 0 1 0 1, .regxRel 1),
    (word [(26, 0x3C), (0, 0x3FFFFFF)], .xim 0x3FFFFFF), (word [(26, 0x3D), (4, 0xFF), (0, 4)], .xhnt .rc 0xFF)] = true := by decide

/-- R138, R170 to R180, R308, R316. -/
theorem test_decode_scalar_system : decodes 32 [
    (fSR 0x28 0 1 2 0 0 0, .jcopyLoad 1 2 false), (fSR 0x28 0 1 2 0 5 0, .jcopyStore 1 2 true), (fSR 0x28 0 1 2 0 2 0, .jcopyAdd 1 2 false),
    (fSR 0x29 3 0 3 1 0 0xF, .jstat 3 63), (fSB 0x2A 1 2 3 0x401, .cwait 1 2 false true true 0x401), (fSB 0x2A 0 2 4 0, .cwait 0 2 true false false 0),
    (fSR 0x2B 3 1 2 0 0 0, .ctest 3 1 2 false), (fSR 0x2B 3 0 2 0 1 0, .ctest 3 0 2 true), (fSR 0x2C 3 0 0 0 0 0, .wcnt 3),
    (fSR 0x30 0 0 1 1 0 2, .rgnBeg 18), (fSR 0x30 3 0 0 0 1 0, .rgnEnd 3), (fSR 0x31 0 1 2 0 0 0, .rgnIn 1 2), (fSR 0x31 0 1 2 0 1 0, .rgnOut 1 2),
    (fSR 0x32 0 1 0 0 0 0, .bond 1), (fSR 0x33 0 0 0 1 0 0xF, .barArr 15), (fSR 0x33 3 0 0 1 1 2, .barWait 3 2), (fSR 0x34 0 0 0 1 0 3, .cbarArr 3),
    (fSR 0x34 3 0 0 1 1 1, .cbarWait 3 1), (fSR 0x36 0 0 1 1 0 0, .trap 16), (fSR 0x36 3 1 1 1 1 1, .sysc 3 1 17), (fSR 0x37 3 0 0 1 0 9, .srdx 3 9),
    (fSR 0x38 0 1 2 1 0 0, .swrx 1 32), (0xE4000000, .nop), (fSR 0x39 0 0 0x10 1 1 0, .yield 256), (fSR 0x3A 0 0 0 0 0 0, .exit),
    (fSR 0x3B 0 1 0 0 0 0, .rseed 1)] = true := by decide

/-- R140, R142: guard p7, no other control field; forms C and I. -/
def fC (op mod dest a b c imm : Nat) (ann : Nat := 0) (w0 : Nat := 0) : Nat :=
  word [(22, op), (19, 7), (0, mod), (55, dest), (46, a), (37, b), (32, ann), (87, c), (64, imm)] + w0
def fI (op mod dest a imm : Nat) : Nat := word [(22, op), (19, 7), (0, mod), (55, dest), (46, a), (37, 0x112), (64, imm)]

/-- R185 to R190: the type in w0[2:0], the entry's field in w0[5:3]; v4 is d2. -/
theorem test_decode_lane_integer : decodes 96 [
    (fC 0x000 0b001000 4 6 8 0x112 0, .iadd ctl .n32 true (.v 4) (.v 6) (.v 8)), (fI 0x040 0b000001 4 6 0xFFFFFFFF, .iaddImm ctl .i32 false (.v 4) (.v 6) 0xFFFFFFFF),
    (fC 0x001 0b000010 4 6 0x103 0x112 0, .isub ctl .n64 false (.v 4) (.v 6) (.t 3)), (fI 0x041 0b000011 4 6 7, .isubImm ctl .i64 false (.v 4) (.v 6) 7),
    (fC 0x002 0b000100 4 6 8 0x112 0, .imul ctl .n16 false (.v 4) (.v 6) (.v 8)), (fI 0x042 0b001101 4 6 7, .imulImm ctl .i16 true (.v 4) (.v 6) 7),
    (fC 0x003 1 4 0x110 0x111 0x112 0, .imulh ctl .i32 (.v 4) .lane .wave), (fI 0x043 1 4 6 7, .imulhImm ctl .i32 (.v 4) (.v 6) 7),
    (fC 0x004 0 4 6 8 10 0, .imad ctl .n32 false (.v 4) (.v 6) (.v 8) (.v 10)), (fC 0x005 8 4 6 8 0x112 0, .idiv ctl .n32 true (.v 4) (.v 6) (.v 8)),
    (fI 0x045 0 4 6 7, .idivImm ctl .n32 false (.v 4) (.v 6) 7), (fC 0x006 0b110000 4 6 8 0x112 0, .ilop ctl .n32 .nor (.v 4) (.v 6) (.v 8)),
    (fI 0x046 0b011000 4 6 7, .ilopImm ctl .n32 .andn (.v 4) (.v 6) 7), (fC 0x007 0b101000 4 6 8 0x112 0, .ishf ctl .n32 .sar true (.v 4) (.v 6) (.v 8)),
    (fI 0x047 0b110000 4 6 7, .ishfImm ctl .n32 .rol false (.v 4) (.v 6) 7), (fC 0x008 1 4 6 8 0x112 0, .imin ctl .i32 (.v 4) (.v 6) (.v 8)),
    (fI 0x048 1 4 6 7, .iminImm ctl .i32 (.v 4) (.v 6) 7), (fC 0x009 1 4 6 8 0x112 0, .imax ctl .i32 (.v 4) (.v 6) (.v 8)),
    (fI 0x049 1 4 6 7, .imaxImm ctl .i32 (.v 4) (.v 6) 7), (fC 0x00A 0b001001 4 6 0x112 0x112 0, .iabs ctl .i32 true (.v 4) (.v 6)),
    (fC 0x00B 0b111000 4 6 8 0x112 0, .icmp ctl .n32 .ntst (.v 4) (.v 6) (.v 8)), (fI 0x04B 0b010000 4 6 7, .icmpImm ctl .n32 .lt (.v 4) (.v 6) 7),
    (fC 0x00C 0b001000 4 6 8 0x112 0, .isel ctl .n32 true (.v 4) (.v 6) (.v 8)), (fI 0x04C 0 4 6 7, .iselImm ctl .n32 false (.v 4) (.v 6) 7),
    (fC 0x00D 2 4 6 0x112 0x112 0, .ipopc ctl .n64 (.v 4) (.v 6)), (fC 0x00E 2 4 6 0x112 0x112 0, .iclz ctl .n64 (.v 4) (.v 6)),
    (fC 0x00F 2 4 6 0x112 0x112 0, .ibrev ctl .n64 (.v 4) (.v 6)), (fC 0x010 0 4 6 8 0x112 0, .iprmt ctl .n32 (.v 4) (.v 6) (.v 8)),
    (fI 0x050 0 4 6 7, .iprmtImm ctl .n32 (.v 4) (.v 6) 7), (fC 0x011 1 4 6 8 0x112 0, .iext ctl .i32 (.v 4) (.v 6) (.v 8)),
    (fI 0x051 1 4 6 7, .iextImm ctl .i32 (.v 4) (.v 6) 7), (fC 0x012 0 4 6 8 10 0, .iins ctl .n32 (.v 4) (.v 6) (.v 8) (.v 10))] = true := by decide

/-- R191 to R196: the type in w0[2:0], the rounding mode of R88 or the entry's field in w0[5:3]. -/
theorem test_decode_lane_float : decodes 96 [
    (fC 0x080 0b001000 4 6 8 0x112 0, .fadd ctl .f64 .rtz (.v 4) (.v 6) (.v 8)), (fI 0x0C0 0b010001 4 6 7, .faddImm ctl .f32 .rup (.v 4) (.v 6) 7),
    (fC 0x081 0b011010 4 6 8 0x112 0, .fsub ctl .f16 .rdn (.v 4) (.v 6) (.v 8)), (fI 0x0C1 0b100001 4 6 7, .fsubImm ctl .f32 .sr (.v 4) (.v 6) 7),
    (fC 0x082 1 4 6 8 0x112 0, .fmul ctl .f32 .rne (.v 4) (.v 6) (.v 8)), (fI 0x0C2 1 4 6 7, .fmulImm ctl .f32 .rne (.v 4) (.v 6) 7),
    (fC 0x083 0 4 6 8 10 0, .ffma ctl .f64 .rne (.v 4) (.v 6) (.v 8) (.v 10)), (fC 0x084 0b001001 4 6 8 0x112 0, .fmin ctl .f32 true (.v 4) (.v 6) (.v 8)),
    (fI 0x0C4 1 4 6 7, .fminImm ctl .f32 false (.v 4) (.v 6) 7), (fC 0x085 1 4 6 8 0x112 0, .fmax ctl .f32 false (.v 4) (.v 6) (.v 8)),
    (fI 0x0C5 0b001001 4 6 7, .fmaxImm ctl .f32 true (.v 4) (.v 6) 7), (fC 0x086 0b110001 4 6 8 0x112 0, .fcmp ctl .f32 .uo (.v 4) (.v 6) (.v 8)),
    (fI 0x0C6 0b111001 4 6 7, .fcmpImm ctl .f32 .or (.v 4) (.v 6) 7), (fC 0x087 0 5 6 0x112 0x112 0, .fclass ctl .f64 (.v 5) (.v 6)),
    (fC 0x088 1 4 6 8 0x112 0, .fdiv ctl .f32 .rne (.v 4) (.v 6) (.v 8)), (fI 0x0C8 1 4 6 7, .fdivImm ctl .f32 .rne (.v 4) (.v 6) 7),
    (fC 0x089 0b001001 4 6 0x112 0x112 0, .fsqrt ctl .f32 .rtz (.v 4) (.v 6)), (fC 0x08A 1 4 6 0x112 0x112 0, .frcp ctl .f32 (.v 4) (.v 6)),
    (fC 0x08B 1 4 6 0x112 0x112 0, .frsq ctl .f32 (.v 4) (.v 6)), (fC 0x08C 0 4 6 9 0x112 0, .fscale ctl .f64 .rne (.v 4) (.v 6) (.v 9)),
    (fI 0x0CC 0b001000 4 6 0xFFFFFFFF, .fscaleImm ctl .f64 .rtz (.v 4) (.v 6) 0xFFFFFFFF), (fC 0x08D 0b011001 4 6 0x112 0x112 0, .frnd ctl .f32 .rdn (.v 4) (.v 6))]
    = true := by decide

/-- R197 to R203: kinds, rounding mode and flags in imm23; R309's example. -/
theorem test_decode_conversions : decodes 96 [
    (0x40380000 + 0x02812240 * 2 ^ 32 + 0x890040C1 * 2 ^ 64, .fcvt ctl ⟨.fmt .fp32, .fmt .e4m3, .rne, false, true⟩ (.v 5) (.v 4)),
    (fC 0x100 0 4 6 0x112 0x112 (word [(13, 1), (10, 1), (5, 0x13), (0, 0x00)]), .fcvt ctl ⟨.fmt .fp64, .n64, .rtz, true, false⟩ (.v 4) (.v 6)),
    (fC 0x101 0 4 6 8 0x112 (word [(10, 4), (5, 0x03), (0, 0x01)]), .fpack ctl ⟨.fmt .fp32, .fmt .bf16, .sr, false, false⟩ (.v 4) (.v 6) (.v 8)),
    (fC 0x102 0 4 6 8 0x112 (word [(15, 7), (14, 1), (5, 0x01), (0, 0x0C)]), .funpk ctl ⟨.fmt .q4i, .fmt .fp32, .rne, false, true⟩ 7 (.v 4) (.v 6) (.v 8)),
    (fC 0x103 0 4 6 0x112 0x112 0, .fexp2 ctl .f64 (.v 4) (.v 6)), (fC 0x104 1 4 6 0x112 0x112 0, .flog2 ctl .f32 (.v 4) (.v 6)),
    (fC 0x105 2 4 6 0x112 0x112 0, .fsin ctl .f16 (.v 4) (.v 6)), (fC 0x106 1 4 6 0x112 0x112 0, .fcos ctl .f32 (.v 4) (.v 6))] = true := by decide

/-- R65, R209 to R217, with the examples of R217. -/
theorem test_decode_movement_and_steering : decodes 96 [
    (word [(22, 0x140), (19, 7), (3, 1), (0, 2), (57, 8), (54, 3), (47, 20), (44, 0)], .lhdr true [⟨8, 3⟩, ⟨20, 0⟩]),
    (fC 0x141 0 4 0x111 0x112 0x112 0, .mov ctl (.b32 (.v 4) .wave)), (fC 0x141 1 4 6 0x112 0x112 0, .mov ctl (.b64 (.v 4) (.v 6))),
    (fC 0x141 2 0x112 6 0x112 0x112 5, .mov ctl (.toP 5 (.v 6))), (fC 0x141 3 4 0x112 0x112 0x112 5, .mov ctl (.fromP (.v 4) 5)),
    (fI 0x142 1 4 0x112 0x80000000, .movImm ctl true (.v 4) 0x80000000), (fC 0x143 0b000111 4 6 8 0x112 0, .shfl ctl .xor true (.v 4) (.v 6) (.reg (.v 8))),
    (fC 0x143 0b001001 4 6 0x112 0x112 31, .shfl ctl .up false (.v 4) (.v 6) (.imm 31)), (fC 0x144 0b011000 0x112 6 0x112 0x112 0, .vote ctl .uni (.v 6)),
    (fC 0x145 0b010101 4 6 0x112 0x112 1, .lred ctl .f64 .max true (.v 4) (.v 6)), (fC 0x145 0b101000 0x112 6 0x112 0x112 0, .lred ctl .n32 .xor false .zero (.v 6)),
    (0x51880000 + 0x8944A240 * 2 ^ 32 + 0x00020004 * 2 ^ 64, .lbr { ctl with guard := 1 } 2 4),
    (0x51F80000 + 0x8944A240 * 2 ^ 32 + 0x89000000 * 2 ^ 64, .ljoin ctl), (fC 0x148 0 0x112 0x112 0x112 0x112 0, .lend ctl),
    (fC 0x149 0 0x112 0x112 0x112 0x112 0, .lkill ctl)] = true := by decide

/-- R142, R144, R218, R224: sizes, hints, off23 or imm23, and ann. -/
theorem test_decode_lane_memory : decodes 96 [
    (fC 0x180 0b001110 4 6 0x112 0 0x7FFFFF (ann := 0b01100), .ld ctl .b128 .nt ⟨.acq, .p⟩ (.v 4) (.v 6) 0x7FFFFF),
    (word [(22, 0x181), (19, 7), (0, 0b011000), (55, 0x112), (46, 6), (37, 9), (32, 0b10001), (95, 1), (87, 255), (64, 5)],
      .st ctl .n8 .nol1 ⟨.rel, .t⟩ (.v 6) (.v 9) 255 5),
    (fC 0x182 0b000011 4 7 0x112 0 5, .lds ctl .i16 ⟨.rlx, .w⟩ (.v 4) (.v 7) 5), (fC 0x183 0b000101 0x112 7 8 0 5 (ann := 1), .sts ctl .b64 ⟨.rlx, .t⟩ (.v 7) (.v 8) 5),
    (fC 0x184 0b000001 4 7 0x112 0 5 (ann := 2), .ldr ctl .i8 ⟨.rlx, .b⟩ (.v 4) (.v 7) 5), (fC 0x185 0b000010 0x112 7 8 0 5 (ann := 0b10000), .str ctl .n16 ⟨.rel, .w⟩ (.v 7) (.v 8) 5),
    (fC 0x186 0b111001 4 6 8 10 5 (ann := 0b10011), .atom ctl (.cas true) true ⟨.rel, .d⟩ (.v 4) (.v 6) (.v 8) (.v 10) 5),
    (fC 0x187 0b001101 0x112 6 9 0x112 5 (ann := 0b00011), .red ctl .faddBf16 false ⟨.rlx, .d⟩ (.v 6) (.v 9) 5)] = true := by decide

/-- R232, R273, R259 to R265, R298. -/
theorem test_decode_ports_reservoirs_engines : decodes 96 [
    (fC 0x200 1 0x112 0x108 8 0x112 0b1010 (ann := 0b10000), .push ctl true true .xe (.v 8) (some 2)),
    (fC 0x201 0 4 0x109 0x112 0x112 0 (ann := 0b01000), .pop ctl false true (.v 4) .xw none), (fC 0x202 0 4 0x10C 0x112 0x112 8, .peek ctl false false (.v 4) .xf (some 0)),
    (fC 0x203 0 4 0x10A 0x112 0x112 0, .pstat ctl (.v 4) .xn), (fC 0x240 3 0x112 6 8 10 0, .rsvUpd ctl 3 (.v 6) (.v 8) (.v 10)),
    (fC 0x241 0b101011 0x112 0x112 8 0x112 0x400000, .rsvMrg ctl 3 5 (.v 8) 0x400000), (fC 0x242 3 4 0x112 0x112 0x112 0, .rsvFin ctl 3 (.v 4)),
    (fC 0x243 0b000011 0x112 6 0x112 0x112 0, .rsvSet ctl 3 .y (.v 6)), (fC 0x244 0b100011 4 0x112 0x112 0x112 0, .rsvGet ctl 3 .ctr (.v 4)),
    (fC 0x245 0 0x112 0x112 0x112 0x112 0x81, .rsvClr ctl 0x81), (fC 0x280 0 0x112 6 8 10 63, .mldw ctl (.v 6) (.v 8) (.v 10) 63),
    (fC 0x281 0b000101 0x112 7 8 10 0, .mma ctl true false true (.v 7) (.v 8) (.v 10)), (fC 0x282 0 0x112 6 0x112 0x112 0, .mzero ctl (.v 6)),
    (fC 0x283 1 0x112 6 9 10 5, .mdrain ctl true (.v 6) (.v 9) (.v 10) 5), (fC 0x283 2 0x112 0x112 0x112 0x112 5, .mdrainFence ctl 5),
    (fC 0x300 3 0x112 20 6 9 5, .trav ctl true true .zero (.v 20) (.v 6) (.v 9) 5), (fC 0x301 0 20 9 0x112 0x112 0, .tres ctl false (.v 20) (.v 9) 0),
    (fC 0x302 0 0x112 9 7 6 0b1011, .tresume ctl (.v 9) (.v 7) (.v 6) (some 3)), (fC 0x303 0 4 6 9 0x112 0, .tlog ctl (.v 4) (.v 6) (.v 9))] = true := by decide

/-- R72, R76, R140: every control field of w0. -/
theorem test_decode_control_fields : decodes 96 [
    (word [(22, 0x004), (19, 5), (18, 1), (14, 9), (10, 0b1001), (6, 0b1001), (55, 4), (46, 6), (37, 8), (87, 10)],
      .imad ⟨5, true, 9, true, false, false, true, 2, false, true⟩ .n32 false (.v 4) (.v 6) (.v 8) (.v 10)),
    (word [(22, 0x180), (19, 7), (10, 0b1001), (6, 0b0110), (0, 4), (55, 4), (46, 6), (37, 0x112), (32, 3)],
      .ld ⟨7, false, 0, true, false, false, true, 1, true, false⟩ .b32 .none rlx (.v 4) (.v 6) 0)] = true := by decide

/-- R138, R146: opcodes and codes that no table allocates. -/
theorem test_decode_refuses :
    ∀ w ∈ [fSR 0x0F 0 0 0 0 0 0, fSR 0x3F 0 0 0 0 0 0, fSR 0x00 3 1 2 0 1 0, fSR 0x00 3 1 2 0 0 1, fSR 0x13 1 9 0 0 0 0, fSB 0x10 1 2 6 0,
      fSM 0x18 3 1 2 3 2 0 0, fSM 0x18 3 1 0 5 2 0 0, fSM 0x18 3 1 0 3 3 1 0, fSA 0x1A 4 1 0xB 0 0 0 0 3, fSR 0x39 0 0 0 0 1 0, word [(26, 0x3D), (0, 5)]],
      decodeTableWord 32 w = none := by decide

/-! ## Ill-formed terms: one for each check of WellFormed -/

def v5 : Opnd := .v 5
/-- An L-op of one source and a destination, both in 64-bit positions. -/
def wide1 (c : LCtl) (d : Dst) (a : Opnd) : Instr := .ipopc c .n64 d a

/-- The limits of S-ops: SLOOP's rd (R161), orderings (R163), .b8 with a sign (R136), SATOM's pair and annotations (R165, R120), LRUN's
registers (R166), JCOPY's pair (R308), CWAIT and CTEST (R316), XHNT's n (R139). -/
theorem test_wf_scalar : ∀ i ∈ [
    Instr.sloop 0 1, .sld 3 1 ⟨.rel, .d⟩ .b4 false 0, .sld 3 1 rlx .b8 true 0, .sst 3 1 ⟨.acq, .d⟩ .b4 0, .satom 3 1 .cas true false false rlx,
    .satom 4 1 .add true true false ⟨.acq, .d⟩, .satom 4 1 .add true false true ⟨.ar, .d⟩, .sldk 3 1 .b8 true 0, .lrun 1 5 0, .lrun 61 4 0, .lrun 1 0 0,
    .jcopyLoad 1 3 false, .jcopyStore 1 3 false, .jcopyAdd 1 3 false, .cwait 1 2 false false false 1, .cwait 1 2 true true false 0, .ctest 3 1 2 true,
    .xhnt .rc 0, .xhnt .nt 1], i.wf = false := by decide

/-- Odd codes in 64-bit positions (R60), last-use bits without a v register (R72), inc where it is illegal (R76), and a 16-bit
immediate's upper half (R143). -/
theorem test_wf_lane_fields : ∀ i ∈ [
    wide1 ctl (.v 5) (.v 6), wide1 ctl (.v 4) v5, wide1 { ctl with lua := true } (.v 4) .wave, wide1 { ctl with lub := true } (.v 4) (.v 6),
    wide1 { ctl with luc := true } (.v 4) (.v 6), wide1 { ctl with lud := true } .zero (.v 6), wide1 { ctl with inc := true } (.v 4) (.v 6),
    .iadd ctl .n64 false (.v 4) (.v 6) v5, .imad ctl .n64 false (.v 4) (.v 6) (.v 8) v5, .iaddImm ctl .n16 false (.v 4) (.v 6) 0x10000,
    .faddImm ctl .f16 .rne (.v 4) (.v 6) 0x10000, .fadd ctl .f64 .rne (.v 4) (.v 6) v5, .ffma ctl .f64 .rne (.v 4) (.v 6) (.v 8) v5,
    .fclass ctl .f64 (.v 4) v5, .fscale ctl .f64 .rne (.v 4) v5 (.v 9), .fscaleImm ctl .f64 .rne (.v 5) (.v 6) 1], i.wf = false := by decide

/-- The limits of entries: .rol with .clamp (R188), IABS and IPRMT types (R185, R190), conversions (R199 to R202), LHDR (R65, R66), MOV
and SHFL (R209, R210), VOTE and LRED (R211 to R213), LBR, LJOIN and LKILL (R215 to R217). -/
theorem test_wf_lane_entries : ∀ i ∈ [
    Instr.ishf ctl .n32 .rol true (.v 4) (.v 6) (.v 8), .ishfImm ctl .n32 .rol true (.v 4) (.v 6) 1, .iabs ctl .n32 false (.v 4) (.v 6),
    .iprmt ctl .i32 (.v 4) (.v 6) (.v 8), .iprmtImm ctl .i32 (.v 4) (.v 6) 1, .fcvt ctl ⟨.fmt .fp32, .fmt .q4i, .rne, false, false⟩ (.v 4) (.v 6),
    .fcvt ctl ⟨.fmt .fp32, .n32, .rne, false, true⟩ (.v 4) (.v 6), .fpack ctl ⟨.fmt .fp32, .fmt .fp32, .rne, false, false⟩ (.v 4) (.v 6) (.v 8),
    .funpk ctl ⟨.fmt .bf16, .fmt .fp32, .rne, false, false⟩ 2 (.v 4) (.v 6) .zero, .funpk ctl ⟨.fmt .q4i, .fmt .fp32, .rne, false, false⟩ 0 (.v 4) (.v 6) .zero,
    .funpk ctl ⟨.fmt .bf16, .fmt .fp32, .rne, false, false⟩ 0 (.v 4) (.v 6) (.v 8), .lhdr false (List.replicate 7 ⟨0, 0⟩), .lhdr false [⟨127, 1⟩],
    .lhdr false [⟨0, 3⟩, ⟨3, 0⟩], .mov ctl (.b64 (.v 5) (.v 6)), .mov ctl (.b64 (.v 4) v5), .mov { ctl with lud := true } (.toP 1 (.v 6)),
    .mov { ctl with lua := true } (.fromP (.v 4) 1), .movImm ctl true (.v 5) 0, .shfl ctl .idx true (.v 4) v5 (.imm 1), .shfl { ctl with lub := true } .idx false (.v 4) (.v 6) (.imm 1),
    .vote { ctl with sense := true } .any (.v 6), .lred ctl .f32 .and true (.v 4) (.v 6), .lred ctl .n32 .add true .zero (.v 6),
    .lred { ctl with sense := true } .n32 .add false .zero (.v 6), .lbr { ctl with inc := true } 0 0, .ljoin { ctl with guard := 1 }, .lend { ctl with sense := true },
    .lkill { ctl with lua := true }], i.wf = false := by decide

/-- The limits of memory, port, reservoir and engine entries (R218, R219, R224, R225, R232, R273, R277, R259 to R265, R298). -/
theorem test_wf_memory_and_engines : ∀ i ∈ [
    Instr.ld ctl .b32 .none ⟨.rel, .d⟩ (.v 4) (.v 6) 0, .ld ctl .b32 .none rlx (.v 4) v5 0, .ld ctl .b128 .none rlx (.v 6) (.v 6) 0, .st ctl .b32 .none ⟨.acq, .d⟩ (.v 6) (.v 8) 0 0,
    .st ctl .i8 .none rlx (.v 6) (.v 8) 0 0, .lds ctl .b32 ⟨.rlx, .b⟩ (.v 4) (.v 6) 0, .sts ctl .i16 ⟨.rlx, .t⟩ (.v 6) (.v 8) 0, .sts ctl .b32 ⟨.rlx, .d⟩ (.v 6) (.v 8) 0,
    .ldr ctl .b32 ⟨.rlx, .d⟩ (.v 4) (.v 6) 0, .str ctl .b64 ⟨.rlx, .b⟩ (.v 6) v5 0, .atom ctl (.add true) false rlx (.v 4) (.v 6) v5 .zero 0,
    .atom ctl (.add false) false rlx (.v 4) (.v 6) (.v 8) (.v 10) 0, .atom ctl (.add false) true ⟨.ar, .d⟩ (.v 4) (.v 6) (.v 8) .zero 0,
    .atom ctl (.add false) false ⟨.acq, .d⟩ .zero (.v 6) (.v 8) .zero 0, .red ctl (.cas false) false rlx (.v 6) (.v 8) 0, .red ctl (.swap false) false rlx (.v 6) (.v 8) 0,
    .red ctl (.add false) false ⟨.acq, .d⟩ (.v 6) (.v 8) 0, .push ctl true false .xe v5 none, .pop ctl true false (.v 5) .xe none, .peek { ctl with inc := true } false false (.v 4) .xe none,
    .pstat { ctl with lua := true } (.v 4) .xe, .rsvUpd ctl 0 v5 (.v 6) (.v 8), .rsvMrg { ctl with lua := true } 0 1 (.v 6) 0, .rsvFin { ctl with inc := true } 0 (.v 4),
    .rsvSet ctl 0 .y v5, .rsvGet ctl 0 .y (.v 5), .rsvClr ctl 0, .mldw ctl v5 (.v 6) (.v 8) 0, .mma ctl false true true (.v 4) (.v 6) (.v 8), .mma ctl false false false (.v 4) v5 (.v 8),
    .mzero ctl v5, .mdrain ctl false v5 (.v 6) (.v 8) 0, .mdrainFence { ctl with lua := true } 0, .trav ctl false false (.v 248) (.v 20) (.v 6) (.v 8) 0,
    .trav ctl false true (.v 4) (.v 20) (.v 6) (.v 8) 0, .trav ctl false true .zero (.v 240) (.v 6) (.v 8) 0, .trav ctl false false (.v 40) (.v 20) (.v 6) (.v 8) 1,
    .tres ctl false (.v 40) (.v 8) 1, .tres ctl true (.v 246) .zero 0, .tresume ctl (.v 4) (.v 6) v5 none, .tlog ctl (.v 4) v5 (.v 6)], i.wf = false := by decide

/-! ## Steps of single instructions: the examples and formulas of the spec -/

/-- The first wave after one step, with `f` applied to the machine whose next instruction is w. -/
def after (nbits w : Nat) (f : Wave → Wave := id) : Option Wave :=
  let s := State.reset.withFetchWord nbits w
  match step { s with waves := s.waves.map f } with
  | .next t => t.waves[0]?
  | _ => none

/-- A wave with a value in a scalar register, and in a v register of each lane. -/
def put (r : SReg) (v : DWord) (w : Wave) : Wave := sr r v w
def putV (r : VReg) (v : Word) (w : Wave) : Wave := { w with ls := { w.ls with v := w.ls.v.set r (Vector.replicate 32 v) } }

/-- A scalar register, and the scalar PC, after one step. -/
def sAfter (r : SReg) (nbits w : Nat) (f : Wave → Wave := id) : Option DWord := (after nbits w f).map fun x => x.readS r
def pcAfter (w : Nat) (f : Wave → Wave := id) : Option Nat := (after 32 w f).map fun x => x.ss.pc
/-- A v register of lane 5 as the block's window or staged copy holds it. -/
def vAfter (r : VReg) (w : Nat) (f : Wave → Wave := id) : Option Word := (after 96 w f).map fun x => x.ls.laneVal r 5

/-- R160 and its example: sli s20, -3 at 0x00. -/
theorem test_step_sli : sAfter 20 32 0x354FFFFD = some (-3#64) ∧ pcAfter 0x354FFFFD = some (2 ^ 30 + 4) := by decide
theorem test_step_sloop : sAfter 22 32 0x51600007 (put 22 10) = some 9 ∧ pcAfter 0x51600007 (put 22 10) = some (2 ^ 30 + 28) ∧
    pcAfter 0x51600007 (put 22 0) = some (2 ^ 30 + 4) := by decide
/-- R160's example: scmp.ltu and ssar. -/
theorem test_step_scmp_ssar : sAfter 21 32 0x2D5500C5 (put 20 4) = some 1 ∧ sAfter 21 32 0x2D5500C5 (put 20 5) = some 0 ∧ sAfter 20 32 0x19450098 (put 20 0xFFFFFFFFFFFFF000#64) = some 0xFFFFFFFFFFFFFFF0#64 := by
  decide
/-- R158: the corners of division. -/
theorem test_step_division : sAfter 3 32 (fSR 0x08 3 1 2 0 0 0) (fun w => sr 2 (-1#64) (sr 1 0x8000000000000000 w)) = some 0x8000000000000000#64 ∧
    sAfter 3 32 (fSR 0x09 3 1 2 0 0 0) (fun w => sr 2 0 (sr 1 7 w)) = some 7 ∧ sAfter 3 32 (fSR 0x08 3 1 2 0 1 0) (put 1 7) = some (-1#64) := by decide
/-- R157: the high half of an unsigned and of a signed product. -/
theorem test_step_smulh : sAfter 3 32 (fSR 0x07 3 1 1 0 2 0) (put 1 (-1#64)) = some (-2#64) ∧ sAfter 3 32 (fSR 0x07 3 1 1 0 1 0) (put 1 (-1#64)) = some 0 := by
  decide
/-- R185, R186: an immediate's sign, and saturation; R209: an immediate of .b64 is sign-extended into the pair. -/
theorem test_step_iadd : vAfter 4 (fI 0x040 0b000001 4 0x110 0xFFFFFFFF) = some 4 ∧ vAfter 4 (fI 0x040 0b001001 4 0x110 0x7FFFFFFF) = some 0x7FFFFFFF := by decide
theorem test_step_mov_b64 : vAfter 5 (fI 0x142 1 4 0x112 0x80000000) = some 0xFFFFFFFF ∧ vAfter 4 (fI 0x142 1 4 0x112 0x80000000) = some 0x80000000 := by decide
/-- R141: a lane that the guard leaves out keeps its register; here p0 is false in every lane. -/
theorem test_step_guard : vAfter 4 (fI 0x142 0 4 0x112 9 - 7 * 2 ^ 19) = some 0 ∧ vAfter 4 (fI 0x142 0 4 0x112 9 - 7 * 2 ^ 19 + 2 ^ 18) = some 9 := by decide
/-- R191: 1.0 + 2^-24 in FP32 is 1.0 by RNE and the next value by RUP. -/
theorem test_step_fadd : vAfter 4 (fI 0x0C0 0b000001 4 6 0x33800000) (putV 6 0x3F800000) =
      some 0x3F800000 ∧
    vAfter 4 (fI 0x0C0 0b010001 4 6 0x33800000) (putV 6 0x3F800000) =
      some 0x3F800001 := by decide
/-- R463 to R465: power-on leaves nothing running, and LINKUP zero. -/
theorem test_step_reset : (match step { State.reset with agenda := [.event .powerOn] } with | .next t => t.waves == [] && t.sys.rst.linkup == 0 | _ => false) = true := by
  decide
/-- R137, R355: a taken SLOOP whose target lies outside the section traps; where no handler is installed the wave is killed at it. -/
theorem test_step_code_range : (after 32 0x516FFFFD (put 22 10)).map (fun w => (w.st, w.killCause, w.ss.pc)) =
    some (.killed, 4, 2 ^ 30) := by decide

end Sys2Proof.Tests
end

section
namespace Sys2Proof.Machine

/-! ## Lane dispatch (R35, R166 to R168) -/

/-- The block address of an LRUN without an XIM, where it lies below 2^56 (R166). -/
theorem blockAddr_toNat {s : State} (w : Wave) (off : BitVec 17) (hx : s.pfx.xim = none)
    (h : (s.launchOf w).lbase + 4 * off.toNat < 2 ^ 56) :
    (s.blockAddr w off).toNat = (s.launchOf w).lbase + 4 * off.toNat := by
  have hoff := off.isLt
  simp only [State.blockAddr, hx, State.laneSection]
  bv_omega

/-- LRUN with a free place in the ticket queue and a block inside the lane section. -/
theorem execLrun_eq {s : State} {w : Wave} (hw : s.waves[s.cur.1]? = some w) (hu : w.priv.handler = false) (a : SReg) (cnt : BitVec 3)
    (off : BitVec 17) (hin : inSection (s.laneSection w) (s.blockAddr w off).toNat = true) (h56 : (s.blockAddr w off).toNat < 2 ^ 56)
    (hroom : w.ls.tickets.length < 8) :
    exec (.lrun a cnt off) s = .next (s.done { w with ls := { w.ls with tickets := w.ls.tickets ++
      [⟨(s.blockAddr w off).toNat, w.soft.ext, w.snaps a cnt.toNat, w.soft.bond, w.soft.seed, w.soft.epoch⟩] } }) := by
  show execLrun a cnt off s = _
  simp only [execLrun, userOp_eq hw hu, hin, Bool.not_true, Bool.false_or, decide_eq_true_eq, if_neg (Nat.not_le.2 h56),
    if_neg (Nat.not_le.2 hroom)]

/-- The four wait counters side by side are the sum of their weighted values (R168). -/
theorem append_counters (a b c d : BitVec 6) :
    BitVec.ofNat 64 (a.toNat + b.toNat * 2 ^ 6 + c.toNat * 2 ^ 12 + d.toNat * 2 ^ 18) = (0 : BitVec 40) ++ (d ++ c ++ b ++ a) := by
  have ha := a.isLt; have hb := b.isLt; have hc := c.isLt; have hd := d.isLt
  apply BitVec.eq_of_toNat_eq
  simp only [BitVec.toNat_append, BitVec.toNat_ofNat]
  rw [← Nat.shiftLeft_add_eq_or_of_lt hc, ← Nat.shiftLeft_add_eq_or_of_lt hb, ← Nat.shiftLeft_add_eq_or_of_lt ha]
  have h0 : (0 : BitVec 40).toNat = 0 := rfl
  simp only [Nat.shiftLeft_eq, h0, Nat.zero_mul, Nat.zero_or]
  omega

/-- Settles O9. Each instruction ends in `State.done`, whose change of the wave `scalarDoneAs_done` states. -/
theorem laneDispatch : Obligations.LaneDispatch := by
  unfold Obligations.LaneDispatch
  intro s w d a cnt off e es hw hu next L snap
  refine ⟨?_, ?_, ?_, ?_⟩
  · intro hx hroom hin h56
    have hL : (s.blockAddr w off).toNat = L := blockAddr_toNat w off hx h56
    refine ⟨_, execLrun_eq hw hu a cnt off ?_ (hL ▸ h56) hroom, ?_⟩
    · rw [hL]
      simp only [inSection, State.laneSection, Bool.and_eq_true]
      exact ⟨decide_eq_true (Nat.le_add_right _ _), decide_eq_true hin⟩
    · rw [hL]
      exact scalarDoneAs_done hw (by rfl) (by rfl) 0 0
  · intro hr
    refine ⟨s.done ({ w with ls := { w.ls with results := es } }.writeS d e), ?_, scalarDoneAs_done hw (by rfl) (by rfl) d e⟩
    show execSpop d s = _
    simp only [execSpop, userOp_eq hw hu, hr]
  · intro ht
    refine ⟨s.done w, ?_, scalarDoneAs_done hw rfl rfl 0 0⟩
    show execLdrain s = _
    simp only [execLdrain, userOp_eq hw hu, State.joinPoint, Wave.joined, ht, List.isEmpty_nil, if_true]
  · refine ⟨_, ?_, scalarDone_done hw d _⟩
    show execWcnt d s = _
    simp only [execWcnt, sOp_eq hw, append_counters]
    rfl

end Sys2Proof.Machine
end

section
namespace Sys2Proof.Machine

/-! ## VOTE and LRED (R38, R211 to R213) -/

/-- The registers that the last-use bit of a single source marks. -/
theorem mem_deadRegs_single (a : Opnd) (n : Nat) (b : Bool) (r : Nat) :
    r ∈ ([(a, n, b)].filter fun e : Opnd × Nat × Bool => e.2.2).flatMap (fun e => spanO e.1 e.2.1) ↔ r ∈ lastUse b a n := by
  cases b <;> simp [lastUse]

theorem map_val_allLanes : (allLanes.map fun l => l.val) = List.range 32 := by decide

/-- A number below 2^n is the sum of the weights of its bits. -/
theorem foldl_testBit (x n acc : Nat) :
    (List.range n).foldl (fun acc k => acc + if x.testBit k = true then 2 ^ k else 0) acc = acc + x % 2 ^ n := by
  induction n generalizing acc with
  | zero => simp [Nat.mod_one]
  | succ n ih =>
    rw [List.range_succ, List.foldl_append, ih, List.foldl_cons, List.foldl_nil, Nat.mod_pow_succ, Nat.testBit_eq_decide_div_mod_eq]
    rcases Nat.mod_two_eq_zero_or_one (x / 2 ^ n) with h | h <;> simp [h, Nat.add_assoc]

/-- The ballot as a number is the mask of the lanes that vote (R212). -/
theorem voteOf_ballot (act : Mask) (f : Lane → Nat) (e : Word) (he : ∀ l, inMask e l = (inMask act l && f l != 0)) :
    voteOf .ballot act f = e.toNat := by
  have hterm (acc : Nat) (l : Lane) : (if inMask act l = true then acc + (if (f l != 0) = true then 2 ^ l.val else 0) else acc) =
      acc + if e.toNat.testBit l.val = true then 2 ^ l.val else 0 := by
    have h := he l
    unfold inMask at h ⊢
    rw [BitVec.testBit_toNat, h]
    cases act.getLsbD l.val <;> cases f l != 0 <;> rfl
  calc voteOf .ballot act f
      = allLanes.foldl (fun acc l => acc + if e.toNat.testBit l.val = true then 2 ^ l.val else 0) 0 := by
        show (lanesIn act).foldl _ 0 = _
        unfold lanesIn
        rw [List.foldl_filter]
        simp only [hterm]
    _ = (allLanes.map fun l => l.val).foldl (fun acc k => acc + if e.toNat.testBit k = true then 2 ^ k else 0) 0 := by
        rw [List.foldl_map]
    _ = e.toNat := by
        rw [map_val_allLanes, foldl_testBit, Nat.zero_add, Nat.mod_eq_of_lt e.isLt]

/-- A wave that takes entry e into its result queue and raises flags. -/
def Wave.answered (w : Wave) (e : DWord) (fl : Flags) : Wave :=
  { w with ls := { w.ls with results := w.ls.results ++ [e] }, soft := { w.soft with fflags := w.soft.fflags ||| fl } }

theorem answered_zero (w : Wave) (e : DWord) :
    w.answered e 0 = { w with ls := { w.ls with results := w.ls.results ++ [e] } } := by
  have hor : w.soft.fflags ||| 0 = w.soft.fflags := BitVec.or_zero
  unfold Wave.answered
  rw [hor]

/-- An L-op that answers the scalar side, with room in the result queue (R38). -/
theorem lanesPut_resultOp {s : State} {w : Wave} {p : PcSide} {c : LCtl} {a : Opnd} {k : Nat} (h : s.LReady w p c (spanO a k) [])
    (hroom : w.ls.results.length < 8) {i : Instr} {F : LIss → DWord × Flags}
    (hex : exec i s = .next (s.resultOp c ⟨[(a, k, c.lua)], [], false, []⟩ F)) :
    s.lanesPut w (w.answered (F (s.issuing w p c)).1 (F (s.issuing w p c)).2) p c i (lastUse c.lua a k) .zero 32 fun _ => 0 := by
  refine lanesPut_done h (u := ⟨[(a, k, c.lua)], [], false, []⟩) (lat := 0)
    (f := fun y => (y.answer (F (s.issuing w p c)).1).drew (w.active p c) 0 (F (s.issuing w p c)).2) ?_ rfl h.side
    (mem_deadRegs_single a k c.lua)
  rw [hex]
  unfold State.resultOp
  rw [lStart_ready h (by simp [LUse.readRegs, LUse.writeRegs]) rfl]
  simp only [Nat.not_le.2 hroom, if_false]
  rfl

/-- VOTE appends the entry of its mode. -/
theorem lanesPut_vote {s : State} {w : Wave} {p : PcSide} {c : LCtl} {a : Opnd} (h : s.LReady w p c (spanO a 1) [])
    (hroom : w.ls.results.length < 8) (m : VoteMode) {e : DWord}
    (he : BitVec.ofNat 64 (voteOf m (w.active p c) (w.operand a 32)) = e) :
    s.lanesPut w { w with ls := { w.ls with results := w.ls.results ++ [e] } } p c (.vote c m a) (lastUse c.lua a 1) .zero 32
      fun _ => 0 := by
  have hput := lanesPut_resultOp h hroom (i := .vote c m a)
    (F := fun x => (BitVec.ofNat 64 (voteOf m x.act fun l => x.read 0 a 32 l), 0)) rfl
  simp only [read_operand, answered_zero] at hput
  rwa [he] at hput

/-- LRED without .l appends its result, extended to 64 bits, and raises its flags. -/
theorem lanesPut_lredEntry {s : State} {w : Wave} {p : PcSide} {c : LCtl} {a : Opnd} {ty : RedTy}
    (h : s.LReady w p c (spanO a (regsOf (RedTy.bits ty))) []) (hroom : w.ls.results.length < 8) (op : RedOp) (D : Dst) :
    let r := redOf ty op (w.active p c) (w.operand a (RedTy.bits ty))
    s.lanesPut w (w.answered (if redSigned ty then sextTo64 (RedTy.bits ty) r.1 else BitVec.ofNat 64 r.1) r.2) p c (.lred c ty op false D a)
      (lastUse c.lua a (regsOf (RedTy.bits ty))) .zero 32 fun _ => 0 := by
  have hput := lanesPut_resultOp h hroom (i := .lred c ty op false D a)
    (F := fun x =>
      let r := redOf ty op x.act fun m => x.read 0 a (RedTy.bits ty) m
      (if redSigned ty then sextTo64 (RedTy.bits ty) r.1 else BitVec.ofNat 64 r.1, r.2)) rfl
  simpa only [read_operand] using hput

/-- LRED.l puts its result in every active lane, and raises its flags. -/
theorem lanesPut_lredLanes {s : State} {w : Wave} {p : PcSide} {c : LCtl} {a : Opnd} {ty : RedTy} {D : Dst}
    (h : s.LReady w p c (spanO a (regsOf (RedTy.bits ty)) ++ spanD D (regsOf (RedTy.bits ty))) []) (op : RedOp) :
    let r := redOf ty op (w.active p c) (w.operand a (RedTy.bits ty))
    s.lanesPut w { w with soft := { w.soft with fflags := w.soft.fflags ||| r.2 } } p c (.lred c ty op true D a)
      (lastUse c.lua a (regsOf (RedTy.bits ty))) D (RedTy.bits ty) fun _ => r.1 := by
  refine lanesPut_done h (u := use1 c D (regsOf (RedTy.bits ty)) a (regsOf (RedTy.bits ty)))
    (lat := if (redFlt ty).isSome then 8 else 4) (f := fun y => y.drew (w.active p c) 0 _) ?_ rfl h.side (mem_deadRegs_single a _ c.lua)
  show execLred c ty op true D a s = _
  have hstart := lStart_ready h (u := use1 c D (regsOf (RedTy.bits ty)) a (regsOf (RedTy.bits ty)))
    (by simp [use1, LUse.readRegs, LUse.writeRegs]) rfl
  simp only [execLred, if_true, hstart, read_operand]

/-- Settles O23. -/
theorem laneVotes : Obligations.LaneVotes := by
  unfold Obligations.LaneVotes
  intro s w p c m ty op D a act n k ls V r raised entry vote hroom
  refine ⟨fun h => ?_, fun h => lanesPut_lredEntry h hroom op D, fun h => lanesPut_lredLanes h op⟩
  refine ⟨?_, ?_, ?_, ?_, ?_, ?_, ?_⟩
  · rintro rfl hex
    exact lanesPut_vote h hroom .any (by rw [voteOf, if_pos (by simpa using hex)]; rfl)
  · rintro rfl hex
    exact lanesPut_vote h hroom .any (by rw [voteOf, if_neg (by simpa using hex)]; rfl)
  · rintro rfl hall
    exact lanesPut_vote h hroom .all (by rw [voteOf, if_pos (by simpa using hall)]; rfl)
  · rintro rfl hall
    exact lanesPut_vote h hroom .all (by rw [voteOf, if_neg (by simpa using hall)]; rfl)
  · rintro rfl huni
    exact lanesPut_vote h hroom .uni (by rw [voteOf, if_pos (by simpa using huni)]; rfl)
  · rintro rfl huni
    exact lanesPut_vote h hroom .uni (by rw [voteOf, if_neg (by simpa using huni)]; rfl)
  · rintro rfl e he
    exact lanesPut_vote h hroom .ballot (by rw [voteOf_ballot _ _ e he]; exact BitVec.ofNat_toNat 64 e)

end Sys2Proof.Machine
end

section
namespace Sys2Proof.Machine

/-! ## Stall traps (R40, R236, R245, R299, R305, R317) -/

theorem runner_eq {s : State} {w : Wave} {i : Nat} (h : s.waves[i]? = some w) (hr : s.runs w = true) : s.runner i = some w := by
  simp [State.runner, h, hr]

/-- A wave that is rewritten before its trap enters its handler as it was rewritten. -/
theorem entered_of_putWave {s t : State} {w0 : Wave} {i : Nat} {strm : Strm} {imp : Bool} {cause va aux trappc : Nat} {mask : Mask}
    (h : (s.putWave i w0).Entered t i w0 strm imp cause va aux trappc mask) : s.Entered t i w0 strm imp cause va aux trappc mask where
  beside := sameBeside_trans (by rfl) h.beside
  others j hj := by rw [h.others j hj]; simp [State.putWave, hj.symm]
  teams := h.teams
  wave := h.wave

/-- Wave i, up to what it waits for and has arrived at still w, has entered its handler for a stall of a stream at `pc`. -/
def State.EntersStalled (s t : State) (i : Nat) (w : Wave) (strm : Strm) (c : Cause) (aux pc : Nat) : Prop :=
  ∃ w0 : Wave, w0.ls = w.ls ∧ w0.soft = w.soft ∧ w0.priv = w.priv ∧ w0.region = w.region ∧ w0.ss.s = w.ss.s ∧
    s.Entered t i w0 strm false c.code 0 aux pc 0

section
variable {s : State} {w : Wave} {i : Nat}

/-- A precise trap of a wave w1, which stands for w but for its waits. -/
theorem take_entersStalled {w1 : Wave} (hw : s.waves[i]? = some w) (hu : w1.priv.handler = false) (hh : (s.ctxOf w1).hen = true)
    (strm : Strm) (hp : w1.waitsForS strm = none) {c : Cause} (hc : c ≠ .regionOverflow) (aux pc : Nat) (tc : TrapCtx)
    (hsame : w1.ls = w.ls ∧ w1.soft = w.soft ∧ w1.priv = w.priv ∧ w1.region = w.region ∧ w1.ss.s = w.ss.s) :
    s.EntersStalled ((s.putWave i w1).take i strm (.aux_ c aux) pc tc) i w strm c aux pc := by
  obtain ⟨hls, hsoft, hpriv, hreg, hs⟩ := hsame
  have hput : (s.putWave i w1).waves[i]? = some w1 := getElem?_set_same hw w1
  exact ⟨w1, hls, hsoft, hpriv, hreg, hs, entered_of_putWave (take_entered hput hu hh strm hp (.aux_ c aux) hc pc tc)⟩

/-- A side that has waited as long as its limit allows. -/
theorem stallSide_entersStalled (hw : s.waves[i]? = some w) (hr : s.runs w = true) (hu : w.priv.handler = false)
    (hh : (s.ctxOf w).hen = true) (hp : w.ss.parkS = none) {d : Side} {p : PcSide} (hd : w.ls.side? d = some p) {why : Wait}
    (hwhy : w.ls.wait? d = some why) (hn : s.stallLimit w ≤ s.waited w (.l d)) {t : Wave → Nat → Trap} {c : Cause}
    (hc : c ≠ .regionOverflow) {aux : Nat} (ht : t w (s.waited w (.l d)) = .aux_ c aux) :
    s.EntersStalled (s.stallSide i d why t) i w (.l d) c aux p.pc := by
  have hput (w1 : Wave) : (s.putWave i w1).waves[i]? = some w1 := getElem?_set_same hw w1
  have hcond : (w.ls.wait? d != some why || w.priv.handler || decide (s.waited w (.l d) < s.stallLimit w)) = false := by
    simp [hwhy, hu, hn]
  unfold State.stallSide
  simp only [runner_eq hw hr, hcond, hd, ht, Bool.false_eq_true, if_false, State.trapL, hput]
  exact take_entersStalled (w1 := { w with arrival := if why == .bond then none else w.arrival }) hw hu hh (.l d)
    (by simp [Wave.waitsForS, hp]) hc aux p.pc _ ⟨rfl, rfl, rfl, rfl, rfl⟩

/-- The scalar stream, whose wave has become w1 up to its waits. -/
theorem trapWaiting_entersStalled {w1 : Wave} (hw : s.waves[i]? = some w) (hu : w1.priv.handler = false)
    (hh : (s.ctxOf w1).hen = true) {c : Cause} (hc : c ≠ .regionOverflow) (aux : Nat)
    (hsame : w1.ls = w.ls ∧ w1.soft = w.soft ∧ w1.priv = w.priv ∧ w1.region = w.region ∧ w1.ss.s = w.ss.s) :
    s.EntersStalled (s.trapWaiting i w1 (.aux_ c aux)) i w .s c aux w1.ss.pc :=
  take_entersStalled (w1 := { w1 with ss := { w1.ss with waitS := none } }) hw hu hh .s rfl hc aux w1.ss.pc _ hsame

/-- A side waits for a place in a full result queue (R38). -/
theorem full_of_wait {x : LStream} {d : Side} (hd : x.wait? d = some .result) (hr : 8 ≤ x.results.length) : x.full = true := by
  cases d <;> simp_all [LStream.full, LStream.wait?]

/-- The scalar stream waits for the lane stream (R35, R39, R42). -/
theorem sWaits_of_wait (h : (w.ss.waitS = some .ticket ∧ 8 ≤ w.ls.tickets.length) ∨ (w.ss.waitS = some .join ∧ w.ls.tickets ≠ [])) :
    w.sWaits = true := by
  rcases h with ⟨hs, h8⟩ | ⟨hs, hne⟩
  · simp [Wave.sWaits, hs, h8]
  · simp [Wave.sWaits, Wave.joined, hs, hne]

end

/-- Settles O27: each event runs into `stallSide` or `trapWaiting`, with no job offered that it would have to withdraw. -/
theorem stallTraps : Obligations.StallTraps := by
  unfold Obligations.StallTraps
  intro s i w d p hw hr hu hh hd hp hoff n limit enters
  have hrun := runner_eq hw hr
  have hdrop (strm : Strm) : s.dropOffer i strm = s := by simp only [State.dropOffer, hoff, List.filter_nil]; rw [← hoff]
  have hoffer (strm : Strm) : s.offerOf i strm = none := by simp [State.offerOf, hoff]
  have side {why : Wait} (c : Cause) (hwhy : w.ls.wait? d = some why) (hn : limit ≤ n (.l d)) (hc : c ≠ .regionOverflow) {aux : Nat}
      {t : Wave → Nat → Trap} (ht : t w (n (.l d)) = .aux_ c aux) :=
    stallSide_entersStalled hw hr hu hh hp hd hwhy hn hc ht
  have scalar (c : Cause) (hc : c ≠ .regionOverflow) (aux : Nat) :=
    trapWaiting_entersStalled (w1 := w) hw hu hh hc aux ⟨rfl, rfl, rfl, rfl, rfl⟩
  refine ⟨fun hwhy hn => ?_, fun hwhy hn => ?_, fun hwhy hn => ?_, fun hwhy hn => ?_, fun hwhy hn => ?_, fun hwhy hn => ?_,
    fun hs hwhy hres => ?_⟩
  · exact ⟨_, rfl, side .portStall hwhy hn (by decide) rfl⟩
  · exact ⟨_, rfl, side .bondStall hwhy hn (by decide) rfl⟩
  · exact ⟨_, rfl, side .travStall hwhy hn (by decide) rfl⟩
  · refine ⟨s.stallSide i d .job fun _ n => .aux_ .jobStall n, ?_, side .jobStall hwhy hn (by decide) rfl⟩
    have hcond : (w.ls.wait? d == some .job && decide (s.stallLimit w ≤ s.waited w (.l d)) && !w.priv.handler) = true := by
      simpa [hwhy, hu] using (show s.stallLimit w ≤ s.waited w (.l d) from hn)
    show execJobStall i (.l d) s = _
    simp only [execJobStall, hrun, hoffer, Option.map_none, Option.getD_none, Bool.false_eq_true, if_false, hcond, if_true, hdrop]
  · refine ⟨s.trapWaiting i w (.aux_ .jobStall (n .s)), ?_, scalar .jobStall (by decide) _⟩
    have hcond : (w.ss.waitS != some .job || w.priv.handler || decide (s.waited w .s < s.stallLimit w)) = false := by
      simpa [hwhy, hu] using (show s.stallLimit w ≤ s.waited w .s from hn)
    show execJobStall i .s s = _
    simp only [execJobStall, hrun, hoffer, Option.map_none, Option.getD_none, Bool.false_eq_true, if_false, hcond, hdrop]
    rfl
  · refine ⟨s.trapWaiting i { w with ss := { w.ss with yielded := none } } (.aux_ .cwaitStall (n .s)), ?_,
      trapWaiting_entersStalled (w1 := { w with ss := { w.ss with yielded := none } }) hw hu hh (by decide) _ ⟨rfl, rfl, rfl, rfl, rfl⟩⟩
    have hcond : (w.ss.waitS != some .cwait || w.priv.handler || decide (s.waited w .s < s.stallLimit w)) = false := by
      simpa [hwhy, hu] using (show s.stallLimit w ≤ s.waited w .s from hn)
    show execCwaitStall i s = _
    simp only [execCwaitStall, hrun, hcond, Bool.false_eq_true, if_false]
    rfl
  · refine ⟨s.trapWaiting i w (.aux_ .streamDeadlock 0), ?_, scalar .streamDeadlock (by decide) 0⟩
    show execStreamDeadlock i s = _
    simp only [execStreamDeadlock, hrun, sWaits_of_wait hs, full_of_wait hwhy hres, hu, Bool.not_false, Bool.and_self, if_true]
    rfl

end Sys2Proof.Machine
end

section
namespace Sys2Proof.Machine

/-! ## A ticket completes beside a release that counts no ticket -/

/-- A wave at extent 1 whose block has ended: register 32 holds ones, and a release down to extent 0 counts no ticket any more. -/
def spentReleaseWave : Wave :=
  let w := Wave.start 0 0 0 0 0 0 0 0 (Vector.replicate 64 0) 0
  { w with
    ls := { w.ls with tickets := [slotTicket], blk := { Blk.none with phase := .ended },
                      v := w.ls.v.set 32 (Vector.replicate 32 1) },
    ss := { w.ss with release := [(0, 0)] }, soft := { w.soft with ext := 1 } }

def spentReleaseState : State := { State.reset with waves := [spentReleaseWave] }

/-- The completion of the ticket returns the blocks of that release too: register 32 reads zero. -/
theorem ticketComplete_spentRelease :
    (match exec (.ticketComplete 0) spentReleaseState with
      | .next t => (t.waves[0]?).map fun w => w.ls.laneVal 32 0
      | _ => none) = some 0 := by decide

theorem drainedVal_spentRelease : spentReleaseWave.ls.drainedVal 32 0 = 1 := by decide

/-- Refutes O25: `Wave.ticketDone` returns the blocks of every release whose count falls to 0, those among them whose count was 0
already (0 - 1 = 0), while the statement asks only those of count 1 to lie at or above the extent. The counterexample is a state of
the model that no run reaches: REGX.rel records a count of at least 1, and a release that falls to 0 leaves the list. -/
theorem not_ticketsAndBlocks : ¬ Obligations.TicketsAndBlocks := by
  unfold Obligations.TicketsAndBlocks
  intro h
  obtain ⟨-, -, -, -, hdone, -⟩ := h spentReleaseState 0 spentReleaseWave slotTicket [] false [] rfl rfl
  obtain ⟨t, hex, -, -, w', hw', -, -, -, -, -, -, -, -, -, hval⟩ := hdone rfl rfl (by intro o ho; cases ho) rfl
  have hkept : w'.ls.laneVal 32 0 = 1 := by
    rw [hval List.Pairwise.nil (by decide) 32 0, drainedVal_spentRelease]
  have hzero := ticketComplete_spentRelease
  rw [hex] at hzero
  simp only [hw', Option.map_some, Option.some.injEq] at hzero
  rw [hkept] at hzero
  exact absurd hzero (by decide)

end Sys2Proof.Machine
end

section
namespace Sys2Proof.Machine

/-! ## Steering: the window drains (R73, R74) -/

@[simp] theorem other_other (d : Side) : Side.other (Side.other d) = d := by cases d <;> rfl

theorem side?_setWait (x : LStream) (d e : Side) (y : Option Wait) : (x.setWait d y).side? e = x.side? e := by
  cases d <;> cases e <;> rfl

theorem slots_side? (x : LStream) (d : Side) : (x.sideA, x.sideB) = slots d (x.side? d) (x.side? (Side.other d)) := by
  cases d <;> rfl

/-- Lane stream y is x with its window drained for an LBR, LJOIN or LEND, but for slots, divergence stack and waits. -/
structure LStream.FencedTo (x y : LStream) : Prop where
  values : ∀ r l, y.laneVal r l = x.drainedVal r l
  win : y.win = []
  prods : y.prods = []
  outs : y.outs.map Outst.ageless = x.outs.map Outst.ageless
  rest : ({ y with v := x.v, staged := x.staged, win := x.win, prods := x.prods, outs := x.outs, sideA := x.sideA, sideB := x.sideB,
                   stack := x.stack, waitA := x.waitA, waitB := x.waitB } : LStream) = x

theorem LStream.FencedTo.withSlots {x y : LStream} (h : x.FencedTo y) (A B : Option PcSide) (st : List Spilled) (a b : Option Wait) :
    x.FencedTo { y with sideA := A, sideB := B, stack := st, waitA := a, waitB := b } :=
  ⟨h.values, h.win, h.prods, h.outs, h.rest⟩

theorem LStream.FencedTo.setSide {x y : LStream} (h : x.FencedTo y) (d : Side) (p : Option PcSide) : x.FencedTo (y.setSide d p) := by
  cases d <;> exact h.withSlots _ _ _ _ _

theorem LStream.FencedTo.goTo {x y : LStream} (h : x.FencedTo y) (d : Side) (pc : Nat) : x.FencedTo (y.goTo d pc) := by
  cases d <;> exact h.withSlots _ _ _ _ _

theorem LStream.FencedTo.setPark {x y : LStream} (h : x.FencedTo y) (d : Side) (k : Option Park) :
    (x.setPark d k).FencedTo (y.setPark d k) := by
  have hrest := h.rest
  cases d
  · exact ⟨h.values, h.win, h.prods, h.outs, congrArg (fun z : LStream => { z with parkA := k }) hrest⟩
  · exact ⟨h.values, h.win, h.prods, h.outs, congrArg (fun z : LStream => { z with parkB := k }) hrest⟩

/-- The block of a stream has ended: nothing is parked. -/
def LStream.blockOver (x : LStream) : LStream := { x with blk := { x.blk with phase := .ended }, parkA := none, parkB := none }

theorem LStream.FencedTo.endBlock {x y : LStream} (h : x.FencedTo y) : x.blockOver.FencedTo y.endBlock :=
  ⟨h.values, h.win, h.prods, h.outs, congrArg LStream.blockOver h.rest⟩

/-- What the fence of an LBR, LJOIN or LEND makes of the lane stream. -/
theorem fence_eq (x : LIss) : ∃ v st outs, x.fence =
    { x.w.ls.setWait x.d none with v := v, staged := st, win := [], prods := [], outs := outs } ∧
    outs.map Outst.ageless = x.w.ls.outs.map Outst.ageless ∧
    ∀ r l, (({ x.w.ls with v := v, staged := st } : LStream).committed r)[l] = x.w.ls.drainedVal r l := by
  obtain ⟨v, st, hleft⟩ := foldr_leave_fields x.w.ls false x.w.ls.win
  refine ⟨v, st, (x.w.ls.outs.map Outst.late).map fun o => if o.side == x.d then { o with age := o.age + 1 } else o, ?_, ?_, ?_⟩
  · unfold LIss.fence LStream.drain
    rw [hleft]
    cases x.d <;> rfl
  · rw [List.map_map, List.map_map]
    refine List.map_congr_left fun o _ => ?_
    simp only [Function.comp]
    split <;> rfl
  · intro r l
    rw [← hleft, committed_foldr_leave]
    simp only [Bool.false_or]
    rfl

theorem fencedTo_fence (x : LIss) : x.w.ls.FencedTo x.fence := by
  obtain ⟨v, st, outs, he, ho, hv⟩ := fence_eq x
  rw [he]
  exact ⟨hv, rfl, rfl, ho, by cases x.d <;> rfl⟩

theorem fence_side? (x : LIss) (e : Side) : x.fence.side? e = x.w.ls.side? e := by
  obtain ⟨v, st, outs, he, -, -⟩ := fence_eq x
  rw [he]
  cases x.d <;> cases e <;> rfl

theorem fence_stack (x : LIss) : x.fence.stack = x.w.ls.stack := by
  obtain ⟨v, st, outs, he, -, -⟩ := fence_eq x
  rw [he]
  exact LStream.setWait_stack _ _ _

theorem fence_park? (x : LIss) (e : Side) : x.fence.park? e = x.w.ls.park? e := by
  obtain ⟨v, st, outs, he, -, -⟩ := fence_eq x
  rw [he]
  cases x.d <;> cases e <;> rfl

/-- A wave w0 whose lane stream has been fenced to y. -/
theorem steeredTo_of_fencedTo {w0 : Wave} {y : LStream} (h : w0.ls.FencedTo y) {st : List Spilled} (hst : y.stack = st) :
    w0.SteeredTo { w0 with ls := y } y.sideA y.sideB st where
  sideA := rfl
  sideB := rfl
  stack := hst
  values := h.values
  win := h.win
  prods := h.prods
  outs := h.outs
  rest := by
    have hrest := congrArg (fun z : LStream => { w0 with ls := z }) h.rest
    exact hrest

/-- An L-op that changes its wave's lane stream to y, whose slots and stack are as given. -/
theorem steers_of {s : State} {w : Wave} (hw : s.waves[s.cur.1]? = some w) {i : Instr} {y : LStream}
    (hex : exec i s = .next ((s.putWave s.cur.1 { w with ls := y }).countIssue w.team)) (h : w.ls.FencedTo y) {d : Side}
    {P Q : Option PcSide} {st : List Spilled} (hP : y.side? d = P) (hQ : y.side? (Side.other d) = Q) (hst : y.stack = st) :
    s.steers w i (slots d P Q) st := by
  subst hP hQ hst
  refine ⟨_, hex, _, issuedBy_put hw _, ?_⟩
  rw [← slots_side?]
  exact steeredTo_of_fencedTo h rfl

/-! ## Steering: sides settle (R45 to R47) -/

/-- A side waits for its sibling, which runs. -/
theorem settle_stay {x : LStream} {d : Side} {p q : PcSide} (n : Nat) (hp : x.side? d = some p) (hq : x.side? (Side.other d) = some q)
    (hpm : p.mask ≠ 0) (hqm : q.mask ≠ 0) (hrun : q.st = .running) : x.settle (n + 1) = .stay x := by
  cases d
  · have hA : x.sideA = some p := hp
    have hB : x.sideB = some q := hq
    simp only [LStream.settle, hA, hB, hpm, hqm, hrun, decide_false, Bool.and_self, Bool.or_self, Bool.false_eq_true, if_false]
    cases p.st <;> rfl
  · have hB : x.sideB = some p := hp
    have hA : x.sideA = some q := hq
    simp only [LStream.settle, hA, hB, hpm, hqm, hrun, decide_false, Bool.and_self, Bool.or_self, Bool.false_eq_true, if_false]

/-- The side of two that stands in lpcA. -/
def inA (d : Side) (p q : PcSide) : PcSide := match d with
  | .a => p
  | .b => q

/-- Both sides have arrived: they merge, and go on after the LJOIN of the side in lpcA. -/
theorem settle_arrived {x : LStream} {d : Side} {p q : PcSide} (n : Nat) (hp : x.side? d = some p)
    (hq : x.side? (Side.other d) = some q) (hpm : p.mask ≠ 0) (hqm : q.mask ≠ 0) (hps : p.st = .arrived) (hqs : q.st = .arrived) :
    x.settle (n + 1) = (x.merge (p.mask ||| q.mask) ((inA d p q).pc + 12) .running).settle n := by
  conv => lhs; unfold LStream.settle
  cases d
  · have hA : x.sideA = some p := hp
    have hB : x.sideB = some q := hq
    simp only [hA, hB, hpm, hqm, hps, hqs, decide_false, Bool.and_self, Bool.or_self, Bool.false_eq_true, if_false, inA]
  · have hB : x.sideB = some p := hp
    have hA : x.sideA = some q := hq
    simp only [hA, hB, hpm, hqm, hps, hqs, decide_false, Bool.and_self, Bool.or_self, Bool.false_eq_true, if_false, inA,
      BitVec.or_comm q.mask]

/-- Both sides stand at LEND: they merge there. -/
theorem settle_atLend {x : LStream} {d : Side} {p q : PcSide} (n : Nat) (hp : x.side? d = some p)
    (hq : x.side? (Side.other d) = some q) (hpm : p.mask ≠ 0) (hqm : q.mask ≠ 0) (hps : p.st = .atLend) (hqs : q.st = .atLend) :
    x.settle (n + 1) = (x.merge (p.mask ||| q.mask) (inA d p q).pc .atLend).settle n := by
  conv => lhs; unfold LStream.settle
  cases d
  · have hA : x.sideA = some p := hp
    have hB : x.sideB = some q := hq
    simp only [hA, hB, hpm, hqm, hps, hqs, decide_false, Bool.and_self, Bool.or_self, Bool.false_eq_true, if_false, inA]
  · have hB : x.sideB = some p := hp
    have hA : x.sideA = some q := hq
    simp only [hA, hB, hpm, hqm, hps, hqs, decide_false, Bool.and_self, Bool.or_self, Bool.false_eq_true, if_false, inA,
      BitVec.or_comm q.mask]

/-- A lone side goes on, unless it is empty or stands at LEND. -/
theorem settle_lone {x : LStream} {d : Side} {p : PcSide} (n : Nat) (hp : x.side? d = some p) (hq : x.side? (Side.other d) = none) :
    x.settle (n + 1) = if p.mask = 0 || p.st == .atLend then .ends else .stay x := by
  cases d
  · have hA : x.sideA = some p := hp
    have hB : x.sideB = none := hq
    simp only [LStream.settle, hA, hB]
  · have hB : x.sideB = some p := hp
    have hA : x.sideA = none := hq
    simp only [LStream.settle, hA, hB]

theorem merge_bottom {x : LStream} (h : x.stack = []) (m : Mask) (pc : Nat) (st : SideSt) :
    x.merge m pc st = { x with sideA := some ⟨pc, m, none, st⟩, sideB := none } := by
  unfold LStream.merge LStream.splitSlot
  rw [h]
  rfl

/-- The bottom pair merges at its join target, and goes on alone. -/
theorem settle_bottom_arrived {x : LStream} (hst : x.stack = []) {d : Side} {p q : PcSide} (hp : x.side? d = some p)
    (hq : x.side? (Side.other d) = some q) (hpm : p.mask ≠ 0) (hqm : q.mask ≠ 0) (hps : p.st = .arrived) (hqs : q.st = .arrived) :
    x.settle (x.stack.length + 2) =
      .stay { x with sideA := some ⟨(inA d p q).pc + 12, p.mask ||| q.mask, none, .running⟩, sideB := none } := by
  have hor : ¬ p.mask ||| q.mask = 0 := fun h => hpm (BitVec.or_eq_zero_iff.1 h).1
  rw [settle_arrived _ hp hq hpm hqm hps hqs, merge_bottom hst, settle_lone (d := .a) _ rfl rfl]
  simp only [hor, decide_false, Bool.false_or, beq_iff_eq, reduceCtorEq, if_false]

/-- The bottom pair stands at LEND. -/
theorem settle_bottom_atLend {x : LStream} (hst : x.stack = []) {d : Side} {p q : PcSide} (hp : x.side? d = some p)
    (hq : x.side? (Side.other d) = some q) (hpm : p.mask ≠ 0) (hqm : q.mask ≠ 0) (hps : p.st = .atLend) (hqs : q.st = .atLend) :
    x.settle (x.stack.length + 2) = .ends := by
  rw [settle_atLend _ hp hq hpm hqm hps hqs, merge_bottom hst, settle_lone (d := .a) _ rfl rfl]
  simp only [beq_self_eq_true, Bool.or_true, if_true]

/-! ## LBR (R44, R48, R215) -/

section
variable {s : State} {w : Wave} {p : PcSide} {c : LCtl} {taken join : BitVec 16}

/-- The target of a branch of an L-op at an address. -/
def branchTarget (pc : Nat) (off : BitVec 16) : Int := (pc : Int) + 12 * off.toInt

/-- The target lies in the lane section that the wave fetches from (R137). -/
def State.lbrInside (s : State) (w : Wave) (tgt : Int) : Prop :=
  0 ≤ tgt ∧ (s.laneSection w).1 ≤ tgt.toNat ∧ tgt.toNat + 4 ≤ (s.laneSection w).1 + (s.laneSection w).2

theorem lbrInside_iff (s : State) (w : Wave) (tgt : Int) :
    (decide (tgt < 0) || !inSection (s.laneSection w) tgt.toNat) = false ↔ s.lbrInside w tgt := by
  simp only [inSection, State.lbrInside, Bool.or_eq_false_iff, Bool.not_eq_false', Bool.and_eq_true, decide_eq_false_iff_not,
    decide_eq_true_eq, Int.not_lt]

/-- The join target, of which the low 56 bits are kept (R364). -/
def joinTarget (pc : Nat) (off : BitVec 16) : Nat := (branchTarget pc off % ((2 ^ 56 : Nat) : Int)).toNat

/-- The stream of a side that splits into the lanes that fall through, in lpcA, and those that branch, in lpcB. -/
def LStream.splitTo (x : LStream) (p : PcSide) (act : Mask) (taken join : BitVec 16) : LStream :=
  { x with sideA := some ⟨p.pc + 12, p.mask &&& ~~~act, some (joinTarget p.pc join), .running⟩,
           sideB := some ⟨(branchTarget p.pc taken).toNat, act, some (joinTarget p.pc join), .running⟩ }

/-- The machine with the lane stream of its issuing wave replaced, and one more L-op counted. -/
def State.putStream (s : State) (w : Wave) (y : LStream) : State := (s.putWave s.cur.1 { w with ls := y }).countIssue w.team

theorem lStart_use0 (h : s.LReady w p c [] []) : s.lStart c use0 = .ok (s.issuing w p c) :=
  lStart_ready h (by simp [use0, LUse.readRegs, LUse.writeRegs]) rfl

theorem exec_lbr_idle (h : s.LReady w p c [] []) (hact : w.active p c = 0) :
    exec (.lbr c taken join) s = .next (s.putStream w ((s.issuing w p c).fence.goTo s.cur.2 (p.pc + 12))) := by
  show execLbr c taken join s = _
  simp only [execLbr, lStart_use0 h, hact, if_true]
  rfl

theorem exec_lbr_outside (h : s.LReady w p c [] []) (hact : w.active p c ≠ 0) (hout : ¬ s.lbrInside w (branchTarget p.pc taken)) :
    exec (.lbr c taken join) s =
      .next ((s.issuing w p c).trap (.at .codeRange (branchTarget p.pc taken % ((2 ^ 64 : Nat) : Int)).toNat)) := by
  rw [← lbrInside_iff, Bool.not_eq_false] at hout
  unfold branchTarget at hout ⊢
  show execLbr c taken join s = _
  simp only [execLbr, lStart_use0 h, hact, if_false, hout, if_true]

theorem exec_lbr_jump (h : s.LReady w p c [] []) (hact : w.active p c ≠ 0) (hin : s.lbrInside w (branchTarget p.pc taken))
    (hfall : p.mask &&& ~~~w.active p c = 0) :
    exec (.lbr c taken join) s =
      .next (s.putStream w ((s.issuing w p c).fence.goTo s.cur.2 (branchTarget p.pc taken).toNat)) := by
  rw [← lbrInside_iff] at hin
  unfold branchTarget at hin ⊢
  show execLbr c taken join s = _
  simp only [execLbr, lStart_use0 h, hact, if_false, hin, Bool.false_eq_true, hfall, if_true]
  rfl

theorem exec_lbr_split (h : s.LReady w p c [] []) (hact : w.active p c ≠ 0) (hin : s.lbrInside w (branchTarget p.pc taken))
    (hfall : p.mask &&& ~~~w.active p c ≠ 0) (hother : w.ls.side? (Side.other s.cur.2) = none) :
    exec (.lbr c taken join) s = .next (s.putStream w ((s.issuing w p c).fence.splitTo p (w.active p c) taken join)) := by
  rw [← lbrInside_iff] at hin
  unfold branchTarget at hin
  show execLbr c taken join s = _
  simp only [execLbr, lStart_use0 h, hact, if_false, hin, Bool.false_eq_true, hfall, fence_side?, hother]
  rfl

theorem exec_lbr_spill (h : s.LReady w p c [] []) (hact : w.active p c ≠ 0) (hin : s.lbrInside w (branchTarget p.pc taken))
    (hfall : p.mask &&& ~~~w.active p c ≠ 0) {q : PcSide} (hother : w.ls.side? (Side.other s.cur.2) = some q)
    (hroom : w.ls.stack.length < 256) :
    exec (.lbr c taken join) s = .next
      (s.putStream w (((s.issuing w p c).fence.spill q (Side.other s.cur.2)).splitTo p (w.active p c) taken join)) := by
  have hfull : ¬ 256 ≤ (s.issuing w p c).fence.stack.length := by rw [fence_stack]; exact Nat.not_le.2 hroom
  rw [← lbrInside_iff] at hin
  unfold branchTarget at hin
  show execLbr c taken join s = _
  simp only [execLbr, lStart_use0 h, hact, if_false, hin, Bool.false_eq_true, hfall, fence_side?, hother, hfull]
  rfl

/-! ## LJOIN, LEND and LKILL (R45 to R47, R217) -/

/-- An LJOIN elsewhere than at its side's join target does nothing. -/
theorem exec_ljoin_elsewhere (h : s.LReady w p c [] []) (hjoin : p.join ≠ some p.pc) :
    exec (.ljoin c) s = .next (s.putStream w ((s.issuing w p c).fence.goTo s.cur.2 (p.pc + 12))) := by
  have hne : (p.join == some p.pc) = false := by simpa using hjoin
  show execLjoin c s = _
  simp only [execLjoin, lStart_use0 h, hne, Bool.false_eq_true, if_false]
  rfl

/-- The stream with the side that issues fenced, and in a state of R364. -/
def LIss.halted (x : LIss) (st : SideSt) : LStream := x.fence.setSide x.d (some { x.p with st := st })

theorem exec_ljoin_arrives (h : s.LReady w p c [] []) (hjoin : p.join = some p.pc) :
    exec (.ljoin c) s = .next ((s.settleSides s.cur.1 { w with ls := (s.issuing w p c).halted .arrived }).countIssue w.team) := by
  have he : (p.join == some p.pc) = true := by simpa using hjoin
  show execLjoin c s = _
  simp only [execLjoin, lStart_use0 h, he, if_true]
  rfl

theorem exec_lend (h : s.LReady w p c [] []) :
    exec (.lend c) s = .next ((s.settleSides s.cur.1 { w with ls := (s.issuing w p c).halted .atLend }).countIssue w.team) := by
  show execLend c s = _
  simp only [execLend, lStart_use0 h]
  rfl

theorem settleSides_stay {w1 : Wave} {x : LStream} (i : Nat) (h : w1.ls.settle (w1.ls.stack.length + 2) = .stay x) :
    s.settleSides i w1 = s.putWave i { w1 with ls := x } := by
  unfold State.settleSides
  rw [h]

theorem settleSides_ends {w1 : Wave} (i : Nat) (h : w1.ls.settle (w1.ls.stack.length + 2) = .ends) :
    s.settleSides i w1 = s.putWave i { w1 with ls := w1.ls.endBlock } := by
  unfold State.settleSides
  rw [h]

theorem halted_same (x : LIss) (st : SideSt) : (x.halted st).side? x.d = some { x.p with st := st } := side?_setSide_same _ _ _

theorem halted_other (x : LIss) (st : SideSt) : (x.halted st).side? (Side.other x.d) = x.w.ls.side? (Side.other x.d) :=
  (side?_setSide_other _ _ _).trans (fence_side? x _)

theorem halted_stack (x : LIss) (st : SideSt) : (x.halted st).stack = x.w.ls.stack := by
  unfold LIss.halted
  cases x.d <;> exact fence_stack x

theorem fencedTo_halted (x : LIss) (st : SideSt) : x.w.ls.FencedTo (x.halted st) := (fencedTo_fence x).setSide _ _

/-- A side that halts beside one that runs waits for it. -/
theorem steers_halted {q : PcSide} {i : Instr} {st : SideSt} (h : s.LReady w p c [] [])
    (hex : exec i s = .next ((s.settleSides s.cur.1 { w with ls := (s.issuing w p c).halted st }).countIssue w.team))
    (hother : w.ls.side? (Side.other s.cur.2) = some q) (hpm : p.mask ≠ 0) (hqm : q.mask ≠ 0) (hrun : q.st = .running) :
    s.steers w i (slots s.cur.2 (some { p with st := st }) (w.ls.side? (Side.other s.cur.2))) w.ls.stack := by
  have hq : ((s.issuing w p c).halted st).side? (Side.other s.cur.2) = some q := (halted_other _ _).trans hother
  have hstay := settle_stay (p := { p with st := st }) (((s.issuing w p c).halted st).stack.length + 1)
    (halted_same (s.issuing w p c) st) hq hpm hqm hrun
  rw [settleSides_stay s.cur.1 hstay] at hex
  exact steers_of h.wave hex (fencedTo_halted (s.issuing w p c) st) (halted_same (s.issuing w p c) st) (halted_other _ _) (halted_stack _ _)

/-- A block whose sides all stand at LEND ends. -/
theorem lend_ends (h : s.LReady w p c [] [])
    (hends : ((s.issuing w p c).halted .atLend).settle (((s.issuing w p c).halted .atLend).stack.length + 2) = .ends) :
    s.completes (.lend c) fun t => ∃ w', s.IssuedBy t s.cur.1 w w' ∧ ({ w with ls := w.ls.blockOver }).SteeredTo w' none none [] := by
  refine ⟨_, exec_lend h, _, ?_, steeredTo_of_fencedTo (w0 := { w with ls := w.ls.blockOver })
    (fencedTo_halted (s.issuing w p c) .atLend).endBlock rfl⟩
  rw [settleSides_ends s.cur.1 hends]
  exact issuedBy_put h.wave _

/-- The stream after an LKILL, which settles as it stands. -/
theorem exec_lkill (h : s.LReady w p c [] []) :
    exec (.lkill c) s = .next ((s.settleSides s.cur.1 { w with
      ls := ((s.issuing w p c).stream c use0 0 [] w.ls).drop (w.active p c) }).countIssue w.team) := by
  show execLkill c s = _
  simp only [execLkill, lStart_use0 h]

end

/-- A side that keeps a lane keeps its state. -/
theorem drop_of_ne {p : PcSide} {m : Mask} (h : p.mask &&& ~~~m ≠ 0) : p.drop m = { p with mask := p.mask &&& ~~~m } := by
  simp only [PcSide.drop, h, if_false]

theorem LStream.drop_eq (x : LStream) (m : Mask) (d : Side) : x.drop m =
    (({ x with live := x.live &&& ~~~m, stack := x.stack.map fun e => { e with side := e.side.drop m } } : LStream).setSide d
      ((x.side? d).map fun p => p.drop m)).setSide (Side.other d) ((x.side? (Side.other d)).map fun p => p.drop m) := by
  cases d <;> rfl

/-- A side that runs goes on, whether its sibling stands with lanes or there is none. -/
theorem settle_running {x : LStream} {d : Side} {p : PcSide} (n : Nat) (hp : x.side? d = some p) (hpm : p.mask ≠ 0)
    (hrun : p.st = .running) (hother : ∀ q, x.side? (Side.other d) = some q → q.mask ≠ 0) : x.settle (n + 1) = .stay x := by
  cases hq : x.side? (Side.other d) with
  | none =>
    rw [settle_lone n hp hq]
    simp only [hpm, hrun, decide_false, Bool.false_or, beq_iff_eq, reduceCtorEq, if_false]
  | some q => exact settle_stay (d := Side.other d) n hq (by rwa [other_other]) (hother q hq) hpm hrun

/-- Lane stream x after an LKILL of the lanes `act` by side d, which stood at p in stream x0, and where every side keeps a lane. -/
def LStream.thinned (x0 x : LStream) (d : Side) (p : PcSide) (act : Mask) : LStream :=
  (({ x with live := x0.live &&& ~~~act, stack := x0.stack.map fun e => { e with side := e.side.drop act } } : LStream).setSide d
    (some { p with pc := p.pc + 12, mask := p.mask &&& ~~~act })).setSide (Side.other d)
    ((x0.side? (Side.other d)).map fun q => { q with mask := q.mask &&& ~~~act })

/-- LKILL where every side keeps a lane. -/
theorem lkill_completes {s : State} {w : Wave} {p : PcSide} {c : LCtl} (h : s.LReady w p c [] []) (hrun : p.st = .running)
    (hfall : p.mask &&& ~~~w.active p c ≠ 0)
    (hothers : ∀ q, w.ls.side? (Side.other s.cur.2) = some q → q.mask &&& ~~~w.active p c ≠ 0) :
    s.completes (.lkill c) fun t => ∃ w' w1, s.IssuedBy t s.cur.1 w w' ∧
      w.LaneTo w1 s.cur.2 p (w.active p c) [] .zero 32 (fun _ => 0) ∧
      w' = { w1 with ls := w.ls.thinned w1.ls s.cur.2 p (w.active p c) } := by
  have hlane : w.LaneTo { w with ls := (s.issuing w p c).stream c use0 0 [] w.ls } s.cur.2 p (w.active p c) [] .zero 32 fun _ => 0 :=
    stream_laneTo (s.issuing w p c) w h.side c use0 0 .zero 32 (fun _ => 0) [] (fun r => by simp [use0])
  have hex := exec_lkill h
  generalize (s.issuing w p c).stream c use0 0 [] w.ls = x at hlane hex
  have hside : x.side? s.cur.2 = some { p with pc := p.pc + 12 } := hlane.side
  have hother : x.side? (Side.other s.cur.2) = w.ls.side? (Side.other s.cur.2) := hlane.other
  have hlive : x.live = w.ls.live := congrArg (fun y : Wave => y.ls.live) hlane.rest
  have hstack : x.stack = w.ls.stack := congrArg (fun y : Wave => y.ls.stack) hlane.rest
  have hdrop : x.drop (w.active p c) = w.ls.thinned x s.cur.2 p (w.active p c) := by
    rw [x.drop_eq (w.active p c) s.cur.2, hside, hother, hlive, hstack, LStream.thinned, Option.map_some, drop_of_ne (p := { p with pc := p.pc + 12 }) hfall]
    congr 1
    exact Option.map_congr fun q hq => drop_of_ne (hothers q hq)
  have hsettle : (x.drop (w.active p c)).settle ((x.drop (w.active p c)).stack.length + 2) = .stay (x.drop (w.active p c)) := by
    refine settle_running (d := s.cur.2) (p := { p with pc := p.pc + 12, mask := p.mask &&& ~~~w.active p c }) _ ?_ hfall hrun ?_
    · rw [hdrop]
      cases s.cur.2 <;> rfl
    · rw [hdrop, LStream.thinned, side?_setSide_same]
      intro q hq
      obtain ⟨q0, hq0, rfl⟩ := Option.map_eq_some_iff.1 hq
      exact hothers q0 hq0
  rw [settleSides_stay s.cur.1 hsettle] at hex
  refine ⟨_, hex, _, _, ?_, hlane, congrArg (fun z => { w with ls := z }) hdrop⟩
  exact issuedBy_put h.wave _

/-! ## Spilled sides (R44, R357) -/

/-- A side whose slot holds no record of its own is spilled without one. -/
theorem spill_free {x : LStream} {d : Side} (h : ∀ k, x.park? d = some k → k.stacked = true) (q : PcSide) :
    x.spill q d = { x with stack := ⟨q, d, false⟩ :: x.stack, waitA := none, waitB := none } := by
  have hmine : x.parkHolds d = false := by
    unfold LStream.parkHolds
    cases hk : x.park? d with
    | none => rfl
    | some k => simp [h k hk]
  simp only [LStream.spill, hmine, Bool.false_eq_true, if_false]

/-- A side that stands parked is spilled with its record. -/
theorem spill_parked {x : LStream} {d : Side} {k : Park} (hk : x.park? d = some k) (hst : k.stacked = false) (q : PcSide) :
    x.spill q d = ({ x with stack := ⟨q, d, true⟩ :: x.stack, waitA := none, waitB := none } : LStream).setPark d
      (some { k with stacked := true }) := by
  have hmine : x.parkHolds d = true := by simp [LStream.parkHolds, hk, hst]
  have hkeep : ({ x with stack := ⟨q, d, true⟩ :: x.stack, waitA := none, waitB := none } : LStream).park? d = some k := by
    rw [← hk]; cases d <;> rfl
  simp only [LStream.spill, hmine, if_true, hkeep, Option.map_some]

theorem LStream.FencedTo.splitTo {x y : LStream} (h : x.FencedTo y) (p : PcSide) (act : Mask) (taken join : BitVec 16) :
    x.FencedTo (y.splitTo p act taken join) := h.withSlots _ _ _ _ _

/-- Settles O24. -/
theorem laneSteering : Obligations.LaneSteering := by
  unfold Obligations.LaneSteering
  intro s w p c taken join h d act fall tgt j sec inside other split ends
  have hf := fencedTo_fence (s.issuing w p c)
  have hside : (s.issuing w p c).fence.side? d = some p := (fence_side? _ _).trans h.side
  have hother : (s.issuing w p c).fence.side? (Side.other d) = other := fence_side? _ _
  have hstack : (s.issuing w p c).fence.stack = w.ls.stack := fence_stack _
  have hgo (pc : Nat) : ((s.issuing w p c).fence.goTo d pc).side? d = some { p with pc := pc } := by
    rw [LStream.goTo, side?_setWait, side?_setSide_same, hside]
    rfl
  have hgoOther (pc : Nat) : ((s.issuing w p c).fence.goTo d pc).side? (Side.other d) = other := by
    rw [LStream.goTo, side?_setWait, side?_setSide_other, hother]
  have hgoStack (pc : Nat) : ((s.issuing w p c).fence.goTo d pc).stack = w.ls.stack := by
    rw [LStream.goTo, LStream.setWait_stack, LStream.setSide_stack, hstack]
  refine ⟨?idle, ?jump, ?splits, ?spills, ?spillsParked, ?outside, ?elsewhere, ?arrives, ?merges, ?lone, ?atLend, ?bothLend, ?kills⟩
  case idle =>
    intro hact
    exact steers_of h.wave (exec_lbr_idle h hact) (hf.goTo _ _) (hgo _) (hgoOther _) (hgoStack _)
  case jump =>
    intro hact hfall hin
    exact steers_of h.wave (exec_lbr_jump h hact hin hfall) (hf.goTo _ _) (hgo _) (hgoOther _) (hgoStack _)
  case splits =>
    intro hact hfall hin hnone
    exact steers_of (d := .a) h.wave (exec_lbr_split h hact hin hfall hnone) (hf.splitTo _ _ _ _) rfl rfl hstack
  case spills =>
    intro q hact hfall hin hq hroom hpark
    have hspill := spill_free (x := (s.issuing w p c).fence) (d := Side.other d) (by simpa only [fence_park?] using hpark) q
    have hex := exec_lbr_spill (join := join) h hact hin hfall hq hroom
    rw [hspill] at hex
    exact steers_of (d := .a) h.wave hex ((hf.withSlots _ _ _ _ _).splitTo _ _ _ _) rfl rfl (congrArg (_ :: ·) hstack)
  case spillsParked =>
    intro q k hact hfall hin hq hroom hk hst
    have hspill := spill_parked ((fence_park? (s.issuing w p c) (Side.other d)).trans hk) hst q
    have hex := exec_lbr_spill (join := join) h hact hin hfall hq hroom
    rw [hspill] at hex
    have hspilled := hf.withSlots (s.issuing w p c).fence.sideA (s.issuing w p c).fence.sideB
      (⟨q, Side.other d, true⟩ :: (s.issuing w p c).fence.stack) none none
    exact ⟨_, hex, _, issuedBy_put h.wave _, steeredTo_of_fencedTo
      (w0 := { w with ls := w.ls.setPark (Side.other d) (some { k with stacked := true }) })
      ((hspilled.setPark (Side.other d) (some { k with stacked := true })).splitTo p act taken join)
      ((LStream.setPark_stack _ _ _).trans (congrArg (List.cons _) hstack))⟩
  case outside =>
    intro hact hout hu hp hh
    refine ⟨_, exec_lbr_outside h hact hout, ?_⟩
    have hw : (s.issuing w p c).s.waves[s.cur.1]? = some w := h.wave
    simp only [LIss.trap, State.trapL, hw]
    exact take_entered h.wave hu hh (.l d) (by simp [Wave.waitsForS, hp]) (.at .codeRange _) (by simp [Trap.at]) p.pc _
  case elsewhere =>
    intro hjoin
    exact steers_of h.wave (exec_ljoin_elsewhere h hjoin) (hf.goTo _ _) (hgo _) (hgoOther _) (hgoStack _)
  case arrives =>
    intro q hjoin hq hpm hqm hrun
    exact steers_halted h (exec_ljoin_arrives h hjoin) hq hpm hqm hrun
  case merges =>
    intro q hjoin hq hpm hqm hqs hst pc hpc
    have hlow : pc = (inA d { p with st := .arrived } q).pc + 12 := by
      cases hd : s.cur.2 <;> simp only [d, hd] at hpc <;> simpa only [inA, d, hd] using hpc
    have hsettle := settle_bottom_arrived ((halted_stack _ _).trans hst) (halted_same (s.issuing w p c) .arrived)
      ((halted_other _ _).trans hq) hpm hqm rfl hqs
    have hex := exec_ljoin_arrives h hjoin
    rw [settleSides_stay s.cur.1 hsettle] at hex
    rw [hlow]
    exact steers_of (d := .a) h.wave hex ((fencedTo_halted (s.issuing w p c) .arrived).withSlots _ _ _ _ _) rfl rfl
      ((halted_stack _ _).trans hst)
  case lone =>
    intro hnone hst
    refine lend_ends h ?_
    rw [settle_lone _ (halted_same (s.issuing w p c) .atLend) ((halted_other _ _).trans hnone)]
    simp only [beq_self_eq_true, Bool.or_true, if_true]
  case atLend =>
    intro q hq hpm hqm hrun
    exact steers_halted h (exec_lend h) hq hpm hqm hrun
  case bothLend =>
    intro q hq hpm hqm hqs hst
    exact lend_ends h (settle_bottom_atLend ((halted_stack _ _).trans hst) (halted_same (s.issuing w p c) .atLend)
      ((halted_other _ _).trans hq) hpm hqm rfl hqs)
  case kills =>
    intro hrun hfall hothers
    exact lkill_completes h hrun hfall hothers

end Sys2Proof.Machine
end

section
namespace Sys2Proof.Machine

/-! ## A team that starts (R31, R376) -/

/-- Cores that take watchpoints: nothing beside the cores differs. -/
theorem loadWatch_beside (s : State) (ctx : BitVec 16) (cs : List Nat) : { s.loadWatch ctx cs with cores := s.cores } = s := by
  unfold State.loadWatch
  generalize s.context ctx = c
  induction cs generalizing s with
  | nil => rfl
  | cons k cs ih =>
    have h := congrArg (fun z : State => { z with cores := s.cores }) (ih (s.modCore k fun x =>
      if c.watched || x.watchCtx == some ctx then { x with watch := c.watch, watchCtx := some ctx } else x))
    exact h

/-- The wave of a number takes its place in the team t that starts. -/
def State.addWave (g t idx rank at_ priv slot0 : Nat) (l : Launch) (z : State) (num : Nat) : State :=
  let core := waveCore l at_ num
  let q := (z.quarterFor core num).getD 0
  { z with waves := z.waves ++ [Wave.start g t num core q (z.freePos core q) (launchMask l idx num) (l.sbase + l.entry)
      (startRegs l idx num rank priv slot0) (z.cyclesOf core)] }

/-- The waves of a team, one after the other: each stands behind those before it. -/
theorem foldl_addWave (g t idx rank at_ priv slot0 : Nat) (l : Launch) (n : Nat) (s : State) :
    let z := (List.range n).foldl (State.addWave g t idx rank at_ priv slot0 l) s
    { z with waves := s.waves } = s ∧ z.waves.length = s.waves.length + n ∧ (∀ i, i < s.waves.length → z.waves[i]? = s.waves[i]?) ∧
    ∀ num, num < n → ∃ q pos now, z.waves[s.waves.length + num]? = some (Wave.start g t num (waveCore l at_ num) q pos
      (launchMask l idx num) (l.sbase + l.entry) (startRegs l idx num rank priv slot0) now) := by
  induction n with
  | zero => exact ⟨rfl, rfl, fun _ _ => rfl, fun num h => absurd h (Nat.not_lt_zero num)⟩
  | succ n ih =>
    obtain ⟨hbeside, hlen, hold, hnew⟩ := ih
    simp only [List.range_succ, List.foldl_append, List.foldl_cons, List.foldl_nil]
    generalize (List.range n).foldl (State.addWave g t idx rank at_ priv slot0 l) s = z at hbeside hlen hold hnew ⊢
    refine ⟨hbeside, ?_, fun i hi => ?_, fun num hnum => ?_⟩
    · simp only [State.addWave, List.length_append, hlen, List.length_singleton, Nat.add_assoc]
    · rw [← hold i hi]
      exact List.getElem?_append_left (by omega)
    · rcases Nat.lt_succ_iff_lt_or_eq.1 hnum with h | rfl
      · obtain ⟨q, pos, now, hw⟩ := hnew num h
        exact ⟨q, pos, now, (List.getElem?_append_left (by omega)).trans hw⟩
      · rw [← hlen]
        exact ⟨_, _, _, List.getElem?_concat_length⟩

/-- A team that starts: the team stands behind the others, its waves behind the others, and only cores differ beside. -/
theorem startTeam_spec (s : State) (g : Nat) (x : Grid) (p : Placement) (slot0 : Nat) :
    let l := x.launch
    let rank := if l.cluster = 0 then 0 else p.team % l.cluster
    let z := s.startTeam g x p slot0
    { z with waves := s.waves, teams := s.teams, cores := s.cores } = s ∧
    z.teams = s.teams ++ [Team.start g p.team p.twin rank p.slot p.core] ∧ z.waves.length = s.waves.length + l.waves ∧
    (∀ i, i < s.waves.length → z.waves[i]? = s.waves[i]?) ∧
    ∀ num, num < l.waves → ∃ q pos now, z.waves[s.waves.length + num]? = some (Wave.start g s.teams.length num (waveCore l p.core num) q
      pos (launchMask l p.team num) (l.sbase + l.entry) (startRegs l p.team num rank (s.context x.ctx).priv slot0) now) := by
  intro l rank z
  obtain ⟨hbeside, hlen, hold, hnew⟩ := foldl_addWave g s.teams.length p.team rank p.core (s.context x.ctx).priv slot0 l l.waves
    { s with teams := s.teams ++ [Team.start g p.team p.twin rank p.slot p.core] }
  have hz : z = State.loadWatch ((List.range l.waves).foldl (State.addWave g s.teams.length p.team rank p.core (s.context x.ctx).priv slot0 l)
      { s with teams := s.teams ++ [Team.start g p.team p.twin rank p.slot p.core] }) x.ctx (coresOf l p.core) := rfl
  generalize (List.range l.waves).foldl (State.addWave g s.teams.length p.team rank p.core (s.context x.ctx).priv slot0 l)
      { s with teams := s.teams ++ [Team.start g p.team p.twin rank p.slot p.core] } = y at hbeside hlen hold hnew hz
  have hcores := loadWatch_beside y x.ctx (coresOf l p.core)
  rw [← hz] at hcores
  have hwaves : z.waves = y.waves := by have e := congrArg State.waves hcores; exact e
  have hteams : z.teams = y.teams := by have e := congrArg State.teams hcores; exact e
  rw [hwaves, hteams]
  refine ⟨?_, congrArg State.teams hbeside, hlen, hold, hnew⟩
  calc { z with waves := s.waves, teams := s.teams, cores := s.cores }
      = { ({ z with cores := y.cores } : State) with waves := s.waves, teams := s.teams, cores := s.cores } := rfl
    _ = { ({ y with waves := s.waves } : State) with teams := s.teams, cores := s.cores } := by rw [hcores]
    _ = s := by rw [hbeside]

/-- The scalar registers that a wave starts with. -/
theorem getElem_startRegs (l : Launch) (idx num rank priv slot : Nat) (r : SReg) :
    (startRegs l idx num rank priv slot)[r] = match r.val with
      | 1 => BitVec.ofNat 64 l.argbase
      | 2 => BitVec.ofNat 64 idx
      | 3 => BitVec.ofNat 64 num
      | 4 => BitVec.ofNat 64 rank
      | 5 => BitVec.ofNat 64 l.bucket
      | 6 => BitVec.ofNat 64 l.size
      | 7 => BitVec.ofNat 64 (priv + 4096 * (64 * slot + num))
      | _ => 0 := by
  match r with
  | 0 | 1 | 2 | 3 | 4 | 5 | 6 | 7 => rfl
  | ⟨k + 8, hk⟩ => simp [startRegs]

/-- Of the predicates only p7 is true (R57). -/
theorem getElem_startPreds (k : Fin 8) :
    ((Vector.replicate 8 0).set 7 0xFFFFFFFF#32 : Vector Mask 8)[k] = if k.val = 7 then BitVec.allOnes 32 else 0 := by
  revert k
  decide

theorem getElem_startCounters (k : Fin 4) : (Vector.replicate 4 0 : Vector (BitVec 6) 4)[k] = 0 := by
  revert k
  decide

/-- A grid's next team, placed alone. -/
theorem exec_teamPlacement {s : State} {g : Nat} {x : Grid} {p : Placement} {a : Want} (hx : s.grids[g]? = some x)
    (hrun : s.sys.dorzin.runs = true) (hmatch : matchPlaces (s.nextWants g) [p] = some [((a, p.core), p.slot)]) (hturn : s.inTurn g = true)
    (hrep : s.replayWaits (s.partOf g) = false) (hok : placesOk (s.fits []) [(a, p.core)] [] = true) (hslot : p.slot ∈ s.freeSlots x.ctx)
    (htwin : p.twin = false) :
    exec (.teamPlacement g [p]) s = .next ((s.journal jPlace x.queue p.team x.seq).startTeam g x p p.slot) := by
  have hslots : slotsOk (s.freeSlots x.ctx) [p.slot] = true := by simp [slotsOk, hslot, dedup]
  show execTeamPlacement g [p] s = _
  simp only [execTeamPlacement, State.place_, hx, hmatch, hrun, hturn, hrep, hok, hslots, List.isEmpty_cons, List.map_cons, List.map_nil,
    Bool.not_true, Bool.or_self, Bool.false_eq_true, if_false, List.foldl_cons, List.foldl_nil, List.find?_cons, beq_self_eq_true, htwin,
    Bool.not_false, Bool.and_self, Option.map_some, Option.getD_some]

/-- The machine with another journal. -/
def State.withJournal (s : State) (es : List JEnt) : State :=
  { s with sys := { s.sys with dorzin := { s.sys.dorzin with journal := es } } }

/-- The journal with the entry of a placement as its last (R390). -/
def State.journalWith (s : State) (queue team seq : Nat) : List JEnt := ring 65536 (s.sys.dorzin.journal ++
  [JEnt.of (((s.sys.dorzin.journal.getLast?).map fun e => e.seq + 1).getD 0) 1 queue team seq s.sys.dorzin.count 0])

theorem journal_place (s : State) (queue team seq : Nat) :
    s.journal jPlace queue team seq = s.withJournal (s.journalWith queue team seq) := by
  simp only [State.journal, State.modDorzin, State.withJournal, State.journalWith, jPlace]

/-- Settles O47. -/
theorem teamPlacement : Obligations.TeamPlacement := by
  unfold Obligations.TeamPlacement
  intro s g x p a l rank hx hrun hmatch htwin hturn hrep hok hslot
  have hex := exec_teamPlacement hx hrun hmatch hturn hrep hok hslot htwin
  -- the ring's size stays out of the terms that the kernel unfolds
  obtain ⟨es, hes⟩ := exists_eq (a' := s.journalWith x.queue p.team x.seq)
  rw [journal_place, ← hes] at hex
  simp only [State.journalWith] at hes
  rw [← hes]
  refine ⟨_, hex, ?_⟩
  obtain ⟨hbeside, hteams, hlen, hold, hnew⟩ := startTeam_spec (s.withJournal es) g x p p.slot
  generalize (s.withJournal es).startTeam g x p p.slot = t at hbeside hteams hlen hold hnew ⊢
  have hmem := congrArg State.mem hbeside
  have hgrids := congrArg State.grids hbeside
  have hjobs := congrArg State.jobs hbeside
  have hrays := congrArg State.rays hbeside
  have hjournal := congrArg (fun z : State => z.sys.dorzin.journal) hbeside
  refine ⟨hmem, hgrids, hjobs, hrays, hlen, hjournal, hold,
    ⟨_, hteams, rfl, rfl, htwin, rfl, rfl, rfl, rfl, rfl, rfl, rfl⟩, fun num hnum => ?_⟩
  obtain ⟨q, pos, now, hw⟩ := hnew num hnum
  refine ⟨_, hw, rfl, rfl, rfl, rfl, rfl, rfl, fun r => getElem_startRegs l p.team num rank _ p.slot r, ?_, ?_, ?_, ?_, rfl, rfl,
    rfl, fun k => getLsbD_maskOf _ k, rfl, rfl, rfl, rfl, rfl, rfl, rfl⟩
  · intro r k
    show ((Vector.replicate 256 (Vector.replicate 32 (0 : Word)))[r])[k] = 0
    simp
  · exact getElem_startPreds
  · exact getElem_startCounters
  · intro z k
    show ((Vector.replicate 8 (Vector.replicate 32 Rsv.zero))[z])[k] = Rsv.zero
    simp

end Sys2Proof.Machine
end

section
namespace Sys2Proof.Machine

/-! ## Regions: accesses that change memory, caches and the device only -/

theorem State.memOnly.rays {s t : State} (h : s.memOnly t) : t.rays = s.rays := by
  have e := congrArg State.rays (show { t with mem := s.mem, cores := s.cores, sys := s.sys } = s from h)
  exact e

theorem memOnly_mem (s : State) (m : Mem) : s.memOnly { s with mem := m } := rfl

theorem memOnly_keepLeaf (s : State) (part asid va : Nat) : s.memOnly (s.keepLeaf part asid va) := by
  unfold State.keepLeaf
  split
  · exact .refl s
  · split
    · exact memOnly_mem s _
    · exact .refl s

theorem memOnly_meetCopies {s t : State} {part asid va : Nat} {p : Loc} (h : s.meetCopies part asid va p = .ok t) : s.memOnly t := by
  unfold State.meetCopies at h
  split at h
  · split at h
    · split at h
      · split at h
        · injection h with h; subst h; exact .refl s
        · cases h
      · injection h with h
        subst h
        exact (memOnly_recall s _).trans (memOnly_mem _ _)
    · injection h with h; subst h; exact .refl s
  · injection h with h; subst h; exact .refl s

theorem memOnly_allocate (s : State) (part asid va : Nat) (p : Loc) (r : Nat) (rc : Option Nat) (bs : List Byte) (bad : List Nat)
    (valid dirty : BitVec 4) : s.memOnly (s.allocate part asid va p r rc bs bad valid dirty) := rfl

theorem memOnly_llcEvent (s : State) (va : Nat) (p : Loc) (bad : Bool) : s.memOnly (s.llcEvent va p bad) := by
  unfold State.llcEvent
  dsimp only
  split
  · exact .refl s
  · split
    · exact memOnly_report s _ _
    · split
      · exact (memOnly_mem s _).trans (memOnly_report _ _ _)
      · split
        · exact (memOnly_mem s _).trans (memOnly_report _ _ _)
        · exact (memOnly_report s _ _).trans (memOnly_readHbm _ _)

theorem memOnly_llcStruck (s : State) (part asid va : Nat) (p : Loc) (secs : BitVec 4) :
    s.memOnly (s.llcStruck part asid va p secs) := by
  unfold State.llcStruck
  split
  · exact .refl s
  · exact (memOnly_sys s _).trans (memOnly_foldl _ (fun z q => memOnly_llcEvent z _ _ _) _ _)

theorem memOnly_fill {s t : State} {part asid va : Nat} {p : Loc} {k : Kindly} {secs : BitVec 4}
    (h : s.fill part asid va p k secs = .ok t) : s.memOnly t := by
  unfold State.fill at h
  split at h
  case h_1 => cases h
  case h_2 s1 hm =>
    refine (memOnly_meetCopies hm).trans ?_
    split at h
    · split at h
      · injection h with h
        subst h
        refine State.memOnly.trans ?_ ((memOnly_fetchSectors _ _ _).trans (memOnly_llcStruck _ _ _ _ _ _))
        split
        · exact .refl s1
        · exact memOnly_mem s1 _
      · injection h with h
        subst h
        exact (memOnly_allocate s1 _ _ _ _ _ _ _ _ _ _).trans (memOnly_fetchSectors _ _ _)
    · injection h with h; subst h; exact .refl s1

theorem memOnly_requestLine {s t : State} {part asid va : Nat} {k : Kindly} {secs : BitVec 4} {p : Loc}
    (h : s.requestLine part asid va k secs = .ok (p, t)) : s.memOnly t := by
  unfold State.requestLine at h
  split at h
  · cases h
  · split at h
    · cases h
    · rename_i hf
      injection h with h
      injection h with _ h
      subst h
      exact (memOnly_keepLeaf s _ _ _).trans (memOnly_fill hf)

theorem memOnly_reachLines (req : State → Nat → BitVec 4 → Except XFault (Loc × State))
    (hreq : ∀ s va m p t, req s va m = .ok (p, t) → s.memOnly t) (rs : List LaneReq) (ls : List Nat) (s : State) :
    s.memOnly (reachLines req rs s ls).1 := by
  induction ls generalizing s with
  | nil => exact .refl s
  | cons l ls ih =>
    unfold reachLines
    dsimp only
    split
    · exact ih s
    · rename_i h
      exact (hreq _ _ _ _ _ h).trans (ih _)

theorem memOnly_reach (v : Via) (k : Kindly) (s : State) (rs : List LaneReq) : s.memOnly (State.reach v k s rs).1 :=
  memOnly_reachLines _ (fun _ _ _ _ _ h => memOnly_requestLine h) rs _ s

theorem memOnly_meetHomes (s : State) (core : Nat) (wide : Bool) (homes : List Loc) : s.memOnly (s.meetHomes core wide homes) :=
  memOnly_foldl _ (fun z p => (memOnly_flush z core _).trans (memOnly_recallGathers _ p)) homes s

theorem memOnly_prefetchLine (s : State) (v : Via) (line : Nat) : s.memOnly (s.prefetchLine v line) := by
  unfold State.prefetchLine
  split
  · exact .refl s
  · split
    · exact .refl s
    · split
      · exact .refl s
      · rename_i hf
        exact (memOnly_keepLeaf s _ _ _).trans (memOnly_fill hf)

theorem memOnly_prefetch (s : State) (v : Via) (ins : List Range) : s.memOnly (s.prefetch v ins) :=
  memOnly_foldl _ (fun z l => memOnly_prefetchLine z v l) _ s

theorem memOnly_l1Put (s : State) (core : Nat) (x : L1Line) : s.memOnly (s.l1Put core x) := by
  unfold State.l1Put
  dsimp only
  split
  · exact memOnly_modCore s _ _
  · split
    · exact memOnly_modCore s _ _
    · split
      · exact memOnly_modCore s _ _
      · exact (memOnly_modCore s _ _).trans (memOnly_flush _ _ _)

theorem memOnly_l1Write (s : State) (v : Via) (h : Loc) (ov : Overlay) (bad : Bool) : s.memOnly (s.l1Write v h ov bad) := by
  unfold State.l1Write
  split
  · exact .refl s
  · exact (memOnly_flush s _ _).trans (memOnly_l1Put _ _ _)

theorem memOnly_homeWrite (s : State) (v : Via) (h : Loc) (ov : Overlay) (bad : List Nat) : s.memOnly (s.homeWrite v h ov bad) := by
  unfold State.homeWrite
  split
  · exact .refl s
  · exact ((memOnly_flush s _ _).trans (memOnly_recallGathers _ _)).trans (memOnly_home _ _ _ _)

theorem memOnly_countedWrite (s : State) (v : Via) (h : Loc) (ov : Overlay) (n : Nat) (bad : List Nat) :
    s.memOnly (s.countedWrite v h ov n bad) := by
  unfold State.countedWrite
  split
  · rename_i a b l c
    dsimp only
    have fetched : ∀ (sel : L1Line → Bool) (p q : Loc) (m : BitVec 4),
        s.memOnly (((s.flush v.core sel).recallGathers p).fetchSectors q m) := fun sel p q m =>
      ((memOnly_flush s _ sel).trans (memOnly_recallGathers _ p)).trans (memOnly_fetchSectors _ q m)
    split
    · exact (fetched _ _ _ _).trans rfl
    · exact (fetched _ _ _ _).trans (memOnly_homeWrite _ _ _ _ _)
  · exact memOnly_homeWrite s _ _ _ _

theorem memOnly_readCount (s : State) (p : Loc) : s.memOnly (s.readCount p) := by
  unfold State.readCount
  split
  · exact .refl s
  · dsimp only
    split
    · exact memOnly_mem s _
    · exact memOnly_mem s _

theorem memOnly_faultRecord (s : State) (part asid : Nat) (ctx : BitVec 16) (h : Holder) (f : XFault) (va : Nat) (write fetch : Bool) :
    s.memOnly (s.faultRecord part asid ctx h f va write fetch).1 := (memOnly_mem s _).trans (memOnly_msix _ _)

theorem memOnly_putPart (s : State) (c : Context) (va len : Nat) (ov : Overlay) (bad : List Nat) :
    s.memOnly (s.putPart c va len ov bad) := by
  unfold State.putPart
  dsimp only
  refine ((memOnly_foldl _ (fun z k => ?_) _ s).trans (memOnly_foldl _ (fun z e => ?_) _ _)).trans (memOnly_foldl _ (fun z u => ?_) _ _)
  · split
    · split
      · exact (memOnly_recall z _).trans (memOnly_mem _ _)
      · exact .refl z
    · exact .refl z
  · split
    · split
      · exact memOnly_mem z _
      · exact .refl z
    · exact .refl z
  · split
    · exact memOnly_mem z _
    · exact .refl z

/-! ## The port-connected set of a wave without neighbours (R50) -/

theorem close_of_none {next : Nat → List Nat} {i : Nat} (h : next i = []) (n : Nat) : close next n [i] = [i] := by
  cases n with
  | zero => rfl
  | succ n => simp [close, dedup, h]

theorem portSet_of_noNeighbours {s : State} {i : Nat} (h : s.neighbours i = []) : s.portSet i = [i] := close_of_none h _

/-- A wave's place in its grid. -/
def Wave.seat (w : Wave) : Nat × Nat × Nat := (w.grid, w.team, w.num)

theorem map_seat_set {l : List Wave} {i : Nat} {w w' : Wave} (hw : l[i]? = some w) (h : w'.seat = w.seat) :
    (l.set i w').map Wave.seat = l.map Wave.seat := by
  rw [List.map_set, h]
  refine List.ext_getElem? fun j => ?_
  rw [List.getElem?_set]
  split
  · next hij =>
    subst hij
    obtain ⟨hi, hget⟩ := List.getElem?_eq_some_iff.1 hw
    simp [hi, hget]
  · rfl

theorem waveAt_congr {s t : State} (hs : t.waves.map Wave.seat = s.waves.map Wave.seat) (ht : t.teams = s.teams)
    (g idx : Nat) (twin : Bool) (num : Nat) : t.waveAt g idx twin num = s.waveAt g idx twin num := by
  have seats (l : List Wave) := List.findIdx?_map (f := Wave.seat) (l := l) (p := fun q =>
    q.1 == g && q.2.2 == num && ((s.teams[q.2.1]?).map fun x => x.idx == idx && x.twin == twin).getD false)
  have e := (seats t.waves).symm.trans ((congrArg _ hs).trans (seats s.waves))
  unfold State.waveAt
  rw [ht]
  exact e

/-- Neighbours depend on grids, teams and the places of the waves only. -/
theorem neighbours_congr {s t : State} {i : Nat} {w w' : Wave} (hw : s.waves[i]? = some w) (hset : t.waves = s.waves.set i w')
    (h : w'.seat = w.seat) (ht : t.teams = s.teams) (hg : t.grids = s.grids) : t.neighbours i = s.neighbours i := by
  have hs : t.waves.map Wave.seat = s.waves.map Wave.seat := by rw [hset]; exact map_seat_set hw h
  have hw' : t.waves[i]? = some w' := by rw [hset]; exact getElem?_set_same hw w'
  obtain ⟨hgrid, hteam, hnum⟩ : w'.grid = w.grid ∧ w'.team = w.team ∧ w'.num = w.num := by simpa [Wave.seat] using h
  unfold State.neighbours
  simp only [hw, hw', hteam, hgrid, hnum, ht, State.launchOf, hg, waveAt_congr hs ht]

/-! ## RGN.end: the cure of a lone wave (R321) -/

/-- t holds the waves, jobs and rays of s. -/
def State.sameActors (s t : State) : Prop := t.waves = s.waves ∧ t.jobs = s.jobs ∧ t.rays = s.rays

theorem State.sameActors.trans {s u t : State} (h : s.sameActors u) (k : u.sameActors t) : s.sameActors t :=
  ⟨k.1.trans h.1, k.2.1.trans h.2.1, k.2.2.trans h.2.2⟩

theorem State.memOnly.sameActors {s t : State} (h : s.memOnly t) : s.sameActors t := ⟨h.waves, h.jobs, h.rays⟩

theorem sameActors_foldl {α : Type} (f : State → α → State) (hf : ∀ (s : State) (a : α), s.sameActors (f s a)) (l : List α)
    (s : State) : s.sameActors (l.foldl f s) := by
  induction l generalizing s with
  | nil => exact ⟨rfl, rfl, rfl⟩
  | cons a l ih => exact (hf s a).trans (ih (f s a))

theorem memOnly_cureSector (s : State) (i : Nat) (v : Via) (g : Green) (k : Nat) : s.memOnly (s.cureSector i v g k) := by
  unfold State.cureSector
  dsimp only
  split
  · split
    · exact .refl s
    · exact memOnly_foldl _ (fun z r => memOnly_faultRecord z _ _ _ _ _ _ _ _) _ s
  · split
    · split
      · exact memOnly_countedWrite s _ _ _ _ _
      · exact memOnly_l1Write s _ _ _ _
    · exact memOnly_sendOut s _ _ _ _ _ _ _

theorem sameActors_cureUnit (s : State) (g : Green) (u : Nat) : s.sameActors (s.cureUnit g u) := ⟨rfl, rfl, rfl⟩

/-- The cure writes memory and scratchpad: no wave, job or ray changes. -/
theorem sameActors_applyGreen (s : State) (i : Nat) : s.sameActors (s.applyGreen i) := by
  unfold State.applyGreen
  split
  · exact ⟨rfl, rfl, rfl⟩
  · dsimp only
    refine State.sameActors.trans ?_ (State.memOnly.sameActors (memOnly_release _ _ _))
    refine State.sameActors.trans ?_ (State.memOnly.sameActors (memOnly_sys _ _))
    refine State.sameActors.trans ?_ (State.memOnly.sameActors (memOnly_foldl _ (fun z a => memOnly_readCount z _) _ _))
    refine State.sameActors.trans ?_ (sameActors_foldl _ (fun z u => sameActors_cureUnit z _ u) _ _)
    exact State.memOnly.sameActors (memOnly_foldl _ (fun z k => memOnly_cureSector z _ _ _ k) _ _)

/-- A wave whose region is over. -/
def Wave.cured (w : Wave) : Wave := { w with region := none, green := Green.empty }

section
variable {s : State} {i : Nat} {w : Wave} {g : Region} {d : SReg} {next : Nat}

theorem rollCount_of_noTwin (hw : s.waves[i]? = some w) (hr : w.region = some g) (ht : (s.launchOf w).twin = false) :
    s.rollCount i = g.rollbacks := by
  have hnone : s.twinOf i = none := by
    unfold State.twinOf
    rw [hw]
    dsimp only
    split
    · rfl
    · rw [ht]; rfl
  simp [State.rollCount, hw, hr, hnone]

theorem readyToCure_of_ended (hw : s.waves[i]? = some w) (hr : w.region = some g) (he : g.ended = some (d, next))
    (hj : ∀ j ∈ s.jobs, j.inRegionOf i = true → j.complete = true) : s.readyToCure i = true := by
  have hall : (s.jobs.all fun j => !j.inRegionOf i || j.complete) = true := by
    rw [List.all_eq_true]
    intro j hm
    cases hin : j.inRegionOf i with
    | false => rfl
    | true => exact hj j hm hin
  simp [State.readyToCure, hw, hr, he, hall]

/-- A lone wave of a grid without twins that has issued RGN.end, with every job of its region complete, is cured at once. -/
theorem tryCure_of_lone (hw : s.waves[i]? = some w) (hr : w.region = some g) (he : g.ended = some (d, next))
    (hn : s.neighbours i = []) (ht : (s.launchOf w).twin = false)
    (hj : ∀ j ∈ s.jobs, j.inRegionOf i = true → j.complete = true) :
    s.tryCure i = (s.applyGreen i).closeOne (i, g.rollbacks) := by
  simp [State.tryCure, hw, hr, he, portSet_of_noNeighbours hn, readyToCure_of_ended hw hr he hj, ht, rollCount_of_noTwin hw hr ht]

theorem closeOne_of_ended (hw : s.waves[i]? = some w) (hr : w.region = some g) (he : g.ended = some (d, next)) (n : Nat) :
    s.closeOne (i, n) =
      let w1 := (w.cured.writeS d (BitVec.ofNat 64 (min n 255))).goTo next
      { (s.putWave i w1).countIssue w.team with
        jobs := s.jobs.map fun (j : Job) =>
          if j.wave = i then { j with region := false } else { j with members := j.members.filter fun k => !(j.region && k == i) },
        rays := s.rays.map fun (r : Ray) => if r.wave = some i then { r with inRegion := false } else r } := by
  simp only [State.closeOne, hw, hr, he, Option.bind_some, Option.map_some, beq_iff_eq]
  rfl

end

/-- A wave that has issued its RGN.end. -/
def Wave.ending (w : Wave) (g : Region) (d : SReg) (next : Nat) : Wave :=
  { w with region := some { g with ended := some (d, next) }, ss := { w.ss with waitS := some .other } }

/-- What waited for the cure goes on as if it had not waited. -/
theorem goTo_writeS_cured_ending (w : Wave) (g : Region) (d e : SReg) (n pc : Nat) (v : DWord) :
    (((w.ending g d n).cured).writeS e v).goTo pc = (w.cured.writeS e v).goTo pc := by
  unfold Wave.writeS
  by_cases hd : e.val = 0
  · rw [if_pos hd, if_pos hd]; rfl
  rw [if_neg hd, if_neg hd]
  by_cases hb : w.priv.handler = true ∧ 48 ≤ e.val
  · rw [dif_pos (show (w.ending g d n).cured.priv.handler = true ∧ 48 ≤ e.val from hb),
      dif_pos (show w.cured.priv.handler = true ∧ 48 ≤ e.val from hb)]
    rfl
  · rw [dif_neg (show ¬((w.ending g d n).cured.priv.handler = true ∧ 48 ≤ e.val) from hb),
      dif_neg (show ¬(w.cured.priv.handler = true ∧ 48 ≤ e.val) from hb)]
    rfl

theorem joinPoint_of_noTickets {s : State} {w : Wave} (h : w.ls.tickets = []) (f : State) : s.joinPoint w f = f := by
  simp [State.joinPoint, Wave.joined, h]

theorem execRgnEnd_of_lone {s : State} {w : Wave} {g : Region} (d : SReg) (hw : s.waves[s.cur.1]? = some w)
    (hu : w.priv.handler = false) (htk : w.ls.tickets = []) (hn : s.neighbours s.cur.1 = []) (hr : w.region = some g)
    (hend : g.endPc = s.opAddr w) (ht : (s.launchOf w).twin = false)
    (hj : ∀ j ∈ s.jobs, j.inRegionOf s.cur.1 = true → j.complete = true) :
    exec (.rgnEnd d) s =
      .next (((s.setWave (w.ending g d (s.opAddr w + 4))).applyGreen s.cur.1).closeOne (s.cur.1, g.rollbacks)) := by
  have hset : (s.setWave (w.ending g d (s.opAddr w + 4))).waves[s.cur.1]? = some (w.ending g d (s.opAddr w + 4)) :=
    getElem?_set_same hw _
  have hlone : (s.setWave (w.ending g d (s.opAddr w + 4))).neighbours s.cur.1 = [] := by
    rw [neighbours_congr (t := s.setWave _) hw (w' := w.ending g d (s.opAddr w + 4)) rfl rfl rfl rfl, hn]
  have hcure := tryCure_of_lone (g := { g with ended := some (d, s.opAddr w + 4) }) hset rfl rfl hlone ht hj
  have hpc : (g.endPc != s.opAddr w) = false := by simp [hend]
  show execRgnEnd d s = _
  rw [execRgnEnd, userOp_eq hw hu, hr]
  simp only [hpc, Bool.false_eq_true, if_false, joinPoint_of_noTickets htk]
  exact congrArg Host.Outcome.next hcure

/-- The end of a lone wave's region: the state after the cure, the wave that goes on, and what its region leaves behind (R170). -/
theorem rgnEnd_completes {s : State} {w : Wave} {g : Region} (d : SReg) (hw : s.waves[s.cur.1]? = some w)
    (hu : w.priv.handler = false) (htk : w.ls.tickets = []) (hn : s.neighbours s.cur.1 = []) (hr : w.region = some g)
    (hend : g.endPc = s.opAddr w) (ht : (s.launchOf w).twin = false)
    (hj : ∀ j ∈ s.jobs, j.inRegionOf s.cur.1 = true → j.complete = true) :
    s.completes (.rgnEnd d) fun t =>
      let z := (s.setWave (w.ending g d (s.opAddr w + 4))).applyGreen s.cur.1
      { t with waves := z.waves, teams := z.teams, jobs := z.jobs, rays := z.rays } = z ∧
      (∀ j, j ≠ s.cur.1 → t.waves[j]? = s.waves[j]?) ∧
      t.teams = modAt z.teams w.team (fun x => { x with issued := x.issued + 1 }) ∧ s.PutsBehind t s.cur.1 ∧
      ∃ w', t.waves[s.cur.1]? = some w' ∧ w.cured.ScalarTo w' d
        (BitVec.ofNat 64 (min g.rollbacks 255)) (s.opAddr w + 4) := by
  refine ⟨_, execRgnEnd_of_lone d hw hu htk hn hr hend ht hj, ?_⟩
  obtain ⟨hwaves, hjobs, hrays⟩ := sameActors_applyGreen (s.setWave (w.ending g d (s.opAddr w + 4))) s.cur.1
  generalize (s.setWave (w.ending g d (s.opAddr w + 4))).applyGreen s.cur.1 = z at hwaves hjobs hrays
  have hset : (s.setWave (w.ending g d (s.opAddr w + 4))).waves[s.cur.1]? = some (w.ending g d (s.opAddr w + 4)) :=
    getElem?_set_same hw _
  have hz : z.waves[s.cur.1]? = some (w.ending g d (s.opAddr w + 4)) := by rw [hwaves]; exact hset
  rw [closeOne_of_ended (g := { g with ended := some (d, s.opAddr w + 4) }) hz rfl rfl]
  refine ⟨rfl, fun j hne => ?_, rfl, ⟨?_, ?_⟩, _, getElem?_set_same hz _, ?_⟩
  · have hi : s.cur.1 ≠ j := fun e => hne e.symm
    show (z.waves.set s.cur.1 _)[j]? = s.waves[j]?
    rw [List.getElem?_set_ne hi, hwaves]
    exact List.getElem?_set_ne hi
  · rw [← show z.jobs = s.jobs from hjobs]
  · rw [← show z.rays = s.rays from hrays]
  · exact (goTo_writeS_cured_ending w g d d _ _ _).symm ▸ writeS_scalarTo _ d _ _


/-! ## RGN.beg: the base words are read (R170) -/

theorem countReads_of_uncounted {s : State} {i : Nat} {w : Wave} {ps : List (Nat × Loc)} (hw : s.waves[i]? = some w)
    (hc : ∀ e ∈ ps, s.mem.counted? e.2 = none) : s.countReads i ps = s := by
  unfold State.countReads
  induction dedup (ps.map fun e => e.1 / 256) with
  | nil => rfl
  | cons line ls ih =>
    rw [List.foldl_cons]
    refine Eq.trans (congrArg (fun z => List.foldl _ z ls) ?_) ih
    rw [hw]
    cases hf : ps.find? fun e => e.1 / 256 == line with
    | none => rfl
    | some e => simp [hc e (List.mem_of_find?_eq_some hf)]

theorem fst_mem_of_mem_reached {lines : List (Nat × Except XFault Loc)} {rs : List LaneReq} {e : LaneReq × Loc}
    (h : e ∈ (reached lines rs).1) : e.1 ∈ rs := by
  obtain ⟨r, hr, he⟩ := List.mem_filterMap.1 h
  split at he
  · injection he with he; subst he; exact hr
  · cases he

theorem fst_mem_of_reach {s u : State} {v : Via} {k : Kindly} {rs : List LaneReq} {ps : List (LaneReq × Loc)}
    {bad : List (LaneReq × XFault)} (h : State.reach v k s rs = (u, ps, bad)) {e : LaneReq × Loc} (he : e ∈ ps) : e.1 ∈ rs := by
  have hps : ps = (State.reach v k s rs).2.1 := by rw [h]
  rw [hps] at he
  exact fst_mem_of_mem_reached he

/-- The places of the requests that the wave's L1 holds (R109). -/
def State.heldPlaces (s : State) (w : Wave) (n : Nat) (rs : List LaneReq) : List (LaneReq × Loc) :=
  rs.filterMap fun r => (s.l1Holds (s.viaOf w) n r).map fun p => (r, p)

/-- Requests that the L1 does not hold. -/
def State.unheld (s : State) (w : Wave) (n : Nat) (rs : List LaneReq) : List LaneReq :=
  rs.filter fun r => (s.l1Holds (s.viaOf w) n r).isNone

theorem fst_mem_of_mem_heldPlaces {s : State} {w : Wave} {n : Nat} {rs : List LaneReq} {e : LaneReq × Loc}
    (h : e ∈ s.heldPlaces w n rs) : e.1 ∈ rs := by
  obtain ⟨r, hr, he⟩ := List.mem_filterMap.1 h
  obtain ⟨p, _, hp⟩ := Option.map_eq_some_iff.1 he
  subst hp
  exact hr

theorem memOnly_of_reaches {s u : State} {w : Wave} {n core : Nat} {k : Kindly} {rs : List LaneReq} {ps : List (LaneReq × Loc)}
    {wide : Bool} {homes : List Loc} (h : s.Reaches w n k rs ps u) : s.memOnly (u.meetHomes core wide homes) := by
  have hu := memOnly_reach (s.viaOf w) k s rs
  rw [h.reach] at hu
  exact hu.trans (memOnly_meetHomes u _ _ _)

/-- A plain read of uncounted places that are held or near: what it brings, and the state after it. -/
theorem readAll_of_reaches {s u z : State} {w : Wave} {i n : Nat} {rs : List LaneReq} {ps : List (LaneReq × Loc)}
    (hw : s.waves[i]? = some w) (hs : s.sys.phys.sram = []) (hr : s.Reaches w n reading (s.unheld w n rs) ps u)
    (hz : u.meetHomes w.core false (lineHomes ps) = z) (hc : ∀ r ∈ ps, z.mem.counted? r.2 = none) :
    s.readAll i w n ⟨.rlx, .d⟩ .none rs =
      { s := z, vals := (s.heldPlaces w n rs ++ ps).map fun e => (e.1, z.bytesFor w e.1.addr n e.2),
        poisoned := ((s.heldPlaces w n rs ++ ps).filter fun e => z.poisonFor w e.1.addr n e.2).map (·.1), bad := [], away := [] } := by
  have hnear := hr.near
  have hstruck : s.l1Struck i (s.viaOf w) rs = s := by simp [State.l1Struck, hs]
  have hnear' : (ps.filter fun e => e.2.near) = ps := List.filter_eq_self.2 hnear
  have haway : (ps.filter fun e => !e.2.near) = [] := List.filter_eq_nil_iff.2 fun e he => by simp [hnear e he]
  have hzw : z.waves[i]? = some w := by rw [← hz, (memOnly_of_reaches hr).waves, hw]
  have hcount := countReads_of_uncounted (ps := ps.map fun e => (e.1.addr, e.2)) hzw fun e he => by
    obtain ⟨r, hr, rfl⟩ := List.mem_map.1 he
    exact hc r hr
  have hreach' : State.reach (s.viaOf w) (reading.hinted .none) s (s.splitHeld (s.viaOf w) n rs).2 = (u, ps, []) := hr.reach
  have hcore : (s.viaOf w).core = w.core := rfl
  simp only [State.readAll, hstruck, show annAcq ⟨.rlx, .d⟩ = false from rfl, Bool.false_and, Bool.false_eq_true, if_false, hreach',
    hnear', haway, hcore, hz, hcount]
  rfl

/-- The place where the first of several reads found a request. -/
def placeIn (got : List (LaneReq × Loc)) (r : LaneReq) : Option Loc := (got.find? fun q => q.1 == r).map fun q => q.2

/-- The base word of a request (R170): 0 where nothing was found. -/
def State.baseWord (s : State) (w : Wave) (got : List (LaneReq × Loc)) (r : LaneReq) : Nat :=
  ((placeIn got r).map fun p => numLE (s.bytesFor w r.addr 8 p)).getD 0

theorem eq_of_addr_eq {rs : List LaneReq} (hd : (rs.map LaneReq.addr).Nodup) {q r : LaneReq} (hq : q ∈ rs) (hr : r ∈ rs)
    (h : q.addr = r.addr) : q = r := by
  induction rs with
  | nil => cases hq
  | cons x rs ih =>
    obtain ⟨hx, hrs⟩ := List.nodup_cons.1 hd
    cases hq with
    | head =>
      cases hr with
      | head => rfl
      | tail _ hr => exact absurd (List.mem_map.2 ⟨r, hr, h.symm⟩) hx
    | tail _ hq =>
      cases hr with
      | head => exact absurd (List.mem_map.2 ⟨q, hq, h⟩) hx
      | tail _ hr => exact ih hrs hq hr

/-- Of requests with different addresses, the first at an address is the request itself. -/
theorem find?_addr_eq {rs : List LaneReq} {got : List (LaneReq × Loc)} (hd : (rs.map LaneReq.addr).Nodup) (hg : ∀ e ∈ got, e.1 ∈ rs)
    {r : LaneReq} (hr : r ∈ rs) : (got.find? fun e => e.1.addr == r.addr) = got.find? fun e => e.1 == r := by
  induction got with
  | nil => rfl
  | cons e got ih =>
    have hsame : (e.1.addr == r.addr) = (e.1 == r) := by
      rw [Bool.eq_iff_iff, beq_iff_eq, beq_iff_eq]
      exact ⟨eq_of_addr_eq hd (hg e List.mem_cons_self) hr, fun h => h ▸ rfl⟩
    rw [List.find?_cons, List.find?_cons, hsame, ih fun q hq => hg q (List.mem_cons_of_mem _ hq)]

/-- Of requests with different addresses, the value at an address is the value of the request. -/
theorem numLE_find?_addr {s : State} {w : Wave} {rs : List LaneReq} {got : List (LaneReq × Loc)} (hd : (rs.map LaneReq.addr).Nodup)
    (hg : ∀ e ∈ got, e.1 ∈ rs) {r : LaneReq} (hr : r ∈ rs) :
    numLE ((((got.map fun e => (e.1, s.bytesFor w e.1.addr 8 e.2)).find? fun e => e.1.addr == r.addr).map fun e => e.2).getD []) =
      s.baseWord w got r := by
  have hsame := find?_addr_eq hd hg hr
  have hfind : ((got.map fun e => (e.1, s.bytesFor w e.1.addr 8 e.2)).find? fun e => e.1.addr == r.addr) =
      (got.find? fun e => e.1 == r).map fun e => (e.1, s.bytesFor w e.1.addr 8 e.2) := by
    rw [List.find?_map, ← hsame]; rfl
  rw [hfind]
  unfold State.baseWord placeIn
  cases h : got.find? fun e => e.1 == r with
  | none => rfl
  | some e =>
    have he : e.1 = r := by simpa using List.find?_some h
    subst he
    rfl

theorem scalarTrap_none {va n : Nat} (h : va < 2 ^ 56) (ha : va % n = 0) : scalarTrap va n = none := by
  have h1 : addrBad va = false := by simpa [addrBad] using h
  have h2 : alignBad va n = false := by simp [alignBad, ha]
  simp [scalarTrap, h1, h2]

theorem find?_zip_clean (rs : List LaneReq) (f : LaneReq → Nat) :
    ((rs.zip (rs.map fun r => (f r, false))).find? fun e => e.2.2) = none := by
  refine List.find?_eq_none.2 fun e he => ?_
  obtain ⟨r, _, hr⟩ := List.mem_map.1 (List.of_mem_zip he).2
  simp [← hr]

/-- The base words of a region's declared ranges are read at once where every place is held or near, uncounted and clean. -/
theorem readBases_of_reaches {s u z : State} {w : Wave} {ins : Instr} {rs : List LaneReq} {ps : List (LaneReq × Loc)}
    (k : List Nat → State → State) (hw : s.waves[s.cur.1]? = some w) (hs : s.sys.phys.sram = [])
    (hrem : s.sys.links.remotes = []) (hd : (rs.map LaneReq.addr).Nodup) (hb : ∀ r ∈ rs, r.addr < 2 ^ 56 ∧ r.addr % 8 = 0)
    (hr : s.Reaches w 8 reading (s.unheld w 8 rs) ps u)
    (hz : u.meetHomes w.core false (lineHomes ps) = z) (hc : ∀ r ∈ ps, z.mem.counted? r.2 = none)
    (hp : ∀ r ∈ s.heldPlaces w 8 rs ++ ps, z.poisonFor w r.1.addr 8 r.2 = false) :
    s.readBases w ins rs k = k (rs.map (z.baseWord w (s.heldPlaces w 8 rs ++ ps))) z := by
  have htrap : (rs.findSome? fun r => scalarTrap r.addr 8) = none :=
    List.findSome?_eq_none_iff.2 fun r hm => scalarTrap_none (hb r hm).1 (hb r hm).2
  have hgot := readAll_of_reaches hw hs hr hz hc
  have hpois : ((s.heldPlaces w 8 rs ++ ps).filter fun e => z.poisonFor w e.1.addr 8 e.2) = [] :=
    List.filter_eq_nil_iff.2 fun e he => by simp [hp e he]
  have hreply : ∀ va, s.replyOf va = none := fun va => by simp [State.replyOf, State.scalarRemote, hrem]
  have hmem : ∀ e ∈ s.heldPlaces w 8 rs ++ ps, e.1 ∈ rs := fun e he => by
    rcases List.mem_append.1 he with h | h
    · exact fst_mem_of_mem_heldPlaces h
    · exact (List.mem_filter.1 (fst_mem_of_reach hr.reach h)).1
  unfold State.readBases
  rw [htrap]
  dsimp only
  rw [hgot]
  simp only [hpois, hreply, List.any_nil, Bool.false_eq_true, if_false, List.find?_nil, List.foldl_nil, Option.bind_none, List.map_nil,
    List.map_map]
  rw [find?_zip_clean]
  exact congrArg (k · z) (List.map_congr_left fun r hm => numLE_find?_addr hd hmem hm)

/-! ## RGN.beg: the region (R53, R319) -/

/-- Ranges that an entry declares, with the words at their bases: the inputs or the outputs. -/
def RegEnt.declared (e : RegEnt) (base : Nat → Nat) (o : Bool) : List Range :=
  (mapIx (fun k (r : Nat × Bool × Nat) => (r.2.1, (⟨base k, r.2.2⟩ : Range))) 0 e.ranges).filterMap fun r =>
    if r.1 = o then some r.2 else none

theorem mapIx_eq_zip_map {α β : Type} (f : α → Nat → β) (base : Nat → Nat) (l : List α) (bs : List Nat) (m : Nat)
    (hb : ∀ k, k < l.length → bs[k]? = some (base (m + k))) :
    mapIx (fun k x => f x (base k)) m l = (l.zip bs).map fun q => f q.1 q.2 := by
  induction l generalizing bs m with
  | nil => rfl
  | cons x l ih =>
    cases bs with
    | nil => exact absurd (hb 0 (Nat.zero_lt_succ _)) (by simp)
    | cons b bs =>
      have h0 : b = base m := by simpa using hb 0 (Nat.zero_lt_succ _)
      have htail : ∀ k, k < l.length → bs[k]? = some (base (m + 1 + k)) := fun k hk => by
        have := hb (k + 1) (Nat.succ_lt_succ hk)
        rwa [List.getElem?_cons_succ, show m + (k + 1) = m + 1 + k by omega] at this
      simp only [mapIx, List.zip_cons_cons, List.map_cons, h0, ih bs (m + 1) htail]

theorem filterMap_fst_eq (l : List (Bool × Range)) (o : Bool) :
    (l.filterMap fun r => if r.1 = o then some r.2 else none) = (l.filter fun r => r.1 == o).map fun r => r.2 := by
  induction l with
  | nil => rfl
  | cons r l ih => by_cases h : r.1 = o <;> simp [h, ih]

theorem regionOf_ranges {e : RegEnt} {base : Nat → Nat} {bs : List Nat} (hb : ∀ k, k < e.ranges.length → bs[k]? = some (base k))
    (id endPc : Nat) (w : Wave) (next now : Nat) :
    (Region.of id endPc e bs w next now).ins = e.declared base false ++ w.ss.ins ∧
    (Region.of id endPc e bs w next now).outs = e.declared base true ++ w.ss.outs := by
  have hz := mapIx_eq_zip_map (fun (r : Nat × Bool × Nat) b => (r.2.1, (⟨b, r.2.2⟩ : Range))) base e.ranges bs 0
    fun k hk => by rw [Nat.zero_add]; exact hb k hk
  constructor
  · simp only [RegEnt.declared, hz, filterMap_fst_eq, Region.of, beq_false]
  · simp only [RegEnt.declared, hz, filterMap_fst_eq, Region.of, beq_true]

/-- The checkpoint is written to memory: waves, teams and jobs stay. -/
theorem putCheckpoint_keeps (s : State) (i : Nat) :
    (s.putCheckpoint i).waves = s.waves ∧ (s.putCheckpoint i).teams = s.teams ∧ (s.putCheckpoint i).jobs = s.jobs := by
  unfold State.putCheckpoint
  split
  · exact ⟨rfl, rfl, rfl⟩
  · split
    · exact ⟨rfl, rfl, rfl⟩
    · have h := fun c a ov => memOnly_putPart s c a 0x8800 ov []
      exact ⟨(h _ _ _).waves, (h _ _ _).teams, (h _ _ _).jobs⟩

/-- A wave that has issued its RGN.beg. -/
def Wave.beginning (w : Wave) (g : Region) : Wave := { w with ss := { w.ss with begun := some g, waitS := some .other } }

/-- A wave in the region that it has begun. -/
def Wave.opened (w : Wave) (g : Region) : Wave :=
  { w with region := some { g with ck := ⟨g.ck.pc, w.ss.s, w.soft⟩ }, green := Green.empty,
           ss := { w.ss with begun := none, pc := g.ck.pc, waitS := none, ins := [], outs := [] } }

/-- A lone wave that has begun enters its region at once. -/
theorem tryOpen_of_lone {s : State} {i : Nat} {w : Wave} {g : Region} (hw : s.waves[i]? = some (w.beginning g))
    (hn : s.neighbours i = []) :
    s.tryOpen i = ((s.putWave i (w.opened g)).putCheckpoint i).countIssue w.team := by
  have hbegun : s.hasBegun i = true := by simp [State.hasBegun, hw, Wave.beginning]
  simp only [State.tryOpen, portSet_of_noNeighbours hn, List.all_cons, hbegun, List.all_nil, Bool.and_self, if_true, List.foldl_cons,
    List.foldl_nil]
  unfold State.openOne
  rw [hw]
  rfl

/-- The base words are read and no range leaves the address space: a lone wave's region opens. -/
theorem begin_of_lone {s : State} {w : Wave} {e : RegEnt} {bs : List Nat} (hw : s.waves[s.cur.1]? = some w)
    (hn : s.neighbours s.cur.1 = []) (hb : ∀ q ∈ e.ranges.zip bs, q.2 + q.1.2.2 ≤ 2 ^ 56) (id endPc : Nat) :
    ∃ now, let g := Region.of id endPc e bs w (s.opAddr w + 4) now
      (s.begin id e endPc bs).waves = s.waves.set s.cur.1 (w.opened g) ∧
      (s.begin id e endPc bs).teams = modAt s.teams w.team (fun x => { x with issued := x.issued + 1 }) ∧
      (s.begin id e endPc bs).jobs = s.jobs := by
  have hfind : ((e.ranges.zip bs).find? fun r => decide (2 ^ 56 < r.2 + r.1.2.2)) = none :=
    List.find?_eq_none.2 fun q hq => by simpa using hb q hq
  refine ⟨((s.teamOf w).map Team.cycles).getD 0, ?_⟩
  unfold State.begin
  rw [sOp_eq hw, hfind]
  dsimp only
  generalize hg : Region.of id endPc e bs w (s.opAddr w + 4) (((s.teamOf w).map Team.cycles).getD 0) = g
  have hm := memOnly_prefetch (s.setWave (w.beginning g)) (s.viaOf w) g.ins
  change (State.tryOpen ((s.setWave (w.beginning g)).prefetch (s.viaOf w) g.ins) s.cur.1).waves = _ ∧
    (State.tryOpen ((s.setWave (w.beginning g)).prefetch (s.viaOf w) g.ins) s.cur.1).teams = _ ∧
    (State.tryOpen ((s.setWave (w.beginning g)).prefetch (s.viaOf w) g.ins) s.cur.1).jobs = _
  generalize (s.setWave (w.beginning g)).prefetch (s.viaOf w) g.ins = z at hm
  have hwaves : z.waves = s.waves.set s.cur.1 (w.beginning g) := hm.waves
  have hz : z.waves[s.cur.1]? = some (w.beginning g) := by rw [hwaves]; exact getElem?_set_same hw _
  have hlone : z.neighbours s.cur.1 = [] :=
    (neighbours_congr (w' := w.beginning g) hw hwaves rfl hm.teams hm.grids).trans hn
  obtain ⟨kwaves, kteams, kjobs⟩ := putCheckpoint_keeps (z.putWave s.cur.1 (w.opened g)) s.cur.1
  rw [tryOpen_of_lone hz hlone]
  refine ⟨?_, ?_, ?_⟩
  · exact kwaves.trans ((congrArg (List.set · s.cur.1 (w.opened g)) hwaves).trans (List.set_set _))
  · exact congrArg (modAt · w.team fun x => { x with issued := x.issued + 1 }) (kteams.trans hm.teams)
  · exact kjobs.trans hm.jobs

theorem neighbours_memOnly {s t : State} (h : s.memOnly t) (i : Nat) : t.neighbours i = s.neighbours i := by
  simp only [State.neighbours, State.waveAt, State.launchOf, h.waves, h.teams, h.grids]

/-- RGN.beg of a lone wave at its region's start reads the base words. -/
theorem execRgnBeg_reads {s : State} {w : Wave} {e : RegEnt} {n : BitVec 10} (hw : s.waves[s.cur.1]? = some w)
    (hu : w.priv.handler = false) (htk : w.ls.tickets = []) (hr : w.region = none) (hbg : w.ss.begun = none)
    (h0 : 0 ≤ s.number n) (h255 : s.number n ≤ 255) (he : (s.launchOf w).regions[(s.number n).toNat]? = some e)
    (hpc : (s.launchOf w).sbase + e.beg = s.opAddr w) :
    exec (.rgnBeg n) s = .next (s.readBases w (.rgnBeg n) (w.rangeReqs e) fun bases z =>
      z.begin (s.number n).toNat e ((s.launchOf w).sbase + e.end_) bases) := by
  have hin : w.inRegion = false := by simp [Wave.inRegion, hr]
  have hnum : (decide (s.number n < 0) || decide (255 < s.number n)) = false := by simp [h0, h255]
  show execRgnBeg n s = _
  rw [execRgnBeg, userOp_eq hw hu]
  simp only [hnum, hin, he, hpc, hbg, bne_self_eq_false, Bool.false_eq_true, if_false, Option.isSome_none, joinPoint_of_noTickets htk]

/-- Settles O41: RGN.beg reads its base words with one read (`readBases_of_reaches`), and a wave without neighbours is a set of its own
(R50), so that its region opens (`begin_of_lone`) and is cured (`rgnEnd_completes`) as soon as it asks. -/
theorem regionBeginAndEnd : Obligations.RegionBeginAndEnd := by
  unfold Obligations.RegionBeginAndEnd
  intro s u w d n e g ps hw hu htk hn i next l rs held u1 place base declared
  refine ⟨?_, fun hr hend ht hj => rgnEnd_completes d hw hu htk (hn _) hr hend ht hj⟩
  intro hgone hr hbg h0 h255 he hpc hphys hrem hd hb hreach hc hp hrange
  have hm : s.memOnly u1 := memOnly_of_reaches hreach
  have hexec : exec (.rgnBeg n) s =
      .next (u1.begin (s.number n).toNat e (l.sbase + e.end_) (rs.map (u1.baseWord w (held ++ ps)))) :=
    (execRgnBeg_reads hw hu htk hr hbg h0 h255 he hpc).trans
      (congrArg Host.Outcome.next (readBases_of_reaches _ hw (by rw [hphys]) hrem hd hb hreach rfl hc hp))
  have hbs : ∀ k, k < e.ranges.length → (rs.map (u1.baseWord w (held ++ ps)))[k]? = some (base k) := fun k hk => by
    have hlt : k < rs.length := by simpa [rs, Wave.rangeReqs] using hk
    simp [base, place, hlt, State.baseWord, placeIn]
  have hin : ∀ q ∈ e.ranges.zip (rs.map (u1.baseWord w (held ++ ps))), q.2 + q.1.2.2 ≤ 2 ^ 56 := fun q hq => by
    obtain ⟨k, hk⟩ := List.mem_iff_getElem?.1 hq
    obtain ⟨hr, hq2⟩ := List.getElem?_zip_eq_some.1 hk
    have hlt := (List.getElem?_eq_some_iff.1 hr).1
    have hbase : base k = q.2 := Option.some.inj ((hbs k hlt).symm.trans hq2)
    exact hbase ▸ hrange k q.1 hr
  have hcur : u1.cur = s.cur := hm.cur
  obtain ⟨now, hwaves, hteams, hjobs⟩ := begin_of_lone (s := u1) (w := w) (e := e) (by rw [hm.waves, hcur]; exact hw)
    ((neighbours_memOnly hm _).trans (hn _)) hin (s.number n).toNat (l.sbase + e.end_)
  have hnext : u1.opAddr w + 4 = next := by rw [show u1.opAddr w = s.opAddr w by rw [State.opAddr, State.opAddr, hm.pfx]]
  rw [hcur, hm.waves, hnext] at hwaves
  refine ⟨_, hexec, hteams.trans (by rw [hm.teams]), hjobs.trans hm.jobs, fun j hj => ?_,
    w.opened (Region.of (s.number n).toNat (l.sbase + e.end_) e (rs.map (u1.baseWord w (held ++ ps))) w next now), ?_,
    rfl, rfl, rfl, rfl, rfl, rfl, rfl, rfl, _, rfl, rfl, rfl, rfl, rfl, rfl, rfl, rfl, rfl, ?_, ?_⟩
  · rw [hwaves, List.getElem?_set_ne hj.symm]
  · rw [hwaves]; exact getElem?_set_same hw _
  · exact (regionOf_ranges hbs _ _ w next now).1
  · exact (regionOf_ranges hbs _ _ w next now).2

end Sys2Proof.Machine
end

section
namespace Sys2Proof.Machine

/-! ## MOV of a special operand, and to p7 (R58, R209) -/

section
variable {s : State} {w : Wave} {p : PcSide} {c : LCtl} {a : Opnd}

theorem lanesPut_movB32 {D : Dst} (h : s.LReady w p c (spanO a 1 ++ spanD D 1) []) :
    s.lanesPut w w p c (.mov c (.b32 D a)) (lastUse c.lua a 1) D 32 (w.operand a 32) :=
  lanesPut_laneOp h rfl (by simp [use1, LUse.readRegs, LUse.writeRegs]) rfl (read_operand 0 a 32) (mem_deadRegs_single a 1 c.lua)

theorem lanesPut_movB64 {D : Dst} (h : s.LReady w p c (spanO a 2 ++ spanD D 2) []) :
    s.lanesPut w w p c (.mov c (.b64 D a)) (lastUse c.lua a 2) D 64 (w.operand a 64) :=
  lanesPut_laneOp h rfl (by simp [use1, LUse.readRegs, LUse.writeRegs]) rfl (read_operand 0 a 64) (mem_deadRegs_single a 2 c.lua)

/-- A MOV to p7 changes nothing but its side's place (R58). -/
theorem lanesPut_movP7 (h : s.LReady w p c (spanO a 1) []) :
    s.lanesPut w w p c (.mov c (.toP 7 a)) (lastUse c.lua a 1) .zero 32 fun _ => 0 := by
  refine lanesPut_done h (u := use1 c .zero 1 a 1) (lat := 1) (f := id) ?_ rfl h.side (mem_deadRegs_single a 1 c.lua)
  show execMov c (.toP 7 a) s = _
  have hstart := lStart_ready h (u := use1 c .zero 1 a 1) (by simp [use1, LUse.readRegs, LUse.writeRegs, spanD]) rfl
  simp only [execMov, hstart]
  rfl

/-- An operand that names no v register has nothing to mark dead. -/
theorem lastUse_of_spanO_nil {n : Nat} (h : spanO a n = []) (b : Bool) : lastUse b a n = [] := by
  cases b
  · rfl
  · exact h

/-- MOV reads an operand that names no v register, at either width. -/
theorem lanesPut_mov_of_noRegs (D : Dst) (ha : ∀ n, spanO a n = []) {f g : Lane → Nat} (hf : w.operand a 32 = f)
    (hg : w.operand a 64 = g) :
    (s.LReady w p c (spanD D 1) [] → s.lanesPut w w p c (.mov c (.b32 D a)) [] D 32 f) ∧
    (s.LReady w p c (spanD D 2) [] → s.lanesPut w w p c (.mov c (.b64 D a)) [] D 64 g) := by
  subst hf hg
  refine ⟨fun h => ?_, fun h => ?_⟩
  · have hput := lanesPut_movB32 (a := a) (D := D) (by rwa [ha, List.nil_append])
    rwa [lastUse_of_spanO_nil (ha 1)] at hput
  · have hput := lanesPut_movB64 (a := a) (D := D) (by rwa [ha, List.nil_append])
    rwa [lastUse_of_spanO_nil (ha 2)] at hput

end

section
variable {w0 w' : Wave} {d : Side} {p : PcSide} {act : Mask} {dead : List Nat} {D : Dst} {bits : Nat} {f : Lane → Nat}

theorem Wave.LaneTo.preds (h : w0.LaneTo w' d p act dead D bits f) : w'.ls.p = w0.ls.p := by
  have e := congrArg (fun y : Wave => y.ls.p) h.rest
  exact e

theorem Wave.LaneTo.priv (h : w0.LaneTo w' d p act dead D bits f) : w'.priv = w0.priv := by
  have e := congrArg Wave.priv h.rest
  exact e

theorem Wave.LaneTo.st (h : w0.LaneTo w' d p act dead D bits f) : w'.st = w0.st := by
  have e := congrArg Wave.st h.rest
  exact e

end

/-- A sum into s0 is discarded: the wave only goes on (R58). -/
theorem exec_sadd_s0 {s : State} {w : Wave} (hw : s.waves[s.cur.1]? = some w) (a : SReg) (b : SrcB) :
    exec (.sadd 0 a b) s = .next (s.done w) := by
  show execSadd 0 a b s = _
  simp only [execSadd, State.alu, sOp_eq hw]
  rfl

/-- Settles O60: an operand that names no v register reads as `Wave.operand` says, at either width (`lanesPut_mov_of_noRegs`). -/
theorem specialOperands : Obligations.SpecialOperands := by
  unfold Obligations.SpecialOperands
  refine ⟨fun s w a b v act ok hw => ⟨rfl, rfl, rfl, ?_⟩, fun s w p c a h => ?_, fun s w p c D k hnum => ?_⟩
  · exact ⟨_, exec_sadd_s0 hw a b, _, (doneAt_issuedBy _ hw rfl).wave, rfl, rfl, rfl, rfl⟩
  · obtain ⟨t, hex, w', hissued, hto⟩ := lanesPut_movP7 h
    exact ⟨t, hex, w', hissued.wave, hto.preds, hto.priv, hto.st⟩
  · have hwave (bits : Nat) : w.operand .wave bits = fun _ => w.num := funext fun _ => Nat.mod_eq_of_lt hnum
    have hsnap : w.operand (.t k) 64 = fun _ => w.ls.ticket.snaps[k].toNat := funext fun _ => Nat.mod_eq_of_lt (BitVec.isLt _)
    exact ⟨lanesPut_mov_of_noRegs D (fun _ => rfl) rfl hsnap, lanesPut_mov_of_noRegs D (fun _ => rfl) rfl rfl,
      lanesPut_mov_of_noRegs D (fun _ => rfl) (hwave 32) (hwave 64), lanesPut_mov_of_noRegs D (fun _ => rfl) rfl rfl⟩

end Sys2Proof.Machine
end

section
namespace Sys2Proof.Machine

/-! ## Register blocks (R62, R169, R376) -/

/-- A run of n registers of a register file, from `lo` on, is set to a value. -/
theorem getElem_foldl_setRun {α : Type} (lo n : Nat) (x : α) (v : Vector α 256) (r : VReg) :
    ((List.range n).foldl (fun v i => if hr : lo + i < 256 then v.set (lo + i) x hr else v) v)[r] =
      if lo ≤ r.val ∧ r.val < lo + n then x else v[r] := by
  induction n with
  | zero => rw [if_neg (by omega)]; rfl
  | succ n ih =>
    rw [List.range_succ, List.foldl_append, List.foldl_cons, List.foldl_nil]
    generalize (List.range n).foldl _ v = u at ih ⊢
    have hr := r.isLt
    by_cases hn : lo + n < 256
    · rw [dif_pos hn, Fin.getElem_fin, Vector.getElem_set]
      by_cases he : lo + n = r.val
      · rw [if_pos he, if_pos (by omega)]
      · rw [if_neg he, ← Fin.getElem_fin, ih]
        exact ite_congr (propext (by omega)) (fun _ => rfl) fun _ => rfl
    · rw [dif_neg hn, ih]
      exact ite_congr (propext (by omega)) (fun _ => rfl) fun _ => rfl

/-- Of a lane stream whose blocks above h up to k are zeroed, exactly the registers of those blocks read zero (R62). -/
theorem getElem_zeroBlocks (x : LStream) (h k : Nat) (r : VReg) :
    (x.zeroBlocks h k).v[r] = if 32 * (h + 1) ≤ r.val ∧ r.val < 32 * (k + 1) then Vector.replicate 32 0 else x.v[r] := by
  refine (getElem_foldl_setRun (32 * (h + 1)) (32 * (k - h)) _ x.v r).trans (ite_congr (propext ?_) (fun _ => rfl) fun _ => rfl)
  omega

section
variable {s : State} {w : Wave} {n : BitVec 10}

theorem numberOutside_false (h0 : 0 ≤ s.number n) (h7 : s.number n ≤ 7) :
    (decide (s.number n < 0) || decide (7 < s.number n)) = false := by
  simp [h0, h7]

/-- The pool covers a request of a wave whose releases have all returned (R62). -/
theorem covers_of_pool {k : Nat} (hrel : w.ss.release = []) (hpool : s.blocksUsed w.core + (k - w.ss.blocks) ≤ 512) :
    s.covers w k = true := by
  simp [State.covers, hrel, hpool]

theorem covers_of_resext (hres : (s.launchOf w).resext = true) (k : Nat) : s.covers w k = true := by
  simp [State.covers, State.reserves, hres]

variable (hw : s.waves[s.cur.1]? = some w) (hu : w.priv.handler = false) (h0 : 0 ≤ s.number n) (h7 : s.number n ≤ 7)
include hw hu h0 h7

/-- REGX.acq of blocks within the extent. -/
theorem exec_regxAcq_held (hregs : (s.number n).toNat + 1 ≤ (s.launchOf w).regs) (hext : (s.number n).toNat ≤ w.soft.ext) :
    exec (.regxAcq n) s = .next (s.done w) := by
  show execRegxAcq n s = _
  simp only [execRegxAcq, userOp_eq hw hu, numberOutside_false h0 h7, Bool.false_eq_true, if_false, Nat.not_lt.2 hregs, hext, if_true]

/-- REGX.acq of more blocks, of which nobody waits for older ones. -/
theorem exec_regxAcq_granted (hregs : (s.number n).toNat + 1 ≤ (s.launchOf w).regs) (hext : w.soft.ext < (s.number n).toNat)
    (hacq : w.ss.acquire = none) (hfirst : (s.launchOf w).resext = true ∨ s.grantsOf w.core = [])
    (hcov : s.covers w (s.number n).toNat = true) : exec (.regxAcq n) s = .next (s.done (w.grant (s.number n).toNat)) := by
  have hturn : (s.reserves w || (s.grantsOf w.core).isEmpty) = true := by
    rcases hfirst with h | h <;> simp [State.reserves, h]
  show execRegxAcq n s = _
  simp only [execRegxAcq, userOp_eq hw hu, numberOutside_false h0 h7, Bool.false_eq_true, if_false, Nat.not_lt.2 hregs,
    Nat.not_le.2 hext, hacq, Option.isSome_none, hturn, hcov, Bool.and_self, if_true]

/-- REGX.rel of an extent that is not below the wave's. -/
theorem exec_regxRel_within (hext : w.soft.ext ≤ (s.number n).toNat) : exec (.regxRel n) s = .next (s.done w) := by
  show execRegxRel n s = _
  simp only [execRegxRel, userOp_eq hw hu, numberOutside_false h0 h7, Bool.false_eq_true, if_false, hext, if_true]

/-- REGX.rel with no ticket queued. -/
theorem exec_regxRel_joined (hext : (s.number n).toNat < w.soft.ext) (htk : w.ls.tickets = []) :
    exec (.regxRel n) s = .next (s.done { w with soft := { w.soft with ext := (s.number n).toNat },
                                                 ss := { w.ss with blocks := (s.number n).toNat } }) := by
  show execRegxRel n s = _
  simp only [execRegxRel, userOp_eq hw hu, numberOutside_false h0 h7, Bool.false_eq_true, if_false, Nat.not_le.2 hext, Wave.joined, htk,
    List.isEmpty_nil, if_true]

end

/-- Settles O10: a request that is granted at once runs into `Wave.grant`, whose zeroed registers `getElem_zeroBlocks` names. -/
theorem registerBlocks : Obligations.RegisterBlocks := by
  unfold Obligations.RegisterBlocks
  intro s w n hw hu h0 h7 k next
  refine ⟨fun hregs hext => ?_, fun hregs hext hacq hfree => ?_, fun hext => ?_, fun hext htk => ?_⟩
  · exact ⟨_, exec_regxAcq_held hw hu h0 h7 hregs hext, scalarDoneAs_done hw rfl rfl 0 0⟩
  · have hfirst : (s.launchOf w).resext = true ∨ s.grantsOf w.core = [] := hfree.imp_right fun h => h.2.1
    have hcov : s.covers w k = true := hfree.elim (covers_of_resext · k) fun ⟨hrel, _, hpool⟩ => covers_of_pool hrel hpool
    exact ⟨_, exec_regxAcq_granted hw hu h0 h7 hregs hext hacq hfirst hcov, _, doneAt_issuedBy _ hw rfl, rfl, rfl, rfl, rfl,
      getElem_zeroBlocks w.ls w.ss.blocks k⟩
  · exact ⟨_, exec_regxRel_within hw hu h0 h7 hext, scalarDoneAs_done hw rfl rfl 0 0⟩
  · exact ⟨_, exec_regxRel_joined hw hu h0 h7 hext htk, scalarDoneAs_done hw (by rfl) (by rfl) 0 0⟩

end Sys2Proof.Machine
end

section
namespace Sys2Proof.Machine

/-! ## A wave that an event changes -/

theorem modWave_wave {s : State} {i : Nat} {w : Wave} (hw : s.waves[i]? = some w) (f : Wave → Wave) :
    (s.modWave i f).waves[i]? = some (f w) := by
  rw [State.modWave_waves, getElem?_modAt, if_pos rfl, hw, Option.map_some]

theorem modWave_others {s : State} {i n : Nat} (hn : n ≠ i) (f : Wave → Wave) : (s.modWave i f).waves[n]? = s.waves[n]? := by
  rw [State.modWave_waves, getElem?_modAt, if_neg hn.symm]

/-! ## Slots of the reservoir file and grants (R62, R70, R71) -/

/-- The slot's victim gives its slot up: its image takes the reservoirs, and a Z block that is ready stages again. -/
theorem exec_reservoirSlotEviction {s : State} {i : Nat} {w : Wave} (hw : s.waves[i]? = some w) (hslot : w.ls.slot = true)
    (hst : w.st = .resident) (hvictim : (s.slotVictim w).map Prod.fst = some i)
    (hwanted : (s.onQuarter w fun y => y.ls.blk.phase == .staging && y.ls.blk.z && !y.ls.slot) ≠ [])
    (hfull : s.slotFree { w with ls := { w.ls with slot := false } } = false) :
    ∃ z, s.memOnly z ∧ exec (.reservoirSlotEviction i) s = .next (z.putWave i { w with
      ls := { (if w.ls.blk.phase == .ready && w.ls.blk.z then w.ls.evict else w.ls) with slot := false } }) := by
  have hmine : ((s.slotVictim w).any fun e => e.1 == i) = true := by
    obtain ⟨e, he, hi⟩ := Option.map_eq_some_iff.1 hvictim
    rw [he, Option.any_some, hi, beq_self_eq_true]
  have hempty : (s.onQuarter w fun y => y.ls.blk.phase == .staging && y.ls.blk.z && !y.ls.slot).isEmpty = false :=
    List.isEmpty_eq_false_iff.2 hwanted
  refine ⟨s.putPart (s.ctxOf w) (s.imageBase w.team + waveImageAt w.num + 0x6800) 0x2000
    ((imageBytes w.soft.zWords).map fun e => (e.1 - 0x6800, e.2)) [], memOnly_putPart s _ _ _ _ _, ?_⟩
  have hgoes : (!w.ls.slot || w.st != .resident ||
      !!(s.onQuarter w fun y => y.ls.blk.phase == .staging && y.ls.blk.z && !y.ls.slot).isEmpty ||
      !((s.slotVictim w).any fun e => e.1 == i) || s.slotFree { w with ls := { w.ls with slot := false } }) = false := by
    rw [hfull, hempty, hmine, hslot, hst]
    rfl
  show execReservoirSlotEviction i s = _
  simp only [execReservoirSlotEviction, hw, hgoes, Bool.false_eq_true, if_false]

/-- The oldest request of a core, which the pool covers. -/
theorem exec_regxGrant {s : State} {core i k : Nat} {c : Core} {w : Wave} {rest : List Nat} (hc : s.cores[core]? = some c)
    (hg : c.grants = i :: rest) (hw : s.waves[i]? = some w) (hacq : w.ss.acquire = some k) (hcov : s.covers w k = true) :
    exec (.regxGrant core) s = .next ((s.putWave i (w.grant k)).modCore core fun c => { c with grants := rest }) := by
  have hgrants : s.grantsOf core = i :: rest := by rw [State.grantsOf, hc, Option.map_some, Option.getD_some, hg]
  show execRegxGrant core s = _
  simp only [execRegxGrant, hgrants, hw, hacq, hcov, if_true]

/-! ## An outstanding L-op completes (R76) -/

/-- The wait counters once an outstanding L-op is complete. -/
def Outst.lowered (o : Outst) (w : Vector (BitVec 6) 4) : Vector (BitVec 6) 4 :=
  match o.cnt with
  | none => w
  | some c => w.set c (w[c] - 1)

theorem finish_of_settled {x : LStream} {k : Nat} {o : Outst} (ho : x.outs[k]? = some o) (hd : o.done = false) (hm : o.mask = 0)
    (hp : o.parked = 0) (hr : o.remote = 0) :
    x.finish k = { x with outs := modAt x.outs k fun q => { q with done := true }, w := o.lowered x.w } := by
  simp only [LStream.finish, ho, hd, hm, hp, hr, bne_self_eq_false, Bool.or_self, Bool.false_eq_true, if_false]
  rfl

theorem settleOut_of_noRemotes {s : State} (h : s.sys.links.remotes = []) (i k : Nat) : s.settleOut i k = s := by
  have hans : s.answered i k = [] := by rw [State.answered, h, List.filter_nil]
  unfold State.settleOut
  cases s.waves[i]? with
  | none => rfl
  | some w =>
    dsimp only
    rw [hans]
    cases w.ls.outs[k]? <;> rfl

/-- With no request under way to the host or another device there is no reply to settle. -/
theorem settleAny_of_noRemotes {s : State} (h : s.sys.links.remotes = []) (i k : Nat) : s.settleAny i k = s := by
  unfold State.settleAny
  dsimp only
  split
  · exact settleOut_of_noRemotes h i k
  · rw [h, List.any_nil]
    rfl

theorem exec_loadDataReturn {s : State} {i k : Nat} {w : Wave} {o : Outst} (hw : s.waves[i]? = some w) (hst : w.st = .resident)
    (ho : w.ls.outs[k]? = some o) (hload : o.load = true) (hd : o.done = false) (hrem : s.sys.links.remotes = []) :
    exec (.loadDataReturn i k) s = .next (s.modWave i fun y => { y with ls := y.ls.returnData k }) := by
  show execLoadDataReturn i k s = _
  simp only [execLoadDataReturn, hw, ho, hst, hload, hd, bne_self_eq_false, Bool.not_true, Bool.or_self, Bool.false_eq_true, if_false,
    settleAny_of_noRemotes hrem]

theorem exec_storePerformed {s : State} {i k : Nat} {w : Wave} {o : Outst} (hw : s.waves[i]? = some w) (hst : w.st = .resident)
    (ho : w.ls.outs[k]? = some o) (hload : o.load = false) (hd : o.done = false) (hrem : s.sys.links.remotes = []) :
    exec (.storePerformed i k) s = .next (s.modWave i fun y => { y with ls := y.ls.finish k }) := by
  show execStorePerformed i k s = _
  simp only [execStorePerformed, hw, ho, hst, hload, hd, bne_self_eq_false, Bool.or_self, Bool.false_eq_true, if_false,
    settleOut_of_noRemotes hrem]

/-! ## The data of a load (R72, R78) -/

/-- Committing changes committed values only. -/
theorem foldl_commit_fields (m : Mask) (regs : List (Nat × Lanes Word)) (x : LStream) :
    ∃ v st, regs.foldl (fun z e => z.commit e.1 m e.2) x = { x with v := v, staged := st } := by
  induction regs generalizing x with
  | nil => exact ⟨x.v, x.staged, rfl⟩
  | cons e es ih =>
    obtain ⟨v, st, he⟩ := leave_fields x true ⟨e.1, .a, e.2, m, 0, 0, 0⟩
    have hcommit : x.commit e.1 m e.2 = { x with v := v, staged := st } := he
    obtain ⟨v', st', h⟩ := ih { x with v := v, staged := st }
    exact ⟨v', st', by rw [List.foldl_cons, hcommit, h]⟩

/-- Of a register that no two values are committed for, a lane takes the value, once it is committed. -/
theorem committed_foldl_commit {m : Mask} {l : Lane} (hl : inMask m l = true) (r : VReg) (v : Lanes Word)
    (regs : List (Nat × Lanes Word)) (x : LStream) (huniq : ∀ e ∈ regs, e.1 = r.val → e.2 = v)
    (hmem : (r.val, v) ∈ regs ∨ (x.committed r)[l] = v[l]) :
    ((regs.foldl (fun z e => z.commit e.1 m e.2) x).committed r)[l] = v[l] := by
  induction regs generalizing x with
  | nil => exact hmem.resolve_left List.not_mem_nil
  | cons e es ih =>
    rw [List.foldl_cons]
    refine ih _ (fun q hq => huniq q (List.mem_cons_of_mem e hq)) ?_
    rw [committed_commit]
    by_cases he : r.val = e.1
    · right
      rw [if_pos he, getElem_blend, if_pos hl, huniq e List.mem_cons_self he.symm]
    · rw [if_neg he]
      exact hmem.imp_left fun h => (List.mem_cons.1 h).resolve_left fun h => he (congrArg Prod.fst h)

/-- A lane stream whose registers take the data of a load: in the window with the age of the L-op, or committed when eight later L-ops
have issued or the block has ended. Earlier results of those lanes go. -/
def LStream.takes (x : LStream) (o : Outst) : LStream :=
  let regs := o.regs.map fun e => e.1
  if o.mask = 0 then x
  else if decide (8 ≤ o.age) || x.blk.phase == .ended || x.blk.phase == .none then
    o.regs.foldl (fun z e => z.commit e.1 o.mask e.2) (x.supersede regs o.mask fun _ => true)
  else
    let z := x.supersede regs o.mask fun e => e.side == o.side && decide (e.age < o.age)
    { z with win := (o.regs.map fun e => (⟨e.1, o.side, e.2, o.mask, 0, o.age, 0⟩ : WinEnt)) ++ z.win }

theorem takes_fields (x : LStream) (o : Outst) : ∃ v st win, x.takes o = { x with v := v, staged := st, win := win } := by
  unfold LStream.takes
  dsimp only
  split
  · exact ⟨x.v, x.staged, x.win, rfl⟩
  · split
    · obtain ⟨v, st, h⟩ := foldl_commit_fields o.mask o.regs (x.supersede (o.regs.map fun e => e.1) o.mask fun _ => true)
      exact ⟨v, st, _, h⟩
    · exact ⟨x.v, x.staged, _, rfl⟩

/-- The window holds no result of a lane that a completing write takes over. -/
theorem of_supersede_false (x : LStream) {regs : List Nat} {m : Mask} {r : VReg} {l : Lane} (hr : r.val ∈ regs) (hl : inMask m l = true)
    {e : WinEnt} (he : e ∈ (x.supersede regs m fun _ => true).win) : e.of r l = false := by
  obtain ⟨q, _, rfl⟩ := List.mem_map.1 he
  by_cases hq : q.reg ∈ regs
  · simp [WinEnt.of, hq, inMask_and, inMask_not, hl]
  · have hreg : q.reg ≠ r.val := fun h => hq (h ▸ hr)
    simp [WinEnt.of, hq, hreg]

/-- A lane's value that no result in the window holds is the committed one. -/
theorem laneVal_of_win_clear {x : LStream} {r : VReg} {l : Lane} (h : ∀ e ∈ x.win, e.of r l = false) :
    x.laneVal r l = (x.committed r)[l] := by
  rw [laneVal_filter, List.filter_eq_nil_iff.2 fun e he => by simp [h e he]]
  rfl

/-- After the data of a load has come, each of its lanes reads it. -/
theorem laneVal_takes (x : LStream) {o : Outst} (huniq : ∀ a b, a ∈ o.regs → b ∈ o.regs → a.1 = b.1 → a = b) {r : VReg} {l : Lane}
    {v : Lanes Word} (hv : (r.val, v) ∈ o.regs) (hl : inMask o.mask l = true) : (x.takes o).laneVal r l = v[l] := by
  have hone : ∀ e ∈ o.regs, e.1 = r.val → e.2 = v := fun e he h => congrArg Prod.snd (huniq e _ he hv h)
  have hmask : o.mask ≠ 0 := fun h => by simp [h, inMask] at hl
  unfold LStream.takes
  dsimp only
  rw [if_neg hmask]
  split
  case isTrue =>
    have hval := committed_foldl_commit hl r v o.regs (x.supersede (o.regs.map fun e => e.1) o.mask fun _ => true) hone (.inl hv)
    obtain ⟨f, st, h⟩ := foldl_commit_fields o.mask o.regs (x.supersede (o.regs.map fun e => e.1) o.mask fun _ => true)
    rw [h] at hval ⊢
    refine (laneVal_of_win_clear fun e he => ?_).trans hval
    exact of_supersede_false x (List.mem_map.2 ⟨_, hv, rfl⟩) hl he
  case isFalse =>
    have hfound : (o.regs.find? fun e => e.1 == r.val) = some (r.val, v) := by
      cases hf : o.regs.find? fun e => e.1 == r.val with
      | none => exact absurd (List.find?_eq_none.1 hf _ hv) (by simp)
      | some e => exact congrArg some (huniq e _ (List.mem_of_find?_eq_some hf) hv (by simpa using List.find?_some hf))
    unfold LStream.laneVal
    dsimp only
    simp only [List.find?_append, List.find?_map, Function.comp_def, hl, Bool.and_true, hfound, Option.map_some, Option.some_or]

/-- The data of a load that leaves no lane waiting: the registers take it, and the L-op is complete. -/
theorem returnData_of_settled {x : LStream} {k : Nat} {o : Outst} (ho : x.outs[k]? = some o) (hlud : o.lud = false)
    (hd : o.done = false) (hp : o.parked = 0) (hr : o.remote = 0) :
    ∃ outs, x.returnData k = { x.takes o with outs := outs, w := o.lowered x.w } := by
  obtain ⟨v, st, win, htakes⟩ := takes_fields x o
  have hsettle : x.returnData k =
      ({ x.takes o with outs := modAt (x.takes o).outs k fun q => { q with mask := 0 } } : LStream).finish k := by
    simp only [LStream.returnData, ho, hlud, Bool.false_eq_true, if_false]
    rfl
  have hout : (({ x.takes o with outs := modAt (x.takes o).outs k fun q => { q with mask := 0 } } : LStream)).outs[k]? =
      some { o with mask := 0 } := by
    rw [htakes]
    show (modAt x.outs k _)[k]? = _
    rw [getElem?_modAt, if_pos rfl, ho, Option.map_some]
  rw [hsettle, finish_of_settled hout hd rfl hp hr, htakes]
  exact ⟨_, rfl⟩

/-- Settles O26: beside the victim an eviction changes memory alone (`memOnly_putPart`), and each lane of a load reads its data once the
registers have taken it (`laneVal_takes`). -/
theorem completionsAndGrants : Obligations.CompletionsAndGrants := by
  unfold Obligations.CompletionsAndGrants
  refine ⟨fun s i w hw hslot hst hvictim hwanted hfull => ?_, fun s core i c w k rest hc hg hw hacq hcov => ?_, ?_⟩
  · obtain ⟨z, hz, hex⟩ := exec_reservoirSlotEviction hw hslot hst hvictim hwanted hfull
    refine ⟨_, hex, hz.teams, hz.grids, hz.jobs, fun hkept => ?_, fun hready hzs => ?_⟩
    · have hoff : (w.ls.blk.phase == .ready && w.ls.blk.z) = false := by
        rcases hkept with h | h <;> simp [h]
      rw [hoff, if_neg Bool.false_ne_true, State.putWave_waves, hz.waves]
    · have hon : (w.ls.blk.phase == .ready && w.ls.blk.z) = true := by simp [hready, hzs]
      rw [hon, if_pos rfl, State.putWave_waves, hz.waves]
  · refine ⟨_, exec_regxGrant hc hg hw hacq hcov, rfl, rfl, rfl, rfl, rfl, ?_⟩
    rw [State.modCore_cores, getElem?_modAt, if_pos rfl, State.putWave_cores, hc, Option.map_some]
  · intro s i k w o hw hst ho hd hp hr hrem w1 one
    refine ⟨fun hload hlud huniq => ?_, fun hload hm => ?_⟩
    · obtain ⟨outs, hret⟩ := returnData_of_settled ho hlud hd hp hr
      obtain ⟨v, st, win, htakes⟩ := takes_fields w.ls o
      refine ⟨_, exec_loadDataReturn hw hst ho hload hd hrem, rfl, rfl, fun n hn => modWave_others hn _, _, modWave_wave hw _, rfl, rfl,
        rfl, ?_⟩
      dsimp only
      rw [hret]
      refine ⟨rfl, ?_, ?_, ?_, fun r l v hv hl => laneVal_takes w.ls huniq hv hl⟩ <;> rw [htakes]
    · refine ⟨_, exec_storePerformed hw hst ho hload hd hrem, rfl, rfl, fun n hn => modWave_others hn _, _, modWave_wave hw _, rfl, rfl,
        rfl, ?_⟩
      dsimp only
      rw [finish_of_settled ho hd hm hp hr]
      exact ⟨rfl, rfl, rfl, rfl, rfl, rfl⟩

end Sys2Proof.Machine
end

section
namespace Sys2Proof.Machine

/-! ## Rounding of representable values (R80, R88, R90, R95) -/

/-- A value on the grid of spacing 2^q is not changed by rounding to that grid. -/
theorem roundAt_of_le (m : Rnd) (v : Nat) {x : Ex} {q : Int} (h : q ≤ x.e) : roundAt m v x q = (x.m * pow2 (x.e - q), x.more) :=
  if_pos h

/-- The sign bit and the bits below it make up an encoding. -/
theorem signed_sign_mag {F : Flt} {enc : Nat} (h : enc < 2 * F.signBit) :
    F.signed (enc / F.signBit % 2 == 1) (enc % F.signBit) = enc := by
  have hdiv : enc / F.signBit < 2 := Nat.div_lt_of_lt_mul (Nat.mul_comm 2 F.signBit ▸ h)
  have hsum := Nat.div_add_mod enc F.signBit
  unfold Flt.signed
  obtain hq | hq := Nat.le_one_iff_eq_zero_or_eq_one.1 (Nat.le_of_lt_succ hdiv)
  all_goals
    rw [hq] at hsum ⊢
    simpa using hsum

/-- A representable magnitude: the index k of its binade above the subnormals and n multiples of that binade's spacing, of which all
but the lowest binade need at least 2^f. -/
structure Flt.Representable (F : Flt) (k n : Nat) : Prop where
  lt : n < 2 ^ (F.f + 1)
  normal : k = 0 ∨ 2 ^ F.f ≤ n
  finite : k * 2 ^ F.f + n ≤ F.maxMag

/-- A finite value of an IEEE format reads as a representable magnitude, whose encoding is the index of the binade above the number of
spacings (R80). -/
theorem representable_of_decode {F : Flt} (hF : F.top = .ieee) {enc : Nat} {x : Ex} (h : F.decode enc = .fin x) :
    ∃ k n : Nat, x = ⟨enc / F.signBit % 2 == 1, n, F.qmin + (k : Int), false⟩ ∧ k * 2 ^ F.f + n = enc % F.signBit ∧ F.Representable k n := by
  have hfr : enc % F.signBit % 2 ^ F.f < 2 ^ F.f := Nat.mod_lt _ (Nat.two_pow_pos F.f)
  have hmag := Nat.div_add_mod' (enc % F.signBit) (2 ^ F.f)
  have hex : enc % F.signBit / 2 ^ F.f < 2 ^ F.e := by
    refine Nat.div_lt_of_lt_mul ?_
    rw [← Nat.pow_add, Nat.add_comm]
    exact Nat.mod_lt _ (Nat.two_pow_pos _)
  have hpow : 2 ^ (F.f + 1) = 2 * 2 ^ F.f := Nat.pow_succ'
  unfold Flt.decode at h
  simp only [hF, beq_self_eq_true, Bool.true_and, beq_iff_eq, show (Top.ieee == Top.e4m3) = false from rfl, Bool.false_and,
    Bool.false_eq_true, if_false] at h
  generalize enc % F.signBit % 2 ^ F.f = fr at *
  generalize enc % F.signBit / 2 ^ F.f = ex at *
  split at h
  · split at h <;> cases h
  · next htop =>
    have hmax : ex * 2 ^ F.f + fr ≤ F.maxMag := by
      have hle : (ex + 1) * 2 ^ F.f ≤ (2 ^ F.e - 1) * 2 ^ F.f := Nat.mul_le_mul_right _ (by omega)
      simp only [Flt.maxMag, hF]
      rw [Nat.succ_mul] at hle
      omega
    split at h
    · next hsub =>
      cases h
      subst hsub
      have hplace : F.qmin + ((0 : Nat) : Int) = F.qmin := Int.add_zero _
      exact ⟨0, fr, by rw [hplace], hmag, by omega, .inl rfl, hmax⟩
    · next hnorm =>
      obtain ⟨k, rfl⟩ := Nat.exists_eq_succ_of_ne_zero hnorm
      cases h
      have hplace : F.qmin + ((k + 1 : Nat) : Int) - 1 = F.qmin + (k : Int) := by omega
      have hbinade : k * 2 ^ F.f + (2 ^ F.f + fr) = (k + 1) * 2 ^ F.f + fr := by rw [Nat.succ_mul, Nat.add_assoc]
      exact ⟨k, 2 ^ F.f + fr, by rw [hplace], hbinade.trans hmag, by omega, .inr (Nat.le_add_right _ _), hbinade ▸ hmax⟩

/-- The spacing of the format's values at a representable one is that of its binade. -/
theorem quantum_of_representable {F : Flt} {k n : Nat} (h : F.Representable k n) (hn : n ≠ 0) (neg more : Bool) :
    F.quantum ⟨neg, n, F.qmin + (k : Int), more⟩ = F.qmin + (k : Int) := by
  have hhi : Nat.log2 n < F.f + 1 := (Nat.log2_lt hn).2 h.lt
  have hlo : k = 0 ∨ F.f ≤ Nat.log2 n := h.normal.imp_right (Nat.le_log2 hn).2
  simp only [Flt.quantum, Ex.log]
  omega

/-- A zero without a remainder rounds to the zero of its sign. -/
theorem round_zero (F : Flt) (m : Rnd) (sat : Bool) (v : Nat) (neg : Bool) (e : Int) :
    F.round m sat v ⟨neg, 0, e, false⟩ = (F.signed neg 0, 0) := rfl

/-- A representable value rounds to itself and raises no flag (R88, R95). -/
theorem round_of_representable {F : Flt} {k n : Nat} (h : F.Representable k n) (m : Rnd) (sat : Bool) (v : Nat) (neg : Bool) :
    F.round m sat v ⟨neg, n, F.qmin + (k : Int), false⟩ = (F.signed neg (k * 2 ^ F.f + n), 0) := by
  by_cases hn : n = 0
  · have hk : k = 0 := h.normal.resolve_right (by rw [hn]; exact Nat.not_le.2 (Nat.two_pow_pos _))
    subst hn hk
    rw [round_zero, Nat.zero_mul]
  · have hzero : (n == 0) = false := beq_eq_false_iff_ne.2 hn
    have hgrid : roundAt m v ⟨neg, n, F.qmin + (k : Int), false⟩ (F.qmin + (k : Int)) = (n, false) := by
      rw [roundAt_of_le m v (Int.le_refl _)]
      simp only [Int.sub_self, pow2, Int.toNat_zero, Nat.pow_zero, Nat.mul_one]
    have hindex : (F.qmin + (k : Int) - F.qmin).toNat = k := by omega
    have hflags : flagIf false fNX ||| flagIf false fUF = 0 := by decide
    simp only [Flt.round, hzero, Bool.false_eq_true, if_false, quantum_of_representable h hn, hgrid, hindex, Nat.not_lt.2 h.finite,
      Bool.false_and, hflags]

/-- An encoding of a finite value of an IEEE format reads as a value that rounds back to it (R88, R90, R95). -/
theorem round_of_decode {F : Flt} (hF : F.top = .ieee) (m : Rnd) (sat : Bool) (v : Nat) {enc : Nat} {x : Ex}
    (henc : enc < 2 * F.signBit) (h : F.decode enc = .fin x) : F.round m sat v x = (enc, 0) := by
  obtain ⟨k, n, rfl, hmag, hrep⟩ := representable_of_decode hF h
  rw [round_of_representable hrep, hmag, signed_sign_mag henc]

/-! ## Special values (R93, R94, R192) -/

theorem anyNan_left (q : Bool) (y : Val) : anyNan [.nan q, y] = some (q || y.isSignalling) := by
  simp [anyNan, Val.isNan, Val.isSignalling]

theorem anyNan_right (q : Bool) (y : Val) : anyNan [y, .nan q] = some (y.isSignalling || q) := by
  simp [anyNan, Val.isNan, Val.isSignalling]

theorem add_nan (F : Flt) (m : Rnd) (v : Nat) (q : Bool) (y : Val) :
    F.add m v (.nan q) y = (F.nan, flagIf (q || y.isSignalling) fNV) := by
  simp only [Flt.add, anyNan_left]

theorem mul_nan_right (F : Flt) (m : Rnd) (v : Nat) (q : Bool) (y : Val) :
    F.mul m v y (.nan q) = (F.nan, flagIf (y.isSignalling || q) fNV) := by
  simp only [Flt.mul, anyNan_right]

theorem div_nan (F : Flt) (m : Rnd) (v : Nat) (q : Bool) (y : Val) :
    F.div m v (.nan q) y = (F.nan, flagIf (q || y.isSignalling) fNV) := by
  simp only [Flt.div, anyNan_left]

/-- Infinities of the same sign add up to that infinity, and those of opposite signs make the addition invalid. -/
theorem add_inf_inf (F : Flt) (m : Rnd) (v : Nat) (a b : Bool) :
    F.add m v (.inf a) (.inf b) = if a == b then (F.signed a F.infMag, 0) else F.invalid := rfl

theorem mul_inf_fin (F : Flt) (m : Rnd) (v : Nat) (a : Bool) (x : Ex) :
    F.mul m v (.inf a) (.fin x) = if x.m == 0 then F.invalid else (F.signed (a != x.neg) F.infMag, 0) := rfl

/-- A finite value over a zero: 0/0 is invalid, and any other raises DZ. -/
theorem div_fin_zero (F : Flt) (m : Rnd) (v : Nat) (x : Ex) {y : Ex} (hy : y.m = 0) :
    F.div m v (.fin x) (.fin y) = if x.m == 0 then F.invalid else (F.signed (x.neg != y.neg) F.infMag, fDZ) :=
  if_pos (beq_iff_eq.2 hy)

theorem sqrt_fin (F : Flt) (m : Rnd) (v : Nat) (x : Ex) :
    F.sqrt m v (.fin x) =
      if x.m == 0 then (F.signed x.neg 0, 0) else if x.neg then F.invalid else F.round m false v x.sqrt := rfl

/-- A value and its negative have opposite numerators over every power of two. -/
theorem num_negate (x : Ex) (c : Int) : x.negate.num c = -x.num c := by
  cases hx : x.neg <;> simp [Ex.num, Ex.negate, hx]

/-- The exact sum of a value and its negative is a zero, whose sign the mode gives (R93). -/
theorem add_negate (m : Rnd) (x : Ex) : Ex.add m x x.negate = ⟨m == .rdn, 0, x.e, false⟩ := by
  have hsign : (x.neg == x.negate.neg) = false := by cases hx : x.neg <;> simp [Ex.negate, hx]
  have hexp : min x.e x.negate.e = x.e := Int.min_self _
  have hzero : (x.num x.e + -x.num x.e == 0) = true := beq_iff_eq.2 (Int.add_right_neg _)
  simp only [Ex.add, hexp, num_negate, hzero, if_true, hsign, Bool.false_eq_true, if_false]

/-- x - x is +0, or -0 under RDN (R93). -/
theorem sub_self_fin (F : Flt) (m : Rnd) (v : Nat) (x : Ex) : F.sub m v (.fin x) (.fin x) = (F.signed (m == .rdn) 0, 0) := by
  have hround : F.sub m v (.fin x) (.fin x) = F.round m false v (Ex.add m x x.negate) := rfl
  rw [hround, add_negate, round_zero]

/-- Settles O20: a finite encoding reads as a representable value, which `round_of_representable` returns. -/
theorem floatRoundingAndSpecials : Obligations.FloatRoundingAndSpecials := by
  unfold Obligations.FloatRoundingAndSpecials
  refine ⟨fun F m sat v enc x hF henc hdec => ?_, fun F m v y q x n _ => ?_⟩
  · have htop : ∀ G ∈ [fp64, fp32, fr19, bf16, fp16, e5m2], G.top = .ieee := by decide
    exact round_of_decode (htop F hF) m sat v henc hdec
  · refine ⟨?_, ?_, ?_, ?_, fun hy => ?_, ?_, ?_, fun hx => ⟨?_, ?_, ?_⟩, fun hx => ⟨?_, fun hneg => ?_⟩, sub_self_fin F m v x⟩
    · rw [add_nan]
    · rw [mul_nan_right]
    · rw [div_nan]
    · rw [add_nan, Bool.true_or]
      rfl
    · rw [add_nan, hy]
      rfl
    · have hsub : F.sub m v (.inf n) (.inf n) = F.add m v (.inf n) (.inf !n) := rfl
      rw [hsub, add_inf_inf, if_neg (by simp), Flt.invalid]
    · rw [add_inf_inf, if_pos (beq_self_eq_true n)]
    · rw [mul_inf_fin, if_pos (beq_iff_eq.2 hx), Flt.invalid]
    · rw [div_fin_zero F m v x hx, if_pos (beq_iff_eq.2 hx), Flt.invalid]
    · rw [sqrt_fin, if_pos (beq_iff_eq.2 hx)]
    · rw [div_fin_zero F m v x rfl, if_neg (fun h => hx (beq_iff_eq.1 h))]
    · rw [sqrt_fin, if_neg (fun h => hx (beq_iff_eq.1 h)), if_pos hneg, Flt.invalid]

end Sys2Proof.Machine
end
